-- ==== Sys2Proof/Word.lean ====
section
/-! DEFINITION. The word types of MIXK: a byte of sample memory, a 32-bit register, a 64-bit datum. -/

namespace Sys2Proof

/-- One byte of sample memory (00_scope.md R10). -/
abbrev Byte := BitVec 8

/-- One register of the register space (10_state.md section 3): 32 bits. -/
abbrev Word := BitVec 32

/-- A 64-bit datum: the accumulator ACC64, or the encoding of a binary64 ratio. -/
abbrev DWord := BitVec 64

end Sys2Proof
end

