-- ==== Sys2Proof/Syntax.lean ====
section
/-! DEFINITION. The sample formats and the 52 commands of MIXK (30_encoding.md R92, R102): one constructor of `Instr`
for every row of the opcode table. -/

namespace Sys2Proof

/-- The closed set of concrete sample format tags, in the order of 30_encoding.md R92. -/
inductive Fmt where
  | u8 | alaw | ulaw | s16le | s16be | s32le | s32be | s24le | s24be | s2432le | s2432be | f32le | f32be
  deriving DecidableEq, Repr

/-- Byte order of a raw multi-byte load or store (20_memory.md R63, R64). -/
inductive Endian where
  | le | be
  deriving DecidableEq, Repr

/-- The ten Native and Reversed pseudo-formats of the assembler (30_encoding.md R106): not encodable. -/
inductive Alias where
  | s16ne | s16re | s32ne | s32re | s24ne | s24re | s2432ne | s2432re | f32ne | f32re
  deriving DecidableEq, Repr

/-- The commands. `ch` is the channel count, `ns` the stream count, `mute`, `hasvol` and `silent` the flag bits of the
command word (30_encoding.md R90, R91). -/
inductive Instr where
  | mixU8 (ch ns : Nat) (mute hasvol : Bool)
  | mixALaw (ch ns : Nat) (mute hasvol : Bool)
  | mixULaw (ch ns : Nat) (mute hasvol : Bool)
  | mixS16LE (ch ns : Nat) (mute hasvol : Bool)
  | mixS16BE (ch ns : Nat) (mute hasvol : Bool)
  | mixS32LE (ch ns : Nat) (mute hasvol : Bool)
  | mixS32BE (ch ns : Nat) (mute hasvol : Bool)
  | mixS24LE (ch ns : Nat) (mute hasvol : Bool)
  | mixS24BE (ch ns : Nat) (mute hasvol : Bool)
  | mixS2432LE (ch ns : Nat) (mute hasvol : Bool)
  | mixS2432BE (ch ns : Nat) (mute hasvol : Bool)
  | mixF32LE (ch ns : Nat) (mute hasvol : Bool)
  | mixF32BE (ch ns : Nat) (mute hasvol : Bool)
  | volU8 (ch : Nat) (silent : Bool)
  | volALaw (ch : Nat) (silent : Bool)
  | volULaw (ch : Nat) (silent : Bool)
  | volS16LE (ch : Nat) (silent : Bool)
  | volS16BE (ch : Nat) (silent : Bool)
  | volS32LE (ch : Nat) (silent : Bool)
  | volS32BE (ch : Nat) (silent : Bool)
  | volS24LE (ch : Nat) (silent : Bool)
  | volS24BE (ch : Nat) (silent : Bool)
  | volS2432LE (ch : Nat) (silent : Bool)
  | volS2432BE (ch : Nat) (silent : Bool)
  | volF32LE (ch : Nat) (silent : Bool)
  | volF32BE (ch : Nat) (silent : Bool)
  | getkU8
  | getkALaw
  | getkULaw
  | getkS16LE
  | getkS16BE
  | getkS32LE
  | getkS32BE
  | getkS24LE
  | getkS24BE
  | getkS2432LE
  | getkS2432BE
  | getkF32LE
  | getkF32BE
  | setkU8
  | setkALaw
  | setkULaw
  | setkS16LE
  | setkS16BE
  | setkS32LE
  | setkS32BE
  | setkS24LE
  | setkS24BE
  | setkS2432LE
  | setkS2432BE
  | setkF32LE
  | setkF32BE
  deriving DecidableEq, Repr

end Sys2Proof
end

