-- ==== Sys2Proof/Config.lean ====
section
/-! DEFINITION. The parameters of MIXK (00_scope.md R7, R8, R9): the values of this hardware, the function parameters as
uninterpreted constants, and the free values the spec leaves open. -/

namespace Sys2Proof.Config

/-! ## Size parameters (00_scope.md R7) -/

/-- Largest channel count of a command. -/
abbrev channelsMax : Nat := 32

/-- Padding slots the linearizer appends. -/
abbrev padSlots : Nat := 32

/-- Largest stream count of a MIX command. -/
abbrev streamsMax : Nat := 32

/-- `AW`, the width of a sample-memory address in bits. -/
abbrev addressWidth : Nat := 32

/-- `LW`, the width of a byte length in bits. -/
abbrev lengthWidth : Nat := 32

/-- `NCTX`, the number of command contexts (log entry 2). -/
abbrev contexts : Nat := 1

/-- A sample-memory address: `DST`, a stream's cursor, an acquired buffer's start. -/
abbrev Address := BitVec addressWidth

/-- A byte length: `LEN`, a stream's available length, the effective length. -/
abbrev Length := BitVec lengthWidth

/-- Bytes of sample memory, `2^AW` (20_memory.md R60). -/
abbrev memSize : Nat := 2 ^ addressWidth

/-- Bytes of one context's register window (10_state.md R38). -/
abbrev windowSize : Nat := 0x4000

/-- Bytes of the register space: one window for each context (10_state.md R38). -/
abbrev registerSpace : Nat := contexts * windowSize

/-- Byte order of the block's raw loads and stores: this hardware is LE. -/
def nativeEndian : Endian := .le

/-! ## Value parameters (00_scope.md R8) -/

/-- The level Muted. PRESUMED by the spec from general knowledge (G1), log entry 16. -/
def levelMuted : Word := 0x00000000

/-- The level Unity. PRESUMED by the spec from general knowledge (G1), log entry 16. -/
def levelUnity : Word := 0x00010000

/-- Silence byte of UInt8. -/
def silU8 : Byte := 0x80

/-- Silence byte of ALaw. PRESUMED by the spec from general knowledge (G2), log entry 16. -/
def silALaw : Byte := 0xD5

/-- Silence byte of ULaw. PRESUMED by the spec from general knowledge (G2), log entry 16. -/
def silULaw : Byte := 0xFF

/-- Pre-compress right shift of ALaw. PRESUMED by the spec from general knowledge (G3), log entry 16. -/
def shALaw : Nat := 3

/-- Pre-compress right shift of ULaw. PRESUMED by the spec from general knowledge (G3), log entry 16. -/
def shULaw : Nat := 2

/-! ## Function parameters (00_scope.md R9) -/

/-- The five pure function parameters of the hardware: the volume curve (level to binary64 ratio) and the two companding
codecs (byte to int16, int16 to byte). -/
structure Ports where
  curve : Word → DWord
  expandA : Byte → BitVec 16
  compressA : BitVec 16 → Byte
  expandU : Byte → BitVec 16
  compressU : BitVec 16 → Byte

/-- CURVE away from Muted and Unity: free (log entry 8). -/
opaque curveElsewhere : Word → DWord

/-- EXPAND_A: free, no contract beyond the type (log entry 9). -/
opaque expandALaw : Byte → BitVec 16

/-- COMPRESS_A: free, no contract beyond the type (log entry 9). -/
opaque compressALaw : BitVec 16 → Byte

/-- EXPAND_U: free, no contract beyond the type (log entry 9). -/
opaque expandULaw : Byte → BitVec 16

/-- COMPRESS_U: free, no contract beyond the type (log entry 9). -/
opaque compressULaw : BitVec 16 → Byte

/-- CURVE with the two values its contract fixes, `+0.0` at Muted and `1.0` at Unity (00_scope.md R9). Nothing else of
the contract is assumed: a value outside it raises F_GAIN_RANGE (40_linearizer.md R133). -/
def curve (l : Word) : DWord :=
  if l = levelMuted then 0 else if l = levelUnity then 0x3FF0000000000000 else curveElsewhere l

/-- The function parameters of this hardware. -/
def ports : Ports := ⟨curve, expandALaw, compressALaw, expandULaw, compressULaw⟩

/-- The domain of EXT_KERNELS: empty in this hardware (00_scope.md R9, 44_dispatch.md R215). -/
def extKernel (_ : BitVec 8) : Bool := false

/-! ## Free values -/

/-- What the spec leaves open of a NaN pattern: the sign and the 22 low fraction bits (93_implementation_defined.md U9,
log entry 10). -/
opaque freeNaN : Nat → Word

/-- The pattern of the k-th NaN written: any quiet NaN (exponent all ones, fraction bit 22 set). -/
def quietNaN (k : Nat) : Word := freeNaN k ||| 0x7FC00000

/-- What the k-th host read returns where it reads a BUSY context's scratch or result (93_implementation_defined.md U11, log
entry 11). -/
opaque busyRead : Nat → Word

/-- What a cursor register holds when its cursor is 2^32, which its 32 bits cannot hold (log entry 12). -/
opaque pastEnd : Nat → Address

/-- The buffer manager's answer where `State.answers` holds none (20_memory.md R75: an oracle's; log entry 4). -/
opaque acquireAnswer : Nat → Address

/-! ## The default dispatch table -/

/-- KTAB after reset, by tag number (70_reset_and_hazards.md R302). -/
def defaultKtab : Endian → Vector (BitVec 8) 13
  | .le => #v[0x00, 0x01, 0x02, 0x03, 0x04, 0x05, 0x06, 0x07, 0x08, 0x09, 0x0A, 0x0B, 0x0C]
  | .be => #v[0x00, 0x01, 0x02, 0x04, 0x03, 0x06, 0x05, 0x08, 0x07, 0x0A, 0x09, 0x0C, 0x0B]

end Sys2Proof.Config
end

