-- ==== Sys2Proof/Machine/State.lean ====
section
/-! DEFINITION. The state of MIXK (10_state.md), its surroundings, and the machine right after reset. Plain data. -/

namespace Sys2Proof.Machine

/-! ## The reasons a step can stop -/

/-- The model's stop by fault. No fault of MIXK is one of these: those are taken as next states (60_exceptions.md R272). -/
inductive Fault where
  /-- A host write of sample memory at an address outside the `2^AW` bytes of 20_memory.md R60. Raised by the host action
  `poke`. Safe. -/
  | noSuchAddress (a : Nat)
  deriving DecidableEq, Repr

/-- The model's stop by refusal: a situation the spec tells a model to refuse. -/
inductive Refusal where
  /-- An instruction without a meaning yet. Raised by no arm of this model. Safe. -/
  | notModelled (mnemonic : String)
  /-- A MIX whose `KTAB` entry is no built-in kernel: an external id (44_dispatch.md R216, R227; U4) or, in a state no run
  reaches, a reserved id. Raised by `MIX`. Safe. -/
  | kernelNotBuiltIn (id : BitVec 8)
  /-- A MIX whose effective length is no multiple of the bound kernel's width (44_dispatch.md R214, R227; U5). Raised by
  `MIX`. Safe. -/
  | kernelWidthMisfit (id : BitVec 8) (len : Nat)
  /-- A host write of sample memory inside the footprint of a BUSY command (20_memory.md R73; 70_reset_and_hazards.md R312;
  U6). Raised by the host action `poke`. Safe. -/
  | bufferRace (a : Nat)
  deriving DecidableEq, Repr

/-! ## Parts of the state -/

/-- `STATUS.STATE` (10_state.md R22). -/
inductive SeqState where
  | idle | busy | done | fault
  deriving DecidableEq, Repr

/-- The fault codes of 60_exceptions.md R271. -/
inductive FaultCode where
  | illegalCmd | format | channels | streams | null | lengthZero | lengthAlign | streamAlign | addrWrap | gainRange
  | badKernel
  deriving DecidableEq, Repr

/-- One external effect of a command (20_memory.md R70). -/
inductive Event where
  | acquire (handle : Word) (answer : Config.Address)
  | release (handle : Word)
  | read (addr : Nat) (bytes : List Byte)
  | write (addr : Nat) (bytes : List Byte)
  deriving DecidableEq, Repr

/-- One move of the host (30_encoding.md R105; 00_scope.md R15). -/
inductive HostAction where
  /-- `WR`: write a register, named by its byte offset in the register space (10_state.md R38). -/
  | write (offset : Nat) (value : Word)
  /-- `RD`: read a register. -/
  | read (offset : Nat)
  /-- `WAIT`: let the sequencer run the command to its end. -/
  | wait
  /-- A host write of one byte of sample memory (20_memory.md R60). -/
  | poke (addr : Nat) (value : Byte)
  /-- `RESET`, arriving when a BUSY command has performed `after` of its events (70_reset_and_hazards.md R300; U7). -/
  | reset (after : Nat)
  deriving DecidableEq, Repr

/-- Sample memory (20_memory.md R60): addresses strictly rising, no entry equal to what an unlisted address reads as. -/
abbrev Memory := List Host.Cell

/-- What a byte that nothing has written reads as. DESIGN CHOICE, unsafe: the spec leaves the contents of sample memory to
the host (log entry 5). -/
def Memory.unlisted : Byte := 0x00

/-- The canonical form of a memory whose addresses are all at least `lo`. -/
def Memory.wfFrom : Nat → Memory → Bool
  | _, [] => true
  | lo, (a, b) :: rest => decide (lo ≤ a) && b != Memory.unlisted && Memory.wfFrom (a + 1) rest

/-- The canonical form holds. -/
def Memory.wf (m : Memory) : Bool := Memory.wfFrom 0 m

/-! ## The state -/

/-- The state of MIXK with its one context. -/
structure State where
  /-- `CMD`, the last command word written (R23). -/
  cmd : Word
  /-- `STATUS.STATE` (R22, R24). -/
  seq : SeqState
  /-- `STATUS.GFAULT`, the global sticky fault bit (R24). -/
  gfault : Bool
  /-- `STATUS.FCODE` (R24). -/
  fcode : BitVec 8
  /-- `FINFO` (R29). -/
  finfo : Word
  /-- `DST` (R25). -/
  dst : Config.Address
  /-- `LEN` (R26). -/
  len : Config.Length
  /-- `RET` (R27). -/
  ret : Word
  /-- `KARG` (R28). -/
  karg : Word
  /-- `OVOL[ch]` (R30). -/
  ovol : Vector Word Config.channelsMax
  /-- `S_CHUNK[s]` (R31). -/
  sChunk : Vector Word Config.streamsMax
  /-- `S_AVAIL[s]` (R32). -/
  sAvail : Vector Config.Length Config.streamsMax
  /-- `S_VOL[s][ch]` (R33). -/
  sVol : Vector (Vector Word Config.channelsMax) Config.streamsMax
  /-- `S_PTR[s]` (R34). -/
  sPtr : Vector Config.Address Config.streamsMax
  /-- `OLIN[i]`, the linearizer's scratch (R35). -/
  olin : Vector Word (Config.channelsMax + Config.padSlots)
  /-- `SGAIN[s][ch]`, the linear gains (R36). -/
  sgain : Vector (Vector Word Config.channelsMax) Config.streamsMax
  /-- `D_CUR` (R37). -/
  dCur : Config.Address
  /-- `D_END` (R37). -/
  dEnd : BitVec (Config.addressWidth + 1)
  /-- `CH_IDX` (R37). -/
  chIdx : BitVec 6
  /-- `EFFLEN` (R37). -/
  effLen : Config.Length
  /-- `ACC32` (R37). -/
  acc32 : Word
  /-- `ACC64` (R37). -/
  acc64 : DWord
  /-- `ACCF`, a binary32 datum (R37). -/
  accF : Word
  /-- `KTAB[f]` by tag number (R40). -/
  ktab : Vector (BitVec 8) 13
  /-- Sample memory (20_memory.md R60). -/
  mem : Memory
  /-- The event history, oldest first (20_memory.md R70). -/
  hist : List Event
  /-- The model's own: the host's moves still to come, oldest first (log entry 3). -/
  host : List HostAction
  /-- The model's own: the values host reads have returned, oldest first (log entry 3). -/
  reads : List Word
  /-- The model's own: the buffer manager's answers still to come, oldest first (log entry 4). -/
  answers : List Config.Address
  /-- The model's own: how many free values have been drawn (log entry 10). -/
  free : Nat
  deriving DecidableEq, Repr

/-- The machine right after reset (10_state.md R45; 70_reset_and_hazards.md R300 to R302). The scratch and the working
registers, which the spec leaves unspecified, are zero: DESIGN CHOICE (log entries 6 and 7). -/
def State.reset : State where
  cmd := 0
  seq := .idle
  gfault := false
  fcode := 0
  finfo := 0
  dst := 0
  len := 0
  ret := 0
  karg := 0
  ovol := Vector.replicate _ 0
  sChunk := Vector.replicate _ 0
  sAvail := Vector.replicate _ 0
  sVol := Vector.replicate _ (Vector.replicate _ 0)
  sPtr := Vector.replicate _ 0
  olin := Vector.replicate _ 0
  sgain := Vector.replicate _ (Vector.replicate _ 0)
  dCur := 0
  dEnd := 0
  chIdx := 0
  effLen := 0
  acc32 := 0
  acc64 := 0
  accF := 0
  ktab := Config.defaultKtab Config.nativeEndian
  mem := []
  hist := []
  host := []
  reads := []
  answers := []
  free := 0

end Sys2Proof.Machine
end

