-- ==== Sys2Proof/Machine/Float.lean ====
section
/-! DEFINITION. The floating-point primitives of 00_scope.md R11: IEEE 754 binary32 and binary64, round to nearest, ties
to even, gradual underflow, no trap, no flag. Every operation decodes its operands exactly, computes exactly, and rounds
once. A NaN result is one fixed quiet NaN INSIDE the model; the pattern a sample gets is drawn free when it is written
(log entry 10). -/

namespace Sys2Proof.Machine

/-- The datum an encoding stands for: a NaN, an infinity, or `(-1)^neg * m * 2^e`. -/
inductive Datum where
  | nan
  | inf (neg : Bool)
  | fin (neg : Bool) (m : Nat) (e : Int)
  deriving DecidableEq, Repr

/-- The exponent of the lowest fraction bit of a subnormal of the format with `eb` exponent and `fb` fraction bits. -/
def minExp (eb fb : Nat) : Int := 2 - 2 ^ (eb - 1) - fb

/-- Read an encoding: sign, biased exponent, fraction (R11, `f32_of_bits`). -/
def datumOf (eb fb u : Nat) : Datum :=
  let neg := u / 2 ^ (eb + fb) % 2 == 1
  let ex := u / 2 ^ fb % 2 ^ eb
  let fr := u % 2 ^ fb
  if ex = 2 ^ eb - 1 then (if fr = 0 then .inf neg else .nan)
  else if ex = 0 then .fin neg fr (minExp eb fb)
  else .fin neg (2 ^ fb + fr) (minExp eb fb + (ex - 1 : Nat))

/-- `m / 2^k` rounded to the nearest natural number, ties to even. -/
def roundShift (m k : Nat) : Nat :=
  let q := m / 2 ^ k
  let r := m % 2 ^ k
  if 2 * r < 2 ^ k then q else if 2 ^ k < 2 * r then q + 1 else q + q % 2

/-- `m * 2^e` as a natural number, rounded to the nearest, ties to even. -/
def roundScale (m : Nat) (e : Int) : Nat := if 0 ≤ e then m * 2 ^ e.toNat else roundShift m (-e).toNat

/-- The sign bit of an encoding in place. -/
def signBits (eb fb : Nat) (neg : Bool) : Nat := if neg then 2 ^ (eb + fb) else 0

/-- The encoding of infinity. -/
def infBits (eb fb : Nat) (neg : Bool) : Nat := signBits eb fb neg + (2 ^ eb - 1) * 2 ^ fb

/-- The model's internal quiet NaN. -/
def nanBits (eb fb : Nat) : Nat := (2 ^ eb - 1) * 2 ^ fb + 2 ^ (fb - 1)

/-- The magnitude bits of `m * 2^e`, `m > 0`, rounded to nearest even; a value too large gives the infinity's. -/
def magBits (eb fb m : Nat) (e : Int) : Nat :=
  let lsb := max (minExp eb fb) (e + Nat.log2 m - fb)
  let u := (lsb - minExp eb fb).toNat * 2 ^ fb + roundScale m (e - lsb)
  min u ((2 ^ eb - 1) * 2 ^ fb)

/-- Round a datum into the format. -/
def bitsOf (eb fb : Nat) : Datum → Nat
  | .nan => nanBits eb fb
  | .inf neg => infBits eb fb neg
  | .fin neg m e => signBits eb fb neg + (if m = 0 then 0 else magBits eb fb m e)

/-- The exact product; infinity times zero is a NaN. -/
def Datum.mul : Datum → Datum → Datum
  | .fin n m e, .fin n' m' e' => .fin (n != n') (m * m') (e + e')
  | .inf n, .inf n' => .inf (n != n')
  | .inf n, .fin n' m _ => if m = 0 then .nan else .inf (n != n')
  | .fin n m _, .inf n' => if m = 0 then .nan else .inf (n != n')
  | .nan, _ => .nan
  | _, .nan => .nan

/-- A signed magnitude as an integer. -/
def signedInt (neg : Bool) (m : Nat) : Int := if neg then -(m : Int) else m

/-- The exact sum of two finite data. A zero sum is `+0` unless both operands are negative (round to nearest). -/
def addFinite (n : Bool) (m : Nat) (e : Int) (n' : Bool) (m' : Nat) (e' : Int) : Datum :=
  let e0 := min e e'
  let x := signedInt n (m * 2 ^ (e - e0).toNat) + signedInt n' (m' * 2 ^ (e' - e0).toNat)
  .fin (if x = 0 then n && n' else decide (x < 0)) x.natAbs e0

/-- The exact sum; infinities of opposite sign give a NaN. -/
def Datum.add : Datum → Datum → Datum
  | .fin n m e, .fin n' m' e' => addFinite n m e n' m' e'
  | .inf n, .inf n' => if n = n' then .inf n else .nan
  | .inf n, .fin _ _ _ => .inf n
  | .fin _ _ _, .inf n' => .inf n'
  | .nan, _ => .nan
  | _, .nan => .nan

/-- The datum of a binary32 encoding. -/
def f32Datum (u : Word) : Datum := datumOf 8 23 u.toNat

/-- The datum of a binary64 encoding. -/
def f64Datum (u : DWord) : Datum := datumOf 11 52 u.toNat

/-- A datum rounded to binary32. -/
def f32Bits (d : Datum) : Word := BitVec.ofNat 32 (bitsOf 8 23 d)

/-- A datum rounded to binary64. -/
def f64Bits (d : Datum) : DWord := BitVec.ofNat 64 (bitsOf 11 52 d)

/-- `f32_mul` (R11). -/
def f32Mul (a b : Word) : Word := f32Bits ((f32Datum a).mul (f32Datum b))

/-- `f32_add` (R11). -/
def f32Add (a b : Word) : Word := f32Bits ((f32Datum a).add (f32Datum b))

/-- `f64_mul` (R11). -/
def f64Mul (a b : DWord) : DWord := f64Bits ((f64Datum a).mul (f64Datum b))

/-- `f64_of_f32`: exact widening (R11). -/
def f64OfF32 (a : Word) : DWord := f64Bits (f32Datum a)

/-- `f32_of_f64`: narrowing, round to nearest even, too large a value becomes an infinity (R11). -/
def f32OfF64 (a : DWord) : Word := f32Bits (f64Datum a)

/-- `f32_ne0`: false for both zeros, true for every other datum, NaNs included (R11). -/
def f32Ne0 (a : Word) : Bool := a.toNat % 2 ^ 31 != 0

/-- The encoding is a binary32 NaN. -/
def f32IsNaN (a : Word) : Bool := decide (0x7F800000 < a.toNat % 2 ^ 31)

/-- The encoding is a binary32 infinity. -/
def f32IsInf (a : Word) : Bool := a.toNat % 2 ^ 31 == 0x7F800000

/-- `rint_even`: the nearest integer to a finite binary64, ties to even; none where R11 gives no integer (a NaN or an
infinity; log entry 13). -/
def rintEven (a : DWord) : Option Int :=
  match f64Datum a with
  | .fin neg m e => some (signedInt neg (roundScale m e))
  | _ => none

end Sys2Proof.Machine
end

