-- ==== Sys2Proof/Machine/Flags.lean ====
section
/-! DEFINITION. The flags of MIXK: the fields of `STATUS` (10_state.md R24), the fault codes (60_exceptions.md R271) and
the two conditions a host write is judged by (R23, R39). There is no other flag: no arithmetic sets one (R24, R277). -/

namespace Sys2Proof.Machine

/-- The number of a sequencer state (10_state.md R22). -/
def seqNumber : SeqState → Nat
  | .idle => 0
  | .busy => 1
  | .done => 2
  | .fault => 3

/-- The number of a fault code (60_exceptions.md R271). -/
def faultNumber : FaultCode → Nat
  | .illegalCmd => 0x01
  | .format => 0x02
  | .channels => 0x03
  | .streams => 0x04
  | .null => 0x05
  | .lengthZero => 0x06
  | .lengthAlign => 0x07
  | .streamAlign => 0x08
  | .addrWrap => 0x09
  | .gainRange => 0x0A
  | .badKernel => 0x0B

/-- `STATUS` as the host reads it: STATE, GFAULT and FCODE in their bits, the others 0 (10_state.md R24). -/
def statusWord (s : State) : Word :=
  BitVec.ofNat 32 (seqNumber s.seq + (if s.gfault then 4 else 0) + s.fcode.toNat * 2 ^ 8)

/-- `FINFO` of a fault: stream in bits 7:0, channel in bits 15:8, the rest 0 (10_state.md R29). -/
def faultInfo (stream channel : Nat) : Word := BitVec.ofNat 32 (stream % 2 ^ 8 + channel % 2 ^ 8 * 2 ^ 8)

/-- A `CMD` write starts a command (10_state.md R23): IDLE or DONE, and no fault anywhere. -/
def acceptsCommand (s : State) : Bool := (s.seq == .idle || s.seq == .done) && !s.gfault

/-- A write of another RW register takes effect: the context is not BUSY (10_state.md R39 b; log entry 20). -/
def acceptsWrite (s : State) : Bool := s.seq != .busy

end Sys2Proof.Machine
end

