-- ==== Sys2Proof/WellFormed.lean ====
section
/-! DEFINITION. Which terms of `Instr` a command word can hold: the counts fit the six bits of their fields
(30_encoding.md R90). A count outside its LEGAL range is encodable and is a fault of the command, not of the word
(30_encoding.md R101). -/

namespace Sys2Proof

/-- A count fits the six bits of its field `CH` or `NS` (30_encoding.md R90). -/
def fitsCount (n : Nat) : Bool := decide (n < 64)

/-- The instruction has a command word. -/
def Instr.wf : Instr → Bool
  | .mixU8 ch ns _ _ => fitsCount ch && fitsCount ns
  | .mixALaw ch ns _ _ => fitsCount ch && fitsCount ns
  | .mixULaw ch ns _ _ => fitsCount ch && fitsCount ns
  | .mixS16LE ch ns _ _ => fitsCount ch && fitsCount ns
  | .mixS16BE ch ns _ _ => fitsCount ch && fitsCount ns
  | .mixS32LE ch ns _ _ => fitsCount ch && fitsCount ns
  | .mixS32BE ch ns _ _ => fitsCount ch && fitsCount ns
  | .mixS24LE ch ns _ _ => fitsCount ch && fitsCount ns
  | .mixS24BE ch ns _ _ => fitsCount ch && fitsCount ns
  | .mixS2432LE ch ns _ _ => fitsCount ch && fitsCount ns
  | .mixS2432BE ch ns _ _ => fitsCount ch && fitsCount ns
  | .mixF32LE ch ns _ _ => fitsCount ch && fitsCount ns
  | .mixF32BE ch ns _ _ => fitsCount ch && fitsCount ns
  | .volU8 ch _ => fitsCount ch
  | .volALaw ch _ => fitsCount ch
  | .volULaw ch _ => fitsCount ch
  | .volS16LE ch _ => fitsCount ch
  | .volS16BE ch _ => fitsCount ch
  | .volS32LE ch _ => fitsCount ch
  | .volS32BE ch _ => fitsCount ch
  | .volS24LE ch _ => fitsCount ch
  | .volS24BE ch _ => fitsCount ch
  | .volS2432LE ch _ => fitsCount ch
  | .volS2432BE ch _ => fitsCount ch
  | .volF32LE ch _ => fitsCount ch
  | .volF32BE ch _ => fitsCount ch
  | .getkU8 => true
  | .getkALaw => true
  | .getkULaw => true
  | .getkS16LE => true
  | .getkS16BE => true
  | .getkS32LE => true
  | .getkS32BE => true
  | .getkS24LE => true
  | .getkS24BE => true
  | .getkS2432LE => true
  | .getkS2432BE => true
  | .getkF32LE => true
  | .getkF32BE => true
  | .setkU8 => true
  | .setkALaw => true
  | .setkULaw => true
  | .setkS16LE => true
  | .setkS16BE => true
  | .setkS32LE => true
  | .setkS32BE => true
  | .setkS24LE => true
  | .setkS24BE => true
  | .setkS2432LE => true
  | .setkS2432BE => true
  | .setkF32LE => true
  | .setkF32BE => true

end Sys2Proof
end

