-- ==== Sys2Proof/Decode.lean ====
section
/-! DEFINITION. The command word: decoder (total, rejecting by name), encoder, assembler text and pseudo-formats
(30_encoding.md). -/

namespace Sys2Proof

/-! ## Format tags (30_encoding.md R92) -/

/-- The number of a format tag: its position in the list of R92. -/
def Fmt.tag : Fmt → Nat
  | .u8 => 0
  | .alaw => 1
  | .ulaw => 2
  | .s16le => 3
  | .s16be => 4
  | .s32le => 5
  | .s32be => 6
  | .s24le => 7
  | .s24be => 8
  | .s2432le => 9
  | .s2432be => 10
  | .f32le => 11
  | .f32be => 12

/-- The format a tag number names; 13 to 15 name none (R92). -/
def Fmt.ofTag : Nat → Option Fmt
  | 0 => some .u8
  | 1 => some .alaw
  | 2 => some .ulaw
  | 3 => some .s16le
  | 4 => some .s16be
  | 5 => some .s32le
  | 6 => some .s32be
  | 7 => some .s24le
  | 8 => some .s24be
  | 9 => some .s2432le
  | 10 => some .s2432be
  | 11 => some .f32le
  | 12 => some .f32be
  | _ => none

/-! ## The command of an operation and a format -/

/-- `MIX.<F>` as a term of `Instr`. -/
def mixOf (F : Fmt) (ch ns : Nat) (mute hasvol : Bool) : Instr :=
  match F with
  | .u8 => .mixU8 ch ns mute hasvol
  | .alaw => .mixALaw ch ns mute hasvol
  | .ulaw => .mixULaw ch ns mute hasvol
  | .s16le => .mixS16LE ch ns mute hasvol
  | .s16be => .mixS16BE ch ns mute hasvol
  | .s32le => .mixS32LE ch ns mute hasvol
  | .s32be => .mixS32BE ch ns mute hasvol
  | .s24le => .mixS24LE ch ns mute hasvol
  | .s24be => .mixS24BE ch ns mute hasvol
  | .s2432le => .mixS2432LE ch ns mute hasvol
  | .s2432be => .mixS2432BE ch ns mute hasvol
  | .f32le => .mixF32LE ch ns mute hasvol
  | .f32be => .mixF32BE ch ns mute hasvol

/-- `VOL.<F>` as a term of `Instr`. -/
def volOf (F : Fmt) (ch : Nat) (silent : Bool) : Instr :=
  match F with
  | .u8 => .volU8 ch silent
  | .alaw => .volALaw ch silent
  | .ulaw => .volULaw ch silent
  | .s16le => .volS16LE ch silent
  | .s16be => .volS16BE ch silent
  | .s32le => .volS32LE ch silent
  | .s32be => .volS32BE ch silent
  | .s24le => .volS24LE ch silent
  | .s24be => .volS24BE ch silent
  | .s2432le => .volS2432LE ch silent
  | .s2432be => .volS2432BE ch silent
  | .f32le => .volF32LE ch silent
  | .f32be => .volF32BE ch silent

/-- `GETK.<F>` as a term of `Instr`. -/
def getkOf : Fmt → Instr
  | .u8 => .getkU8
  | .alaw => .getkALaw
  | .ulaw => .getkULaw
  | .s16le => .getkS16LE
  | .s16be => .getkS16BE
  | .s32le => .getkS32LE
  | .s32be => .getkS32BE
  | .s24le => .getkS24LE
  | .s24be => .getkS24BE
  | .s2432le => .getkS2432LE
  | .s2432be => .getkS2432BE
  | .f32le => .getkF32LE
  | .f32be => .getkF32BE

/-- `SETK.<F>` as a term of `Instr`. -/
def setkOf : Fmt → Instr
  | .u8 => .setkU8
  | .alaw => .setkALaw
  | .ulaw => .setkULaw
  | .s16le => .setkS16LE
  | .s16be => .setkS16BE
  | .s32le => .setkS32LE
  | .s32be => .setkS32BE
  | .s24le => .setkS24LE
  | .s24be => .setkS24BE
  | .s2432le => .setkS2432LE
  | .s2432be => .setkS2432BE
  | .f32le => .setkF32LE
  | .f32be => .setkF32BE

/-! ## Decoding (30_encoding.md R90, R91, R101 to R103) -/

/-- The bit slice `w[hi:lo]` as a number (00_scope.md R10). -/
def field (w : Word) (hi lo : Nat) : Nat := w.toNat / 2 ^ lo % 2 ^ (hi + 1 - lo)

/-- Why a word is no command (R103). -/
inductive Reject where
  | illegalCommand   -- OP not in 1..4, or a must-be-zero field of the OP set: F_ILLEGAL_CMD
  | badFormat        -- a legal OP with clean must-be-zero fields and FMT 13..15: F_FORMAT
  deriving DecidableEq, Repr

/-- What a word decodes to. -/
inductive Decoded where
  | instr (i : Instr)
  | rejected (r : Reject)
  deriving DecidableEq, Repr

/-- The must-be-zero fields of each legal operation are zero, and the operation is legal (R91). -/
def cleanWord (w : Word) : Bool :=
  match field w 3 0 with
  | 1 => field w 31 22 == 0
  | 2 => field w 21 14 == 0 && field w 31 23 == 0
  | 3 => field w 31 8 == 0
  | 4 => field w 31 8 == 0
  | _ => false

/-- The command of a clean word of format `F` (R101): the operation picks the family, no field is signed or scaled. -/
def assemble (w : Word) (F : Fmt) : Instr :=
  match field w 3 0 with
  | 1 => mixOf F (field w 13 8) (field w 19 14) (field w 20 20 == 1) (field w 21 21 == 1)
  | 2 => volOf F (field w 13 8) (field w 22 22 == 1)
  | 3 => getkOf F
  | _ => setkOf F

/-- The decoder: `OP` and its must-be-zero fields first, then `FMT` (R102, R103; 60_exceptions.md R275 steps 1 and 2). -/
def decode (w : Word) : Decoded :=
  if cleanWord w then
    match Fmt.ofTag (field w 7 4) with
    | some F => .instr (assemble w F)
    | none => .rejected .badFormat
  else .rejected .illegalCommand

/-- The instruction the decoder reads from a word, if it reads one. -/
def Decoded.toOption : Decoded → Option Instr
  | .instr i => some i
  | .rejected _ => none

/-- The decoder on a word numbered as the opcode table numbers it. A command is ONE 32-bit register value, moved whole and
without byte order (10_state.md R38), so bit k of the table is bit k of `CMD`; bits from `nbits` up are 0. -/
def decodeTableWord (nbits w : Nat) : Option Instr :=
  (decode (BitVec.ofNat 32 (w % 2 ^ nbits))).toOption

/-! ## Encoding (30_encoding.md R90) -/

/-- A flag bit as a number. -/
def flagBit (b : Bool) : Nat := if b then 1 else 0

/-- The word of a MIX: OP 1, FMT, CH, NS, MUTE and HASVOL in their fields, SILENT and RSV zero. -/
def encodeMix (F : Fmt) (ch ns : Nat) (mute hasvol : Bool) : Word :=
  BitVec.ofNat 32 (0x1 + F.tag * 2 ^ 4 + ch * 2 ^ 8 + ns * 2 ^ 14 + flagBit mute * 2 ^ 20 + flagBit hasvol * 2 ^ 21)

/-- The word of a VOL: OP 2, FMT, CH and SILENT in their fields, the rest zero. -/
def encodeVol (F : Fmt) (ch : Nat) (silent : Bool) : Word :=
  BitVec.ofNat 32 (0x2 + F.tag * 2 ^ 4 + ch * 2 ^ 8 + flagBit silent * 2 ^ 22)

/-- The word of a GETK (OP 3) or SETK (OP 4): OP and FMT, the rest zero. -/
def encodeTable (op : Nat) (F : Fmt) : Word := BitVec.ofNat 32 (op + F.tag * 2 ^ 4)

/-- The command word of an instruction. -/
def encode : Instr → Word
  | .mixU8 ch ns mute hasvol => encodeMix .u8 ch ns mute hasvol
  | .mixALaw ch ns mute hasvol => encodeMix .alaw ch ns mute hasvol
  | .mixULaw ch ns mute hasvol => encodeMix .ulaw ch ns mute hasvol
  | .mixS16LE ch ns mute hasvol => encodeMix .s16le ch ns mute hasvol
  | .mixS16BE ch ns mute hasvol => encodeMix .s16be ch ns mute hasvol
  | .mixS32LE ch ns mute hasvol => encodeMix .s32le ch ns mute hasvol
  | .mixS32BE ch ns mute hasvol => encodeMix .s32be ch ns mute hasvol
  | .mixS24LE ch ns mute hasvol => encodeMix .s24le ch ns mute hasvol
  | .mixS24BE ch ns mute hasvol => encodeMix .s24be ch ns mute hasvol
  | .mixS2432LE ch ns mute hasvol => encodeMix .s2432le ch ns mute hasvol
  | .mixS2432BE ch ns mute hasvol => encodeMix .s2432be ch ns mute hasvol
  | .mixF32LE ch ns mute hasvol => encodeMix .f32le ch ns mute hasvol
  | .mixF32BE ch ns mute hasvol => encodeMix .f32be ch ns mute hasvol
  | .volU8 ch silent => encodeVol .u8 ch silent
  | .volALaw ch silent => encodeVol .alaw ch silent
  | .volULaw ch silent => encodeVol .ulaw ch silent
  | .volS16LE ch silent => encodeVol .s16le ch silent
  | .volS16BE ch silent => encodeVol .s16be ch silent
  | .volS32LE ch silent => encodeVol .s32le ch silent
  | .volS32BE ch silent => encodeVol .s32be ch silent
  | .volS24LE ch silent => encodeVol .s24le ch silent
  | .volS24BE ch silent => encodeVol .s24be ch silent
  | .volS2432LE ch silent => encodeVol .s2432le ch silent
  | .volS2432BE ch silent => encodeVol .s2432be ch silent
  | .volF32LE ch silent => encodeVol .f32le ch silent
  | .volF32BE ch silent => encodeVol .f32be ch silent
  | .getkU8 => encodeTable 3 .u8
  | .getkALaw => encodeTable 3 .alaw
  | .getkULaw => encodeTable 3 .ulaw
  | .getkS16LE => encodeTable 3 .s16le
  | .getkS16BE => encodeTable 3 .s16be
  | .getkS32LE => encodeTable 3 .s32le
  | .getkS32BE => encodeTable 3 .s32be
  | .getkS24LE => encodeTable 3 .s24le
  | .getkS24BE => encodeTable 3 .s24be
  | .getkS2432LE => encodeTable 3 .s2432le
  | .getkS2432BE => encodeTable 3 .s2432be
  | .getkF32LE => encodeTable 3 .f32le
  | .getkF32BE => encodeTable 3 .f32be
  | .setkU8 => encodeTable 4 .u8
  | .setkALaw => encodeTable 4 .alaw
  | .setkULaw => encodeTable 4 .ulaw
  | .setkS16LE => encodeTable 4 .s16le
  | .setkS16BE => encodeTable 4 .s16be
  | .setkS32LE => encodeTable 4 .s32le
  | .setkS32BE => encodeTable 4 .s32be
  | .setkS24LE => encodeTable 4 .s24le
  | .setkS24BE => encodeTable 4 .s24be
  | .setkS2432LE => encodeTable 4 .s2432le
  | .setkS2432BE => encodeTable 4 .s2432be
  | .setkF32LE => encodeTable 4 .f32le
  | .setkF32BE => encodeTable 4 .f32be

/-! ## Assembler text (30_encoding.md R105) and pseudo-formats (R106) -/

/-- The assembler name of a format (R92). -/
def Fmt.asmName : Fmt → String
  | .u8 => "U8"
  | .alaw => "ALAW"
  | .ulaw => "ULAW"
  | .s16le => "S16LE"
  | .s16be => "S16BE"
  | .s32le => "S32LE"
  | .s32be => "S32BE"
  | .s24le => "S24LE"
  | .s24be => "S24BE"
  | .s2432le => "S24_32LE"
  | .s2432be => "S24_32BE"
  | .f32le => "F32LE"
  | .f32be => "F32BE"

/-- `MIX.<F>  ch=<C>, ns=<NS> [, vol] [, mute]` (R105). -/
def asmMix (F : Fmt) (ch ns : Nat) (mute hasvol : Bool) : String :=
  "MIX." ++ F.asmName ++ " ch=" ++ toString ch ++ ", ns=" ++ toString ns ++ (if hasvol then ", vol" else "") ++
    (if mute then ", mute" else "")

/-- `VOL.<F>  ch=<C> [, silent]` (R105). -/
def asmVol (F : Fmt) (ch : Nat) (silent : Bool) : String :=
  "VOL." ++ F.asmName ++ " ch=" ++ toString ch ++ (if silent then ", silent" else "")

/-- The assembler text of a command (R105). -/
def asmText : Instr → String
  | .mixU8 ch ns mute hasvol => asmMix .u8 ch ns mute hasvol
  | .mixALaw ch ns mute hasvol => asmMix .alaw ch ns mute hasvol
  | .mixULaw ch ns mute hasvol => asmMix .ulaw ch ns mute hasvol
  | .mixS16LE ch ns mute hasvol => asmMix .s16le ch ns mute hasvol
  | .mixS16BE ch ns mute hasvol => asmMix .s16be ch ns mute hasvol
  | .mixS32LE ch ns mute hasvol => asmMix .s32le ch ns mute hasvol
  | .mixS32BE ch ns mute hasvol => asmMix .s32be ch ns mute hasvol
  | .mixS24LE ch ns mute hasvol => asmMix .s24le ch ns mute hasvol
  | .mixS24BE ch ns mute hasvol => asmMix .s24be ch ns mute hasvol
  | .mixS2432LE ch ns mute hasvol => asmMix .s2432le ch ns mute hasvol
  | .mixS2432BE ch ns mute hasvol => asmMix .s2432be ch ns mute hasvol
  | .mixF32LE ch ns mute hasvol => asmMix .f32le ch ns mute hasvol
  | .mixF32BE ch ns mute hasvol => asmMix .f32be ch ns mute hasvol
  | .volU8 ch silent => asmVol .u8 ch silent
  | .volALaw ch silent => asmVol .alaw ch silent
  | .volULaw ch silent => asmVol .ulaw ch silent
  | .volS16LE ch silent => asmVol .s16le ch silent
  | .volS16BE ch silent => asmVol .s16be ch silent
  | .volS32LE ch silent => asmVol .s32le ch silent
  | .volS32BE ch silent => asmVol .s32be ch silent
  | .volS24LE ch silent => asmVol .s24le ch silent
  | .volS24BE ch silent => asmVol .s24be ch silent
  | .volS2432LE ch silent => asmVol .s2432le ch silent
  | .volS2432BE ch silent => asmVol .s2432be ch silent
  | .volF32LE ch silent => asmVol .f32le ch silent
  | .volF32BE ch silent => asmVol .f32be ch silent
  | .getkU8 => "GETK." ++ Fmt.asmName .u8
  | .getkALaw => "GETK." ++ Fmt.asmName .alaw
  | .getkULaw => "GETK." ++ Fmt.asmName .ulaw
  | .getkS16LE => "GETK." ++ Fmt.asmName .s16le
  | .getkS16BE => "GETK." ++ Fmt.asmName .s16be
  | .getkS32LE => "GETK." ++ Fmt.asmName .s32le
  | .getkS32BE => "GETK." ++ Fmt.asmName .s32be
  | .getkS24LE => "GETK." ++ Fmt.asmName .s24le
  | .getkS24BE => "GETK." ++ Fmt.asmName .s24be
  | .getkS2432LE => "GETK." ++ Fmt.asmName .s2432le
  | .getkS2432BE => "GETK." ++ Fmt.asmName .s2432be
  | .getkF32LE => "GETK." ++ Fmt.asmName .f32le
  | .getkF32BE => "GETK." ++ Fmt.asmName .f32be
  | .setkU8 => "SETK." ++ Fmt.asmName .u8
  | .setkALaw => "SETK." ++ Fmt.asmName .alaw
  | .setkULaw => "SETK." ++ Fmt.asmName .ulaw
  | .setkS16LE => "SETK." ++ Fmt.asmName .s16le
  | .setkS16BE => "SETK." ++ Fmt.asmName .s16be
  | .setkS32LE => "SETK." ++ Fmt.asmName .s32le
  | .setkS32BE => "SETK." ++ Fmt.asmName .s32be
  | .setkS24LE => "SETK." ++ Fmt.asmName .s24le
  | .setkS24BE => "SETK." ++ Fmt.asmName .s24be
  | .setkS2432LE => "SETK." ++ Fmt.asmName .s2432le
  | .setkS2432BE => "SETK." ++ Fmt.asmName .s2432be
  | .setkF32LE => "SETK." ++ Fmt.asmName .f32le
  | .setkF32BE => "SETK." ++ Fmt.asmName .f32be

/-- The concrete tag a pseudo-format stands for, by the block's byte order (R106). -/
def resolveAlias : Endian → Alias → Fmt
  | .le, .s16ne => .s16le
  | .be, .s16ne => .s16be
  | .le, .s16re => .s16be
  | .be, .s16re => .s16le
  | .le, .s32ne => .s32le
  | .be, .s32ne => .s32be
  | .le, .s32re => .s32be
  | .be, .s32re => .s32le
  | .le, .s24ne => .s24le
  | .be, .s24ne => .s24be
  | .le, .s24re => .s24be
  | .be, .s24re => .s24le
  | .le, .s2432ne => .s2432le
  | .be, .s2432ne => .s2432be
  | .le, .s2432re => .s2432be
  | .be, .s2432re => .s2432le
  | .le, .f32ne => .f32le
  | .be, .f32ne => .f32be
  | .le, .f32re => .f32be
  | .be, .f32re => .f32le

end Sys2Proof
end

