-- ==== Sys2Proof/Machine/Operands.lean ====
section
/-! DEFINITION. Operand forms: the format property functions (00_scope.md R13), the indexed registers a command reads,
the output volume, the footprint of a command, and the register map (10_state.md R38). -/

namespace Sys2Proof.Machine

/-! ## Format properties (00_scope.md R13) -/

/-- The arithmetic groups. -/
inductive Group where
  | g8 | g16 | g64 | gf
  deriving DecidableEq, Repr

/-- The gain representations (10_state.md R41). -/
inductive GainRepr where
  | int | flt
  deriving DecidableEq, Repr

/-- `W(fmt)`, the sample width in bytes. -/
def width : Fmt → Nat
  | .u8 | .alaw | .ulaw => 1
  | .s16le | .s16be => 2
  | .s24le | .s24be => 3
  | .s32le | .s32be | .s2432le | .s2432be | .f32le | .f32be => 4

/-- `GROUP(fmt)`. -/
def group : Fmt → Group
  | .u8 | .alaw | .ulaw => .g8
  | .s16le | .s16be => .g16
  | .s32le | .s32be | .s24le | .s24be | .s2432le | .s2432be => .g64
  | .f32le | .f32be => .gf

/-- `REPR(fmt)`, a constant table: no command changes it (10_state.md R41). -/
def gainRepr (F : Fmt) : GainRepr := if group F = .gf then .flt else .int

/-- `SIL(fmt)`, the silence byte. -/
def silence : Fmt → Byte
  | .u8 => Config.silU8
  | .alaw => Config.silALaw
  | .ulaw => Config.silULaw
  | _ => 0x00

/-- `FRAME(fmt, C)`, the frame size in bytes. -/
def frame (F : Fmt) (C : Nat) : Nat := C * width F

/-! ## Indexed registers -/

/-- Element `i` of an indexed register array; a command only reads elements that exist. -/
def elem {α : Type} {n : Nat} (d : α) (v : Vector α n) (i : Nat) : α := v[i]?.getD d

/-- `OVOL[ch]`. -/
def State.ovolAt (s : State) (ch : Nat) : Word := elem 0 s.ovol ch

/-- `S_CHUNK[i]`. -/
def State.sChunkAt (s : State) (i : Nat) : Word := elem 0 s.sChunk i

/-- `S_AVAIL[i]`. -/
def State.sAvailAt (s : State) (i : Nat) : Config.Length := elem 0 s.sAvail i

/-- `S_VOL[i][ch]`. -/
def State.sVolAt (s : State) (i ch : Nat) : Word := elem 0 (elem (Vector.replicate _ 0) s.sVol i) ch

/-- `S_PTR[i]`. -/
def State.sPtrAt (s : State) (i : Nat) : Config.Address := elem 0 s.sPtr i

/-- `OLIN[i]`. -/
def State.olinAt (s : State) (i : Nat) : Word := elem 0 s.olin i

/-- `SGAIN[i][ch]`. -/
def State.sgainAt (s : State) (i ch : Nat) : Word := elem 0 (elem (Vector.replicate _ 0) s.sgain i) ch

/-- `KTAB[F]`. -/
def State.ktabAt (s : State) (F : Fmt) : BitVec 8 := elem 0 s.ktab F.tag

/-! ## The operands of MIX and VOL -/

/-- The output volume of a MIX, per channel: `OVOL` if present, else Unity (45_mix_command.md R221 line 2). -/
def outVol (hasvol : Bool) (s : State) (ch : Nat) : Word := if hasvol then s.ovolAt ch else Config.levelUnity

/-- Every level of channels `0..C-1` equals `l`: the per-channel equality check of 00_scope.md R14. -/
def allLevels (vol : Nat → Word) (C : Nat) (l : Word) : Bool := (List.range C).all fun ch => vol ch == l

/-- The silence condition of a MIX (45_mix_command.md R223). -/
def mixSilent (C NS : Nat) (mute hasvol : Bool) (s : State) : Bool :=
  mute || allLevels (outVol hasvol s) C Config.levelMuted || NS == 0

/-- The no-op condition of a VOL (46_volume.md R243). -/
def volNoop (C : Nat) (silent : Bool) (s : State) : Bool := silent || allLevels s.ovolAt C Config.levelUnity

/-- The muted condition of a VOL (46_volume.md R244). -/
def volMuted (C : Nat) (s : State) : Bool := allLevels s.ovolAt C Config.levelMuted

/-- The lowest stream whose length is not frame-aligned (45_mix_command.md R225; `F_STREAM_ALIGN`). -/
def misalignedStream (F : Fmt) (C NS : Nat) (s : State) : Option Nat :=
  (List.range NS).find? fun i => (s.sAvailAt i).toNat % frame F C != 0

/-- The effective length (45_mix_command.md R226): the least of `LEN` and the streams' available lengths. -/
def effectiveLength (NS : Nat) (s : State) : Nat :=
  (List.range NS).foldl (fun m i => min m (s.sAvailAt i).toNat) s.len.toNat

/-- The buffer manager's answer to the `j`-th acquire from a state on (20_memory.md R75; log entry 4). -/
def answerAt (s : State) (j : Nat) : Config.Address :=
  s.answers.getD j (Config.acquireAnswer (s.free + (j - s.answers.length)))

/-- The answer to the `j`-th acquire is no null address and its window does not wrap (45_mix_command.md R221 lines 10, 11). -/
def goodAnswer (s : State) (j : Nat) : Bool :=
  answerAt s j != 0 && decide ((answerAt s j).toNat + (s.sAvailAt j).toNat ≤ Config.memSize)

/-- Validation steps 3 to 8 of 60_exceptions.md R275: the first violated precondition. A VOL has no stream count and
passes 0, so that step 4 does not apply to it (46_volume.md R242). -/
def validate (F : Fmt) (C NS : Nat) (s : State) : Option FaultCode :=
  if C = 0 ∨ Config.channelsMax < C then some .channels
  else if Config.streamsMax < NS then some .streams
  else if s.dst = 0 then some .null
  else if s.len = 0 then some .lengthZero
  else if s.len.toNat % frame F C ≠ 0 then some .lengthAlign
  else if Config.memSize < s.dst.toNat + s.len.toNat then some .addrWrap
  else none

/-- A MIX issues the acquire of stream `i`: it passes every check before its acquires, takes the kernel path, and every
stream before `i` has a good answer (45_mix_command.md R221 lines 1 to 12; 20_memory.md R77). -/
def acquiresStream (F : Fmt) (C NS : Nat) (mute hasvol : Bool) (s : State) (i : Nat) : Bool :=
  (validate F C NS s).isNone && !mixSilent C NS mute hasvol s && (misalignedStream F C NS s).isNone &&
    (List.range i).all (goodAnswer s)

/-! ## The register map (10_state.md R38) -/

/-- A register of the register space. -/
inductive Reg where
  | cmd | status | dst | len | ret | karg | finfo
  | ovol (ch : Nat) | olin (i : Nat) | sChunk (i : Nat) | sAvail (i : Nat) | sPtr (i : Nat)
  | sVol (i ch : Nat) | sgain (i ch : Nat)
  deriving DecidableEq, Repr

/-- The register at word `k` (byte offset `4 * k`) of the window; none where the map is reserved. -/
def regAtWord (k : Nat) : Option Reg :=
  if k = 0 then some .cmd
  else if k = 1 then some .status
  else if k = 2 then some .dst
  else if k = 3 then some .len
  else if k = 4 then some .ret
  else if k = 5 then some .karg
  else if k = 6 then some .finfo
  else if 0x20 ≤ k ∧ k < 0x40 then some (.ovol (k - 0x20))
  else if 0x40 ≤ k ∧ k < 0x80 then some (.olin (k - 0x40))
  else if 0x80 ≤ k ∧ k < 0xA0 then some (.sChunk (k - 0x80))
  else if 0xA0 ≤ k ∧ k < 0xC0 then some (.sAvail (k - 0xA0))
  else if 0xC0 ≤ k ∧ k < 0xE0 then some (.sPtr (k - 0xC0))
  else if 0x400 ≤ k ∧ k < 0x800 then some (.sVol ((k - 0x400) / 32) ((k - 0x400) % 32))
  else if 0x800 ≤ k ∧ k < 0xC00 then some (.sgain ((k - 0x800) / 32) ((k - 0x800) % 32))
  else none

/-- The register at a byte offset of the register space: one aligned 32-bit word each, every other offset reserved (R38; log
entries 2 and 18). -/
def regAt (off : Nat) : Option Reg := if off % 4 = 0 ∧ off < Config.registerSpace then regAtWord (off / 4) else none

end Sys2Proof.Machine
end

