-- ==== Sys2Proof/Machine/Ops.lean ====
section
/-! DEFINITION. The shared operations over registers and memory: register writes, byte-exact memory access with its
events, the buffer-manager port, the silence fill, the taking of a fault and the reset that alone leaves it. -/

namespace Sys2Proof.Machine

/-! ## Register writes -/

/-- `STATE <- q`. -/
def State.setSeq (s : State) (q : SeqState) : State := { s with seq := q }

/-- `RET <- v`. -/
def State.setRet (s : State) (v : Word) : State := { s with ret := v }

/-- `S_PTR[i] <- v`. -/
def State.setSPtr (s : State) (i : Nat) (v : Config.Address) : State := { s with sPtr := s.sPtr.setIfInBounds i v }

/-- `OLIN[i] <- v`. -/
def State.setOlin (s : State) (i : Nat) (v : Word) : State := { s with olin := s.olin.setIfInBounds i v }

/-- Row `i` of `SGAIN`. -/
def State.sgainRow (s : State) (i : Nat) : Vector Word Config.channelsMax := elem (Vector.replicate _ 0) s.sgain i

/-- `SGAIN[i][ch] <- v`. -/
def State.setSgain (s : State) (i ch : Nat) (v : Word) : State :=
  { s with sgain := s.sgain.setIfInBounds i ((s.sgainRow i).setIfInBounds ch v) }

/-- `KTAB[F] <- k`. -/
def State.setKtab (s : State) (F : Fmt) (k : BitVec 8) : State := { s with ktab := s.ktab.setIfInBounds F.tag k }

/-- `EFFLEN <- v`. -/
def State.setEffLen (s : State) (v : Config.Length) : State := { s with effLen := v }

/-- `D_CUR <- v`. -/
def State.setDCur (s : State) (v : Config.Address) : State := { s with dCur := v }

/-- `D_END <- v`. -/
def State.setDEnd (s : State) (v : BitVec (Config.addressWidth + 1)) : State := { s with dEnd := v }

/-- `CH_IDX <- v`. -/
def State.setChIdx (s : State) (v : BitVec 6) : State := { s with chIdx := v }

/-- `ACC32 <- v`. -/
def State.setAcc32 (s : State) (v : Word) : State := { s with acc32 := v }

/-- `ACC64 <- v`. -/
def State.setAcc64 (s : State) (v : DWord) : State := { s with acc64 := v }

/-- `ACCF <- v`. -/
def State.setAccF (s : State) (v : Word) : State := { s with accF := v }

/-- The sample memory becomes `m`. -/
def State.setMem (s : State) (m : Memory) : State := { s with mem := m }

/-- One event is recorded (20_memory.md R70). -/
def State.record (s : State) (e : Event) : State := { s with hist := s.hist ++ [e] }

/-- `n` free values have been drawn. -/
def State.draw (s : State) (n : Nat) : State := { s with free := s.free + n }

/-- The buffer manager's answers still to come are `l`. -/
def State.setAnswers (s : State) (l : List Config.Address) : State := { s with answers := l }

/-- The host's moves still to come are `l`. -/
def State.setHost (s : State) (l : List HostAction) : State := { s with host := l }

/-- The command completes: `STATE <- DONE` (10_state.md R22). -/
def State.complete (s : State) : State := s.setSeq .done

/-! ## Taking a fault (60_exceptions.md R272) -/

/-- The stream number of a fault that concerns no stream (10_state.md R29). -/
def noStream : Nat := 0xFF

/-- `raise Fault(code, info)`: FCODE, FINFO, STATE and GFAULT change, nothing else; the command stops (R272). The only way
out is the RESET event, `resetMachine` below (R274). -/
def takeFault (c : FaultCode) (stream channel : Nat) (s : State) : State :=
  { s with fcode := BitVec.ofNat 8 (faultNumber c), finfo := faultInfo stream channel, seq := .fault, gfault := true }

/-- How a line of a command that may raise ends: the command goes on, or has stopped with its fault taken. -/
inductive Progress where
  | on (s : State)
  | halt (s : State)
  deriving DecidableEq, Repr

/-- Run the next line only if the command goes on. -/
def Progress.andThen : Progress → (State → Progress) → Progress
  | .on s, f => f s
  | .halt s, _ => .halt s

/-! ## Sample memory (20_memory.md R60 to R62) -/

/-- The byte at an address. -/
def Memory.get : Memory → Nat → Byte
  | [], _ => Memory.unlisted
  | (a, b) :: rest, x => if x = a then b else Memory.get rest x

/-- The memory without any entry at an address. -/
def Memory.remove : Memory → Nat → Memory
  | [], _ => []
  | (a, b) :: rest, x => if a = x then Memory.remove rest x else (a, b) :: Memory.remove rest x

/-- The memory with one more entry, in its place by address. -/
def Memory.place : Memory → Nat → Byte → Memory
  | [], x, v => [(x, v)]
  | (a, b) :: rest, x, v => if x < a then (x, v) :: (a, b) :: rest else (a, b) :: Memory.place rest x v

/-- Put a byte at an address, keeping the canonical form: the value an unlisted address reads as is not listed. -/
def Memory.put (m : Memory) (x : Nat) (v : Byte) : Memory :=
  if v = Memory.unlisted then m.remove x else (m.remove x).place x v

/-- The `n` bytes from an address up, lowest address first. -/
def Memory.load (m : Memory) (a : Nat) : Nat → List Byte
  | 0 => []
  | n + 1 => m.get a :: Memory.load m (a + 1) n

/-- Put a list of bytes from an address up. -/
def Memory.store (m : Memory) (a : Nat) : List Byte → Memory
  | [] => m
  | b :: bs => Memory.store (m.put a b) (a + 1) bs

/-- The byte of sample memory at an address. -/
def State.byteAt (s : State) (a : Nat) : Byte := s.mem.get a

/-- `MemRead(a, n)`: the bytes (20_memory.md R61). -/
def State.readBytes (s : State) (a n : Nat) : List Byte := s.mem.load a n

/-- `MemRead(a, n)`: its event; no other effect (R61, R70). -/
def State.readEvent (s : State) (a n : Nat) : State := s.record (.read a (s.readBytes a n))

/-- `MemWrite(a, n, b)`: the bytes stored and the event recorded (R62, R70). -/
def State.writeBytes (s : State) (a : Nat) (b : List Byte) : State := (s.setMem (s.mem.store a b)).record (.write a b)

/-- `n` single-byte writes of `v` at ascending addresses (45_mix_command.md R224, 46_volume.md R244). -/
def fillBytes (v : Byte) : Nat → Nat → State → State
  | 0, _, s => s
  | n + 1, a, s => fillBytes v n (a + 1) (s.writeBytes a [v])

/-- The silence fill of `DST .. DST+LEN-1`. -/
def fillSilence (F : Fmt) (s : State) : State := fillBytes (silence F) s.len.toNat s.dst.toNat s

/-! ## Cursors -/

/-- What a cursor register of AW bits holds for a cursor value; the value 2^32 does not fit and is free (log entry 12). -/
def cursorReg (n : Nat) (s : State) : Config.Address :=
  if n < Config.memSize then BitVec.ofNat Config.addressWidth n else Config.pastEnd s.free

/-- How many free values `cursorReg` draws. -/
def cursorDraws (n : Nat) : Nat := if n < Config.memSize then 0 else 1

/-- `S_PTR[i] <- S_PTR[i] + w` (43_mix_kernels.md R193). -/
def advancePtr (i w : Nat) (s : State) : State :=
  let n := (s.sPtrAt i).toNat + w
  (s.setSPtr i (cursorReg n s)).draw (cursorDraws n)

/-- `D_CUR <- n`. -/
def moveDest (n : Nat) (s : State) : State := (s.setDCur (cursorReg n s)).draw (cursorDraws n)

/-- `CH_IDX <- CH_IDX + 1 ; if CH_IDX >= C: CH_IDX <- 0` (43_mix_kernels.md R191). -/
def nextChannel (C : Nat) (s : State) : State :=
  s.setChIdx (if C ≤ s.chIdx.toNat + 1 then 0 else BitVec.ofNat 6 (s.chIdx.toNat + 1))

/-- `D_CUR <- dst ; D_END <- dst + len ; CH_IDX <- 0` (43_mix_kernels.md R191, 46_volume.md R245). -/
def startKernel (dst len : Nat) (s : State) : State :=
  ((s.setDCur (BitVec.ofNat Config.addressWidth dst)).setDEnd (BitVec.ofNat (Config.addressWidth + 1) (dst + len))).setChIdx 0

/-! ## The buffer-manager port (20_memory.md R75 to R77) -/

/-- The buffer manager's next answer: the oldest one given, else a free one (R75; log entry 4). -/
def nextAnswer (s : State) : Config.Address :=
  match s.answers with
  | a :: _ => a
  | [] => Config.acquireAnswer s.free

/-- `Acquire(h)` as an effect: the answer is taken and the event recorded. -/
def acquire (h : Word) (s : State) : State :=
  let a := nextAnswer s
  match s.answers with
  | _ :: rest => (s.setAnswers rest).record (.acquire h a)
  | [] => (s.draw 1).record (.acquire h a)

/-- `Release(S_CHUNK[i])` for `n` streams from stream `i` up (45_mix_command.md R228). -/
def releaseAll : Nat → Nat → State → State
  | 0, _, s => s
  | n + 1, i, s => releaseAll n (i + 1) (s.record (.release (s.sChunkAt i)))

/-- Acquire one stream's buffer and check its address (45_mix_command.md R221 lines 9 to 12). -/
def acquireStream (i : Nat) (s : State) : Progress :=
  let a := nextAnswer s
  let s1 := acquire (s.sChunkAt i) s
  if a = 0 then .halt (takeFault .null i 0 s1)
  else if Config.memSize < a.toNat + (s1.sAvailAt i).toNat then .halt (takeFault .addrWrap i 0 s1)
  else .on (s1.setSPtr i a)

/-- Acquire `n` streams from stream `i` up. -/
def acquireAll : Nat → Nat → State → Progress
  | 0, _, s => .on s
  | n + 1, i, s => (acquireStream i s).andThen (acquireAll n (i + 1))

/-! ## The RESET event (70_reset_and_hazards.md R300) -/

/-- Replay the memory writes of a list of events. -/
def replayWrites : List Event → Memory → Memory
  | [], m => m
  | .write a b :: rest, m => replayWrites rest (m.store a b)
  | _ :: rest, m => replayWrites rest m

/-- How many acquires a list of events holds. -/
def countAcquires : List Event → Nat
  | [] => 0
  | .acquire _ _ :: rest => countAcquires rest + 1
  | _ :: rest => countAcquires rest

/-- The RESET event, with `evs` the events an abandoned command had performed: every piece of MIXK's state at its reset
value; the surroundings (sample memory, history, answers, the host's moves and reads) keep what has happened, and `n` free
values have been drawn (R300; log entry 17). -/
def resetMachine (evs : List Event) (n : Nat) (s : State) : State :=
  { State.reset with
    mem := replayWrites evs s.mem
    hist := s.hist ++ evs
    host := s.host
    reads := s.reads
    answers := s.answers.drop (countAcquires evs)
    free := n }

end Sys2Proof.Machine
end

