-- ==== Sys2Proof/Machine/Linearizer.lean ====
section
/-! DEFINITION. The Volume Linearizer (40_linearizer.md): `LIN.I`, `LIN.F`, the ratio check and the padding rule. -/

namespace Sys2Proof.Machine

/-- `check_ratio` passes: the ratio is no NaN, no infinity, not `-0.0` and not negative (R133). -/
def ratioOk (r : DWord) : Bool := decide (r.toNat < 0x7FF0000000000000)

/-- A ratio as a Q16.16 gain, ties to even; none above 0x7FFFFFFF (R131, 41_gain_calculator.md R141). A product with 65536
that overflows binary64 is above the bound too (log entry 13). -/
def fixedGain (r : DWord) : Option Word :=
  match rintEven (f64Mul r 0x40F0000000000000) with
  | some q => if 0x7FFFFFFF < q then none else some (BitVec.ofInt 32 q)
  | none => none

/-- A ratio as a binary32 gain; none where it rounds to an infinity (R132, 41_gain_calculator.md R142). -/
def floatGain (r : DWord) : Option Word :=
  let g := f32OfF64 r
  if f32IsInf g then none else some g

/-- The gain of a representation. -/
def gainOf : GainRepr → DWord → Option Word
  | .int => fixedGain
  | .flt => floatGain

/-- The linear gain of one level, or none where the linearizer raises F_GAIN_RANGE (R131 to R133). -/
def linGain (P : Config.Ports) (q : GainRepr) (l : Word) : Option Word :=
  if ratioOk (P.curve l) then gainOf q (P.curve l) else none

/-- Linearize `n` channels from channel `ch` up, ascending (R131, R132). -/
def linChannels (P : Config.Ports) (q : GainRepr) (vol : Nat → Word) : Nat → Nat → State → Progress
  | 0, _, s => .on s
  | n + 1, ch, s =>
    match linGain P q (vol ch) with
    | none => .halt (takeFault .gainRange noStream ch s)
    | some g => linChannels P q vol n (ch + 1) (s.setOlin ch g)

/-- `pad(C)`: `n` slots from slot `C + i` up, each a copy of slot `i`, ascending (R134). -/
def padFrom (C : Nat) : Nat → Nat → State → State
  | 0, _, s => s
  | n + 1, i, s => padFrom C n (i + 1) (s.setOlin (C + i) (s.olinAt i))

/-- `LIN.I` or `LIN.F` of a volume (R130 to R134). -/
def linearize (P : Config.Ports) (q : GainRepr) (vol : Nat → Word) (C : Nat) (s : State) : Progress :=
  (linChannels P q vol C 0 s).andThen fun s1 => .on (padFrom C Config.padSlots 0 s1)

end Sys2Proof.Machine
end

