-- ==== Sys2Proof/Machine/Gain.lean ====
section
/-! DEFINITION. The Stream Gain Calculator (41_gain_calculator.md): `GAIN.I`, `GAIN.F`. -/

namespace Sys2Proof.Machine

/-- The combined gain of a stream level with a linearized output gain, or none where the calculator raises F_GAIN_RANGE:
the ratio check, one binary64 product, then the representation (R141, R142). -/
def streamGain (P : Config.Ports) (q : GainRepr) (l out : Word) : Option Word :=
  if ratioOk (P.curve l) then gainOf q (f64Mul (P.curve l) (f64OfF32 out)) else none

/-- Stream `i`: `n` channels from channel `ch` up, ascending. -/
def gainChannels (P : Config.Ports) (q : GainRepr) (i : Nat) : Nat → Nat → State → Progress
  | 0, _, s => .on s
  | n + 1, ch, s =>
    match streamGain P q (s.sVolAt i ch) (s.olinAt ch) with
    | none => .halt (takeFault .gainRange i ch s)
    | some g => gainChannels P q i n (ch + 1) (s.setSgain i ch g)

/-- `n` streams from stream `i` up, ascending, each over `C` channels. -/
def gainStreams (P : Config.Ports) (q : GainRepr) (C : Nat) : Nat → Nat → State → Progress
  | 0, _, s => .on s
  | n + 1, i, s => (gainChannels P q i C 0 s).andThen (gainStreams P q C n (i + 1))

/-- `GAIN.I(NS, C)` or `GAIN.F(NS, C)` (R140 to R142). -/
def calcGains (P : Config.Ports) (q : GainRepr) (NS C : Nat) (s : State) : Progress := gainStreams P q C NS 0 s

end Sys2Proof.Machine
end

