-- ==== Sys2Proof/Machine/Codec.lean ====
section
/-! DEFINITION. Sample decode, gain application, accumulation, clamp and encode (42_sample_codec.md), gathered for each
format in the `Lane` a kernel of that format runs. -/

namespace Sys2Proof.Machine

/-! ## Byte order (30_encoding.md R95 to R99) -/

/-- The unsigned number whose least significant byte comes first. -/
def leNat : List Byte → Nat
  | [] => 0
  | b :: bs => b.toNat + 256 * leNat bs

/-- The low `n` bytes of a number, least significant first. -/
def leBytes : Nat → Nat → List Byte
  | 0, _ => []
  | n + 1, u => BitVec.ofNat 8 u :: leBytes n (u / 256)

/-- `raw`, assembled from the bytes of one sample in the tag's own order. -/
def rawOf (e : Endian) (b : List Byte) : Nat :=
  match e with
  | .le => leNat b
  | .be => leNat b.reverse

/-- The bytes of one sample in the tag's own order. -/
def bytesOf (e : Endian) (n u : Nat) : List Byte :=
  match e with
  | .le => leBytes n u
  | .be => (leBytes n u).reverse

/-! ## Decode (R152 to R159) -/

/-- `sext` of the low `n` bits of a number. -/
def sext (n u : Nat) : Int := (BitVec.ofNat n u).toInt

/-- `DEC_U8` (R152). -/
def decU8 (b : List Byte) : Int := (b.headD 0).toNat - 0x80

/-- `DEC_ALAW` (R153). -/
def decALaw (P : Config.Ports) (b : List Byte) : Int := (P.expandA (b.headD 0)).toInt

/-- `DEC_ULAW` (R154). -/
def decULaw (P : Config.Ports) (b : List Byte) : Int := (P.expandU (b.headD 0)).toInt

/-- `DEC_S16LE`, `DEC_S16BE` (R155). -/
def decS16 (e : Endian) (b : List Byte) : Int := sext 16 (rawOf e b)

/-- `DEC_S24LE`, `DEC_S24BE` (R156): the sample in bits 31:8. -/
def decS24 (e : Endian) (b : List Byte) : Int := sext 24 (rawOf e b) * 256

/-- `DEC_S24_32LE`, `DEC_S24_32BE` (R157): the container shifted left by 8 in 32 bits. -/
def decS2432 (e : Endian) (b : List Byte) : Int := sext 32 (rawOf e b * 256)

/-- `DEC_S32LE`, `DEC_S32BE` (R158). -/
def decS32 (e : Endian) (b : List Byte) : Int := sext 32 (rawOf e b)

/-- `DEC_F32LE`, `DEC_F32BE` (R159), as the encoding. -/
def decF32 (e : Endian) (b : List Byte) : Word := BitVec.ofNat 32 (rawOf e b)

/-! ## Gain application (R161 to R164) -/

/-- `NZ` for the integer representation (R161). -/
def nzInt (g : Word) : Bool := g != 0

/-- `NZ` for the float representation (R161). -/
def nzFlt (g : Word) : Bool := f32Ne0 g

/-- `APPLY16` (R162): the hi/lo rule, every product and the sum wrapped to 32 bits, the shift arithmetic. -/
def apply16 (v : Int) (g : Word) : Word :=
  let lo : Int := (g.toNat % 2 ^ 16 : Nat)
  let hi : Int := sext 16 (g.toNat / 2 ^ 16)
  (BitVec.ofInt 32 (v * lo)).sshiftRight 16 + BitVec.ofInt 32 (v * hi)

/-- `APPLY64` (R163): the wide multiply and an arithmetic shift. -/
def apply64 (v : Int) (g : Word) : DWord := (BitVec.ofInt 64 (v * g.toInt)).sshiftRight 16

/-- `APPLYF` (R164): direct multiply. -/
def applyF (v g : Word) : Word := f32Mul v g

/-! ## Clamp and encode (R160, R170 to R177) -/

/-- `clamp(x, lo, hi)` (00_scope.md R10). -/
def clamp (x lo hi : Int) : Int := if x < lo then lo else if hi < x then hi else x

/-- `x >>a n`: floor division by `2^n` (00_scope.md R10). -/
def floorShift (x : Int) (n : Nat) : Int := x / 2 ^ n

/-- `x mod 2^n` as a natural number. -/
def lowBits (n : Nat) (x : Int) : Nat := (BitVec.ofInt n x).toNat

/-- `ENC_U8` (R170). -/
def encU8 (y : Int) : List Byte := [BitVec.ofInt 8 (y + 0x80)]

/-- `ENC_ALAW` (R172). -/
def encALaw (P : Config.Ports) (y : Int) : List Byte := [P.compressA (BitVec.ofInt 16 (floorShift y Config.shALaw))]

/-- `ENC_ULAW` (R173). -/
def encULaw (P : Config.Ports) (y : Int) : List Byte := [P.compressU (BitVec.ofInt 16 (floorShift y Config.shULaw))]

/-- `ENC_S16LE`, `ENC_S16BE` (R171). -/
def encS16 (e : Endian) (y : Int) : List Byte := bytesOf e 2 (lowBits 16 y)

/-- `ENC_S24LE`, `ENC_S24BE` (R174): bits 31:8. -/
def encS24 (e : Endian) (y : Int) : List Byte := bytesOf e 3 (lowBits 32 y / 256)

/-- `ENC_S24_32LE`, `ENC_S24_32BE` (R175): bits 31:8, the container's top byte zero. -/
def encS2432 (e : Endian) (y : Int) : List Byte := bytesOf e 4 (lowBits 32 y / 256)

/-- `ENC_S32LE`, `ENC_S32BE` (R176). -/
def encS32 (e : Endian) (y : Int) : List Byte := bytesOf e 4 (lowBits 32 y)

/-- `ENC_F32LE`, `ENC_F32BE` (R177): a NaN is written with the pattern `nan`, any other datum with its encoding. -/
def encF32 (e : Endian) (nan y : Word) : List Byte := bytesOf e 4 (if f32IsNaN y then nan else y).toNat

/-! ## The lane of a format -/

/-- What the common algorithm of 43_mix_kernels.md R191 and 46_volume.md R245 takes from a format: width, accumulator,
`NZ`, `APPLY` after `DEC`, `ADD`, and `ENC` after `CLAMP`. -/
structure Lane where
  Acc : Type
  width : Nat
  zero : Acc
  nz : Word → Bool
  term : List Byte → Word → Acc
  add : Acc → Acc → Acc
  draws : Acc → Nat
  out : Word → Acc → List Byte
  park : Acc → State → State

/-- Groups G8 and G16 (R150): a 32-bit accumulator, the hi/lo rule, addition modulo `2^32` (R165), the given clamp. -/
def lane32 (w : Nat) (dec : List Byte → Int) (lo hi : Int) (enc : Int → List Byte) : Lane where
  Acc := Word
  width := w
  zero := 0
  nz := nzInt
  term b g := apply16 (dec b) g
  add x y := x + y
  draws _ := 0
  out _ x := enc (clamp x.toInt lo hi)
  park x s := s.setAcc32 x

/-- Group G64 (R150): a 64-bit accumulator, the wide multiply, the 32-bit clamp. -/
def lane64 (w : Nat) (dec : List Byte → Int) (enc : Int → List Byte) : Lane where
  Acc := DWord
  width := w
  zero := 0
  nz := nzInt
  term b g := apply64 (dec b) g
  add x y := x + y
  draws _ := 0
  out _ x := enc (clamp x.toInt (-0x80000000) 0x7FFFFFFF)
  park x s := s.setAcc64 x

/-- Group GF (R150): a binary32 accumulator from `+0.0`, direct multiply, no clamp; a NaN draws its pattern. -/
def laneF (e : Endian) : Lane where
  Acc := Word
  width := 4
  zero := 0
  nz := nzFlt
  term b g := applyF (decF32 e b) g
  add x y := f32Add x y
  draws x := if f32IsNaN x then 1 else 0
  out nan x := encF32 e nan x
  park x s := s.setAccF x

/-- The functions of each format (43_mix_kernels.md R195 to R207, 46_volume.md R250 to R262). -/
def laneOf (P : Config.Ports) : Fmt → Lane
  | .u8 => lane32 1 decU8 (-0x80) 0x7F encU8
  | .alaw => lane32 1 (decALaw P) (-0x8000) 0x7FFF (encALaw P)
  | .ulaw => lane32 1 (decULaw P) (-0x8000) 0x7FFF (encULaw P)
  | .s16le => lane32 2 (decS16 .le) (-0x8000) 0x7FFF (encS16 .le)
  | .s16be => lane32 2 (decS16 .be) (-0x8000) 0x7FFF (encS16 .be)
  | .s32le => lane64 4 (decS32 .le) (encS32 .le)
  | .s32be => lane64 4 (decS32 .be) (encS32 .be)
  | .s24le => lane64 3 (decS24 .le) (encS24 .le)
  | .s24be => lane64 3 (decS24 .be) (encS24 .be)
  | .s2432le => lane64 4 (decS2432 .le) (encS2432 .le)
  | .s2432be => lane64 4 (decS2432 .be) (encS2432 .be)
  | .f32le => laneF .le
  | .f32be => laneF .be

end Sys2Proof.Machine
end

