-- ==== Sys2Proof/Machine/Kernel.lean ====
section
/-! DEFINITION. The mixing kernels (43_mix_kernels.md) and the in-place volume kernels (46_volume.md R245): the two common
algorithms over a format's lane. -/

namespace Sys2Proof.Machine

/-- `MemWrite(a, W, ENC(CLAMP(acc)))`: encode and write one sample; a NaN draws its free pattern. -/
def writeSample (L : Lane) (a : Nat) (acc : L.Acc) (s : State) : State :=
  (s.writeBytes a (L.out (Config.quietNaN s.free) acc)).draw (L.draws acc)

/-- One stream's share of a slot: the sample is read, multiplied and added only if the gain is nonzero (R192). -/
def addStream (L : Lane) (i : Nat) (acc : L.Acc) (s : State) : L.Acc :=
  let g := s.sgainAt i s.chIdx.toNat
  if L.nz g then L.add acc (L.term (s.readBytes (s.sPtrAt i).toNat L.width) g) else acc

/-- One stream's effects at a slot: the read if the gain is nonzero (R192), and the cursor's advance always (R193). -/
def passStream (L : Lane) (i : Nat) (s : State) : State :=
  advancePtr i L.width
    (if L.nz (s.sgainAt i s.chIdx.toNat) then s.readEvent (s.sPtrAt i).toNat L.width else s)

/-- `n` streams from stream `i` up, ascending: the accumulator and the state after them (R191). -/
def mixStreams (L : Lane) : Nat → Nat → L.Acc → State → L.Acc × State
  | 0, _, acc, s => (acc, s)
  | n + 1, i, acc, s => mixStreams L n (i + 1) (addStream L i acc s) (passStream L i s)

/-- One sample slot at destination address `a` (R191). -/
def mixSlot (L : Lane) (C NS a : Nat) (s : State) : State :=
  let r := mixStreams L NS 0 L.zero s
  nextChannel C (moveDest (a + L.width) (writeSample L a r.1 (L.park r.1 r.2)))

/-- `n` sample slots from destination address `a` up. -/
def mixSlots (L : Lane) (C NS : Nat) : Nat → Nat → State → State
  | 0, _, s => s
  | n + 1, a, s => mixSlots L C NS n (a + L.width) (mixSlot L C NS a s)

/-- A mixing kernel over `len` bytes of destination: `len / W` slots (R190, R191). -/
def runMixKernel (L : Lane) (C NS dst len : Nat) (s : State) : State :=
  mixSlots L C NS (len / L.width) dst (startKernel dst len s)

/-- One slot of an in-place volume kernel at address `a`: read, decode, multiply, clamp, encode, write (46_volume.md R245).
There is no accumulator and no test of the gain (R246). -/
def volSlot (L : Lane) (C a : Nat) (s : State) : State :=
  let t := L.term (s.readBytes a L.width) (s.olinAt s.chIdx.toNat)
  nextChannel C (moveDest (a + L.width) (writeSample L a t (s.readEvent a L.width)))

/-- `n` slots from address `a` up. -/
def volSlots (L : Lane) (C : Nat) : Nat → Nat → State → State
  | 0, _, s => s
  | n + 1, a, s => volSlots L C n (a + L.width) (volSlot L C a s)

/-- An in-place volume kernel over `len` bytes. -/
def runVolKernel (L : Lane) (C buf len : Nat) (s : State) : State :=
  volSlots L C (len / L.width) buf (startKernel buf len s)

/-! ## Kernel ids (30_encoding.md R100, 43_mix_kernels.md R208) -/

/-- The tag whose mixing kernel a native (`N`) or reversed (`R`) id denotes: the LE tag for a native id of an LE block and
for a reversed id of a BE block, else the BE tag. -/
def byOrder (e : Endian) (native : Bool) (le be : Fmt) : Fmt :=
  match e, native with
  | .le, true | .be, false => le
  | .le, false | .be, true => be

/-- The format whose mixing kernel a built-in id denotes (R100, R208); none for a reserved or external id. -/
def kernelOf (e : Endian) (k : BitVec 8) : Option Fmt :=
  match k.toNat with
  | 0x00 => some .u8
  | 0x01 => some .alaw
  | 0x02 => some .ulaw
  | 0x03 => some (byOrder e true .s16le .s16be)
  | 0x04 => some (byOrder e false .s16le .s16be)
  | 0x05 => some (byOrder e true .s32le .s32be)
  | 0x06 => some (byOrder e false .s32le .s32be)
  | 0x07 => some (byOrder e true .s24le .s24be)
  | 0x08 => some (byOrder e false .s24le .s24be)
  | 0x09 => some (byOrder e true .s2432le .s2432be)
  | 0x0A => some (byOrder e false .s2432le .s2432be)
  | 0x0B => some (byOrder e true .f32le .f32be)
  | 0x0C => some (byOrder e false .f32le .f32be)
  | _ => none

/-- The ids `SETK` accepts: built-in, or in the domain of EXT_KERNELS (44_dispatch.md R213). -/
def validKernel (k : BitVec 8) : Bool := decide (k.toNat ≤ 0x0C) || Config.extKernel k

end Sys2Proof.Machine
end

