-- ==== Sys2Proof/Machine/Mix.lean ====
section
/-! DEFINITION. The MIX command (45_mix_command.md): the whole command once, over its format, and the meaning of each of the
thirteen commands. -/

namespace Sys2Proof.Machine

/-- Lines 4 and 5 of R221: the silence path (R224). -/
def mixSilence (F : Fmt) (s : State) : State := ((fillSilence F s).setRet s.len).complete

/-- Lines 16 to 19 of R221: read `KTAB[F]`, run the kernel it names, release, return. The command is refused where the
entry is no built-in kernel or the length no multiple of its width (R227; log entries 14, 15). -/
def mixDispatch (P : Config.Ports) (F : Fmt) (C NS : Nat) (s : State) : Host.Outcome State Fault Refusal :=
  match kernelOf Config.nativeEndian (s.ktabAt F) with
  | none => .refused (.kernelNotBuiltIn (s.ktabAt F))
  | some K =>
    if s.effLen.toNat % width K = 0 then
      .next ((releaseAll NS 0 (runMixKernel (laneOf P K) C NS s.dst.toNat s.effLen.toNat s)).setRet s.effLen).complete
    else .refused (.kernelWidthMisfit (s.ktabAt F) s.effLen.toNat)

/-- Lines 8 to 15 of R221: acquire, bound the length, linearize the output volume as floats, calculate the gains. -/
def mixPrepare (P : Config.Ports) (F : Fmt) (C NS : Nat) (hasvol : Bool) (s : State) : Progress :=
  (acquireAll NS 0 s).andThen fun s1 =>
    (linearize P .flt (outVol hasvol s) C (s1.setEffLen (BitVec.ofNat Config.lengthWidth (effectiveLength NS s)))).andThen
      (calcGains P (gainRepr F) NS C)

/-- The state a MIX has reached before it reads `KTAB[F]`: all the events it has performed by then are its acquires. -/
def mixReached (P : Config.Ports) (F : Fmt) (C NS : Nat) (hasvol : Bool) (s : State) : State :=
  match mixPrepare P F C NS hasvol s with
  | .halt t => t
  | .on t => t

/-- Lines 6 to 19 of R221: the stream checks, then the kernel path. -/
def mixStreamsPath (P : Config.Ports) (F : Fmt) (C NS : Nat) (hasvol : Bool) (s : State) :
    Host.Outcome State Fault Refusal :=
  match misalignedStream F C NS s with
  | some i => .next (takeFault .streamAlign i 0 s)
  | none =>
    match mixPrepare P F C NS hasvol s with
    | .halt t => .next t
    | .on s1 => mixDispatch P F C NS s1

/-- `MIX.<F>`, the whole command (R221), with function parameters `P`. -/
def mixCommand (P : Config.Ports) (F : Fmt) (C NS : Nat) (mute hasvol : Bool) (s : State) :
    Host.Outcome State Fault Refusal :=
  match validate F C NS s with
  | some c => .next (takeFault c noStream 0 s)
  | none => if mixSilent C NS mute hasvol s then .next (mixSilence F s) else mixStreamsPath P F C NS hasvol s

/-- `MIX.U8` (R221 with the kernel of 43_mix_kernels.md R195). -/
def execMixU8 (ch ns : Nat) (mute hasvol : Bool) (s : State) : Host.Outcome State Fault Refusal :=
  mixCommand Config.ports .u8 ch ns mute hasvol s

/-- `MIX.ALAW` (R221 with the kernel of 43_mix_kernels.md R196). -/
def execMixALaw (ch ns : Nat) (mute hasvol : Bool) (s : State) : Host.Outcome State Fault Refusal :=
  mixCommand Config.ports .alaw ch ns mute hasvol s

/-- `MIX.ULAW` (R221 with the kernel of 43_mix_kernels.md R197). -/
def execMixULaw (ch ns : Nat) (mute hasvol : Bool) (s : State) : Host.Outcome State Fault Refusal :=
  mixCommand Config.ports .ulaw ch ns mute hasvol s

/-- `MIX.S16LE` (R221 with the kernel of 43_mix_kernels.md R198). -/
def execMixS16LE (ch ns : Nat) (mute hasvol : Bool) (s : State) : Host.Outcome State Fault Refusal :=
  mixCommand Config.ports .s16le ch ns mute hasvol s

/-- `MIX.S16BE` (R221 with the kernel of 43_mix_kernels.md R199). -/
def execMixS16BE (ch ns : Nat) (mute hasvol : Bool) (s : State) : Host.Outcome State Fault Refusal :=
  mixCommand Config.ports .s16be ch ns mute hasvol s

/-- `MIX.S32LE` (R221 with the kernel of 43_mix_kernels.md R200). -/
def execMixS32LE (ch ns : Nat) (mute hasvol : Bool) (s : State) : Host.Outcome State Fault Refusal :=
  mixCommand Config.ports .s32le ch ns mute hasvol s

/-- `MIX.S32BE` (R221 with the kernel of 43_mix_kernels.md R201). -/
def execMixS32BE (ch ns : Nat) (mute hasvol : Bool) (s : State) : Host.Outcome State Fault Refusal :=
  mixCommand Config.ports .s32be ch ns mute hasvol s

/-- `MIX.S24LE` (R221 with the kernel of 43_mix_kernels.md R202). -/
def execMixS24LE (ch ns : Nat) (mute hasvol : Bool) (s : State) : Host.Outcome State Fault Refusal :=
  mixCommand Config.ports .s24le ch ns mute hasvol s

/-- `MIX.S24BE` (R221 with the kernel of 43_mix_kernels.md R203). -/
def execMixS24BE (ch ns : Nat) (mute hasvol : Bool) (s : State) : Host.Outcome State Fault Refusal :=
  mixCommand Config.ports .s24be ch ns mute hasvol s

/-- `MIX.S24_32LE` (R221 with the kernel of 43_mix_kernels.md R204). -/
def execMixS2432LE (ch ns : Nat) (mute hasvol : Bool) (s : State) : Host.Outcome State Fault Refusal :=
  mixCommand Config.ports .s2432le ch ns mute hasvol s

/-- `MIX.S24_32BE` (R221 with the kernel of 43_mix_kernels.md R205). -/
def execMixS2432BE (ch ns : Nat) (mute hasvol : Bool) (s : State) : Host.Outcome State Fault Refusal :=
  mixCommand Config.ports .s2432be ch ns mute hasvol s

/-- `MIX.F32LE` (R221 with the kernel of 43_mix_kernels.md R206). -/
def execMixF32LE (ch ns : Nat) (mute hasvol : Bool) (s : State) : Host.Outcome State Fault Refusal :=
  mixCommand Config.ports .f32le ch ns mute hasvol s

/-- `MIX.F32BE` (R221 with the kernel of 43_mix_kernels.md R207). -/
def execMixF32BE (ch ns : Nat) (mute hasvol : Bool) (s : State) : Host.Outcome State Fault Refusal :=
  mixCommand Config.ports .f32be ch ns mute hasvol s

end Sys2Proof.Machine
end

