-- ==== Sys2Proof/Machine/Table.lean ====
section
/-! DEFINITION. The accessors of the dispatch table (44_dispatch.md R210 to R218): GETK and SETK for each format. -/

namespace Sys2Proof.Machine

/-- `GETK.<F>` (R212): `RET` becomes the zero-extended kernel id, and the command completes. -/
def getkCommand (F : Fmt) (s : State) : State := (s.setRet ((s.ktabAt F).setWidth 32)).complete

/-- The kernel id operand of `SETK`: `KARG[7:0]` (10_state.md R28). -/
def kernelArg (s : State) : BitVec 8 := s.karg.setWidth 8

/-- `SETK.<F>` (R213): a valid id is bound to the format and the command completes; an invalid one is F_BAD_KERNEL. -/
def setkCommand (F : Fmt) (s : State) : State :=
  if validKernel (kernelArg s) then (s.setKtab F (kernelArg s)).complete else takeFault .badKernel noStream 0 s

/-- `GETK.U8` (R212). -/
def execGetkU8 (s : State) : Host.Outcome State Fault Refusal := .next (getkCommand .u8 s)

/-- `GETK.ALAW` (R212). -/
def execGetkALaw (s : State) : Host.Outcome State Fault Refusal := .next (getkCommand .alaw s)

/-- `GETK.ULAW` (R212). -/
def execGetkULaw (s : State) : Host.Outcome State Fault Refusal := .next (getkCommand .ulaw s)

/-- `GETK.S16LE` (R212). -/
def execGetkS16LE (s : State) : Host.Outcome State Fault Refusal := .next (getkCommand .s16le s)

/-- `GETK.S16BE` (R212). -/
def execGetkS16BE (s : State) : Host.Outcome State Fault Refusal := .next (getkCommand .s16be s)

/-- `GETK.S32LE` (R212). -/
def execGetkS32LE (s : State) : Host.Outcome State Fault Refusal := .next (getkCommand .s32le s)

/-- `GETK.S32BE` (R212). -/
def execGetkS32BE (s : State) : Host.Outcome State Fault Refusal := .next (getkCommand .s32be s)

/-- `GETK.S24LE` (R212). -/
def execGetkS24LE (s : State) : Host.Outcome State Fault Refusal := .next (getkCommand .s24le s)

/-- `GETK.S24BE` (R212). -/
def execGetkS24BE (s : State) : Host.Outcome State Fault Refusal := .next (getkCommand .s24be s)

/-- `GETK.S24_32LE` (R212). -/
def execGetkS2432LE (s : State) : Host.Outcome State Fault Refusal := .next (getkCommand .s2432le s)

/-- `GETK.S24_32BE` (R212). -/
def execGetkS2432BE (s : State) : Host.Outcome State Fault Refusal := .next (getkCommand .s2432be s)

/-- `GETK.F32LE` (R212). -/
def execGetkF32LE (s : State) : Host.Outcome State Fault Refusal := .next (getkCommand .f32le s)

/-- `GETK.F32BE` (R212). -/
def execGetkF32BE (s : State) : Host.Outcome State Fault Refusal := .next (getkCommand .f32be s)

/-- `SETK.U8` (R213). -/
def execSetkU8 (s : State) : Host.Outcome State Fault Refusal := .next (setkCommand .u8 s)

/-- `SETK.ALAW` (R213). -/
def execSetkALaw (s : State) : Host.Outcome State Fault Refusal := .next (setkCommand .alaw s)

/-- `SETK.ULAW` (R213). -/
def execSetkULaw (s : State) : Host.Outcome State Fault Refusal := .next (setkCommand .ulaw s)

/-- `SETK.S16LE` (R213). -/
def execSetkS16LE (s : State) : Host.Outcome State Fault Refusal := .next (setkCommand .s16le s)

/-- `SETK.S16BE` (R213). -/
def execSetkS16BE (s : State) : Host.Outcome State Fault Refusal := .next (setkCommand .s16be s)

/-- `SETK.S32LE` (R213). -/
def execSetkS32LE (s : State) : Host.Outcome State Fault Refusal := .next (setkCommand .s32le s)

/-- `SETK.S32BE` (R213). -/
def execSetkS32BE (s : State) : Host.Outcome State Fault Refusal := .next (setkCommand .s32be s)

/-- `SETK.S24LE` (R213). -/
def execSetkS24LE (s : State) : Host.Outcome State Fault Refusal := .next (setkCommand .s24le s)

/-- `SETK.S24BE` (R213). -/
def execSetkS24BE (s : State) : Host.Outcome State Fault Refusal := .next (setkCommand .s24be s)

/-- `SETK.S24_32LE` (R213). -/
def execSetkS2432LE (s : State) : Host.Outcome State Fault Refusal := .next (setkCommand .s2432le s)

/-- `SETK.S24_32BE` (R213). -/
def execSetkS2432BE (s : State) : Host.Outcome State Fault Refusal := .next (setkCommand .s2432be s)

/-- `SETK.F32LE` (R213). -/
def execSetkF32LE (s : State) : Host.Outcome State Fault Refusal := .next (setkCommand .f32le s)

/-- `SETK.F32BE` (R213). -/
def execSetkF32BE (s : State) : Host.Outcome State Fault Refusal := .next (setkCommand .f32be s)

end Sys2Proof.Machine
end

