-- ==== Sys2Proof/Machine/Volume.lean ====
section
/-! DEFINITION. The APPLYVOL command (46_volume.md): the whole command once, over its format, and the meaning of each of the
thirteen commands `VOL.<F>`. -/

namespace Sys2Proof.Machine

/-- Lines 7 to 9 of R241: linearize the volume, run the format's own in-place kernel (`VKTAB`, 10_state.md R42), complete.
A fault of the linearizer ends the command. -/
def volKernelPath (P : Config.Ports) (F : Fmt) (C : Nat) (s : State) : State :=
  match linearize P (gainRepr F) s.ovolAt C s with
  | .halt t => t
  | .on s1 => (runVolKernel (laneOf P F) C s.dst.toNat s.len.toNat s1).complete

/-- `VOL.<F>`, the whole command (R241), with function parameters `P`. -/
def volCommand (P : Config.Ports) (F : Fmt) (C : Nat) (silent : Bool) (s : State) : Host.Outcome State Fault Refusal :=
  match validate F C 0 s with
  | some c => .next (takeFault c noStream 0 s)
  | none =>
    if volNoop C silent s then .next s.complete
    else if volMuted C s then .next (fillSilence F s).complete
    else .next (volKernelPath P F C s)

/-- `VOL.U8` (R241 with the kernel of R250). -/
def execVolU8 (ch : Nat) (silent : Bool) (s : State) : Host.Outcome State Fault Refusal :=
  volCommand Config.ports .u8 ch silent s

/-- `VOL.ALAW` (R241 with the kernel of R251). -/
def execVolALaw (ch : Nat) (silent : Bool) (s : State) : Host.Outcome State Fault Refusal :=
  volCommand Config.ports .alaw ch silent s

/-- `VOL.ULAW` (R241 with the kernel of R252). -/
def execVolULaw (ch : Nat) (silent : Bool) (s : State) : Host.Outcome State Fault Refusal :=
  volCommand Config.ports .ulaw ch silent s

/-- `VOL.S16LE` (R241 with the kernel of R253). -/
def execVolS16LE (ch : Nat) (silent : Bool) (s : State) : Host.Outcome State Fault Refusal :=
  volCommand Config.ports .s16le ch silent s

/-- `VOL.S16BE` (R241 with the kernel of R254). -/
def execVolS16BE (ch : Nat) (silent : Bool) (s : State) : Host.Outcome State Fault Refusal :=
  volCommand Config.ports .s16be ch silent s

/-- `VOL.S32LE` (R241 with the kernel of R255). -/
def execVolS32LE (ch : Nat) (silent : Bool) (s : State) : Host.Outcome State Fault Refusal :=
  volCommand Config.ports .s32le ch silent s

/-- `VOL.S32BE` (R241 with the kernel of R256). -/
def execVolS32BE (ch : Nat) (silent : Bool) (s : State) : Host.Outcome State Fault Refusal :=
  volCommand Config.ports .s32be ch silent s

/-- `VOL.S24LE` (R241 with the kernel of R257). -/
def execVolS24LE (ch : Nat) (silent : Bool) (s : State) : Host.Outcome State Fault Refusal :=
  volCommand Config.ports .s24le ch silent s

/-- `VOL.S24BE` (R241 with the kernel of R258). -/
def execVolS24BE (ch : Nat) (silent : Bool) (s : State) : Host.Outcome State Fault Refusal :=
  volCommand Config.ports .s24be ch silent s

/-- `VOL.S24_32LE` (R241 with the kernel of R259). -/
def execVolS2432LE (ch : Nat) (silent : Bool) (s : State) : Host.Outcome State Fault Refusal :=
  volCommand Config.ports .s2432le ch silent s

/-- `VOL.S24_32BE` (R241 with the kernel of R260). -/
def execVolS2432BE (ch : Nat) (silent : Bool) (s : State) : Host.Outcome State Fault Refusal :=
  volCommand Config.ports .s2432be ch silent s

/-- `VOL.F32LE` (R241 with the kernel of R261). -/
def execVolF32LE (ch : Nat) (silent : Bool) (s : State) : Host.Outcome State Fault Refusal :=
  volCommand Config.ports .f32le ch silent s

/-- `VOL.F32BE` (R241 with the kernel of R262). -/
def execVolF32BE (ch : Nat) (silent : Bool) (s : State) : Host.Outcome State Fault Refusal :=
  volCommand Config.ports .f32be ch silent s

end Sys2Proof.Machine
end

