-- ==== Sys2Proof/Machine/Dispatch.lean ====
section
/-! DEFINITION. The dispatch of a command to its meaning: one arm per constructor of `Instr`. -/

namespace Sys2Proof.Machine

def exec (i : Instr) (s : State) : Host.Outcome State Fault Refusal :=
  match i with
  | .mixU8 ch ns mute hasvol => Sys2Proof.Machine.execMixU8 ch ns mute hasvol s
  | .mixALaw ch ns mute hasvol => Sys2Proof.Machine.execMixALaw ch ns mute hasvol s
  | .mixULaw ch ns mute hasvol => Sys2Proof.Machine.execMixULaw ch ns mute hasvol s
  | .mixS16LE ch ns mute hasvol => Sys2Proof.Machine.execMixS16LE ch ns mute hasvol s
  | .mixS16BE ch ns mute hasvol => Sys2Proof.Machine.execMixS16BE ch ns mute hasvol s
  | .mixS32LE ch ns mute hasvol => Sys2Proof.Machine.execMixS32LE ch ns mute hasvol s
  | .mixS32BE ch ns mute hasvol => Sys2Proof.Machine.execMixS32BE ch ns mute hasvol s
  | .mixS24LE ch ns mute hasvol => Sys2Proof.Machine.execMixS24LE ch ns mute hasvol s
  | .mixS24BE ch ns mute hasvol => Sys2Proof.Machine.execMixS24BE ch ns mute hasvol s
  | .mixS2432LE ch ns mute hasvol => Sys2Proof.Machine.execMixS2432LE ch ns mute hasvol s
  | .mixS2432BE ch ns mute hasvol => Sys2Proof.Machine.execMixS2432BE ch ns mute hasvol s
  | .mixF32LE ch ns mute hasvol => Sys2Proof.Machine.execMixF32LE ch ns mute hasvol s
  | .mixF32BE ch ns mute hasvol => Sys2Proof.Machine.execMixF32BE ch ns mute hasvol s
  | .volU8 ch silent => Sys2Proof.Machine.execVolU8 ch silent s
  | .volALaw ch silent => Sys2Proof.Machine.execVolALaw ch silent s
  | .volULaw ch silent => Sys2Proof.Machine.execVolULaw ch silent s
  | .volS16LE ch silent => Sys2Proof.Machine.execVolS16LE ch silent s
  | .volS16BE ch silent => Sys2Proof.Machine.execVolS16BE ch silent s
  | .volS32LE ch silent => Sys2Proof.Machine.execVolS32LE ch silent s
  | .volS32BE ch silent => Sys2Proof.Machine.execVolS32BE ch silent s
  | .volS24LE ch silent => Sys2Proof.Machine.execVolS24LE ch silent s
  | .volS24BE ch silent => Sys2Proof.Machine.execVolS24BE ch silent s
  | .volS2432LE ch silent => Sys2Proof.Machine.execVolS2432LE ch silent s
  | .volS2432BE ch silent => Sys2Proof.Machine.execVolS2432BE ch silent s
  | .volF32LE ch silent => Sys2Proof.Machine.execVolF32LE ch silent s
  | .volF32BE ch silent => Sys2Proof.Machine.execVolF32BE ch silent s
  | .getkU8 => Sys2Proof.Machine.execGetkU8 s
  | .getkALaw => Sys2Proof.Machine.execGetkALaw s
  | .getkULaw => Sys2Proof.Machine.execGetkULaw s
  | .getkS16LE => Sys2Proof.Machine.execGetkS16LE s
  | .getkS16BE => Sys2Proof.Machine.execGetkS16BE s
  | .getkS32LE => Sys2Proof.Machine.execGetkS32LE s
  | .getkS32BE => Sys2Proof.Machine.execGetkS32BE s
  | .getkS24LE => Sys2Proof.Machine.execGetkS24LE s
  | .getkS24BE => Sys2Proof.Machine.execGetkS24BE s
  | .getkS2432LE => Sys2Proof.Machine.execGetkS2432LE s
  | .getkS2432BE => Sys2Proof.Machine.execGetkS2432BE s
  | .getkF32LE => Sys2Proof.Machine.execGetkF32LE s
  | .getkF32BE => Sys2Proof.Machine.execGetkF32BE s
  | .setkU8 => Sys2Proof.Machine.execSetkU8 s
  | .setkALaw => Sys2Proof.Machine.execSetkALaw s
  | .setkULaw => Sys2Proof.Machine.execSetkULaw s
  | .setkS16LE => Sys2Proof.Machine.execSetkS16LE s
  | .setkS16BE => Sys2Proof.Machine.execSetkS16BE s
  | .setkS32LE => Sys2Proof.Machine.execSetkS32LE s
  | .setkS32BE => Sys2Proof.Machine.execSetkS32BE s
  | .setkS24LE => Sys2Proof.Machine.execSetkS24LE s
  | .setkS24BE => Sys2Proof.Machine.execSetkS24BE s
  | .setkS2432LE => Sys2Proof.Machine.execSetkS2432LE s
  | .setkS2432BE => Sys2Proof.Machine.execSetkS2432BE s
  | .setkF32LE => Sys2Proof.Machine.execSetkF32LE s
  | .setkF32BE => Sys2Proof.Machine.execSetkF32BE s

end Sys2Proof.Machine
end

