-- ==== Sys2Proof/Machine/Run.lean ====
section
/-! DEFINITION. What one step does: the command a BUSY context runs, and the moves of the host (30_encoding.md R105;
10_state.md R23, R39; 70_reset_and_hazards.md R300, R311 to R313). -/

namespace Sys2Proof.Machine

/-! ## Running the command in `CMD` -/

/-- The fault of a word that is no command (30_encoding.md R103). -/
def rejectCode : Reject → FaultCode
  | .illegalCommand => .illegalCmd
  | .badFormat => .format

/-- Run the command in `CMD` to its end (70_reset_and_hazards.md R318). A word that is no command takes its fault: steps 1
and 2 of 60_exceptions.md R275. -/
def runCommand (s : State) : Host.Outcome State Fault Refusal :=
  match decode s.cmd with
  | .instr i => exec i s
  | .rejected r => .next (takeFault (rejectCode r) noStream 0 s)

/-! ## Host register accesses (10_state.md R38, R39) -/

/-- A write of a register other than `CMD` that takes effect; RO registers ignore it (R39 a). -/
def writeReg (r : Reg) (v : Word) (s : State) : State :=
  match r with
  | .dst => { s with dst := v }
  | .len => { s with len := v }
  | .karg => { s with karg := v }
  | .ovol ch => { s with ovol := s.ovol.setIfInBounds ch v }
  | .sChunk i => { s with sChunk := s.sChunk.setIfInBounds i v }
  | .sAvail i => { s with sAvail := s.sAvail.setIfInBounds i v }
  | .sVol i ch =>
    { s with sVol := s.sVol.setIfInBounds i ((elem (Vector.replicate _ 0) s.sVol i).setIfInBounds ch v) }
  | .cmd | .status | .ret | .finfo | .olin _ | .sPtr _ | .sgain _ _ => s

/-- A write of `CMD`: it stores the word and starts the command, or is dropped (10_state.md R22, R23). -/
def writeCmd (v : Word) (s : State) : State :=
  if acceptsCommand s then { s with cmd := v, seq := .busy } else s

/-- `WR`: a host write at a byte offset (R23, R39 a and b). -/
def hostWrite (off : Nat) (v : Word) (s : State) : State :=
  match regAt off with
  | some .cmd => writeCmd v s
  | some r => if acceptsWrite s then writeReg r v s else s
  | none => s

/-- The value of a register (10_state.md section 3). -/
def regValue (r : Reg) (s : State) : Word :=
  match r with
  | .cmd => s.cmd
  | .status => statusWord s
  | .dst => s.dst
  | .len => s.len
  | .ret => s.ret
  | .karg => s.karg
  | .finfo => s.finfo
  | .ovol ch => s.ovolAt ch
  | .olin i => s.olinAt i
  | .sChunk i => s.sChunkAt i
  | .sAvail i => s.sAvailAt i
  | .sPtr i => s.sPtrAt i
  | .sVol i ch => s.sVolAt i ch
  | .sgain i ch => s.sgainAt i ch

/-- The registers whose value the host is not told while the context is BUSY (10_state.md R39 c; 93_implementation_defined.md
U11; log entry 11). -/
def hiddenWhileBusy : Reg → Bool
  | .olin _ | .sgain _ _ | .sPtr _ | .ret => true
  | .cmd | .status | .dst | .len | .karg | .finfo | .ovol _ | .sChunk _ | .sAvail _ | .sVol _ _ => false

/-- A value the host has read. -/
def returnRead (v : Word) (s : State) : State := { s with reads := s.reads ++ [v] }

/-- `RD`: a host read at a byte offset: the current value, a free one where R39 c leaves it open, 0 at a reserved offset. No
side effect on MIXK. The free value is numbered by the reads so far, so that a read moves no answer of the buffer manager. -/
def hostRead (off : Nat) (s : State) : State :=
  match regAt off with
  | some r =>
    if s.seq = .busy ∧ hiddenWhileBusy r then returnRead (Config.busyRead s.reads.length) s
    else returnRead (regValue r s) s
  | none => returnRead 0 s

/-! ## Host writes of sample memory (20_memory.md R60, R73) -/

/-- The running command writes the destination `DST .. DST+LEN-1`: it is a MIX or a VOL. -/
def hasDestination (w : Word) : Bool := field w 3 0 == 1 || field w 3 0 == 2

/-- The address lies in the `len` bytes from `base` up. -/
def inWindow (base len a : Nat) : Bool := decide (base ≤ a ∧ a < base + len)

/-- The address lies in the destination of the command in `CMD` (R73 b). -/
def inDestination (a : Nat) (s : State) : Bool := hasDestination s.cmd && inWindow s.dst.toNat s.len.toNat a

/-- The streams whose buffers the command in `CMD` acquires when it runs; none unless its word is a MIX's. -/
def acquiredStreams (s : State) : List Nat :=
  match Fmt.ofTag (field s.cmd 7 4) with
  | some F =>
    if cleanWord s.cmd = true ∧ field s.cmd 3 0 = 1 then
      (List.range (field s.cmd 19 14)).filter
        (acquiresStream F (field s.cmd 13 8) (field s.cmd 19 14) (field s.cmd 20 20 == 1) (field s.cmd 21 21 == 1) s)
    else []
  | none => []

/-- The address lies in a window the command in `CMD` acquires when it runs (R73 a, R77). DESIGN CHOICE (log entry 19):
R312 keeps the host's hands off "the command's footprint" from the `CMD` write on, when no answer is known yet; the model takes
the windows of exactly the acquires the command will issue, at the answers they will get (log entry 4), which no move of the
host changes. A command that faults before an acquire has no window for it. -/
def inSource (a : Nat) (s : State) : Bool :=
  (acquiredStreams s).any fun i => inWindow (answerAt s i).toNat (s.sAvailAt i).toNat a

/-- The address lies in the footprint of the BUSY command, which the host keeps its hands off from the `CMD` write on
(70_reset_and_hazards.md R312; log entry 19). -/
def inBusyFootprint (a : Nat) (s : State) : Bool := s.seq == .busy && (inDestination a s || inSource a s)

/-- A host write of one byte of sample memory. -/
def hostPoke (a : Nat) (v : Byte) (s : State) : Host.Outcome State Fault Refusal :=
  if Config.memSize ≤ a then .fault (.noSuchAddress a)
  else if inBusyFootprint a s then .refused (.bufferRace a)
  else .next (s.setMem (s.mem.put a v))

/-! ## RESET (70_reset_and_hazards.md R300) -/

/-- The events a run has added to the history. -/
def newEvents (s t : State) : List Event := t.hist.drop s.hist.length

/-- Where the command in `CMD` is when the model stops instead of running it on: a MIX that has prepared and is about to read
`KTAB` (log entries 14, 15). -/
def reachedBeforeStop (s : State) : State :=
  match Fmt.ofTag (field s.cmd 7 4) with
  | some F => mixReached Config.ports F (field s.cmd 13 8) (field s.cmd 19 14) (field s.cmd 21 21 == 1) s
  | none => s

/-- The state the command in `CMD` reaches: its end, or the last point before the model stops. -/
def commandReaches (s : State) : State :=
  match runCommand s with
  | .next t => t
  | .fault _ => reachedBeforeStop s
  | .refused _ => reachedBeforeStop s

/-- The RESET event, available in every state. In a BUSY context whose command has performed `n` of its events those stay and
the rest never happen (R300; U7; log entry 17). -/
def hostReset (n : Nat) (s : State) : State :=
  if s.seq = .busy then resetMachine ((newEvents s (commandReaches s)).take n) (commandReaches s).free s
  else resetMachine [] s.free s

/-! ## One step -/

/-- The sequencer's turn: a BUSY context runs its command, any other waits for a `CMD` write (10_state.md R22). -/
def sequencerTurn (s : State) : Host.Outcome State Fault Refusal :=
  if s.seq = .busy then runCommand s else .next s

/-- One move of the host. -/
def hostMove (a : HostAction) (s : State) : Host.Outcome State Fault Refusal :=
  match a with
  | .write off v => .next (hostWrite off v s)
  | .read off => .next (hostRead off s)
  | .wait => sequencerTurn s
  | .poke x v => hostPoke x v s
  | .reset n => .next (hostReset n s)

/-- One step: the host's next move, or the sequencer's turn where the host has none (log entries 1 and 3). -/
def advance (s : State) : Host.Outcome State Fault Refusal :=
  match s.host with
  | [] => sequencerTurn s
  | a :: rest => hostMove a (s.setHost rest)

end Sys2Proof.Machine
end

