-- ==== Sys2Proof/Safety.lean ====
section
/-! DEFINITION. What claims mean: a sound state, the completion of a command, the conditions under which each path of a
command runs, and the bytes its kernel writes, said over memories and gains instead of over the kernel's own loop. -/

namespace Sys2Proof.Machine

/-- Every entry of the dispatch table is a kernel id `SETK` accepts (10_state.md R40, 44_dispatch.md R213). -/
def ktabSound (s : State) : Bool := s.ktab.toList.all validKernel

/-- The status fields agree: `GFAULT` is 1 exactly in STATE = FAULT (one context), `FCODE` is 0 exactly outside it and never
above 0x0B, `FINFO[31:16]` is 0 (10_state.md R24, R29; 60_exceptions.md R271). -/
def statusSound (s : State) : Bool :=
  (s.gfault == (s.seq == .fault)) && ((s.fcode == 0) == (s.seq != .fault)) && decide (s.fcode.toNat ≤ 0x0B) &&
    decide (s.finfo.toNat < 2 ^ 16)

/-- The invariant of the machine: canonical memory, a sound dispatch table, agreeing status fields. -/
def MachineInv (s : State) : Prop := s.mem.wf = true ∧ ktabSound s = true ∧ statusSound s = true

/-- The command of `i` at `s` completes in state `t`: it answers a next state that is DONE. -/
def Completes (i : Instr) (s t : State) : Prop := exec i s = .next t ∧ t.seq = .done

/-- The command of `i` at `s` takes the fault `c` with the given stream and channel, having reached state `u` before it. -/
def TakesFault (i : Instr) (s u : State) (c : FaultCode) (stream channel : Nat) : Prop :=
  exec i s = .next (takeFault c stream channel u)

/-! ## What a command leaves alone -/

/-- The registers the hardware never writes (10_state.md R23, R25, R26, R28, R30 to R33), the host's moves and the values read. -/
structure SameInputs (s t : State) : Prop where
  cmd : t.cmd = s.cmd
  dst : t.dst = s.dst
  len : t.len = s.len
  karg : t.karg = s.karg
  ovol : t.ovol = s.ovol
  sChunk : t.sChunk = s.sChunk
  sAvail : t.sAvail = s.sAvail
  sVol : t.sVol = s.sVol
  host : t.host = s.host
  reads : t.reads = s.reads

/-- No register with a window holds it: the dispatch table, the working registers, sample memory, the history, and the model's
own fields (10_state.md R37, R40). -/
structure SameUnseen (s t : State) : Prop where
  ktab : t.ktab = s.ktab
  dCur : t.dCur = s.dCur
  dEnd : t.dEnd = s.dEnd
  chIdx : t.chIdx = s.chIdx
  effLen : t.effLen = s.effLen
  acc32 : t.acc32 = s.acc32
  acc64 : t.acc64 = s.acc64
  accF : t.accF = s.accF
  mem : t.mem = s.mem
  hist : t.hist = s.hist
  host : t.host = s.host
  reads : t.reads = s.reads
  answers : t.answers = s.answers
  free : t.free = s.free

/-- What the lines of a MIX before its kernel leave alone: all but the cursors, `EFFLEN`, `OLIN`, `SGAIN`, the history and what
the port uses up (45_mix_command.md R221). -/
structure SameBeforeKernel (s u : State) : Prop where
  inputs : SameInputs s u
  gfault : u.gfault = s.gfault
  fcode : u.fcode = s.fcode
  finfo : u.finfo = s.finfo
  seq : u.seq = s.seq
  ret : u.ret = s.ret
  ktab : u.ktab = s.ktab
  mem : u.mem = s.mem
  dCur : u.dCur = s.dCur
  dEnd : u.dEnd = s.dEnd
  chIdx : u.chIdx = s.chIdx
  acc32 : u.acc32 = s.acc32
  acc64 : u.acc64 = s.acc64
  accF : u.accF = s.accF

/-- The fault registers and the sticky fault bit keep their values. -/
structure SameFaultRegs (s t : State) : Prop where
  gfault : t.gfault = s.gfault
  fcode : t.fcode = s.fcode
  finfo : t.finfo = s.finfo

/-- The states agree but for the scratch, the stream cursors and the working registers (10_state.md R34 to R37). -/
structure SameButScratch (s t : State) : Prop where
  inputs : SameInputs s t
  faultRegs : SameFaultRegs s t
  seq : t.seq = s.seq
  ret : t.ret = s.ret
  ktab : t.ktab = s.ktab
  mem : t.mem = s.mem
  hist : t.hist = s.hist
  answers : t.answers = s.answers
  free : t.free = s.free

/-- The values of 10_state.md R45, where it gives one. -/
structure ResetValues (t : State) : Prop where
  seq : t.seq = .idle
  gfault : t.gfault = false
  fcode : t.fcode = 0
  finfo : t.finfo = 0
  cmd : t.cmd = 0
  dst : t.dst = 0
  len : t.len = 0
  ret : t.ret = 0
  karg : t.karg = 0
  ovol : ∀ ch, t.ovolAt ch = 0
  sChunk : ∀ i, t.sChunkAt i = 0
  sAvail : ∀ i, t.sAvailAt i = 0
  sVol : ∀ i ch, t.sVolAt i ch = 0
  sPtr : ∀ i, t.sPtrAt i = 0
  ktab : ∀ F : Fmt, t.ktabAt F = BitVec.ofNat 8 F.tag

/-! ## When a command takes which path -/

/-- The preconditions of 60_exceptions.md R275, steps 3 to 8. -/
structure Valid (F : Fmt) (C NS : Nat) (s : State) : Prop where
  channels : 1 ≤ C ∧ C ≤ 32
  streams : NS ≤ 32
  dst : s.dst ≠ 0
  len : s.len ≠ 0
  frames : s.len.toNat % frame F C = 0
  fits : s.dst.toNat + s.len.toNat ≤ 2 ^ 32

/-- The silence condition of a MIX (45_mix_command.md R223). -/
def Silenced (C NS : Nat) (mute hasvol : Bool) (s : State) : Prop :=
  mute = true ∨ (hasvol = true ∧ ∀ ch < C, s.ovolAt ch = Config.levelMuted) ∨ NS = 0

/-- The answer to the acquire of stream `j` is no null address and its window does not wrap. -/
def GoodAnswer (s : State) (j : Nat) : Prop :=
  answerAt s j ≠ 0 ∧ (answerAt s j).toNat + (s.sAvailAt j).toNat ≤ 2 ^ 32

/-- Every stream's length is frame-aligned (45_mix_command.md R225). -/
def StreamsAligned (F : Fmt) (C NS : Nat) (s : State) : Prop := ∀ i < NS, (s.sAvailAt i).toNat % frame F C = 0

/-- The event of the acquire of stream `j`. -/
def acquireEvent (s : State) (j : Nat) : Event := .acquire (s.sChunkAt j) (answerAt s j)

/-- The event of the release of stream `j`. -/
def releaseEvent (s : State) (j : Nat) : Event := .release (s.sChunkAt j)

/-- A MIX passes every check up to its acquires and takes the kernel path. -/
structure MixStarts (F : Fmt) (C NS : Nat) (mute hasvol : Bool) (s : State) : Prop where
  valid : Valid F C NS s
  sounding : ¬ Silenced C NS mute hasvol s
  aligned : StreamsAligned F C NS s

/-- A MIX passes every check: its gains are `g`, over the linear output gains `o`. -/
structure MixReady (F : Fmt) (C NS : Nat) (mute hasvol : Bool) (s : State) (o : Nat → Word) (g : Nat → Nat → Word) : Prop where
  starts : MixStarts F C NS mute hasvol s
  answers : ∀ i < NS, GoodAnswer s i
  output : ∀ ch < C, linGain Config.ports .flt (outVol hasvol s ch) = some (o ch)
  gains : ∀ i < NS, ∀ ch < C, streamGain Config.ports (gainRepr F) (s.sVolAt i ch) (o ch) = some (g i ch)

/-- A VOL passes every check and reaches its kernel: its gains are `o`. -/
structure VolReady (F : Fmt) (C : Nat) (silent : Bool) (s : State) (o : Nat → Word) : Prop where
  valid : Valid F C 0 s
  sounding : silent = false
  scaled : ∃ ch < C, s.ovolAt ch ≠ Config.levelUnity
  audible : ∃ ch < C, s.ovolAt ch ≠ Config.levelMuted
  gains : ∀ ch < C, linGain Config.ports (gainRepr F) (s.ovolAt ch) = some (o ch)

/-- The windows the streams are read from do not meet the destination, over `n` bytes. -/
def DisjointWindows (NS n : Nat) (s : State) : Prop :=
  ∀ i < NS, (answerAt s i).toNat + n ≤ s.dst.toNat ∨ s.dst.toNat + n ≤ (answerAt s i).toNat

/-- The address lies in the footprint of the command in `CMD` (20_memory.md R69, R73): in the destination of a MIX or a VOL,
or in the window of a stream that a MIX acquires when it runs (the model's reading, log entry 19). -/
def InFootprint (a : Nat) (s : State) : Prop :=
  ((s.cmd.extractLsb 3 0 = 1 ∨ s.cmd.extractLsb 3 0 = 2) ∧ s.dst.toNat ≤ a ∧ a < s.dst.toNat + s.len.toNat) ∨
  ∃ (F : Fmt) (C NS : Nat) (mute hasvol : Bool) (i : Nat), decode s.cmd = .instr (mixOf F C NS mute hasvol) ∧
    MixStarts F C NS mute hasvol s ∧ i < NS ∧ (∀ k < i, GoodAnswer s k) ∧ (answerAt s i).toNat ≤ a ∧
    a < (answerAt s i).toNat + (s.sAvailAt i).toNat

/-! ## What a floating-point operation answers

IEEE 754 with `eb` exponent and `fb` fraction bits, round to nearest, ties to even, gradual underflow, an infinity on overflow
(00_scope.md R11), said over the encodings as numbers, independently of how `Machine/Float.lean` computes. -/

/-- The sign bit of an encoding. -/
def encSign (eb fb u : Nat) : Nat := u / 2 ^ (eb + fb) % 2

/-- The exponent field of an encoding. -/
def encExp (eb fb u : Nat) : Nat := u / 2 ^ fb % 2 ^ eb

/-- The encoding is a NaN's. -/
def EncNaN (eb fb u : Nat) : Prop := encExp eb fb u = 2 ^ eb - 1 ∧ u % 2 ^ fb ≠ 0

/-- The encoding is an infinity's. -/
def EncInf (eb fb u : Nat) : Prop := encExp eb fb u = 2 ^ eb - 1 ∧ u % 2 ^ fb = 0

/-- The encoding is a finite datum's. -/
def EncFin (eb fb u : Nat) : Prop := encExp eb fb u ≠ 2 ^ eb - 1

/-- The encoding is a zero's, of either sign. -/
def EncZero (eb fb u : Nat) : Prop := encExp eb fb u = 0 ∧ u % 2 ^ fb = 0

/-- The magnitude of a finite encoding: a subnormal's fraction, or a normal's with its leading one, scaled. -/
def encMag (eb fb u : Nat) : ℚ :=
  if encExp eb fb u = 0 then (u % 2 ^ fb : Nat) * 2 ^ (2 - 2 ^ (eb - 1) - fb : ℤ)
  else (2 ^ fb + u % 2 ^ fb : Nat) * 2 ^ (encExp eb fb u + 1 - 2 ^ (eb - 1) - fb : ℤ)

/-- The value of a finite encoding. -/
def encValue (eb fb u : Nat) : ℚ := if encSign eb fb u = 1 then -encMag eb fb u else encMag eb fb u

/-- The least magnitude that rounds to an infinity: the largest finite one and half a unit of its last place. -/
def overflowAt (eb fb : Nat) : ℚ := 2 ^ (2 ^ (eb - 1) : ℤ) - 2 ^ (2 ^ (eb - 1) - fb - 2 : ℤ)

/-- The encoding `u` is `x` rounded: no finite datum is nearer, and of two equally near it is the even one; an infinity where
the magnitude of `x` is too large. -/
def Nearest (eb fb : Nat) (x : ℚ) (u : Nat) : Prop :=
  (|x| < overflowAt eb fb → EncFin eb fb u ∧ ∀ v < 2 ^ (eb + fb + 1), EncFin eb fb v →
    |encValue eb fb u - x| ≤ |encValue eb fb v - x| ∧
    (|encValue eb fb u - x| = |encValue eb fb v - x| → encValue eb fb v ≠ encValue eb fb u → u % 2 = 0)) ∧
  (overflowAt eb fb ≤ |x| → EncInf eb fb u)

/-- `p` is the product of `a` and `b`. -/
def ProductOf (eb fb a b p : Nat) : Prop :=
  let invalid := EncNaN eb fb a ∨ EncNaN eb fb b ∨ (EncInf eb fb a ∧ EncZero eb fb b) ∨ (EncZero eb fb a ∧ EncInf eb fb b)
  (invalid → EncNaN eb fb p) ∧
  (¬ invalid → encSign eb fb p = (encSign eb fb a + encSign eb fb b) % 2 ∧
    (EncInf eb fb a ∨ EncInf eb fb b → EncInf eb fb p) ∧
    (EncFin eb fb a → EncFin eb fb b → Nearest eb fb (encValue eb fb a * encValue eb fb b) p))

/-- `p` is the sum of `a` and `b`: an exact zero is `+0.0` unless both are negative. -/
def SumOf (eb fb a b p : Nat) : Prop :=
  let invalid := EncNaN eb fb a ∨ EncNaN eb fb b ∨
    (EncInf eb fb a ∧ EncInf eb fb b ∧ encSign eb fb a ≠ encSign eb fb b)
  let x := encValue eb fb a + encValue eb fb b
  (invalid → EncNaN eb fb p) ∧
  (¬ invalid → (EncInf eb fb a → p = a) ∧ (EncInf eb fb b → p = b) ∧
    (EncFin eb fb a → EncFin eb fb b → Nearest eb fb x p ∧
      encSign eb fb p = if x < 0 ∨ (x = 0 ∧ encSign eb fb a = 1 ∧ encSign eb fb b = 1) then 1 else 0))

/-- `p`, of the format with `eb'` and `fb'` bits, is `a`, of the format with `eb` and `fb` bits, converted. -/
def ConversionOf (eb fb eb' fb' a p : Nat) : Prop :=
  (EncNaN eb fb a → EncNaN eb' fb' p) ∧
  (¬ EncNaN eb fb a → encSign eb' fb' p = encSign eb fb a ∧ (EncInf eb fb a → EncInf eb' fb' p) ∧
    (EncFin eb fb a → Nearest eb' fb' (encValue eb fb a) p))

/-! ## What a gain is -/

/-- The Q16.16 gain of the exact product `x`: the nearest integer, ties to even, or none where that is above 0x7FFFFFFF
(40_linearizer.md R131, 41_gain_calculator.md R141). -/
def NearestGain (g : Option Word) (x : ℚ) : Prop :=
  (x < 2 ^ 31 - 1 / 2 → ∃ q, g = some q ∧ |(q.toNat : ℚ) - x| ≤ 1 / 2 ∧
    (|(q.toNat : ℚ) - x| = 1 / 2 → q.toNat % 2 = 0)) ∧
  (2 ^ 31 - 1 / 2 ≤ x → g = none)

/-- The binary32 gain of the ratio `x`: the nearest datum, or none where that is an infinity (40_linearizer.md R132,
41_gain_calculator.md R142). -/
def NearestFloatGain (g : Option Word) (x : ℚ) : Prop :=
  (x < overflowAt 8 23 → ∃ q : Word, g = some q ∧ Nearest 8 23 x q.toNat) ∧ (overflowAt 8 23 ≤ x → g = none)

/-! ## What a kernel computes -/

/-- The accumulator of slot `j` over a memory: for each of `NS` streams in ascending order, its sample at slot `j` times its
gain, where the gain is nonzero (43_mix_kernels.md R191, R192). `base i` is the address stream `i` starts at. -/
def slotSum (L : Lane) (NS : Nat) (m : Memory) (base : Nat → Nat) (g : Nat → Word) (j : Nat) : L.Acc :=
  (List.range NS).foldl
    (fun x i => if L.nz (g i) then L.add x (L.term (m.load (base i + j * L.width) L.width) (g i)) else x) L.zero

/-- The bytes of slot `j` from address `a` are the encoding of `acc`; a NaN has some quiet pattern. -/
def SlotHolds (L : Lane) (m : Memory) (a j : Nat) (acc : L.Acc) : Prop :=
  ∃ k, m.load (a + j * L.width) L.width = L.out (Config.quietNaN k) acc

/-- What kind of access an event is, and where: whether it writes, its address, how many bytes. -/
def accessOf : Event → Option (Bool × Nat × Nat)
  | .read x b => some (false, x, b.length)
  | .write x b => some (true, x, b.length)
  | .acquire _ _ => none
  | .release _ => none

/-- The accesses of slot `j` of a mixing kernel: a read of each stream whose gain is nonzero, ascending, then the one write
(43_mix_kernels.md R191, R192). -/
def mixAccesses (L : Lane) (NS : Nat) (base : Nat → Nat) (dst : Nat) (g : Nat → Word) (j : Nat) :
    List (Option (Bool × Nat × Nat)) :=
  (((List.range NS).filter fun i => L.nz (g i)).map fun i => some (false, base i + j * L.width, L.width)) ++
    [some (true, dst + j * L.width, L.width)]

/-- The accesses of slot `j` of an in-place kernel: the read and the write at the same address (46_volume.md R245). -/
def volAccesses (L : Lane) (dst j : Nat) : List (Option (Bool × Nat × Nat)) :=
  [some (false, dst + j * L.width, L.width), some (true, dst + j * L.width, L.width)]

end Sys2Proof.Machine
end

