-- ==== Sys2Proof/Certificates/Slice0/Obligations.lean ====
section
/-! DEFINITION. The statements about MIXK, for the provers. `mixOf F`, `volOf F`, `getkOf F` and `setkOf F` are the thirteen
commands MIX.<F>, VOL.<F>, GETK.<F> and SETK.<F>, so a statement over every `F` speaks of thirteen constructors. -/

open Sys2Proof Sys2Proof.Machine

/-! ## Encoding (30_encoding.md) -/

/-- 30_encoding.md R90, R101, R102: decoding the word of a well-formed command gives the command, for all 52 constructors and
every operand value. -/
def Obligations.DecodeEncode : Prop :=
  ∀ i : Instr, i.wf = true → decode (encode i) = .instr i

/-- 30_encoding.md R90, R102: a word that decodes to a command is that command's own word, and the command is well formed; so
no two words decode to one command, and no bit of a word is dropped. -/
def Obligations.EncodeDecode : Prop :=
  ∀ (w : Word) (i : Instr), decode w = .instr i → i.wf = true ∧ encode i = w

/-- 30_encoding.md R102: a word encodes the command whose `(w & mask) == match`, with the match and mask of each family. -/
def Obligations.MatchAndMask : Prop :=
  ∀ (w : Word) (F : Fmt),
    (w &&& 0xFFC000FF = 0x00000001 ||| BitVec.ofNat 32 (F.tag * 16) ↔
      ∃ ch ns mute hasvol, decode w = .instr (mixOf F ch ns mute hasvol)) ∧
    (w &&& 0xFFBFC0FF = 0x00000002 ||| BitVec.ofNat 32 (F.tag * 16) ↔ ∃ ch silent, decode w = .instr (volOf F ch silent)) ∧
    (w &&& 0xFFFFFFFF = 0x00000003 ||| BitVec.ofNat 32 (F.tag * 16) ↔ decode w = .instr (getkOf F)) ∧
    (w &&& 0xFFFFFFFF = 0x00000004 ||| BitVec.ofNat 32 (F.tag * 16) ↔ decode w = .instr (setkOf F))

/-- 30_encoding.md R101: every operand of a decoded command is its own bit field of the word, unsigned, unscaled, unshifted. -/
def Obligations.OperandFields : Prop :=
  (∀ (w : Word) (F : Fmt) (ch ns : Nat) (mute hasvol : Bool), decode w = .instr (mixOf F ch ns mute hasvol) →
    ch = (w.extractLsb 13 8).toNat ∧ ns = (w.extractLsb 19 14).toNat ∧ mute = w.getLsbD 20 ∧ hasvol = w.getLsbD 21 ∧
      F.tag = (w.extractLsb 7 4).toNat) ∧
  (∀ (w : Word) (F : Fmt) (ch : Nat) (silent : Bool), decode w = .instr (volOf F ch silent) →
    ch = (w.extractLsb 13 8).toNat ∧ silent = w.getLsbD 22 ∧ F.tag = (w.extractLsb 7 4).toNat) ∧
  ∀ (w : Word) (F : Fmt), decode w = .instr (getkOf F) ∨ decode w = .instr (setkOf F) →
    F.tag = (w.extractLsb 7 4).toNat

/-- 30_encoding.md R102: the example words of the rule. -/
def Obligations.ExampleWords : Prop :=
  decode 0x00008231 = .instr (.mixS16LE 2 2 false false) ∧
  decode 0x0020C231 = .instr (.mixS16LE 2 3 false true) ∧
  decode 0x00000102 = .instr (.volU8 1 false) ∧
  decode 0x00000101 = .instr (.mixU8 1 0 false false) ∧
  decode 0x00000043 = .instr .getkS16BE

/-- 30_encoding.md R103: a BUSY context whose word has an illegal `OP` or a set must-be-zero field takes F_ILLEGAL_CMD; a legal
`OP` with clean must-be-zero fields and `FMT` 13 to 15 takes F_FORMAT. Nothing happens before the fault. `u` is the state on the
sequencer's own turn, or with the host's wait taken off its list; that list is the model's choice (log entry 3, DESIGN CHOICE),
not the rule's. -/
def Obligations.IllegalWords : Prop :=
  ∀ s u : State, s.seq = .busy → (s.host = [] ∧ u = s ∨ ∃ rest, s.host = .wait :: rest ∧ u = s.setHost rest) →
    (¬ (s.cmd &&& 0xFFC0000F = 1 ∨ s.cmd &&& 0xFFBFC00F = 2 ∨ s.cmd &&& 0xFFFFFF0F = 3 ∨ s.cmd &&& 0xFFFFFF0F = 4) →
      step s = .next (takeFault .illegalCmd 0xFF 0 u)) ∧
    ((s.cmd &&& 0xFFC0000F = 1 ∨ s.cmd &&& 0xFFBFC00F = 2 ∨ s.cmd &&& 0xFFFFFF0F = 3 ∨ s.cmd &&& 0xFFFFFF0F = 4) →
      13 ≤ (s.cmd.extractLsb 7 4).toNat → step s = .next (takeFault .format 0xFF 0 u))

/-! ## The step and the host's moves (10_state.md, 70_reset_and_hazards.md) -/

/-- 10_state.md R22: a BUSY context whose `CMD` decodes to a command runs exactly that command, on the sequencer's own turn and
on the host's wait for it; a context that is not BUSY runs nothing. The host's list of moves is the model's (log entry 3). -/
def Obligations.StepRunsCommand : Prop :=
  (∀ (s : State) (i : Instr), s.seq = .busy → decode s.cmd = .instr i →
    (s.host = [] → step s = exec i s) ∧ ∀ rest, s.host = .wait :: rest → step s = exec i (s.setHost rest)) ∧
  ∀ s : State, s.seq ≠ .busy →
    (s.host = [] → step s = .next s) ∧ ∀ rest, s.host = .wait :: rest → step s = .next (s.setHost rest)

/-- The very next step of a state prepared with `withFetchWord` runs the command of the word (log entry 3). -/
def Obligations.PreparedWordRuns : Prop :=
  ∀ (s : State) (w : Word) (i : Instr), decode w = .instr i →
    step (s.withFetchWord 32 w.toNat) = exec i { s with cmd := w, seq := .busy }

/-- 10_state.md R23: a host write of `CMD` in IDLE or DONE with `GFAULT` clear stores the word and makes the context BUSY; any
other write of `CMD` is dropped. -/
def Obligations.CommandWrite : Prop :=
  ∀ (s : State) (v : Word) (rest : List HostAction), s.host = .write 0 v :: rest →
    ((s.seq = .idle ∨ s.seq = .done) → s.gfault = false →
      step s = .next { s with cmd := v, seq := .busy, host := rest }) ∧
    (s.seq = .busy ∨ s.seq = .fault ∨ s.gfault = true → step s = .next { s with host := rest })

/-- 10_state.md R38: the register map, offset by offset; every other offset is reserved (for one context, log entries 2, 18). -/
def Obligations.RegisterMap : Prop :=
  ∀ (off : Nat) (r : Reg), regAt off = some r ↔
    match r with
    | .cmd => off = 0x0000
    | .status => off = 0x0004
    | .dst => off = 0x0008
    | .len => off = 0x000C
    | .ret => off = 0x0010
    | .karg => off = 0x0014
    | .finfo => off = 0x0018
    | .ovol ch => ch < 32 ∧ off = 0x0080 + 4 * ch
    | .olin i => i < 64 ∧ off = 0x0100 + 4 * i
    | .sChunk i => i < 32 ∧ off = 0x0200 + 4 * i
    | .sAvail i => i < 32 ∧ off = 0x0280 + 4 * i
    | .sPtr i => i < 32 ∧ off = 0x0300 + 4 * i
    | .sVol i ch => i < 32 ∧ ch < 32 ∧ off = 0x1000 + 128 * i + 4 * ch
    | .sgain i ch => i < 32 ∧ ch < 32 ∧ off = 0x2000 + 128 * i + 4 * ch

/-- 10_state.md R38, R39: outside BUSY a write of an RW register other than `CMD` is read back at its offset, the register at
every other offset reads as before, and what no register shows (the table, sample memory, the history, the working registers)
is kept; a step whose host move is a write is that write. That this holds in STATE = FAULT and with `GFAULT` = 1 is the model's
reading, log entry 20: "Register writes other than `CMD` are still accepted in `STATE = FAULT`" (95_test_vectors.md P5) against
D30 of 92_eei_decisions.md; the host's list of moves is log entry 3. Writes of `CMD` are `CommandWrite`. -/
def Obligations.WriteReadBack : Prop :=
  ∀ (s : State) (off : Nat) (v : Word) (r : Reg), s.seq ≠ .busy → regAt off = some r →
    (match r with
      | .dst | .len | .karg | .ovol _ | .sChunk _ | .sAvail _ | .sVol _ _ => True
      | .cmd | .status | .ret | .finfo | .olin _ | .sPtr _ | .sgain _ _ => False) →
    (∀ (off' : Nat) (r' : Reg), regAt off' = some r' →
      regValue r' (hostWrite off v s) = if off' = off then v else regValue r' s) ∧
    SameUnseen s (hostWrite off v s) ∧ (hostWrite off v s).seq = s.seq ∧
    ∀ rest, s.host = .write off v :: rest → step s = .next (hostWrite off v { s with host := rest })

/-- 10_state.md R39 (a), (b): a write to a read-only register or a reserved offset changes nothing, in any state; a write to any
offset changes nothing while the context is BUSY; a step whose host move is such a write only takes the move off the host's list
(log entry 3). -/
def Obligations.IgnoredWrites : Prop :=
  ∀ (s : State) (off : Nat) (v : Word),
    (s.seq = .busy ∨ regAt off = none ∨ ∃ r, regAt off = some r ∧
      match r with
      | .status | .ret | .finfo | .olin _ | .sPtr _ | .sgain _ _ => True
      | .cmd | .dst | .len | .karg | .ovol _ | .sChunk _ | .sAvail _ | .sVol _ _ => False) →
    hostWrite off v s = s ∧ ∀ rest, s.host = .write off v :: rest → step s = .next { s with host := rest }

/-- 10_state.md R38, R39 (b): a host read returns the register's current value, 0 at a reserved offset, in every state, and
changes nothing but the host's own record of what it read (log entry 3); while BUSY, a read of `RET`, `S_PTR`, `OLIN` or `SGAIN`
returns some value (R39 c and 70_reset_and_hazards.md R313, log entry 11). -/
def Obligations.HostRead : Prop :=
  ∀ (s : State) (off : Nat) (rest : List HostAction), s.host = .read off :: rest →
    (regAt off = none → step s = .next { s with host := rest, reads := s.reads ++ [0] }) ∧
    ∀ r, regAt off = some r →
      (s.seq ≠ .busy ∨ (match r with
        | .ret | .sPtr _ | .olin _ | .sgain _ _ => False
        | .cmd | .status | .dst | .len | .karg | .finfo | .ovol _ | .sChunk _ | .sAvail _ | .sVol _ _ => True) →
        step s = .next { s with host := rest, reads := s.reads ++ [regValue r s] }) ∧
      ∃ v, step s = .next { s with host := rest, reads := s.reads ++ [v] }

/-- 10_state.md R24: the fields of `STATUS` as the host reads it. -/
def Obligations.StatusFields : Prop :=
  ∀ s : State,
    (regValue .status s).extractLsb 1 0 = (match s.seq with
      | .idle => 0
      | .busy => 1
      | .done => 2
      | .fault => 3) ∧
    (regValue .status s).getLsbD 2 = s.gfault ∧
    (regValue .status s).extractLsb 7 3 = 0 ∧
    (regValue .status s).extractLsb 15 8 = s.fcode ∧
    (regValue .status s).extractLsb 31 16 = 0 ∧
    (MachineInv s → s.seq ≠ .fault → s.fcode = 0)

/-- 20_memory.md R60, R73, 70_reset_and_hazards.md R312: a host write of sample memory changes that byte only; inside the
footprint of the BUSY command it is refused, and outside the `2^32` bytes of the space it faults. Which windows belong to the
footprint before their acquire, the model's reading of R312, and both stops are log entry 19. -/
def Obligations.HostPoke : Prop :=
  ∀ (s : State) (a : Nat) (v : Byte) (rest : List HostAction), s.host = .poke a v :: rest →
    (2 ^ 32 ≤ a → step s = .fault (.noSuchAddress a)) ∧
    (a < 2 ^ 32 → s.seq = .busy → InFootprint a s → step s = .refused (.bufferRace a)) ∧
    (a < 2 ^ 32 → s.seq ≠ .busy ∨ ¬ InFootprint a s → ∃ m, step s = .next { s with host := rest, mem := m } ∧
      ∀ y, m.get y = if y = a then v else s.mem.get y)

/-! ## Reset -/

/-- 10_state.md R45, 70_reset_and_hazards.md R300: the reset state has the values of R45; RESET is available in every state, and
one that abandons no event puts every state at those values. That it keeps sample memory is R45's; that it keeps the history,
and the number `n` of events already performed, are the model's choice (log entry 17). The values R45 leaves unspecified are
not stated. -/
def Obligations.ResetEvent : Prop :=
  ResetValues State.reset ∧
  (∀ (s : State) (n : Nat) (rest : List HostAction), s.host = .reset n :: rest →
    step s = .next (hostReset n (s.setHost rest))) ∧
  ∀ (s : State) (n : Nat), s.seq ≠ .busy ∨ n = 0 →
    ResetValues (hostReset n s) ∧ (hostReset n s).mem = s.mem ∧ (hostReset n s).hist = s.hist

/-- 70_reset_and_hazards.md R300: a RESET that arrives when a BUSY command has performed `n` of its events keeps the memory
writes among them and makes no other; the machine is at its reset values. How many is a parameter of the move (log entry 17).
The events are those of the command's run; of a MIX the model refuses to run on, they are its acquires (log entries 14, 15). -/
def Obligations.ResetWhileBusy : Prop :=
  ∀ (s : State) (n : Nat), s.seq = .busy → ∃ evs : List Event, ResetValues (hostReset n s) ∧
    (hostReset n s).hist = s.hist ++ evs.take n ∧ (hostReset n s).mem = replayWrites (evs.take n) s.mem ∧
    (∀ u, runCommand s = .next u → evs = newEvents s u) ∧
    ∀ (F : Fmt) (C NS : Nat) (mute hasvol : Bool) (o : Nat → Word) (g : Nat → Nat → Word) (r : Refusal),
      decode s.cmd = .instr (mixOf F C NS mute hasvol) → MixReady F C NS mute hasvol s o g → runCommand s = .refused r →
      evs = (List.range NS).map (acquireEvent s)

/-- 70_reset_and_hazards.md R302, 43_mix_kernels.md R208: the default table, and that for either byte order it binds every
format to the kernel of the format itself. -/
def Obligations.DefaultTable : Prop :=
  (∀ F : Fmt, elem 0 (Config.defaultKtab .le) F.tag = BitVec.ofNat 8 F.tag) ∧
  (∀ F : Fmt, elem 0 (Config.defaultKtab .be) F.tag =
    match F with
    | .u8 => 0x00
    | .alaw => 0x01
    | .ulaw => 0x02
    | .s16le => 0x04
    | .s16be => 0x03
    | .s32le => 0x06
    | .s32be => 0x05
    | .s24le => 0x08
    | .s24be => 0x07
    | .s2432le => 0x0A
    | .s2432be => 0x09
    | .f32le => 0x0C
    | .f32be => 0x0B) ∧
  (∀ (e : Endian) (F : Fmt), kernelOf e (elem 0 (Config.defaultKtab e) F.tag) = some F) ∧
  State.reset.ktab = Config.defaultKtab Config.nativeEndian

/-! ## Faults (60_exceptions.md) -/

/-- 60_exceptions.md R271, R272: taking a fault sets `FCODE` to the code's number, `FINFO`, `STATE` and `GFAULT` and changes
nothing else. -/
def Obligations.FaultEntry : Prop :=
  ∀ (c : FaultCode) (stream channel : Nat) (s : State), stream < 256 → channel < 256 →
    ∃ (code : BitVec 8) (info : Word), takeFault c stream channel s =
        { s with fcode := code, finfo := info, seq := .fault, gfault := true } ∧
      (info.extractLsb 7 0).toNat = stream ∧ (info.extractLsb 15 8).toNat = channel ∧ info.extractLsb 31 16 = 0 ∧
      code = match c with
        | .illegalCmd => 0x01
        | .format => 0x02
        | .channels => 0x03
        | .streams => 0x04
        | .null => 0x05
        | .lengthZero => 0x06
        | .lengthAlign => 0x07
        | .streamAlign => 0x08
        | .addrWrap => 0x09
        | .gainRange => 0x0A
        | .badKernel => 0x0B

/-- 60_exceptions.md R274: after a fault nothing starts and the fault registers keep their values, whatever the host does short
of a RESET; the tables and results stay as they were. -/
def Obligations.FaultIsTerminal : Prop :=
  ∀ s t : State, s.seq = .fault → s.gfault = true → (∀ n rest, s.host ≠ .reset n :: rest) → step s = .next t →
    t.seq = .fault ∧ t.gfault = true ∧ t.fcode = s.fcode ∧ t.finfo = s.finfo ∧ t.cmd = s.cmd ∧ t.ret = s.ret ∧
      t.ktab = s.ktab ∧ t.sPtr = s.sPtr ∧ t.olin = s.olin ∧ t.sgain = s.sgain ∧ t.hist = s.hist

/-- 60_exceptions.md R273: a command that faults has read and written no sample byte: it has added acquires to the history and
nothing else, and every host register, `RET`, the table and memory are as they were. -/
def Obligations.FaultsArePrecise : Prop :=
  ∀ (i : Instr) (s t : State), s.seq ≠ .fault → exec i s = .next t → t.seq = .fault →
    SameInputs s t ∧ t.ret = s.ret ∧ t.ktab = s.ktab ∧ t.mem = s.mem ∧ t.gfault = true ∧ t.fcode ≠ 0 ∧
      t.dCur = s.dCur ∧ t.dEnd = s.dEnd ∧ t.chIdx = s.chIdx ∧ t.acc32 = s.acc32 ∧ t.acc64 = s.acc64 ∧ t.accF = s.accF ∧
      ∃ l : List (Word × Word), t.hist = s.hist ++ l.map fun e => .acquire e.1 e.2

/-- 60_exceptions.md R275 steps 3 to 8, for MIX: the first violated precondition is the fault, and nothing has happened. -/
def Obligations.MixValidation : Prop :=
  ∀ (F : Fmt) (C NS : Nat) (mute hasvol : Bool) (s : State),
    (C = 0 ∨ 32 < C → TakesFault (mixOf F C NS mute hasvol) s s .channels 0xFF 0) ∧
    (1 ≤ C ∧ C ≤ 32 →
      (32 < NS → TakesFault (mixOf F C NS mute hasvol) s s .streams 0xFF 0) ∧
      (NS ≤ 32 →
        (s.dst = 0 → TakesFault (mixOf F C NS mute hasvol) s s .null 0xFF 0) ∧
        (s.dst ≠ 0 →
          (s.len = 0 → TakesFault (mixOf F C NS mute hasvol) s s .lengthZero 0xFF 0) ∧
          (s.len ≠ 0 →
            (s.len.toNat % (C * width F) ≠ 0 → TakesFault (mixOf F C NS mute hasvol) s s .lengthAlign 0xFF 0) ∧
            (s.len.toNat % (C * width F) = 0 → 2 ^ 32 < s.dst.toNat + s.len.toNat →
              TakesFault (mixOf F C NS mute hasvol) s s .addrWrap 0xFF 0)))))

/-- 60_exceptions.md R275 and 46_volume.md R242, for VOL: the same checks without the stream count, before the no-op tests. -/
def Obligations.VolValidation : Prop :=
  ∀ (F : Fmt) (C : Nat) (silent : Bool) (s : State),
    (C = 0 ∨ 32 < C → TakesFault (volOf F C silent) s s .channels 0xFF 0) ∧
    (1 ≤ C ∧ C ≤ 32 →
      (s.dst = 0 → TakesFault (volOf F C silent) s s .null 0xFF 0) ∧
      (s.dst ≠ 0 →
        (s.len = 0 → TakesFault (volOf F C silent) s s .lengthZero 0xFF 0) ∧
        (s.len ≠ 0 →
          (s.len.toNat % (C * width F) ≠ 0 → TakesFault (volOf F C silent) s s .lengthAlign 0xFF 0) ∧
          (s.len.toNat % (C * width F) = 0 → 2 ^ 32 < s.dst.toNat + s.len.toNat →
            TakesFault (volOf F C silent) s s .addrWrap 0xFF 0))))

/-- 60_exceptions.md R275 step 9 for MIX, 45_mix_command.md R225: the lowest misaligned stream is reported, before any
acquire; on the silence path the stream lengths do not matter (that half is `MixSilence`). -/
def Obligations.MixStreamAlign : Prop :=
  ∀ (F : Fmt) (C NS : Nat) (mute hasvol : Bool) (s : State) (i : Nat), Valid F C NS s → ¬ Silenced C NS mute hasvol s →
    i < NS → (s.sAvailAt i).toNat % (C * width F) ≠ 0 → (∀ j < i, (s.sAvailAt j).toNat % (C * width F) = 0) →
    TakesFault (mixOf F C NS mute hasvol) s s .streamAlign i 0

/-- 60_exceptions.md R275 step 10, 45_mix_command.md R225, 20_memory.md R77: the first bad answer of the buffer manager is
F_NULL or F_ADDR_WRAP of its stream; streams up to it stay acquired, none is released, only the earlier cursors are set, and no
other register is written. The answers used up are the model's list (log entry 4). -/
def Obligations.MixBadAnswer : Prop :=
  ∀ (F : Fmt) (C NS : Nat) (mute hasvol : Bool) (s : State) (i : Nat), MixStarts F C NS mute hasvol s → i < NS →
    (∀ j < i, GoodAnswer s j) →
    ∃ u : State, SameBeforeKernel s u ∧ u.effLen = s.effLen ∧ u.olin = s.olin ∧ u.sgain = s.sgain ∧
      u.answers = s.answers.drop (i + 1) ∧ u.hist = s.hist ++ (List.range (i + 1)).map (acquireEvent s) ∧
      (∀ j, u.sPtrAt j = if j < i then answerAt s j else s.sPtrAt j) ∧
      (answerAt s i = 0 → TakesFault (mixOf F C NS mute hasvol) s u .null i 0) ∧
      (answerAt s i ≠ 0 → 2 ^ 32 < (answerAt s i).toNat + (s.sAvailAt i).toNat →
        TakesFault (mixOf F C NS mute hasvol) s u .addrWrap i 0)

/-- 60_exceptions.md R275 step 11: the first channel of the output volume without a binary32 gain is F_GAIN_RANGE with no
stream; all streams are acquired and their cursors set, `EFFLEN` is written (45_mix_command.md R221 line 13), the slots of the
channels before it are written, and no other register is. For every curve and codec `P`, since this hardware's own is free (log
entry 8); `exec` is the case of its own. The answers used up are the model's list (log entry 4). -/
def Obligations.MixOutputGainFault : Prop :=
  ∀ (P : Config.Ports) (F : Fmt) (C NS : Nat) (mute hasvol : Bool) (s : State) (o : Nat → Word) (k : Nat),
    MixStarts F C NS mute hasvol s → (∀ j < NS, GoodAnswer s j) → k < C →
    (∀ ch < k, linGain P .flt (outVol hasvol s ch) = some (o ch)) →
    linGain P .flt (outVol hasvol s k) = none →
    ∃ u : State, mixCommand P F C NS mute hasvol s = .next (takeFault .gainRange 0xFF k u) ∧
      (P = Config.ports → TakesFault (mixOf F C NS mute hasvol) s u .gainRange 0xFF k) ∧ SameBeforeKernel s u ∧
      u.effLen.toNat = effectiveLength NS s ∧ u.sgain = s.sgain ∧ u.answers = s.answers.drop NS ∧
      u.hist = s.hist ++ (List.range NS).map (acquireEvent s) ∧
      (∀ j, u.sPtrAt j = if j < NS then answerAt s j else s.sPtrAt j) ∧
      ∀ ch, u.olinAt ch = if ch < k then o ch else s.olinAt ch

/-- 60_exceptions.md R275 step 12: the first stream and channel without a combined gain is F_GAIN_RANGE of that stream and
channel; all streams are acquired and their cursors set, `EFFLEN` and the padded output gains are written, and the gains before
it, in stream then channel order, and no other register is. For every curve and codec `P` (log entry 8). The answers used up are
the model's list (log entry 4). -/
def Obligations.MixStreamGainFault : Prop :=
  ∀ (P : Config.Ports) (F : Fmt) (C NS : Nat) (mute hasvol : Bool) (s : State) (o : Nat → Word) (g : Nat → Nat → Word) (i k : Nat),
    MixStarts F C NS mute hasvol s → (∀ j < NS, GoodAnswer s j) →
    (∀ ch < C, linGain P .flt (outVol hasvol s ch) = some (o ch)) → i < NS → k < C →
    (∀ j ch, ch < C → j < i ∨ (j = i ∧ ch < k) → streamGain P (gainRepr F) (s.sVolAt j ch) (o ch) = some (g j ch)) →
    streamGain P (gainRepr F) (s.sVolAt i k) (o k) = none →
    ∃ u : State, mixCommand P F C NS mute hasvol s = .next (takeFault .gainRange i k u) ∧
      (P = Config.ports → TakesFault (mixOf F C NS mute hasvol) s u .gainRange i k) ∧ SameBeforeKernel s u ∧
      u.effLen.toNat = effectiveLength NS s ∧ u.answers = s.answers.drop NS ∧
      u.hist = s.hist ++ (List.range NS).map (acquireEvent s) ∧
      (∀ j, u.sPtrAt j = if j < NS then answerAt s j else s.sPtrAt j) ∧
      (∀ j, u.olinAt j = if j < C + 32 then o (j % C) else s.olinAt j) ∧
      ∀ j ch, u.sgainAt j ch = if ch < C ∧ (j < i ∨ (j = i ∧ ch < k)) then g j ch else s.sgainAt j ch

/-- 60_exceptions.md R275 step 9 for VOL: the first channel of the volume without a gain is F_GAIN_RANGE with no stream.
For every curve and codec `P` (log entry 8). -/
def Obligations.VolGainFault : Prop :=
  ∀ (P : Config.Ports) (F : Fmt) (C : Nat) (s : State) (o : Nat → Word) (k : Nat), Valid F C 0 s →
    (∃ ch < C, s.ovolAt ch ≠ Config.levelUnity) → (∃ ch < C, s.ovolAt ch ≠ Config.levelMuted) → k < C →
    (∀ ch < k, linGain P (gainRepr F) (s.ovolAt ch) = some (o ch)) → linGain P (gainRepr F) (s.ovolAt k) = none →
    ∃ v, volCommand P F C false s = .next (takeFault .gainRange 0xFF k { s with olin := v }) ∧
      (P = Config.ports → TakesFault (volOf F C false) s { s with olin := v } .gainRange 0xFF k) ∧
      ∀ ch, State.olinAt { s with olin := v } ch = if ch < k then o ch else s.olinAt ch

/-! ## MIX (45_mix_command.md, 43_mix_kernels.md) -/

/-- 45_mix_command.md R224: the silence path, whole. For all thirteen MIX.<F>. -/
def Obligations.MixSilence : Prop :=
  ∀ (F : Fmt) (C NS : Nat) (mute hasvol : Bool) (s : State), Valid F C NS s → Silenced C NS mute hasvol s →
    ∃ m, exec (mixOf F C NS mute hasvol) s = .next { s with
        ret := s.len
        seq := .done
        mem := m
        hist := s.hist ++ (List.range s.len.toNat).map fun k => .write (s.dst.toNat + k) [silence F] } ∧
      ∀ y, m.get y = if s.dst.toNat ≤ y ∧ y < s.dst.toNat + s.len.toNat then silence F else s.mem.get y

/-- 45_mix_command.md R226: the effective length is the least of the requested and the available lengths, and frame-aligned
where they are. -/
def Obligations.EffectiveLength : Prop :=
  ∀ (F : Fmt) (C NS : Nat) (s : State),
    effectiveLength NS s ≤ s.len.toNat ∧ (∀ i < NS, effectiveLength NS s ≤ (s.sAvailAt i).toNat) ∧
    (effectiveLength NS s = s.len.toNat ∨ ∃ i < NS, effectiveLength NS s = (s.sAvailAt i).toNat) ∧
    (s.len.toNat % frame F C = 0 → StreamsAligned F C NS s → effectiveLength NS s % frame F C = 0)

/-- 45_mix_command.md R221 (lines 13 to 19), R228, R229, 43_mix_kernels.md R194: a MIX whose checks pass and whose bound
kernel's width divides the effective length completes: what it returns, the cursors, the gains, the acquires and releases, and
the frame. For all thirteen MIX.<F>. A cursor that would be 2^32 has no 32-bit value (log entry 12). -/
def Obligations.MixKernelPath : Prop :=
  ∀ (F K : Fmt) (C NS : Nat) (mute hasvol : Bool) (s : State) (o : Nat → Word) (g : Nat → Nat → Word),
    MixReady F C NS mute hasvol s o g → kernelOf Config.nativeEndian (s.ktabAt F) = some K →
    effectiveLength NS s % width K = 0 →
    ∃ t, exec (mixOf F C NS mute hasvol) s = .next t ∧ t.seq = .done ∧
      t.ret.toNat = effectiveLength NS s ∧ SameInputs s t ∧ SameFaultRegs s t ∧ t.ktab = s.ktab ∧
      (∀ i < NS, (answerAt s i).toNat + effectiveLength NS s < 2 ^ 32 →
        (t.sPtrAt i).toNat = (answerAt s i).toNat + effectiveLength NS s) ∧
      (∀ i, NS ≤ i → t.sPtrAt i = s.sPtrAt i) ∧
      (∀ j, t.olinAt j = if j < C + 32 then o (j % C) else s.olinAt j) ∧
      (∀ i ch, t.sgainAt i ch = if i < NS ∧ ch < C then g i ch else s.sgainAt i ch) ∧
      (∀ y, y < s.dst.toNat ∨ s.dst.toNat + effectiveLength NS s ≤ y → t.byteAt y = s.byteAt y) ∧
      (group K = .g64 ∨ group K = .gf → t.acc32 = s.acc32) ∧ (group K ≠ .g64 → t.acc64 = s.acc64) ∧
      (group K ≠ .gf → t.accF = s.accF) ∧ t.answers = s.answers.drop NS ∧
      ∃ l, t.hist = s.hist ++ (List.range NS).map (acquireEvent s) ++ l ++ (List.range NS).map (releaseEvent s) ∧
        ∀ e ∈ l, accessOf e ≠ none

/-- 43_mix_kernels.md R191, R192, 20_memory.md R70, R78: the accesses of a MIX between its acquires and its releases, every one
with its address and its order: no read of a stream whose gain is zero at the slot, no access outside the windows. -/
def Obligations.MixAccessOrder : Prop :=
  ∀ (F K : Fmt) (C NS : Nat) (mute hasvol : Bool) (s t : State) (o : Nat → Word) (g : Nat → Nat → Word),
    MixReady F C NS mute hasvol s o g → kernelOf Config.nativeEndian (s.ktabAt F) = some K →
    effectiveLength NS s % width K = 0 → exec (mixOf F C NS mute hasvol) s = .next t →
    (newEvents s t).map accessOf =
      List.replicate NS none ++
      (List.range (effectiveLength NS s / width K)).flatMap (fun j =>
        mixAccesses (laneOf Config.ports K) NS (fun i => (answerAt s i).toNat) s.dst.toNat (fun i => g i (j % C)) j) ++
      List.replicate NS none

/-- 43_mix_kernels.md R191 to R193, 20_memory.md R74, with the codec of 42_sample_codec.md: the slots are written in ascending
order, each with the clamped, encoded sum of the streams' samples times their gains, of the kernel bound in the table, the
samples read from memory as the slots before it left it (so that an overlapping destination is determined too); where no
stream's window meets the destination, from memory as it was before the command. For all thirteen MIX.<F>. -/
def Obligations.MixKernelBytes : Prop :=
  ∀ (F K : Fmt) (C NS : Nat) (mute hasvol : Bool) (s : State) (o : Nat → Word) (g : Nat → Nat → Word),
    MixReady F C NS mute hasvol s o g → kernelOf Config.nativeEndian (s.ktabAt F) = some K →
    effectiveLength NS s % width K = 0 →
    ∃ t, exec (mixOf F C NS mute hasvol) s = .next t ∧
      (∃ ms : Nat → Memory, ms 0 = s.mem ∧ ms (effectiveLength NS s / width K) = t.mem ∧
        ∀ j < effectiveLength NS s / width K, ∃ k, ms (j + 1) = (ms j).store (s.dst.toNat + j * width K)
          ((laneOf Config.ports K).out (Config.quietNaN k)
            (slotSum (laneOf Config.ports K) NS (ms j) (fun i => (answerAt s i).toNat) (fun i => g i (j % C)) j))) ∧
      (DisjointWindows NS (effectiveLength NS s) s → ∀ j < effectiveLength NS s / width K,
        SlotHolds (laneOf Config.ports K) t.mem s.dst.toNat j
          (slotSum (laneOf Config.ports K) NS s.mem (fun i => (answerAt s i).toNat) (fun i => g i (j % C)) j))

/-- 44_dispatch.md R214: a MIX whose gains are calculated is refused where the bound kernel's width does not divide the
effective length. It is refused too where the bound id is above 0x0C: for an external id, 0x80 up, as 44_dispatch.md R216 and
45_mix_command.md R227 say; for 0x0D to 0x7F, which `SETK` never binds, by the model's own choice (log entry 15). -/
def Obligations.MixRefusals : Prop :=
  ∀ (F : Fmt) (C NS : Nat) (mute hasvol : Bool) (s : State) (o : Nat → Word) (g : Nat → Nat → Word),
    MixReady F C NS mute hasvol s o g →
    (∀ K, kernelOf Config.nativeEndian (s.ktabAt F) = some K → effectiveLength NS s % width K ≠ 0 →
      exec (mixOf F C NS mute hasvol) s = .refused (.kernelWidthMisfit (s.ktabAt F) (effectiveLength NS s))) ∧
    (0x0C < (s.ktabAt F).toNat →
      exec (mixOf F C NS mute hasvol) s = .refused (.kernelNotBuiltIn (s.ktabAt F)))

/-! ## VOL (46_volume.md) -/

/-- 46_volume.md R243: the no-op rules: no memory access, no scratch, no port; only `STATE` changes. For all thirteen VOL.<F>. -/
def Obligations.VolNoop : Prop :=
  ∀ (F : Fmt) (C : Nat) (silent : Bool) (s : State), Valid F C 0 s →
    silent = true ∨ (∀ ch < C, s.ovolAt ch = Config.levelUnity) →
    exec (volOf F C silent) s = .next { s with seq := .done }

/-- 46_volume.md R244: the muted rule, whole. For all thirteen VOL.<F>. -/
def Obligations.VolMuted : Prop :=
  ∀ (F : Fmt) (C : Nat) (s : State), Valid F C 0 s → (∀ ch < C, s.ovolAt ch = Config.levelMuted) →
    ∃ m, exec (volOf F C false) s = .next { s with
        seq := .done
        mem := m
        hist := s.hist ++ (List.range s.len.toNat).map fun k => .write (s.dst.toNat + k) [silence F] } ∧
      ∀ y, m.get y = if s.dst.toNat ≤ y ∧ y < s.dst.toNat + s.len.toNat then silence F else s.mem.get y

/-- 46_volume.md R245, R247: the kernel path of a VOL, whole: every slot of the buffer, the padding of the scratch, the order of
the accesses and the frame. For all thirteen VOL.<F>. -/
def Obligations.VolKernelPath : Prop :=
  ∀ (F : Fmt) (C : Nat) (silent : Bool) (s : State) (o : Nat → Word), VolReady F C silent s o →
    ∃ t, exec (volOf F C silent) s = .next t ∧ t.seq = .done ∧
      (∀ j < s.len.toNat / width F, SlotHolds (laneOf Config.ports F) t.mem s.dst.toNat j
        ((laneOf Config.ports F).term (s.mem.load (s.dst.toNat + j * width F) (width F)) (o (j % C)))) ∧
      (∀ y, y < s.dst.toNat ∨ s.dst.toNat + s.len.toNat ≤ y → t.byteAt y = s.byteAt y) ∧
      (∀ j, t.olinAt j = if j < C + 32 then o (j % C) else s.olinAt j) ∧
      SameInputs s t ∧ SameFaultRegs s t ∧ t.ret = s.ret ∧ t.sPtr = s.sPtr ∧ t.sgain = s.sgain ∧ t.ktab = s.ktab ∧
      t.acc32 = s.acc32 ∧ t.acc64 = s.acc64 ∧ t.accF = s.accF ∧ t.answers = s.answers ∧
      t.hist = s.hist ++ newEvents s t ∧
      (newEvents s t).map accessOf =
        (List.range (s.len.toNat / width F)).flatMap fun j => volAccesses (laneOf Config.ports F) s.dst.toNat j

/-! ## GETK and SETK (44_dispatch.md) -/

/-- 44_dispatch.md R212: GETK returns the zero-extended kernel id and changes nothing else. For all thirteen GETK.<F>. -/
def Obligations.GetkReturnsKernel : Prop :=
  ∀ (F : Fmt) (s : State), ∃ v : Word, exec (getkOf F) s = .next { s with ret := v, seq := .done } ∧
    v.toNat = (s.ktabAt F).toNat

/-- 44_dispatch.md R213: SETK binds a built-in id to its format and leaves the other twelve entries and everything else; any
other id is F_BAD_KERNEL. For all thirteen SETK.<F>. -/
def Obligations.SetkBindsKernel : Prop :=
  ∀ (F : Fmt) (s : State),
    (s.karg.toNat % 256 ≤ 0x0C → ∃ v, exec (setkOf F) s = .next { s with ktab := v, seq := .done } ∧
      ∀ G : Fmt, (State.ktabAt { s with ktab := v } G).toNat =
        if G = F then s.karg.toNat % 256 else (s.ktabAt G).toNat) ∧
    (0x0C < s.karg.toNat % 256 → TakesFault (setkOf F) s s .badKernel 0xFF 0)

/-! ## Every command -/

/-- 10_state.md R22: a command that answers a next state is DONE or has faulted. -/
def Obligations.CommandsEnd : Prop :=
  ∀ (i : Instr) (s t : State), exec i s = .next t → t.seq = .done ∨ t.seq = .fault

/-- 10_state.md R23, R25, R26, R28, R30 to R33: no command writes a host register. -/
def Obligations.HostRegistersKept : Prop :=
  ∀ (i : Instr) (s t : State), exec i s = .next t → SameInputs s t

/-- 10_state.md R40, 44_dispatch.md R213: no command but SETK writes the dispatch table. -/
def Obligations.OnlySetkWritesTable : Prop :=
  ∀ (i : Instr) (s t : State), (∀ F, i ≠ setkOf F) → exec i s = .next t → t.ktab = s.ktab

/-- 20_memory.md R77: VOL, GETK and SETK never use the buffer-manager port. None of them writes `S_PTR` or `SGAIN`, and VOL and
SETK do not write `RET`: 46_volume.md R241 for VOL, 44_dispatch.md R212 and R213 for GETK and SETK, 10_state.md R27, R34 and R36
for the registers. -/
def Obligations.OnlyMixUsesPort : Prop :=
  ∀ (i : Instr) (s t : State), (∀ F ch ns mute hasvol, i ≠ mixOf F ch ns mute hasvol) → exec i s = .next t →
    t.answers = s.answers ∧ t.sPtr = s.sPtr ∧ t.sgain = s.sgain ∧ ((∀ F, i ≠ getkOf F) → t.ret = s.ret) ∧
      t.hist = s.hist ++ newEvents s t ∧ ∀ e ∈ newEvents s t, accessOf e ≠ none

/-- 20_memory.md R62, R70: the history only grows, and the memory after a command is what replaying the writes it added gives. -/
def Obligations.HistoryAccountsForMemory : Prop :=
  ∀ (i : Instr) (s t : State), exec i s = .next t →
    t.hist = s.hist ++ newEvents s t ∧ t.mem = replayWrites (newEvents s t) s.mem

/-- 10_state.md R44, 70_reset_and_hazards.md R315: what the scratch, the cursors and the working registers held before a command
is never an input: two states that agree otherwise end alike, but for those. -/
def Obligations.StaleScratchIsNoInput : Prop :=
  ∀ (i : Instr) (s s' t : State), SameButScratch s s' → exec i s = .next t →
    ∃ t', exec i s' = .next t' ∧ SameButScratch t t'

/-- The invariant holds right after reset. -/
def Obligations.InvAtReset : Prop := MachineInv State.reset

/-- 10_state.md R24, R29, R40, 60_exceptions.md R271: every step keeps the canonical memory, a table of valid kernel ids, and
status fields that agree. -/
def Obligations.StepKeepsInv : Prop :=
  ∀ s t : State, MachineInv s → step s = .next t → MachineInv t

/-! ## Linearizer and gains (40_linearizer.md, 41_gain_calculator.md) -/

/-- 40_linearizer.md R131, R132, R134: after a linearization slot `ch` holds the gain of channel `ch`, slot `C + i` repeats slot
`i`, so slot `j` repeats slot `j mod C`; the slots above keep their contents, and nothing but the scratch changes. -/
def Obligations.LinearizerPads : Prop :=
  ∀ (P : Config.Ports) (q : GainRepr) (vol : Nat → Word) (C : Nat) (s t : State), 1 ≤ C → C ≤ 32 →
    linearize P q vol C s = .on t →
    t = { s with olin := t.olin } ∧ (∀ ch < C, linGain P q (vol ch) = some (t.olinAt ch)) ∧
      (∀ i < 32, t.olinAt (C + i) = t.olinAt i) ∧ (∀ j < C + 32, t.olinAt j = t.olinAt (j % C)) ∧
      ∀ j, C + 32 ≤ j → t.olinAt j = s.olinAt j

/-- 40_linearizer.md R131, R132, 41_gain_calculator.md R141, R142: the gains of the canonical levels. -/
def Obligations.CanonicalGains : Prop :=
  linGain Config.ports .int Config.levelUnity = some 0x00010000 ∧
  linGain Config.ports .int Config.levelMuted = some 0 ∧
  linGain Config.ports .flt Config.levelUnity = some 0x3F800000 ∧
  linGain Config.ports .flt Config.levelMuted = some 0 ∧
  streamGain Config.ports .int Config.levelUnity 0x3F800000 = some 0x00010000 ∧
  streamGain Config.ports .int Config.levelMuted 0x3F800000 = some 0 ∧
  streamGain Config.ports .int Config.levelUnity 0 = some 0 ∧
  streamGain Config.ports .flt Config.levelUnity 0x3F800000 = some 0x3F800000 ∧
  streamGain Config.ports .flt Config.levelMuted 0x3F800000 = some 0 ∧
  streamGain Config.ports .flt Config.levelUnity 0 = some 0

/-- 40_linearizer.md R131, R132, 41_gain_calculator.md R141, R142: whatever the curve, an integer gain is the nearest integer,
ties to even, to 65536 times the ratio, or times the rounded binary64 product `p` with the output gain, and there is none where
that is above 0x7FFFFFFF; a float gain is the nearest binary32 datum, ties to even, to the ratio or the product, and there is none
where that is an infinity. An integer gain is at most 0x7FFFFFFF; a float gain is finite, not `-0.0` and not negative; an output
gain of 1.0 leaves the stream's. That there is no integer gain where 65536 times the ratio or the product, or the product itself,
is an infinity, to which 00_scope.md R11 gives no integer, is the model's reading (log entry 13, DEDUCED). -/
def Obligations.GainValues : Prop :=
  ∀ (P : Config.Ports) (l out q : Word), out.toNat < 0x7F800000 →
    (linGain P .int l = some q → q.toNat ≤ 0x7FFFFFFF) ∧
    (linGain P .flt l = some q → q.toNat < 0x7F800000) ∧
    (streamGain P .int l out = some q → q.toNat ≤ 0x7FFFFFFF) ∧
    (streamGain P .flt l out = some q → q.toNat < 0x7F800000) ∧
    (∀ r, streamGain P r l 0x3F800000 = linGain P r l) ∧
    ((P.curve l).toNat < 0x7FF0000000000000 →
      NearestGain (linGain P .int l) (65536 * encValue 11 52 (P.curve l).toNat) ∧
      NearestFloatGain (linGain P .flt l) (encValue 11 52 (P.curve l).toNat) ∧
      ∀ p : DWord, p = f64Mul (P.curve l) (f64OfF32 out) →
        (p.toNat < 0x7FF0000000000000 →
          NearestGain (streamGain P .int l out) (65536 * encValue 11 52 p.toNat) ∧
          NearestFloatGain (streamGain P .flt l out) (encValue 11 52 p.toNat)) ∧
        (p.toNat = 0x7FF0000000000000 → streamGain P .int l out = none ∧ streamGain P .flt l out = none))

/-- 40_linearizer.md R133: a ratio that is a NaN, an infinity, `-0.0` or negative has no gain; `u` is its binary64 encoding. -/
def Obligations.RatioCheck : Prop :=
  ∀ (P : Config.Ports) (q : GainRepr) (l out : Word),
    ((P.curve l).getLsbD 63 = true ∨ (P.curve l).extractLsb 62 52 = 0x7FF) →
    linGain P q l = none ∧ streamGain P q l out = none

/-! ## Sample codec (42_sample_codec.md) -/

/-- 00_scope.md R13, 10_state.md R41: width, group, representation, silence byte and frame of every format. -/
def Obligations.FormatTable : Prop :=
  ∀ F : Fmt, (∀ C, frame F C = C * width F) ∧ (width F, group F, gainRepr F, silence F) =
    match F with
    | .u8 => (1, .g8, .int, 0x80)
    | .alaw => (1, .g8, .int, 0xD5)
    | .ulaw => (1, .g8, .int, 0xFF)
    | .s16le => (2, .g16, .int, 0x00)
    | .s16be => (2, .g16, .int, 0x00)
    | .s32le => (4, .g64, .int, 0x00)
    | .s32be => (4, .g64, .int, 0x00)
    | .s24le => (3, .g64, .int, 0x00)
    | .s24be => (3, .g64, .int, 0x00)
    | .s2432le => (4, .g64, .int, 0x00)
    | .s2432be => (4, .g64, .int, 0x00)
    | .f32le => (4, .gf, .flt, 0x00)
    | .f32be => (4, .gf, .flt, 0x00)

/-- 42_sample_codec.md R162: the hi/lo rule is the exact floored product for every 16-bit sample and every gain the calculator
produces. -/
def Obligations.Apply16Exact : Prop :=
  ∀ (v : Int) (g : Word), -32768 ≤ v → v ≤ 32767 → g.toNat ≤ 0x7FFFFFFF →
    (apply16 v g).toInt = v * g.toNat / 65536 ∧ -0x40000000 ≤ (apply16 v g).toInt ∧ (apply16 v g).toInt ≤ 0x3FFF7FFF

/-- 42_sample_codec.md R163: the wide multiply is the exact floored product for every 32-bit sample and every gain slot. -/
def Obligations.Apply64Exact : Prop :=
  ∀ (v : Int) (g : Word), -0x80000000 ≤ v → v ≤ 0x7FFFFFFF →
    (apply64 v g).toInt = v * g.toInt / 65536 ∧ -(2 ^ 46) ≤ (apply64 v g).toInt ∧ (apply64 v g).toInt ≤ 2 ^ 46

/-- 42_sample_codec.md R166: the 32-bit accumulator of a slot never wraps while the sum of the gains' integer parts plus one
is at most 65536: it is the exact sum of the exact terms, so the clamp sees the true sum. -/
def Obligations.AccumulatorBound : Prop :=
  ∀ (w : Nat) (dec : List Byte → Int) (lo hi : Int) (enc : Int → List Byte) (NS : Nat) (m : Memory) (base : Nat → Nat)
    (g : Nat → Word) (j : Nat), (∀ b, -32768 ≤ dec b ∧ dec b ≤ 32767) → (∀ i < NS, (g i).toNat ≤ 0x7FFFFFFF) →
    ((List.range NS).map fun i => (g i).toNat / 65536 + 1).sum ≤ 65536 →
    BitVec.toInt (slotSum (lane32 w dec lo hi enc) NS m base g j : Word) =
      ((List.range NS).map fun i => dec (m.load (base i + j * w) w) * ((g i).toNat : Int) / 65536).sum

/-- 42_sample_codec.md R178: at Unity the linear integer formats reproduce every sample's bytes, and the 24-in-32 containers
reproduce the three sample bytes with a zero top byte; a mixed Float32 sample at 1.0 is reproduced but for `-0.0`, which becomes
`+0.0`, and a NaN, which becomes the pattern `nan`; a companded sample is compressed again from its shifted value (the shifts
3 and 2 are log entry 16). -/
def Obligations.IdentityAtUnity : Prop :=
  ∀ (P : Config.Ports) (nan : Word) (b0 b1 b2 b3 : Byte),
    (laneOf P .u8).out nan ((laneOf P .u8).term [b0] 0x00010000) = [b0] ∧
    (laneOf P .s16le).out nan ((laneOf P .s16le).term [b0, b1] 0x00010000) = [b0, b1] ∧
    (laneOf P .s16be).out nan ((laneOf P .s16be).term [b0, b1] 0x00010000) = [b0, b1] ∧
    (laneOf P .s24le).out nan ((laneOf P .s24le).term [b0, b1, b2] 0x00010000) = [b0, b1, b2] ∧
    (laneOf P .s24be).out nan ((laneOf P .s24be).term [b0, b1, b2] 0x00010000) = [b0, b1, b2] ∧
    (laneOf P .s32le).out nan ((laneOf P .s32le).term [b0, b1, b2, b3] 0x00010000) = [b0, b1, b2, b3] ∧
    (laneOf P .s32be).out nan ((laneOf P .s32be).term [b0, b1, b2, b3] 0x00010000) = [b0, b1, b2, b3] ∧
    (laneOf P .s2432le).out nan ((laneOf P .s2432le).term [b0, b1, b2, b3] 0x00010000) = [b0, b1, b2, 0] ∧
    (laneOf P .s2432be).out nan ((laneOf P .s2432be).term [b0, b1, b2, b3] 0x00010000) = [0, b1, b2, b3] ∧
    (laneOf P .alaw).out nan ((laneOf P .alaw).term [b0] 0x00010000) =
      [P.compressA (BitVec.ofInt 16 ((P.expandA b0).toInt / 8))] ∧
    (laneOf P .ulaw).out nan ((laneOf P .ulaw).term [b0] 0x00010000) =
      [P.compressU (BitVec.ofInt 16 ((P.expandU b0).toInt / 4))] ∧
    (laneOf P .f32le).out nan
        ((laneOf P .f32le).add (laneOf P .f32le).zero ((laneOf P .f32le).term [b0, b1, b2, b3] 0x3F800000)) =
      (if f32IsNaN (b3 ++ b2 ++ b1 ++ b0) then
        [nan.extractLsb 7 0, nan.extractLsb 15 8, nan.extractLsb 23 16, nan.extractLsb 31 24]
      else if b3 ++ b2 ++ b1 ++ b0 = (0x80000000 : Word) then [0, 0, 0, 0] else [b0, b1, b2, b3]) ∧
    (laneOf P .f32be).out nan
        ((laneOf P .f32be).add (laneOf P .f32be).zero ((laneOf P .f32be).term [b0, b1, b2, b3] 0x3F800000)) =
      (if f32IsNaN (b0 ++ b1 ++ b2 ++ b3) then
        [nan.extractLsb 31 24, nan.extractLsb 23 16, nan.extractLsb 15 8, nan.extractLsb 7 0]
      else if b0 ++ b1 ++ b2 ++ b3 = (0x80000000 : Word) then [0, 0, 0, 0] else [b0, b1, b2, b3])

/-- 00_scope.md R11, with 42_sample_codec.md R164, R165, 43_mix_kernels.md R206, 40_linearizer.md R132, 41_gain_calculator.md
R142: the binary32 product (which `APPLYF` is) and sum, the binary64 product and the narrowing are the nearest datum to the exact
result, ties to even, subnormals included, an infinity on overflow, a NaN where IEEE 754 makes one; widening is exact. And in
particular: times 1.0, or added to `+0.0`, every binary32 datum but a NaN is itself, save that `+0.0 + -0.0` is `+0.0`. -/
def Obligations.FloatArithmetic : Prop :=
  (∀ a b : Word, applyF a b = f32Mul a b ∧ ProductOf 8 23 a.toNat b.toNat (f32Mul a b).toNat ∧
    SumOf 8 23 a.toNat b.toNat (f32Add a b).toNat) ∧
  (∀ a b : DWord, ProductOf 11 52 a.toNat b.toNat (f64Mul a b).toNat) ∧
  (∀ a : DWord, ConversionOf 11 52 8 23 a.toNat (f32OfF64 a).toNat) ∧
  (∀ a : Word, ConversionOf 8 23 11 52 a.toNat (f64OfF32 a).toNat ∧
    (EncFin 8 23 a.toNat → encValue 11 52 (f64OfF32 a).toNat = encValue 8 23 a.toNat)) ∧
  ∀ v : Word, (f32IsNaN v = true ↔ EncNaN 8 23 v.toNat) ∧
    (f32IsNaN v = false → applyF v 0x3F800000 = v ∧ f32Add 0 v = if v = 0x80000000 then 0 else v) ∧
    (f32IsNaN v = true → f32IsNaN (applyF v 0x3F800000) = true ∧ f32IsNaN (f32Add 0 v) = true)

/-- 42_sample_codec.md R151: a big-endian tag decodes the reversed bytes as the little-endian tag of its sample type does, and
encodes to the reversed bytes, so the value of a sample does not depend on byte order. -/
def Obligations.ByteOrder : Prop :=
  (∀ b : List Byte, decS16 .be b = decS16 .le b.reverse ∧ decS24 .be b = decS24 .le b.reverse ∧
    decS2432 .be b = decS2432 .le b.reverse ∧ decS32 .be b = decS32 .le b.reverse ∧
    decF32 .be b = decF32 .le b.reverse) ∧
  (∀ y : Int, encS16 .be y = (encS16 .le y).reverse ∧ encS24 .be y = (encS24 .le y).reverse ∧
    encS2432 .be y = (encS2432 .le y).reverse ∧ encS32 .be y = (encS32 .le y).reverse) ∧
  ∀ nan y : Word, encF32 .be nan y = (encF32 .le nan y).reverse

/-- 42_sample_codec.md R152 to R159, R161, R165: what a slot's accumulator is made of, format by format: the decoded sample
times the gain, the test that lets a term in (both float zeros are zero, a NaN is not), the zero it starts from, the addition. -/
def Obligations.SampleTerms : Prop :=
  ∀ (P : Config.Ports) (g : Word) (b0 b1 b2 b3 : Byte),
    (laneOf P .u8).term [b0] g = apply16 (b0.toNat - 0x80) g ∧
    (laneOf P .alaw).term [b0] g = apply16 (P.expandA b0).toInt g ∧
    (laneOf P .ulaw).term [b0] g = apply16 (P.expandU b0).toInt g ∧
    (laneOf P .s16le).term [b0, b1] g = apply16 (b1 ++ b0).toInt g ∧
    (laneOf P .s16be).term [b0, b1] g = apply16 (b0 ++ b1).toInt g ∧
    (laneOf P .s24le).term [b0, b1, b2] g = apply64 ((b2 ++ b1 ++ b0).toInt * 256) g ∧
    (laneOf P .s24be).term [b0, b1, b2] g = apply64 ((b0 ++ b1 ++ b2).toInt * 256) g ∧
    (laneOf P .s2432le).term [b0, b1, b2, b3] g = apply64 ((b2 ++ b1 ++ b0).toInt * 256) g ∧
    (laneOf P .s2432be).term [b0, b1, b2, b3] g = apply64 ((b1 ++ b2 ++ b3).toInt * 256) g ∧
    (laneOf P .s32le).term [b0, b1, b2, b3] g = apply64 (b3 ++ b2 ++ b1 ++ b0).toInt g ∧
    (laneOf P .s32be).term [b0, b1, b2, b3] g = apply64 (b0 ++ b1 ++ b2 ++ b3).toInt g ∧
    (laneOf P .f32le).term [b0, b1, b2, b3] g = applyF (b3 ++ b2 ++ b1 ++ b0) g ∧
    (laneOf P .f32be).term [b0, b1, b2, b3] g = applyF (b0 ++ b1 ++ b2 ++ b3) g ∧
    (∀ F : Fmt, (laneOf P F).nz g = false ↔ g = 0 ∨ (F = .f32le ∨ F = .f32be) ∧ g = 0x80000000) ∧
    ((laneOf P .u8).zero = (0 : Word) ∧ (laneOf P .alaw).zero = (0 : Word) ∧ (laneOf P .ulaw).zero = (0 : Word) ∧
      (laneOf P .s16le).zero = (0 : Word) ∧ (laneOf P .s16be).zero = (0 : Word) ∧ (laneOf P .s24le).zero = (0 : DWord) ∧
      (laneOf P .s24be).zero = (0 : DWord) ∧ (laneOf P .s2432le).zero = (0 : DWord) ∧
      (laneOf P .s2432be).zero = (0 : DWord) ∧ (laneOf P .s32le).zero = (0 : DWord) ∧
      (laneOf P .s32be).zero = (0 : DWord) ∧ (laneOf P .f32le).zero = (0 : Word) ∧ (laneOf P .f32be).zero = (0 : Word)) ∧
    (∀ x y : Word, (laneOf P .u8).add x y = x + y ∧ (laneOf P .alaw).add x y = x + y ∧ (laneOf P .ulaw).add x y = x + y ∧
      (laneOf P .s16le).add x y = x + y ∧ (laneOf P .s16be).add x y = x + y ∧ (laneOf P .f32le).add x y = f32Add x y ∧
      (laneOf P .f32be).add x y = f32Add x y) ∧
    ∀ x y : DWord, (laneOf P .s24le).add x y = x + y ∧ (laneOf P .s24be).add x y = x + y ∧
      (laneOf P .s2432le).add x y = x + y ∧ (laneOf P .s2432be).add x y = x + y ∧ (laneOf P .s32le).add x y = x + y ∧
      (laneOf P .s32be).add x y = x + y

/-- 42_sample_codec.md R160, R170 to R177: the bytes of a slot for EVERY accumulator `x`: clamped to the format's range, then
encoded; a companded value is shifted, with floor, after the clamp (the shifts 3 and 2 are log entry 16); a float is not
clamped, and a NaN has the pattern `nan`. -/
def Obligations.SampleBytes : Prop :=
  ∀ (P : Config.Ports) (nan : Word),
    (∀ x : Word,
      (laneOf P .u8).out nan x = [BitVec.ofInt 8 (max (-0x80) (min x.toInt 0x7F) + 0x80)] ∧
      (laneOf P .alaw).out nan x = [P.compressA (BitVec.ofInt 16 (max (-0x8000) (min x.toInt 0x7FFF) / 8))] ∧
      (laneOf P .ulaw).out nan x = [P.compressU (BitVec.ofInt 16 (max (-0x8000) (min x.toInt 0x7FFF) / 4))] ∧
      ∀ y : Int, y = max (-0x8000) (min x.toInt 0x7FFF) →
        (laneOf P .s16le).out nan x = [BitVec.ofInt 8 y, BitVec.ofInt 8 (y / 256)] ∧
        (laneOf P .s16be).out nan x = [BitVec.ofInt 8 (y / 256), BitVec.ofInt 8 y]) ∧
    (∀ (x : DWord) (y : Int) (c0 c1 c2 c3 : Byte), y = max (-0x80000000) (min x.toInt 0x7FFFFFFF) →
      c0 = BitVec.ofInt 8 y → c1 = BitVec.ofInt 8 (y / 2 ^ 8) → c2 = BitVec.ofInt 8 (y / 2 ^ 16) →
      c3 = BitVec.ofInt 8 (y / 2 ^ 24) →
      (laneOf P .s24le).out nan x = [c1, c2, c3] ∧ (laneOf P .s24be).out nan x = [c3, c2, c1] ∧
      (laneOf P .s2432le).out nan x = [c1, c2, c3, 0] ∧ (laneOf P .s2432be).out nan x = [0, c3, c2, c1] ∧
      (laneOf P .s32le).out nan x = [c0, c1, c2, c3] ∧ (laneOf P .s32be).out nan x = [c3, c2, c1, c0]) ∧
    ∀ x u : Word, (u = if f32IsNaN x then nan else x) →
      (laneOf P .f32le).out nan x = [u.extractLsb 7 0, u.extractLsb 15 8, u.extractLsb 23 16, u.extractLsb 31 24] ∧
      (laneOf P .f32be).out nan x = [u.extractLsb 31 24, u.extractLsb 23 16, u.extractLsb 15 8, u.extractLsb 7 0]
end

