-- ==== Sys2Proof/Laws/State.lean ====
section
/-! SUPPORT. What each state update does to each field: one lemma per field per update, true by rfl, so that no later proof
unfolds a record update. -/

namespace Sys2Proof.Machine

/-! ## setSeq -/

@[simp] theorem State.setSeq_cmd (s : State) (q : SeqState) : (s.setSeq q).cmd = s.cmd := rfl
@[simp] theorem State.setSeq_seq (s : State) (q : SeqState) : (s.setSeq q).seq = q := rfl
@[simp] theorem State.setSeq_gfault (s : State) (q : SeqState) : (s.setSeq q).gfault = s.gfault := rfl
@[simp] theorem State.setSeq_fcode (s : State) (q : SeqState) : (s.setSeq q).fcode = s.fcode := rfl
@[simp] theorem State.setSeq_finfo (s : State) (q : SeqState) : (s.setSeq q).finfo = s.finfo := rfl
@[simp] theorem State.setSeq_dst (s : State) (q : SeqState) : (s.setSeq q).dst = s.dst := rfl
@[simp] theorem State.setSeq_len (s : State) (q : SeqState) : (s.setSeq q).len = s.len := rfl
@[simp] theorem State.setSeq_ret (s : State) (q : SeqState) : (s.setSeq q).ret = s.ret := rfl
@[simp] theorem State.setSeq_karg (s : State) (q : SeqState) : (s.setSeq q).karg = s.karg := rfl
@[simp] theorem State.setSeq_ovol (s : State) (q : SeqState) : (s.setSeq q).ovol = s.ovol := rfl
@[simp] theorem State.setSeq_sChunk (s : State) (q : SeqState) : (s.setSeq q).sChunk = s.sChunk := rfl
@[simp] theorem State.setSeq_sAvail (s : State) (q : SeqState) : (s.setSeq q).sAvail = s.sAvail := rfl
@[simp] theorem State.setSeq_sVol (s : State) (q : SeqState) : (s.setSeq q).sVol = s.sVol := rfl
@[simp] theorem State.setSeq_sPtr (s : State) (q : SeqState) : (s.setSeq q).sPtr = s.sPtr := rfl
@[simp] theorem State.setSeq_olin (s : State) (q : SeqState) : (s.setSeq q).olin = s.olin := rfl
@[simp] theorem State.setSeq_sgain (s : State) (q : SeqState) : (s.setSeq q).sgain = s.sgain := rfl
@[simp] theorem State.setSeq_dCur (s : State) (q : SeqState) : (s.setSeq q).dCur = s.dCur := rfl
@[simp] theorem State.setSeq_dEnd (s : State) (q : SeqState) : (s.setSeq q).dEnd = s.dEnd := rfl
@[simp] theorem State.setSeq_chIdx (s : State) (q : SeqState) : (s.setSeq q).chIdx = s.chIdx := rfl
@[simp] theorem State.setSeq_effLen (s : State) (q : SeqState) : (s.setSeq q).effLen = s.effLen := rfl
@[simp] theorem State.setSeq_acc32 (s : State) (q : SeqState) : (s.setSeq q).acc32 = s.acc32 := rfl
@[simp] theorem State.setSeq_acc64 (s : State) (q : SeqState) : (s.setSeq q).acc64 = s.acc64 := rfl
@[simp] theorem State.setSeq_accF (s : State) (q : SeqState) : (s.setSeq q).accF = s.accF := rfl
@[simp] theorem State.setSeq_ktab (s : State) (q : SeqState) : (s.setSeq q).ktab = s.ktab := rfl
@[simp] theorem State.setSeq_mem (s : State) (q : SeqState) : (s.setSeq q).mem = s.mem := rfl
@[simp] theorem State.setSeq_hist (s : State) (q : SeqState) : (s.setSeq q).hist = s.hist := rfl
@[simp] theorem State.setSeq_host (s : State) (q : SeqState) : (s.setSeq q).host = s.host := rfl
@[simp] theorem State.setSeq_reads (s : State) (q : SeqState) : (s.setSeq q).reads = s.reads := rfl
@[simp] theorem State.setSeq_answers (s : State) (q : SeqState) : (s.setSeq q).answers = s.answers := rfl
@[simp] theorem State.setSeq_free (s : State) (q : SeqState) : (s.setSeq q).free = s.free := rfl

/-! ## setRet -/

@[simp] theorem State.setRet_cmd (s : State) (v : Word) : (s.setRet v).cmd = s.cmd := rfl
@[simp] theorem State.setRet_seq (s : State) (v : Word) : (s.setRet v).seq = s.seq := rfl
@[simp] theorem State.setRet_gfault (s : State) (v : Word) : (s.setRet v).gfault = s.gfault := rfl
@[simp] theorem State.setRet_fcode (s : State) (v : Word) : (s.setRet v).fcode = s.fcode := rfl
@[simp] theorem State.setRet_finfo (s : State) (v : Word) : (s.setRet v).finfo = s.finfo := rfl
@[simp] theorem State.setRet_dst (s : State) (v : Word) : (s.setRet v).dst = s.dst := rfl
@[simp] theorem State.setRet_len (s : State) (v : Word) : (s.setRet v).len = s.len := rfl
@[simp] theorem State.setRet_ret (s : State) (v : Word) : (s.setRet v).ret = v := rfl
@[simp] theorem State.setRet_karg (s : State) (v : Word) : (s.setRet v).karg = s.karg := rfl
@[simp] theorem State.setRet_ovol (s : State) (v : Word) : (s.setRet v).ovol = s.ovol := rfl
@[simp] theorem State.setRet_sChunk (s : State) (v : Word) : (s.setRet v).sChunk = s.sChunk := rfl
@[simp] theorem State.setRet_sAvail (s : State) (v : Word) : (s.setRet v).sAvail = s.sAvail := rfl
@[simp] theorem State.setRet_sVol (s : State) (v : Word) : (s.setRet v).sVol = s.sVol := rfl
@[simp] theorem State.setRet_sPtr (s : State) (v : Word) : (s.setRet v).sPtr = s.sPtr := rfl
@[simp] theorem State.setRet_olin (s : State) (v : Word) : (s.setRet v).olin = s.olin := rfl
@[simp] theorem State.setRet_sgain (s : State) (v : Word) : (s.setRet v).sgain = s.sgain := rfl
@[simp] theorem State.setRet_dCur (s : State) (v : Word) : (s.setRet v).dCur = s.dCur := rfl
@[simp] theorem State.setRet_dEnd (s : State) (v : Word) : (s.setRet v).dEnd = s.dEnd := rfl
@[simp] theorem State.setRet_chIdx (s : State) (v : Word) : (s.setRet v).chIdx = s.chIdx := rfl
@[simp] theorem State.setRet_effLen (s : State) (v : Word) : (s.setRet v).effLen = s.effLen := rfl
@[simp] theorem State.setRet_acc32 (s : State) (v : Word) : (s.setRet v).acc32 = s.acc32 := rfl
@[simp] theorem State.setRet_acc64 (s : State) (v : Word) : (s.setRet v).acc64 = s.acc64 := rfl
@[simp] theorem State.setRet_accF (s : State) (v : Word) : (s.setRet v).accF = s.accF := rfl
@[simp] theorem State.setRet_ktab (s : State) (v : Word) : (s.setRet v).ktab = s.ktab := rfl
@[simp] theorem State.setRet_mem (s : State) (v : Word) : (s.setRet v).mem = s.mem := rfl
@[simp] theorem State.setRet_hist (s : State) (v : Word) : (s.setRet v).hist = s.hist := rfl
@[simp] theorem State.setRet_host (s : State) (v : Word) : (s.setRet v).host = s.host := rfl
@[simp] theorem State.setRet_reads (s : State) (v : Word) : (s.setRet v).reads = s.reads := rfl
@[simp] theorem State.setRet_answers (s : State) (v : Word) : (s.setRet v).answers = s.answers := rfl
@[simp] theorem State.setRet_free (s : State) (v : Word) : (s.setRet v).free = s.free := rfl

/-! ## setSPtr -/

@[simp] theorem State.setSPtr_cmd (s : State) (i : Nat) (v : Word) : (s.setSPtr i v).cmd = s.cmd := rfl
@[simp] theorem State.setSPtr_seq (s : State) (i : Nat) (v : Word) : (s.setSPtr i v).seq = s.seq := rfl
@[simp] theorem State.setSPtr_gfault (s : State) (i : Nat) (v : Word) : (s.setSPtr i v).gfault = s.gfault := rfl
@[simp] theorem State.setSPtr_fcode (s : State) (i : Nat) (v : Word) : (s.setSPtr i v).fcode = s.fcode := rfl
@[simp] theorem State.setSPtr_finfo (s : State) (i : Nat) (v : Word) : (s.setSPtr i v).finfo = s.finfo := rfl
@[simp] theorem State.setSPtr_dst (s : State) (i : Nat) (v : Word) : (s.setSPtr i v).dst = s.dst := rfl
@[simp] theorem State.setSPtr_len (s : State) (i : Nat) (v : Word) : (s.setSPtr i v).len = s.len := rfl
@[simp] theorem State.setSPtr_ret (s : State) (i : Nat) (v : Word) : (s.setSPtr i v).ret = s.ret := rfl
@[simp] theorem State.setSPtr_karg (s : State) (i : Nat) (v : Word) : (s.setSPtr i v).karg = s.karg := rfl
@[simp] theorem State.setSPtr_ovol (s : State) (i : Nat) (v : Word) : (s.setSPtr i v).ovol = s.ovol := rfl
@[simp] theorem State.setSPtr_sChunk (s : State) (i : Nat) (v : Word) : (s.setSPtr i v).sChunk = s.sChunk := rfl
@[simp] theorem State.setSPtr_sAvail (s : State) (i : Nat) (v : Word) : (s.setSPtr i v).sAvail = s.sAvail := rfl
@[simp] theorem State.setSPtr_sVol (s : State) (i : Nat) (v : Word) : (s.setSPtr i v).sVol = s.sVol := rfl
@[simp] theorem State.setSPtr_sPtr (s : State) (i : Nat) (v : Word) : (s.setSPtr i v).sPtr = s.sPtr.setIfInBounds i v := rfl
@[simp] theorem State.setSPtr_olin (s : State) (i : Nat) (v : Word) : (s.setSPtr i v).olin = s.olin := rfl
@[simp] theorem State.setSPtr_sgain (s : State) (i : Nat) (v : Word) : (s.setSPtr i v).sgain = s.sgain := rfl
@[simp] theorem State.setSPtr_dCur (s : State) (i : Nat) (v : Word) : (s.setSPtr i v).dCur = s.dCur := rfl
@[simp] theorem State.setSPtr_dEnd (s : State) (i : Nat) (v : Word) : (s.setSPtr i v).dEnd = s.dEnd := rfl
@[simp] theorem State.setSPtr_chIdx (s : State) (i : Nat) (v : Word) : (s.setSPtr i v).chIdx = s.chIdx := rfl
@[simp] theorem State.setSPtr_effLen (s : State) (i : Nat) (v : Word) : (s.setSPtr i v).effLen = s.effLen := rfl
@[simp] theorem State.setSPtr_acc32 (s : State) (i : Nat) (v : Word) : (s.setSPtr i v).acc32 = s.acc32 := rfl
@[simp] theorem State.setSPtr_acc64 (s : State) (i : Nat) (v : Word) : (s.setSPtr i v).acc64 = s.acc64 := rfl
@[simp] theorem State.setSPtr_accF (s : State) (i : Nat) (v : Word) : (s.setSPtr i v).accF = s.accF := rfl
@[simp] theorem State.setSPtr_ktab (s : State) (i : Nat) (v : Word) : (s.setSPtr i v).ktab = s.ktab := rfl
@[simp] theorem State.setSPtr_mem (s : State) (i : Nat) (v : Word) : (s.setSPtr i v).mem = s.mem := rfl
@[simp] theorem State.setSPtr_hist (s : State) (i : Nat) (v : Word) : (s.setSPtr i v).hist = s.hist := rfl
@[simp] theorem State.setSPtr_host (s : State) (i : Nat) (v : Word) : (s.setSPtr i v).host = s.host := rfl
@[simp] theorem State.setSPtr_reads (s : State) (i : Nat) (v : Word) : (s.setSPtr i v).reads = s.reads := rfl
@[simp] theorem State.setSPtr_answers (s : State) (i : Nat) (v : Word) : (s.setSPtr i v).answers = s.answers := rfl
@[simp] theorem State.setSPtr_free (s : State) (i : Nat) (v : Word) : (s.setSPtr i v).free = s.free := rfl

/-! ## setOlin -/

@[simp] theorem State.setOlin_cmd (s : State) (i : Nat) (v : Word) : (s.setOlin i v).cmd = s.cmd := rfl
@[simp] theorem State.setOlin_seq (s : State) (i : Nat) (v : Word) : (s.setOlin i v).seq = s.seq := rfl
@[simp] theorem State.setOlin_gfault (s : State) (i : Nat) (v : Word) : (s.setOlin i v).gfault = s.gfault := rfl
@[simp] theorem State.setOlin_fcode (s : State) (i : Nat) (v : Word) : (s.setOlin i v).fcode = s.fcode := rfl
@[simp] theorem State.setOlin_finfo (s : State) (i : Nat) (v : Word) : (s.setOlin i v).finfo = s.finfo := rfl
@[simp] theorem State.setOlin_dst (s : State) (i : Nat) (v : Word) : (s.setOlin i v).dst = s.dst := rfl
@[simp] theorem State.setOlin_len (s : State) (i : Nat) (v : Word) : (s.setOlin i v).len = s.len := rfl
@[simp] theorem State.setOlin_ret (s : State) (i : Nat) (v : Word) : (s.setOlin i v).ret = s.ret := rfl
@[simp] theorem State.setOlin_karg (s : State) (i : Nat) (v : Word) : (s.setOlin i v).karg = s.karg := rfl
@[simp] theorem State.setOlin_ovol (s : State) (i : Nat) (v : Word) : (s.setOlin i v).ovol = s.ovol := rfl
@[simp] theorem State.setOlin_sChunk (s : State) (i : Nat) (v : Word) : (s.setOlin i v).sChunk = s.sChunk := rfl
@[simp] theorem State.setOlin_sAvail (s : State) (i : Nat) (v : Word) : (s.setOlin i v).sAvail = s.sAvail := rfl
@[simp] theorem State.setOlin_sVol (s : State) (i : Nat) (v : Word) : (s.setOlin i v).sVol = s.sVol := rfl
@[simp] theorem State.setOlin_sPtr (s : State) (i : Nat) (v : Word) : (s.setOlin i v).sPtr = s.sPtr := rfl
@[simp] theorem State.setOlin_olin (s : State) (i : Nat) (v : Word) : (s.setOlin i v).olin = s.olin.setIfInBounds i v := rfl
@[simp] theorem State.setOlin_sgain (s : State) (i : Nat) (v : Word) : (s.setOlin i v).sgain = s.sgain := rfl
@[simp] theorem State.setOlin_dCur (s : State) (i : Nat) (v : Word) : (s.setOlin i v).dCur = s.dCur := rfl
@[simp] theorem State.setOlin_dEnd (s : State) (i : Nat) (v : Word) : (s.setOlin i v).dEnd = s.dEnd := rfl
@[simp] theorem State.setOlin_chIdx (s : State) (i : Nat) (v : Word) : (s.setOlin i v).chIdx = s.chIdx := rfl
@[simp] theorem State.setOlin_effLen (s : State) (i : Nat) (v : Word) : (s.setOlin i v).effLen = s.effLen := rfl
@[simp] theorem State.setOlin_acc32 (s : State) (i : Nat) (v : Word) : (s.setOlin i v).acc32 = s.acc32 := rfl
@[simp] theorem State.setOlin_acc64 (s : State) (i : Nat) (v : Word) : (s.setOlin i v).acc64 = s.acc64 := rfl
@[simp] theorem State.setOlin_accF (s : State) (i : Nat) (v : Word) : (s.setOlin i v).accF = s.accF := rfl
@[simp] theorem State.setOlin_ktab (s : State) (i : Nat) (v : Word) : (s.setOlin i v).ktab = s.ktab := rfl
@[simp] theorem State.setOlin_mem (s : State) (i : Nat) (v : Word) : (s.setOlin i v).mem = s.mem := rfl
@[simp] theorem State.setOlin_hist (s : State) (i : Nat) (v : Word) : (s.setOlin i v).hist = s.hist := rfl
@[simp] theorem State.setOlin_host (s : State) (i : Nat) (v : Word) : (s.setOlin i v).host = s.host := rfl
@[simp] theorem State.setOlin_reads (s : State) (i : Nat) (v : Word) : (s.setOlin i v).reads = s.reads := rfl
@[simp] theorem State.setOlin_answers (s : State) (i : Nat) (v : Word) : (s.setOlin i v).answers = s.answers := rfl
@[simp] theorem State.setOlin_free (s : State) (i : Nat) (v : Word) : (s.setOlin i v).free = s.free := rfl

/-! ## setSgain -/

@[simp] theorem State.setSgain_cmd (s : State) (i ch : Nat) (v : Word) : (s.setSgain i ch v).cmd = s.cmd := rfl
@[simp] theorem State.setSgain_seq (s : State) (i ch : Nat) (v : Word) : (s.setSgain i ch v).seq = s.seq := rfl
@[simp] theorem State.setSgain_gfault (s : State) (i ch : Nat) (v : Word) : (s.setSgain i ch v).gfault = s.gfault := rfl
@[simp] theorem State.setSgain_fcode (s : State) (i ch : Nat) (v : Word) : (s.setSgain i ch v).fcode = s.fcode := rfl
@[simp] theorem State.setSgain_finfo (s : State) (i ch : Nat) (v : Word) : (s.setSgain i ch v).finfo = s.finfo := rfl
@[simp] theorem State.setSgain_dst (s : State) (i ch : Nat) (v : Word) : (s.setSgain i ch v).dst = s.dst := rfl
@[simp] theorem State.setSgain_len (s : State) (i ch : Nat) (v : Word) : (s.setSgain i ch v).len = s.len := rfl
@[simp] theorem State.setSgain_ret (s : State) (i ch : Nat) (v : Word) : (s.setSgain i ch v).ret = s.ret := rfl
@[simp] theorem State.setSgain_karg (s : State) (i ch : Nat) (v : Word) : (s.setSgain i ch v).karg = s.karg := rfl
@[simp] theorem State.setSgain_ovol (s : State) (i ch : Nat) (v : Word) : (s.setSgain i ch v).ovol = s.ovol := rfl
@[simp] theorem State.setSgain_sChunk (s : State) (i ch : Nat) (v : Word) : (s.setSgain i ch v).sChunk = s.sChunk := rfl
@[simp] theorem State.setSgain_sAvail (s : State) (i ch : Nat) (v : Word) : (s.setSgain i ch v).sAvail = s.sAvail := rfl
@[simp] theorem State.setSgain_sVol (s : State) (i ch : Nat) (v : Word) : (s.setSgain i ch v).sVol = s.sVol := rfl
@[simp] theorem State.setSgain_sPtr (s : State) (i ch : Nat) (v : Word) : (s.setSgain i ch v).sPtr = s.sPtr := rfl
@[simp] theorem State.setSgain_olin (s : State) (i ch : Nat) (v : Word) : (s.setSgain i ch v).olin = s.olin := rfl
@[simp] theorem State.setSgain_sgain (s : State) (i ch : Nat) (v : Word) : (s.setSgain i ch v).sgain = s.sgain.setIfInBounds i ((s.sgainRow i).setIfInBounds ch v) := rfl
@[simp] theorem State.setSgain_dCur (s : State) (i ch : Nat) (v : Word) : (s.setSgain i ch v).dCur = s.dCur := rfl
@[simp] theorem State.setSgain_dEnd (s : State) (i ch : Nat) (v : Word) : (s.setSgain i ch v).dEnd = s.dEnd := rfl
@[simp] theorem State.setSgain_chIdx (s : State) (i ch : Nat) (v : Word) : (s.setSgain i ch v).chIdx = s.chIdx := rfl
@[simp] theorem State.setSgain_effLen (s : State) (i ch : Nat) (v : Word) : (s.setSgain i ch v).effLen = s.effLen := rfl
@[simp] theorem State.setSgain_acc32 (s : State) (i ch : Nat) (v : Word) : (s.setSgain i ch v).acc32 = s.acc32 := rfl
@[simp] theorem State.setSgain_acc64 (s : State) (i ch : Nat) (v : Word) : (s.setSgain i ch v).acc64 = s.acc64 := rfl
@[simp] theorem State.setSgain_accF (s : State) (i ch : Nat) (v : Word) : (s.setSgain i ch v).accF = s.accF := rfl
@[simp] theorem State.setSgain_ktab (s : State) (i ch : Nat) (v : Word) : (s.setSgain i ch v).ktab = s.ktab := rfl
@[simp] theorem State.setSgain_mem (s : State) (i ch : Nat) (v : Word) : (s.setSgain i ch v).mem = s.mem := rfl
@[simp] theorem State.setSgain_hist (s : State) (i ch : Nat) (v : Word) : (s.setSgain i ch v).hist = s.hist := rfl
@[simp] theorem State.setSgain_host (s : State) (i ch : Nat) (v : Word) : (s.setSgain i ch v).host = s.host := rfl
@[simp] theorem State.setSgain_reads (s : State) (i ch : Nat) (v : Word) : (s.setSgain i ch v).reads = s.reads := rfl
@[simp] theorem State.setSgain_answers (s : State) (i ch : Nat) (v : Word) : (s.setSgain i ch v).answers = s.answers := rfl
@[simp] theorem State.setSgain_free (s : State) (i ch : Nat) (v : Word) : (s.setSgain i ch v).free = s.free := rfl

/-! ## setKtab -/

@[simp] theorem State.setKtab_cmd (s : State) (F : Fmt) (k : BitVec 8) : (s.setKtab F k).cmd = s.cmd := rfl
@[simp] theorem State.setKtab_seq (s : State) (F : Fmt) (k : BitVec 8) : (s.setKtab F k).seq = s.seq := rfl
@[simp] theorem State.setKtab_gfault (s : State) (F : Fmt) (k : BitVec 8) : (s.setKtab F k).gfault = s.gfault := rfl
@[simp] theorem State.setKtab_fcode (s : State) (F : Fmt) (k : BitVec 8) : (s.setKtab F k).fcode = s.fcode := rfl
@[simp] theorem State.setKtab_finfo (s : State) (F : Fmt) (k : BitVec 8) : (s.setKtab F k).finfo = s.finfo := rfl
@[simp] theorem State.setKtab_dst (s : State) (F : Fmt) (k : BitVec 8) : (s.setKtab F k).dst = s.dst := rfl
@[simp] theorem State.setKtab_len (s : State) (F : Fmt) (k : BitVec 8) : (s.setKtab F k).len = s.len := rfl
@[simp] theorem State.setKtab_ret (s : State) (F : Fmt) (k : BitVec 8) : (s.setKtab F k).ret = s.ret := rfl
@[simp] theorem State.setKtab_karg (s : State) (F : Fmt) (k : BitVec 8) : (s.setKtab F k).karg = s.karg := rfl
@[simp] theorem State.setKtab_ovol (s : State) (F : Fmt) (k : BitVec 8) : (s.setKtab F k).ovol = s.ovol := rfl
@[simp] theorem State.setKtab_sChunk (s : State) (F : Fmt) (k : BitVec 8) : (s.setKtab F k).sChunk = s.sChunk := rfl
@[simp] theorem State.setKtab_sAvail (s : State) (F : Fmt) (k : BitVec 8) : (s.setKtab F k).sAvail = s.sAvail := rfl
@[simp] theorem State.setKtab_sVol (s : State) (F : Fmt) (k : BitVec 8) : (s.setKtab F k).sVol = s.sVol := rfl
@[simp] theorem State.setKtab_sPtr (s : State) (F : Fmt) (k : BitVec 8) : (s.setKtab F k).sPtr = s.sPtr := rfl
@[simp] theorem State.setKtab_olin (s : State) (F : Fmt) (k : BitVec 8) : (s.setKtab F k).olin = s.olin := rfl
@[simp] theorem State.setKtab_sgain (s : State) (F : Fmt) (k : BitVec 8) : (s.setKtab F k).sgain = s.sgain := rfl
@[simp] theorem State.setKtab_dCur (s : State) (F : Fmt) (k : BitVec 8) : (s.setKtab F k).dCur = s.dCur := rfl
@[simp] theorem State.setKtab_dEnd (s : State) (F : Fmt) (k : BitVec 8) : (s.setKtab F k).dEnd = s.dEnd := rfl
@[simp] theorem State.setKtab_chIdx (s : State) (F : Fmt) (k : BitVec 8) : (s.setKtab F k).chIdx = s.chIdx := rfl
@[simp] theorem State.setKtab_effLen (s : State) (F : Fmt) (k : BitVec 8) : (s.setKtab F k).effLen = s.effLen := rfl
@[simp] theorem State.setKtab_acc32 (s : State) (F : Fmt) (k : BitVec 8) : (s.setKtab F k).acc32 = s.acc32 := rfl
@[simp] theorem State.setKtab_acc64 (s : State) (F : Fmt) (k : BitVec 8) : (s.setKtab F k).acc64 = s.acc64 := rfl
@[simp] theorem State.setKtab_accF (s : State) (F : Fmt) (k : BitVec 8) : (s.setKtab F k).accF = s.accF := rfl
@[simp] theorem State.setKtab_ktab (s : State) (F : Fmt) (k : BitVec 8) : (s.setKtab F k).ktab = s.ktab.setIfInBounds F.tag k := rfl
@[simp] theorem State.setKtab_mem (s : State) (F : Fmt) (k : BitVec 8) : (s.setKtab F k).mem = s.mem := rfl
@[simp] theorem State.setKtab_hist (s : State) (F : Fmt) (k : BitVec 8) : (s.setKtab F k).hist = s.hist := rfl
@[simp] theorem State.setKtab_host (s : State) (F : Fmt) (k : BitVec 8) : (s.setKtab F k).host = s.host := rfl
@[simp] theorem State.setKtab_reads (s : State) (F : Fmt) (k : BitVec 8) : (s.setKtab F k).reads = s.reads := rfl
@[simp] theorem State.setKtab_answers (s : State) (F : Fmt) (k : BitVec 8) : (s.setKtab F k).answers = s.answers := rfl
@[simp] theorem State.setKtab_free (s : State) (F : Fmt) (k : BitVec 8) : (s.setKtab F k).free = s.free := rfl

/-! ## setEffLen -/

@[simp] theorem State.setEffLen_cmd (s : State) (v : Word) : (s.setEffLen v).cmd = s.cmd := rfl
@[simp] theorem State.setEffLen_seq (s : State) (v : Word) : (s.setEffLen v).seq = s.seq := rfl
@[simp] theorem State.setEffLen_gfault (s : State) (v : Word) : (s.setEffLen v).gfault = s.gfault := rfl
@[simp] theorem State.setEffLen_fcode (s : State) (v : Word) : (s.setEffLen v).fcode = s.fcode := rfl
@[simp] theorem State.setEffLen_finfo (s : State) (v : Word) : (s.setEffLen v).finfo = s.finfo := rfl
@[simp] theorem State.setEffLen_dst (s : State) (v : Word) : (s.setEffLen v).dst = s.dst := rfl
@[simp] theorem State.setEffLen_len (s : State) (v : Word) : (s.setEffLen v).len = s.len := rfl
@[simp] theorem State.setEffLen_ret (s : State) (v : Word) : (s.setEffLen v).ret = s.ret := rfl
@[simp] theorem State.setEffLen_karg (s : State) (v : Word) : (s.setEffLen v).karg = s.karg := rfl
@[simp] theorem State.setEffLen_ovol (s : State) (v : Word) : (s.setEffLen v).ovol = s.ovol := rfl
@[simp] theorem State.setEffLen_sChunk (s : State) (v : Word) : (s.setEffLen v).sChunk = s.sChunk := rfl
@[simp] theorem State.setEffLen_sAvail (s : State) (v : Word) : (s.setEffLen v).sAvail = s.sAvail := rfl
@[simp] theorem State.setEffLen_sVol (s : State) (v : Word) : (s.setEffLen v).sVol = s.sVol := rfl
@[simp] theorem State.setEffLen_sPtr (s : State) (v : Word) : (s.setEffLen v).sPtr = s.sPtr := rfl
@[simp] theorem State.setEffLen_olin (s : State) (v : Word) : (s.setEffLen v).olin = s.olin := rfl
@[simp] theorem State.setEffLen_sgain (s : State) (v : Word) : (s.setEffLen v).sgain = s.sgain := rfl
@[simp] theorem State.setEffLen_dCur (s : State) (v : Word) : (s.setEffLen v).dCur = s.dCur := rfl
@[simp] theorem State.setEffLen_dEnd (s : State) (v : Word) : (s.setEffLen v).dEnd = s.dEnd := rfl
@[simp] theorem State.setEffLen_chIdx (s : State) (v : Word) : (s.setEffLen v).chIdx = s.chIdx := rfl
@[simp] theorem State.setEffLen_effLen (s : State) (v : Word) : (s.setEffLen v).effLen = v := rfl
@[simp] theorem State.setEffLen_acc32 (s : State) (v : Word) : (s.setEffLen v).acc32 = s.acc32 := rfl
@[simp] theorem State.setEffLen_acc64 (s : State) (v : Word) : (s.setEffLen v).acc64 = s.acc64 := rfl
@[simp] theorem State.setEffLen_accF (s : State) (v : Word) : (s.setEffLen v).accF = s.accF := rfl
@[simp] theorem State.setEffLen_ktab (s : State) (v : Word) : (s.setEffLen v).ktab = s.ktab := rfl
@[simp] theorem State.setEffLen_mem (s : State) (v : Word) : (s.setEffLen v).mem = s.mem := rfl
@[simp] theorem State.setEffLen_hist (s : State) (v : Word) : (s.setEffLen v).hist = s.hist := rfl
@[simp] theorem State.setEffLen_host (s : State) (v : Word) : (s.setEffLen v).host = s.host := rfl
@[simp] theorem State.setEffLen_reads (s : State) (v : Word) : (s.setEffLen v).reads = s.reads := rfl
@[simp] theorem State.setEffLen_answers (s : State) (v : Word) : (s.setEffLen v).answers = s.answers := rfl
@[simp] theorem State.setEffLen_free (s : State) (v : Word) : (s.setEffLen v).free = s.free := rfl

/-! ## setDCur -/

@[simp] theorem State.setDCur_cmd (s : State) (v : Word) : (s.setDCur v).cmd = s.cmd := rfl
@[simp] theorem State.setDCur_seq (s : State) (v : Word) : (s.setDCur v).seq = s.seq := rfl
@[simp] theorem State.setDCur_gfault (s : State) (v : Word) : (s.setDCur v).gfault = s.gfault := rfl
@[simp] theorem State.setDCur_fcode (s : State) (v : Word) : (s.setDCur v).fcode = s.fcode := rfl
@[simp] theorem State.setDCur_finfo (s : State) (v : Word) : (s.setDCur v).finfo = s.finfo := rfl
@[simp] theorem State.setDCur_dst (s : State) (v : Word) : (s.setDCur v).dst = s.dst := rfl
@[simp] theorem State.setDCur_len (s : State) (v : Word) : (s.setDCur v).len = s.len := rfl
@[simp] theorem State.setDCur_ret (s : State) (v : Word) : (s.setDCur v).ret = s.ret := rfl
@[simp] theorem State.setDCur_karg (s : State) (v : Word) : (s.setDCur v).karg = s.karg := rfl
@[simp] theorem State.setDCur_ovol (s : State) (v : Word) : (s.setDCur v).ovol = s.ovol := rfl
@[simp] theorem State.setDCur_sChunk (s : State) (v : Word) : (s.setDCur v).sChunk = s.sChunk := rfl
@[simp] theorem State.setDCur_sAvail (s : State) (v : Word) : (s.setDCur v).sAvail = s.sAvail := rfl
@[simp] theorem State.setDCur_sVol (s : State) (v : Word) : (s.setDCur v).sVol = s.sVol := rfl
@[simp] theorem State.setDCur_sPtr (s : State) (v : Word) : (s.setDCur v).sPtr = s.sPtr := rfl
@[simp] theorem State.setDCur_olin (s : State) (v : Word) : (s.setDCur v).olin = s.olin := rfl
@[simp] theorem State.setDCur_sgain (s : State) (v : Word) : (s.setDCur v).sgain = s.sgain := rfl
@[simp] theorem State.setDCur_dCur (s : State) (v : Word) : (s.setDCur v).dCur = v := rfl
@[simp] theorem State.setDCur_dEnd (s : State) (v : Word) : (s.setDCur v).dEnd = s.dEnd := rfl
@[simp] theorem State.setDCur_chIdx (s : State) (v : Word) : (s.setDCur v).chIdx = s.chIdx := rfl
@[simp] theorem State.setDCur_effLen (s : State) (v : Word) : (s.setDCur v).effLen = s.effLen := rfl
@[simp] theorem State.setDCur_acc32 (s : State) (v : Word) : (s.setDCur v).acc32 = s.acc32 := rfl
@[simp] theorem State.setDCur_acc64 (s : State) (v : Word) : (s.setDCur v).acc64 = s.acc64 := rfl
@[simp] theorem State.setDCur_accF (s : State) (v : Word) : (s.setDCur v).accF = s.accF := rfl
@[simp] theorem State.setDCur_ktab (s : State) (v : Word) : (s.setDCur v).ktab = s.ktab := rfl
@[simp] theorem State.setDCur_mem (s : State) (v : Word) : (s.setDCur v).mem = s.mem := rfl
@[simp] theorem State.setDCur_hist (s : State) (v : Word) : (s.setDCur v).hist = s.hist := rfl
@[simp] theorem State.setDCur_host (s : State) (v : Word) : (s.setDCur v).host = s.host := rfl
@[simp] theorem State.setDCur_reads (s : State) (v : Word) : (s.setDCur v).reads = s.reads := rfl
@[simp] theorem State.setDCur_answers (s : State) (v : Word) : (s.setDCur v).answers = s.answers := rfl
@[simp] theorem State.setDCur_free (s : State) (v : Word) : (s.setDCur v).free = s.free := rfl

/-! ## setDEnd -/

@[simp] theorem State.setDEnd_cmd (s : State) (v : BitVec 33) : (s.setDEnd v).cmd = s.cmd := rfl
@[simp] theorem State.setDEnd_seq (s : State) (v : BitVec 33) : (s.setDEnd v).seq = s.seq := rfl
@[simp] theorem State.setDEnd_gfault (s : State) (v : BitVec 33) : (s.setDEnd v).gfault = s.gfault := rfl
@[simp] theorem State.setDEnd_fcode (s : State) (v : BitVec 33) : (s.setDEnd v).fcode = s.fcode := rfl
@[simp] theorem State.setDEnd_finfo (s : State) (v : BitVec 33) : (s.setDEnd v).finfo = s.finfo := rfl
@[simp] theorem State.setDEnd_dst (s : State) (v : BitVec 33) : (s.setDEnd v).dst = s.dst := rfl
@[simp] theorem State.setDEnd_len (s : State) (v : BitVec 33) : (s.setDEnd v).len = s.len := rfl
@[simp] theorem State.setDEnd_ret (s : State) (v : BitVec 33) : (s.setDEnd v).ret = s.ret := rfl
@[simp] theorem State.setDEnd_karg (s : State) (v : BitVec 33) : (s.setDEnd v).karg = s.karg := rfl
@[simp] theorem State.setDEnd_ovol (s : State) (v : BitVec 33) : (s.setDEnd v).ovol = s.ovol := rfl
@[simp] theorem State.setDEnd_sChunk (s : State) (v : BitVec 33) : (s.setDEnd v).sChunk = s.sChunk := rfl
@[simp] theorem State.setDEnd_sAvail (s : State) (v : BitVec 33) : (s.setDEnd v).sAvail = s.sAvail := rfl
@[simp] theorem State.setDEnd_sVol (s : State) (v : BitVec 33) : (s.setDEnd v).sVol = s.sVol := rfl
@[simp] theorem State.setDEnd_sPtr (s : State) (v : BitVec 33) : (s.setDEnd v).sPtr = s.sPtr := rfl
@[simp] theorem State.setDEnd_olin (s : State) (v : BitVec 33) : (s.setDEnd v).olin = s.olin := rfl
@[simp] theorem State.setDEnd_sgain (s : State) (v : BitVec 33) : (s.setDEnd v).sgain = s.sgain := rfl
@[simp] theorem State.setDEnd_dCur (s : State) (v : BitVec 33) : (s.setDEnd v).dCur = s.dCur := rfl
@[simp] theorem State.setDEnd_dEnd (s : State) (v : BitVec 33) : (s.setDEnd v).dEnd = v := rfl
@[simp] theorem State.setDEnd_chIdx (s : State) (v : BitVec 33) : (s.setDEnd v).chIdx = s.chIdx := rfl
@[simp] theorem State.setDEnd_effLen (s : State) (v : BitVec 33) : (s.setDEnd v).effLen = s.effLen := rfl
@[simp] theorem State.setDEnd_acc32 (s : State) (v : BitVec 33) : (s.setDEnd v).acc32 = s.acc32 := rfl
@[simp] theorem State.setDEnd_acc64 (s : State) (v : BitVec 33) : (s.setDEnd v).acc64 = s.acc64 := rfl
@[simp] theorem State.setDEnd_accF (s : State) (v : BitVec 33) : (s.setDEnd v).accF = s.accF := rfl
@[simp] theorem State.setDEnd_ktab (s : State) (v : BitVec 33) : (s.setDEnd v).ktab = s.ktab := rfl
@[simp] theorem State.setDEnd_mem (s : State) (v : BitVec 33) : (s.setDEnd v).mem = s.mem := rfl
@[simp] theorem State.setDEnd_hist (s : State) (v : BitVec 33) : (s.setDEnd v).hist = s.hist := rfl
@[simp] theorem State.setDEnd_host (s : State) (v : BitVec 33) : (s.setDEnd v).host = s.host := rfl
@[simp] theorem State.setDEnd_reads (s : State) (v : BitVec 33) : (s.setDEnd v).reads = s.reads := rfl
@[simp] theorem State.setDEnd_answers (s : State) (v : BitVec 33) : (s.setDEnd v).answers = s.answers := rfl
@[simp] theorem State.setDEnd_free (s : State) (v : BitVec 33) : (s.setDEnd v).free = s.free := rfl

/-! ## setChIdx -/

@[simp] theorem State.setChIdx_cmd (s : State) (v : BitVec 6) : (s.setChIdx v).cmd = s.cmd := rfl
@[simp] theorem State.setChIdx_seq (s : State) (v : BitVec 6) : (s.setChIdx v).seq = s.seq := rfl
@[simp] theorem State.setChIdx_gfault (s : State) (v : BitVec 6) : (s.setChIdx v).gfault = s.gfault := rfl
@[simp] theorem State.setChIdx_fcode (s : State) (v : BitVec 6) : (s.setChIdx v).fcode = s.fcode := rfl
@[simp] theorem State.setChIdx_finfo (s : State) (v : BitVec 6) : (s.setChIdx v).finfo = s.finfo := rfl
@[simp] theorem State.setChIdx_dst (s : State) (v : BitVec 6) : (s.setChIdx v).dst = s.dst := rfl
@[simp] theorem State.setChIdx_len (s : State) (v : BitVec 6) : (s.setChIdx v).len = s.len := rfl
@[simp] theorem State.setChIdx_ret (s : State) (v : BitVec 6) : (s.setChIdx v).ret = s.ret := rfl
@[simp] theorem State.setChIdx_karg (s : State) (v : BitVec 6) : (s.setChIdx v).karg = s.karg := rfl
@[simp] theorem State.setChIdx_ovol (s : State) (v : BitVec 6) : (s.setChIdx v).ovol = s.ovol := rfl
@[simp] theorem State.setChIdx_sChunk (s : State) (v : BitVec 6) : (s.setChIdx v).sChunk = s.sChunk := rfl
@[simp] theorem State.setChIdx_sAvail (s : State) (v : BitVec 6) : (s.setChIdx v).sAvail = s.sAvail := rfl
@[simp] theorem State.setChIdx_sVol (s : State) (v : BitVec 6) : (s.setChIdx v).sVol = s.sVol := rfl
@[simp] theorem State.setChIdx_sPtr (s : State) (v : BitVec 6) : (s.setChIdx v).sPtr = s.sPtr := rfl
@[simp] theorem State.setChIdx_olin (s : State) (v : BitVec 6) : (s.setChIdx v).olin = s.olin := rfl
@[simp] theorem State.setChIdx_sgain (s : State) (v : BitVec 6) : (s.setChIdx v).sgain = s.sgain := rfl
@[simp] theorem State.setChIdx_dCur (s : State) (v : BitVec 6) : (s.setChIdx v).dCur = s.dCur := rfl
@[simp] theorem State.setChIdx_dEnd (s : State) (v : BitVec 6) : (s.setChIdx v).dEnd = s.dEnd := rfl
@[simp] theorem State.setChIdx_chIdx (s : State) (v : BitVec 6) : (s.setChIdx v).chIdx = v := rfl
@[simp] theorem State.setChIdx_effLen (s : State) (v : BitVec 6) : (s.setChIdx v).effLen = s.effLen := rfl
@[simp] theorem State.setChIdx_acc32 (s : State) (v : BitVec 6) : (s.setChIdx v).acc32 = s.acc32 := rfl
@[simp] theorem State.setChIdx_acc64 (s : State) (v : BitVec 6) : (s.setChIdx v).acc64 = s.acc64 := rfl
@[simp] theorem State.setChIdx_accF (s : State) (v : BitVec 6) : (s.setChIdx v).accF = s.accF := rfl
@[simp] theorem State.setChIdx_ktab (s : State) (v : BitVec 6) : (s.setChIdx v).ktab = s.ktab := rfl
@[simp] theorem State.setChIdx_mem (s : State) (v : BitVec 6) : (s.setChIdx v).mem = s.mem := rfl
@[simp] theorem State.setChIdx_hist (s : State) (v : BitVec 6) : (s.setChIdx v).hist = s.hist := rfl
@[simp] theorem State.setChIdx_host (s : State) (v : BitVec 6) : (s.setChIdx v).host = s.host := rfl
@[simp] theorem State.setChIdx_reads (s : State) (v : BitVec 6) : (s.setChIdx v).reads = s.reads := rfl
@[simp] theorem State.setChIdx_answers (s : State) (v : BitVec 6) : (s.setChIdx v).answers = s.answers := rfl
@[simp] theorem State.setChIdx_free (s : State) (v : BitVec 6) : (s.setChIdx v).free = s.free := rfl

/-! ## setAcc32 -/

@[simp] theorem State.setAcc32_cmd (s : State) (v : Word) : (s.setAcc32 v).cmd = s.cmd := rfl
@[simp] theorem State.setAcc32_seq (s : State) (v : Word) : (s.setAcc32 v).seq = s.seq := rfl
@[simp] theorem State.setAcc32_gfault (s : State) (v : Word) : (s.setAcc32 v).gfault = s.gfault := rfl
@[simp] theorem State.setAcc32_fcode (s : State) (v : Word) : (s.setAcc32 v).fcode = s.fcode := rfl
@[simp] theorem State.setAcc32_finfo (s : State) (v : Word) : (s.setAcc32 v).finfo = s.finfo := rfl
@[simp] theorem State.setAcc32_dst (s : State) (v : Word) : (s.setAcc32 v).dst = s.dst := rfl
@[simp] theorem State.setAcc32_len (s : State) (v : Word) : (s.setAcc32 v).len = s.len := rfl
@[simp] theorem State.setAcc32_ret (s : State) (v : Word) : (s.setAcc32 v).ret = s.ret := rfl
@[simp] theorem State.setAcc32_karg (s : State) (v : Word) : (s.setAcc32 v).karg = s.karg := rfl
@[simp] theorem State.setAcc32_ovol (s : State) (v : Word) : (s.setAcc32 v).ovol = s.ovol := rfl
@[simp] theorem State.setAcc32_sChunk (s : State) (v : Word) : (s.setAcc32 v).sChunk = s.sChunk := rfl
@[simp] theorem State.setAcc32_sAvail (s : State) (v : Word) : (s.setAcc32 v).sAvail = s.sAvail := rfl
@[simp] theorem State.setAcc32_sVol (s : State) (v : Word) : (s.setAcc32 v).sVol = s.sVol := rfl
@[simp] theorem State.setAcc32_sPtr (s : State) (v : Word) : (s.setAcc32 v).sPtr = s.sPtr := rfl
@[simp] theorem State.setAcc32_olin (s : State) (v : Word) : (s.setAcc32 v).olin = s.olin := rfl
@[simp] theorem State.setAcc32_sgain (s : State) (v : Word) : (s.setAcc32 v).sgain = s.sgain := rfl
@[simp] theorem State.setAcc32_dCur (s : State) (v : Word) : (s.setAcc32 v).dCur = s.dCur := rfl
@[simp] theorem State.setAcc32_dEnd (s : State) (v : Word) : (s.setAcc32 v).dEnd = s.dEnd := rfl
@[simp] theorem State.setAcc32_chIdx (s : State) (v : Word) : (s.setAcc32 v).chIdx = s.chIdx := rfl
@[simp] theorem State.setAcc32_effLen (s : State) (v : Word) : (s.setAcc32 v).effLen = s.effLen := rfl
@[simp] theorem State.setAcc32_acc32 (s : State) (v : Word) : (s.setAcc32 v).acc32 = v := rfl
@[simp] theorem State.setAcc32_acc64 (s : State) (v : Word) : (s.setAcc32 v).acc64 = s.acc64 := rfl
@[simp] theorem State.setAcc32_accF (s : State) (v : Word) : (s.setAcc32 v).accF = s.accF := rfl
@[simp] theorem State.setAcc32_ktab (s : State) (v : Word) : (s.setAcc32 v).ktab = s.ktab := rfl
@[simp] theorem State.setAcc32_mem (s : State) (v : Word) : (s.setAcc32 v).mem = s.mem := rfl
@[simp] theorem State.setAcc32_hist (s : State) (v : Word) : (s.setAcc32 v).hist = s.hist := rfl
@[simp] theorem State.setAcc32_host (s : State) (v : Word) : (s.setAcc32 v).host = s.host := rfl
@[simp] theorem State.setAcc32_reads (s : State) (v : Word) : (s.setAcc32 v).reads = s.reads := rfl
@[simp] theorem State.setAcc32_answers (s : State) (v : Word) : (s.setAcc32 v).answers = s.answers := rfl
@[simp] theorem State.setAcc32_free (s : State) (v : Word) : (s.setAcc32 v).free = s.free := rfl

/-! ## setAcc64 -/

@[simp] theorem State.setAcc64_cmd (s : State) (v : DWord) : (s.setAcc64 v).cmd = s.cmd := rfl
@[simp] theorem State.setAcc64_seq (s : State) (v : DWord) : (s.setAcc64 v).seq = s.seq := rfl
@[simp] theorem State.setAcc64_gfault (s : State) (v : DWord) : (s.setAcc64 v).gfault = s.gfault := rfl
@[simp] theorem State.setAcc64_fcode (s : State) (v : DWord) : (s.setAcc64 v).fcode = s.fcode := rfl
@[simp] theorem State.setAcc64_finfo (s : State) (v : DWord) : (s.setAcc64 v).finfo = s.finfo := rfl
@[simp] theorem State.setAcc64_dst (s : State) (v : DWord) : (s.setAcc64 v).dst = s.dst := rfl
@[simp] theorem State.setAcc64_len (s : State) (v : DWord) : (s.setAcc64 v).len = s.len := rfl
@[simp] theorem State.setAcc64_ret (s : State) (v : DWord) : (s.setAcc64 v).ret = s.ret := rfl
@[simp] theorem State.setAcc64_karg (s : State) (v : DWord) : (s.setAcc64 v).karg = s.karg := rfl
@[simp] theorem State.setAcc64_ovol (s : State) (v : DWord) : (s.setAcc64 v).ovol = s.ovol := rfl
@[simp] theorem State.setAcc64_sChunk (s : State) (v : DWord) : (s.setAcc64 v).sChunk = s.sChunk := rfl
@[simp] theorem State.setAcc64_sAvail (s : State) (v : DWord) : (s.setAcc64 v).sAvail = s.sAvail := rfl
@[simp] theorem State.setAcc64_sVol (s : State) (v : DWord) : (s.setAcc64 v).sVol = s.sVol := rfl
@[simp] theorem State.setAcc64_sPtr (s : State) (v : DWord) : (s.setAcc64 v).sPtr = s.sPtr := rfl
@[simp] theorem State.setAcc64_olin (s : State) (v : DWord) : (s.setAcc64 v).olin = s.olin := rfl
@[simp] theorem State.setAcc64_sgain (s : State) (v : DWord) : (s.setAcc64 v).sgain = s.sgain := rfl
@[simp] theorem State.setAcc64_dCur (s : State) (v : DWord) : (s.setAcc64 v).dCur = s.dCur := rfl
@[simp] theorem State.setAcc64_dEnd (s : State) (v : DWord) : (s.setAcc64 v).dEnd = s.dEnd := rfl
@[simp] theorem State.setAcc64_chIdx (s : State) (v : DWord) : (s.setAcc64 v).chIdx = s.chIdx := rfl
@[simp] theorem State.setAcc64_effLen (s : State) (v : DWord) : (s.setAcc64 v).effLen = s.effLen := rfl
@[simp] theorem State.setAcc64_acc32 (s : State) (v : DWord) : (s.setAcc64 v).acc32 = s.acc32 := rfl
@[simp] theorem State.setAcc64_acc64 (s : State) (v : DWord) : (s.setAcc64 v).acc64 = v := rfl
@[simp] theorem State.setAcc64_accF (s : State) (v : DWord) : (s.setAcc64 v).accF = s.accF := rfl
@[simp] theorem State.setAcc64_ktab (s : State) (v : DWord) : (s.setAcc64 v).ktab = s.ktab := rfl
@[simp] theorem State.setAcc64_mem (s : State) (v : DWord) : (s.setAcc64 v).mem = s.mem := rfl
@[simp] theorem State.setAcc64_hist (s : State) (v : DWord) : (s.setAcc64 v).hist = s.hist := rfl
@[simp] theorem State.setAcc64_host (s : State) (v : DWord) : (s.setAcc64 v).host = s.host := rfl
@[simp] theorem State.setAcc64_reads (s : State) (v : DWord) : (s.setAcc64 v).reads = s.reads := rfl
@[simp] theorem State.setAcc64_answers (s : State) (v : DWord) : (s.setAcc64 v).answers = s.answers := rfl
@[simp] theorem State.setAcc64_free (s : State) (v : DWord) : (s.setAcc64 v).free = s.free := rfl

/-! ## setAccF -/

@[simp] theorem State.setAccF_cmd (s : State) (v : Word) : (s.setAccF v).cmd = s.cmd := rfl
@[simp] theorem State.setAccF_seq (s : State) (v : Word) : (s.setAccF v).seq = s.seq := rfl
@[simp] theorem State.setAccF_gfault (s : State) (v : Word) : (s.setAccF v).gfault = s.gfault := rfl
@[simp] theorem State.setAccF_fcode (s : State) (v : Word) : (s.setAccF v).fcode = s.fcode := rfl
@[simp] theorem State.setAccF_finfo (s : State) (v : Word) : (s.setAccF v).finfo = s.finfo := rfl
@[simp] theorem State.setAccF_dst (s : State) (v : Word) : (s.setAccF v).dst = s.dst := rfl
@[simp] theorem State.setAccF_len (s : State) (v : Word) : (s.setAccF v).len = s.len := rfl
@[simp] theorem State.setAccF_ret (s : State) (v : Word) : (s.setAccF v).ret = s.ret := rfl
@[simp] theorem State.setAccF_karg (s : State) (v : Word) : (s.setAccF v).karg = s.karg := rfl
@[simp] theorem State.setAccF_ovol (s : State) (v : Word) : (s.setAccF v).ovol = s.ovol := rfl
@[simp] theorem State.setAccF_sChunk (s : State) (v : Word) : (s.setAccF v).sChunk = s.sChunk := rfl
@[simp] theorem State.setAccF_sAvail (s : State) (v : Word) : (s.setAccF v).sAvail = s.sAvail := rfl
@[simp] theorem State.setAccF_sVol (s : State) (v : Word) : (s.setAccF v).sVol = s.sVol := rfl
@[simp] theorem State.setAccF_sPtr (s : State) (v : Word) : (s.setAccF v).sPtr = s.sPtr := rfl
@[simp] theorem State.setAccF_olin (s : State) (v : Word) : (s.setAccF v).olin = s.olin := rfl
@[simp] theorem State.setAccF_sgain (s : State) (v : Word) : (s.setAccF v).sgain = s.sgain := rfl
@[simp] theorem State.setAccF_dCur (s : State) (v : Word) : (s.setAccF v).dCur = s.dCur := rfl
@[simp] theorem State.setAccF_dEnd (s : State) (v : Word) : (s.setAccF v).dEnd = s.dEnd := rfl
@[simp] theorem State.setAccF_chIdx (s : State) (v : Word) : (s.setAccF v).chIdx = s.chIdx := rfl
@[simp] theorem State.setAccF_effLen (s : State) (v : Word) : (s.setAccF v).effLen = s.effLen := rfl
@[simp] theorem State.setAccF_acc32 (s : State) (v : Word) : (s.setAccF v).acc32 = s.acc32 := rfl
@[simp] theorem State.setAccF_acc64 (s : State) (v : Word) : (s.setAccF v).acc64 = s.acc64 := rfl
@[simp] theorem State.setAccF_accF (s : State) (v : Word) : (s.setAccF v).accF = v := rfl
@[simp] theorem State.setAccF_ktab (s : State) (v : Word) : (s.setAccF v).ktab = s.ktab := rfl
@[simp] theorem State.setAccF_mem (s : State) (v : Word) : (s.setAccF v).mem = s.mem := rfl
@[simp] theorem State.setAccF_hist (s : State) (v : Word) : (s.setAccF v).hist = s.hist := rfl
@[simp] theorem State.setAccF_host (s : State) (v : Word) : (s.setAccF v).host = s.host := rfl
@[simp] theorem State.setAccF_reads (s : State) (v : Word) : (s.setAccF v).reads = s.reads := rfl
@[simp] theorem State.setAccF_answers (s : State) (v : Word) : (s.setAccF v).answers = s.answers := rfl
@[simp] theorem State.setAccF_free (s : State) (v : Word) : (s.setAccF v).free = s.free := rfl

/-! ## setMem -/

@[simp] theorem State.setMem_cmd (s : State) (m : Memory) : (s.setMem m).cmd = s.cmd := rfl
@[simp] theorem State.setMem_seq (s : State) (m : Memory) : (s.setMem m).seq = s.seq := rfl
@[simp] theorem State.setMem_gfault (s : State) (m : Memory) : (s.setMem m).gfault = s.gfault := rfl
@[simp] theorem State.setMem_fcode (s : State) (m : Memory) : (s.setMem m).fcode = s.fcode := rfl
@[simp] theorem State.setMem_finfo (s : State) (m : Memory) : (s.setMem m).finfo = s.finfo := rfl
@[simp] theorem State.setMem_dst (s : State) (m : Memory) : (s.setMem m).dst = s.dst := rfl
@[simp] theorem State.setMem_len (s : State) (m : Memory) : (s.setMem m).len = s.len := rfl
@[simp] theorem State.setMem_ret (s : State) (m : Memory) : (s.setMem m).ret = s.ret := rfl
@[simp] theorem State.setMem_karg (s : State) (m : Memory) : (s.setMem m).karg = s.karg := rfl
@[simp] theorem State.setMem_ovol (s : State) (m : Memory) : (s.setMem m).ovol = s.ovol := rfl
@[simp] theorem State.setMem_sChunk (s : State) (m : Memory) : (s.setMem m).sChunk = s.sChunk := rfl
@[simp] theorem State.setMem_sAvail (s : State) (m : Memory) : (s.setMem m).sAvail = s.sAvail := rfl
@[simp] theorem State.setMem_sVol (s : State) (m : Memory) : (s.setMem m).sVol = s.sVol := rfl
@[simp] theorem State.setMem_sPtr (s : State) (m : Memory) : (s.setMem m).sPtr = s.sPtr := rfl
@[simp] theorem State.setMem_olin (s : State) (m : Memory) : (s.setMem m).olin = s.olin := rfl
@[simp] theorem State.setMem_sgain (s : State) (m : Memory) : (s.setMem m).sgain = s.sgain := rfl
@[simp] theorem State.setMem_dCur (s : State) (m : Memory) : (s.setMem m).dCur = s.dCur := rfl
@[simp] theorem State.setMem_dEnd (s : State) (m : Memory) : (s.setMem m).dEnd = s.dEnd := rfl
@[simp] theorem State.setMem_chIdx (s : State) (m : Memory) : (s.setMem m).chIdx = s.chIdx := rfl
@[simp] theorem State.setMem_effLen (s : State) (m : Memory) : (s.setMem m).effLen = s.effLen := rfl
@[simp] theorem State.setMem_acc32 (s : State) (m : Memory) : (s.setMem m).acc32 = s.acc32 := rfl
@[simp] theorem State.setMem_acc64 (s : State) (m : Memory) : (s.setMem m).acc64 = s.acc64 := rfl
@[simp] theorem State.setMem_accF (s : State) (m : Memory) : (s.setMem m).accF = s.accF := rfl
@[simp] theorem State.setMem_ktab (s : State) (m : Memory) : (s.setMem m).ktab = s.ktab := rfl
@[simp] theorem State.setMem_mem (s : State) (m : Memory) : (s.setMem m).mem = m := rfl
@[simp] theorem State.setMem_hist (s : State) (m : Memory) : (s.setMem m).hist = s.hist := rfl
@[simp] theorem State.setMem_host (s : State) (m : Memory) : (s.setMem m).host = s.host := rfl
@[simp] theorem State.setMem_reads (s : State) (m : Memory) : (s.setMem m).reads = s.reads := rfl
@[simp] theorem State.setMem_answers (s : State) (m : Memory) : (s.setMem m).answers = s.answers := rfl
@[simp] theorem State.setMem_free (s : State) (m : Memory) : (s.setMem m).free = s.free := rfl

/-! ## record -/

@[simp] theorem State.record_cmd (s : State) (e : Event) : (s.record e).cmd = s.cmd := rfl
@[simp] theorem State.record_seq (s : State) (e : Event) : (s.record e).seq = s.seq := rfl
@[simp] theorem State.record_gfault (s : State) (e : Event) : (s.record e).gfault = s.gfault := rfl
@[simp] theorem State.record_fcode (s : State) (e : Event) : (s.record e).fcode = s.fcode := rfl
@[simp] theorem State.record_finfo (s : State) (e : Event) : (s.record e).finfo = s.finfo := rfl
@[simp] theorem State.record_dst (s : State) (e : Event) : (s.record e).dst = s.dst := rfl
@[simp] theorem State.record_len (s : State) (e : Event) : (s.record e).len = s.len := rfl
@[simp] theorem State.record_ret (s : State) (e : Event) : (s.record e).ret = s.ret := rfl
@[simp] theorem State.record_karg (s : State) (e : Event) : (s.record e).karg = s.karg := rfl
@[simp] theorem State.record_ovol (s : State) (e : Event) : (s.record e).ovol = s.ovol := rfl
@[simp] theorem State.record_sChunk (s : State) (e : Event) : (s.record e).sChunk = s.sChunk := rfl
@[simp] theorem State.record_sAvail (s : State) (e : Event) : (s.record e).sAvail = s.sAvail := rfl
@[simp] theorem State.record_sVol (s : State) (e : Event) : (s.record e).sVol = s.sVol := rfl
@[simp] theorem State.record_sPtr (s : State) (e : Event) : (s.record e).sPtr = s.sPtr := rfl
@[simp] theorem State.record_olin (s : State) (e : Event) : (s.record e).olin = s.olin := rfl
@[simp] theorem State.record_sgain (s : State) (e : Event) : (s.record e).sgain = s.sgain := rfl
@[simp] theorem State.record_dCur (s : State) (e : Event) : (s.record e).dCur = s.dCur := rfl
@[simp] theorem State.record_dEnd (s : State) (e : Event) : (s.record e).dEnd = s.dEnd := rfl
@[simp] theorem State.record_chIdx (s : State) (e : Event) : (s.record e).chIdx = s.chIdx := rfl
@[simp] theorem State.record_effLen (s : State) (e : Event) : (s.record e).effLen = s.effLen := rfl
@[simp] theorem State.record_acc32 (s : State) (e : Event) : (s.record e).acc32 = s.acc32 := rfl
@[simp] theorem State.record_acc64 (s : State) (e : Event) : (s.record e).acc64 = s.acc64 := rfl
@[simp] theorem State.record_accF (s : State) (e : Event) : (s.record e).accF = s.accF := rfl
@[simp] theorem State.record_ktab (s : State) (e : Event) : (s.record e).ktab = s.ktab := rfl
@[simp] theorem State.record_mem (s : State) (e : Event) : (s.record e).mem = s.mem := rfl
@[simp] theorem State.record_hist (s : State) (e : Event) : (s.record e).hist = s.hist ++ [e] := rfl
@[simp] theorem State.record_host (s : State) (e : Event) : (s.record e).host = s.host := rfl
@[simp] theorem State.record_reads (s : State) (e : Event) : (s.record e).reads = s.reads := rfl
@[simp] theorem State.record_answers (s : State) (e : Event) : (s.record e).answers = s.answers := rfl
@[simp] theorem State.record_free (s : State) (e : Event) : (s.record e).free = s.free := rfl

/-! ## draw -/

@[simp] theorem State.draw_cmd (s : State) (n : Nat) : (s.draw n).cmd = s.cmd := rfl
@[simp] theorem State.draw_seq (s : State) (n : Nat) : (s.draw n).seq = s.seq := rfl
@[simp] theorem State.draw_gfault (s : State) (n : Nat) : (s.draw n).gfault = s.gfault := rfl
@[simp] theorem State.draw_fcode (s : State) (n : Nat) : (s.draw n).fcode = s.fcode := rfl
@[simp] theorem State.draw_finfo (s : State) (n : Nat) : (s.draw n).finfo = s.finfo := rfl
@[simp] theorem State.draw_dst (s : State) (n : Nat) : (s.draw n).dst = s.dst := rfl
@[simp] theorem State.draw_len (s : State) (n : Nat) : (s.draw n).len = s.len := rfl
@[simp] theorem State.draw_ret (s : State) (n : Nat) : (s.draw n).ret = s.ret := rfl
@[simp] theorem State.draw_karg (s : State) (n : Nat) : (s.draw n).karg = s.karg := rfl
@[simp] theorem State.draw_ovol (s : State) (n : Nat) : (s.draw n).ovol = s.ovol := rfl
@[simp] theorem State.draw_sChunk (s : State) (n : Nat) : (s.draw n).sChunk = s.sChunk := rfl
@[simp] theorem State.draw_sAvail (s : State) (n : Nat) : (s.draw n).sAvail = s.sAvail := rfl
@[simp] theorem State.draw_sVol (s : State) (n : Nat) : (s.draw n).sVol = s.sVol := rfl
@[simp] theorem State.draw_sPtr (s : State) (n : Nat) : (s.draw n).sPtr = s.sPtr := rfl
@[simp] theorem State.draw_olin (s : State) (n : Nat) : (s.draw n).olin = s.olin := rfl
@[simp] theorem State.draw_sgain (s : State) (n : Nat) : (s.draw n).sgain = s.sgain := rfl
@[simp] theorem State.draw_dCur (s : State) (n : Nat) : (s.draw n).dCur = s.dCur := rfl
@[simp] theorem State.draw_dEnd (s : State) (n : Nat) : (s.draw n).dEnd = s.dEnd := rfl
@[simp] theorem State.draw_chIdx (s : State) (n : Nat) : (s.draw n).chIdx = s.chIdx := rfl
@[simp] theorem State.draw_effLen (s : State) (n : Nat) : (s.draw n).effLen = s.effLen := rfl
@[simp] theorem State.draw_acc32 (s : State) (n : Nat) : (s.draw n).acc32 = s.acc32 := rfl
@[simp] theorem State.draw_acc64 (s : State) (n : Nat) : (s.draw n).acc64 = s.acc64 := rfl
@[simp] theorem State.draw_accF (s : State) (n : Nat) : (s.draw n).accF = s.accF := rfl
@[simp] theorem State.draw_ktab (s : State) (n : Nat) : (s.draw n).ktab = s.ktab := rfl
@[simp] theorem State.draw_mem (s : State) (n : Nat) : (s.draw n).mem = s.mem := rfl
@[simp] theorem State.draw_hist (s : State) (n : Nat) : (s.draw n).hist = s.hist := rfl
@[simp] theorem State.draw_host (s : State) (n : Nat) : (s.draw n).host = s.host := rfl
@[simp] theorem State.draw_reads (s : State) (n : Nat) : (s.draw n).reads = s.reads := rfl
@[simp] theorem State.draw_answers (s : State) (n : Nat) : (s.draw n).answers = s.answers := rfl
@[simp] theorem State.draw_free (s : State) (n : Nat) : (s.draw n).free = s.free + n := rfl

/-! ## setAnswers -/

@[simp] theorem State.setAnswers_cmd (s : State) (l : List Word) : (s.setAnswers l).cmd = s.cmd := rfl
@[simp] theorem State.setAnswers_seq (s : State) (l : List Word) : (s.setAnswers l).seq = s.seq := rfl
@[simp] theorem State.setAnswers_gfault (s : State) (l : List Word) : (s.setAnswers l).gfault = s.gfault := rfl
@[simp] theorem State.setAnswers_fcode (s : State) (l : List Word) : (s.setAnswers l).fcode = s.fcode := rfl
@[simp] theorem State.setAnswers_finfo (s : State) (l : List Word) : (s.setAnswers l).finfo = s.finfo := rfl
@[simp] theorem State.setAnswers_dst (s : State) (l : List Word) : (s.setAnswers l).dst = s.dst := rfl
@[simp] theorem State.setAnswers_len (s : State) (l : List Word) : (s.setAnswers l).len = s.len := rfl
@[simp] theorem State.setAnswers_ret (s : State) (l : List Word) : (s.setAnswers l).ret = s.ret := rfl
@[simp] theorem State.setAnswers_karg (s : State) (l : List Word) : (s.setAnswers l).karg = s.karg := rfl
@[simp] theorem State.setAnswers_ovol (s : State) (l : List Word) : (s.setAnswers l).ovol = s.ovol := rfl
@[simp] theorem State.setAnswers_sChunk (s : State) (l : List Word) : (s.setAnswers l).sChunk = s.sChunk := rfl
@[simp] theorem State.setAnswers_sAvail (s : State) (l : List Word) : (s.setAnswers l).sAvail = s.sAvail := rfl
@[simp] theorem State.setAnswers_sVol (s : State) (l : List Word) : (s.setAnswers l).sVol = s.sVol := rfl
@[simp] theorem State.setAnswers_sPtr (s : State) (l : List Word) : (s.setAnswers l).sPtr = s.sPtr := rfl
@[simp] theorem State.setAnswers_olin (s : State) (l : List Word) : (s.setAnswers l).olin = s.olin := rfl
@[simp] theorem State.setAnswers_sgain (s : State) (l : List Word) : (s.setAnswers l).sgain = s.sgain := rfl
@[simp] theorem State.setAnswers_dCur (s : State) (l : List Word) : (s.setAnswers l).dCur = s.dCur := rfl
@[simp] theorem State.setAnswers_dEnd (s : State) (l : List Word) : (s.setAnswers l).dEnd = s.dEnd := rfl
@[simp] theorem State.setAnswers_chIdx (s : State) (l : List Word) : (s.setAnswers l).chIdx = s.chIdx := rfl
@[simp] theorem State.setAnswers_effLen (s : State) (l : List Word) : (s.setAnswers l).effLen = s.effLen := rfl
@[simp] theorem State.setAnswers_acc32 (s : State) (l : List Word) : (s.setAnswers l).acc32 = s.acc32 := rfl
@[simp] theorem State.setAnswers_acc64 (s : State) (l : List Word) : (s.setAnswers l).acc64 = s.acc64 := rfl
@[simp] theorem State.setAnswers_accF (s : State) (l : List Word) : (s.setAnswers l).accF = s.accF := rfl
@[simp] theorem State.setAnswers_ktab (s : State) (l : List Word) : (s.setAnswers l).ktab = s.ktab := rfl
@[simp] theorem State.setAnswers_mem (s : State) (l : List Word) : (s.setAnswers l).mem = s.mem := rfl
@[simp] theorem State.setAnswers_hist (s : State) (l : List Word) : (s.setAnswers l).hist = s.hist := rfl
@[simp] theorem State.setAnswers_host (s : State) (l : List Word) : (s.setAnswers l).host = s.host := rfl
@[simp] theorem State.setAnswers_reads (s : State) (l : List Word) : (s.setAnswers l).reads = s.reads := rfl
@[simp] theorem State.setAnswers_answers (s : State) (l : List Word) : (s.setAnswers l).answers = l := rfl
@[simp] theorem State.setAnswers_free (s : State) (l : List Word) : (s.setAnswers l).free = s.free := rfl

/-! ## setHost -/

@[simp] theorem State.setHost_cmd (s : State) (l : List HostAction) : (s.setHost l).cmd = s.cmd := rfl
@[simp] theorem State.setHost_seq (s : State) (l : List HostAction) : (s.setHost l).seq = s.seq := rfl
@[simp] theorem State.setHost_gfault (s : State) (l : List HostAction) : (s.setHost l).gfault = s.gfault := rfl
@[simp] theorem State.setHost_fcode (s : State) (l : List HostAction) : (s.setHost l).fcode = s.fcode := rfl
@[simp] theorem State.setHost_finfo (s : State) (l : List HostAction) : (s.setHost l).finfo = s.finfo := rfl
@[simp] theorem State.setHost_dst (s : State) (l : List HostAction) : (s.setHost l).dst = s.dst := rfl
@[simp] theorem State.setHost_len (s : State) (l : List HostAction) : (s.setHost l).len = s.len := rfl
@[simp] theorem State.setHost_ret (s : State) (l : List HostAction) : (s.setHost l).ret = s.ret := rfl
@[simp] theorem State.setHost_karg (s : State) (l : List HostAction) : (s.setHost l).karg = s.karg := rfl
@[simp] theorem State.setHost_ovol (s : State) (l : List HostAction) : (s.setHost l).ovol = s.ovol := rfl
@[simp] theorem State.setHost_sChunk (s : State) (l : List HostAction) : (s.setHost l).sChunk = s.sChunk := rfl
@[simp] theorem State.setHost_sAvail (s : State) (l : List HostAction) : (s.setHost l).sAvail = s.sAvail := rfl
@[simp] theorem State.setHost_sVol (s : State) (l : List HostAction) : (s.setHost l).sVol = s.sVol := rfl
@[simp] theorem State.setHost_sPtr (s : State) (l : List HostAction) : (s.setHost l).sPtr = s.sPtr := rfl
@[simp] theorem State.setHost_olin (s : State) (l : List HostAction) : (s.setHost l).olin = s.olin := rfl
@[simp] theorem State.setHost_sgain (s : State) (l : List HostAction) : (s.setHost l).sgain = s.sgain := rfl
@[simp] theorem State.setHost_dCur (s : State) (l : List HostAction) : (s.setHost l).dCur = s.dCur := rfl
@[simp] theorem State.setHost_dEnd (s : State) (l : List HostAction) : (s.setHost l).dEnd = s.dEnd := rfl
@[simp] theorem State.setHost_chIdx (s : State) (l : List HostAction) : (s.setHost l).chIdx = s.chIdx := rfl
@[simp] theorem State.setHost_effLen (s : State) (l : List HostAction) : (s.setHost l).effLen = s.effLen := rfl
@[simp] theorem State.setHost_acc32 (s : State) (l : List HostAction) : (s.setHost l).acc32 = s.acc32 := rfl
@[simp] theorem State.setHost_acc64 (s : State) (l : List HostAction) : (s.setHost l).acc64 = s.acc64 := rfl
@[simp] theorem State.setHost_accF (s : State) (l : List HostAction) : (s.setHost l).accF = s.accF := rfl
@[simp] theorem State.setHost_ktab (s : State) (l : List HostAction) : (s.setHost l).ktab = s.ktab := rfl
@[simp] theorem State.setHost_mem (s : State) (l : List HostAction) : (s.setHost l).mem = s.mem := rfl
@[simp] theorem State.setHost_hist (s : State) (l : List HostAction) : (s.setHost l).hist = s.hist := rfl
@[simp] theorem State.setHost_host (s : State) (l : List HostAction) : (s.setHost l).host = l := rfl
@[simp] theorem State.setHost_reads (s : State) (l : List HostAction) : (s.setHost l).reads = s.reads := rfl
@[simp] theorem State.setHost_answers (s : State) (l : List HostAction) : (s.setHost l).answers = s.answers := rfl
@[simp] theorem State.setHost_free (s : State) (l : List HostAction) : (s.setHost l).free = s.free := rfl

/-! ## complete -/

@[simp] theorem State.complete_cmd (s : State) : s.complete.cmd = s.cmd := rfl
@[simp] theorem State.complete_seq (s : State) : s.complete.seq = .done := rfl
@[simp] theorem State.complete_gfault (s : State) : s.complete.gfault = s.gfault := rfl
@[simp] theorem State.complete_fcode (s : State) : s.complete.fcode = s.fcode := rfl
@[simp] theorem State.complete_finfo (s : State) : s.complete.finfo = s.finfo := rfl
@[simp] theorem State.complete_dst (s : State) : s.complete.dst = s.dst := rfl
@[simp] theorem State.complete_len (s : State) : s.complete.len = s.len := rfl
@[simp] theorem State.complete_ret (s : State) : s.complete.ret = s.ret := rfl
@[simp] theorem State.complete_karg (s : State) : s.complete.karg = s.karg := rfl
@[simp] theorem State.complete_ovol (s : State) : s.complete.ovol = s.ovol := rfl
@[simp] theorem State.complete_sChunk (s : State) : s.complete.sChunk = s.sChunk := rfl
@[simp] theorem State.complete_sAvail (s : State) : s.complete.sAvail = s.sAvail := rfl
@[simp] theorem State.complete_sVol (s : State) : s.complete.sVol = s.sVol := rfl
@[simp] theorem State.complete_sPtr (s : State) : s.complete.sPtr = s.sPtr := rfl
@[simp] theorem State.complete_olin (s : State) : s.complete.olin = s.olin := rfl
@[simp] theorem State.complete_sgain (s : State) : s.complete.sgain = s.sgain := rfl
@[simp] theorem State.complete_dCur (s : State) : s.complete.dCur = s.dCur := rfl
@[simp] theorem State.complete_dEnd (s : State) : s.complete.dEnd = s.dEnd := rfl
@[simp] theorem State.complete_chIdx (s : State) : s.complete.chIdx = s.chIdx := rfl
@[simp] theorem State.complete_effLen (s : State) : s.complete.effLen = s.effLen := rfl
@[simp] theorem State.complete_acc32 (s : State) : s.complete.acc32 = s.acc32 := rfl
@[simp] theorem State.complete_acc64 (s : State) : s.complete.acc64 = s.acc64 := rfl
@[simp] theorem State.complete_accF (s : State) : s.complete.accF = s.accF := rfl
@[simp] theorem State.complete_ktab (s : State) : s.complete.ktab = s.ktab := rfl
@[simp] theorem State.complete_mem (s : State) : s.complete.mem = s.mem := rfl
@[simp] theorem State.complete_hist (s : State) : s.complete.hist = s.hist := rfl
@[simp] theorem State.complete_host (s : State) : s.complete.host = s.host := rfl
@[simp] theorem State.complete_reads (s : State) : s.complete.reads = s.reads := rfl
@[simp] theorem State.complete_answers (s : State) : s.complete.answers = s.answers := rfl
@[simp] theorem State.complete_free (s : State) : s.complete.free = s.free := rfl

/-! ## takeFault (60_exceptions.md R272: nothing but FCODE, FINFO, STATE and GFAULT changes) -/

@[simp] theorem takeFault_cmd (c : FaultCode) (i ch : Nat) (s : State) : (takeFault c i ch s).cmd = s.cmd := rfl
@[simp] theorem takeFault_seq (c : FaultCode) (i ch : Nat) (s : State) : (takeFault c i ch s).seq = .fault := rfl
@[simp] theorem takeFault_gfault (c : FaultCode) (i ch : Nat) (s : State) : (takeFault c i ch s).gfault = true := rfl
@[simp] theorem takeFault_fcode (c : FaultCode) (i ch : Nat) (s : State) : (takeFault c i ch s).fcode = BitVec.ofNat 8 (faultNumber c) := rfl
@[simp] theorem takeFault_finfo (c : FaultCode) (i ch : Nat) (s : State) : (takeFault c i ch s).finfo = faultInfo i ch := rfl
@[simp] theorem takeFault_dst (c : FaultCode) (i ch : Nat) (s : State) : (takeFault c i ch s).dst = s.dst := rfl
@[simp] theorem takeFault_len (c : FaultCode) (i ch : Nat) (s : State) : (takeFault c i ch s).len = s.len := rfl
@[simp] theorem takeFault_ret (c : FaultCode) (i ch : Nat) (s : State) : (takeFault c i ch s).ret = s.ret := rfl
@[simp] theorem takeFault_karg (c : FaultCode) (i ch : Nat) (s : State) : (takeFault c i ch s).karg = s.karg := rfl
@[simp] theorem takeFault_ovol (c : FaultCode) (i ch : Nat) (s : State) : (takeFault c i ch s).ovol = s.ovol := rfl
@[simp] theorem takeFault_sChunk (c : FaultCode) (i ch : Nat) (s : State) : (takeFault c i ch s).sChunk = s.sChunk := rfl
@[simp] theorem takeFault_sAvail (c : FaultCode) (i ch : Nat) (s : State) : (takeFault c i ch s).sAvail = s.sAvail := rfl
@[simp] theorem takeFault_sVol (c : FaultCode) (i ch : Nat) (s : State) : (takeFault c i ch s).sVol = s.sVol := rfl
@[simp] theorem takeFault_sPtr (c : FaultCode) (i ch : Nat) (s : State) : (takeFault c i ch s).sPtr = s.sPtr := rfl
@[simp] theorem takeFault_olin (c : FaultCode) (i ch : Nat) (s : State) : (takeFault c i ch s).olin = s.olin := rfl
@[simp] theorem takeFault_sgain (c : FaultCode) (i ch : Nat) (s : State) : (takeFault c i ch s).sgain = s.sgain := rfl
@[simp] theorem takeFault_dCur (c : FaultCode) (i ch : Nat) (s : State) : (takeFault c i ch s).dCur = s.dCur := rfl
@[simp] theorem takeFault_dEnd (c : FaultCode) (i ch : Nat) (s : State) : (takeFault c i ch s).dEnd = s.dEnd := rfl
@[simp] theorem takeFault_chIdx (c : FaultCode) (i ch : Nat) (s : State) : (takeFault c i ch s).chIdx = s.chIdx := rfl
@[simp] theorem takeFault_effLen (c : FaultCode) (i ch : Nat) (s : State) : (takeFault c i ch s).effLen = s.effLen := rfl
@[simp] theorem takeFault_acc32 (c : FaultCode) (i ch : Nat) (s : State) : (takeFault c i ch s).acc32 = s.acc32 := rfl
@[simp] theorem takeFault_acc64 (c : FaultCode) (i ch : Nat) (s : State) : (takeFault c i ch s).acc64 = s.acc64 := rfl
@[simp] theorem takeFault_accF (c : FaultCode) (i ch : Nat) (s : State) : (takeFault c i ch s).accF = s.accF := rfl
@[simp] theorem takeFault_ktab (c : FaultCode) (i ch : Nat) (s : State) : (takeFault c i ch s).ktab = s.ktab := rfl
@[simp] theorem takeFault_mem (c : FaultCode) (i ch : Nat) (s : State) : (takeFault c i ch s).mem = s.mem := rfl
@[simp] theorem takeFault_hist (c : FaultCode) (i ch : Nat) (s : State) : (takeFault c i ch s).hist = s.hist := rfl
@[simp] theorem takeFault_host (c : FaultCode) (i ch : Nat) (s : State) : (takeFault c i ch s).host = s.host := rfl
@[simp] theorem takeFault_reads (c : FaultCode) (i ch : Nat) (s : State) : (takeFault c i ch s).reads = s.reads := rfl
@[simp] theorem takeFault_answers (c : FaultCode) (i ch : Nat) (s : State) : (takeFault c i ch s).answers = s.answers := rfl
@[simp] theorem takeFault_free (c : FaultCode) (i ch : Nat) (s : State) : (takeFault c i ch s).free = s.free := rfl

end Sys2Proof.Machine
end

