-- ==== Sys2Proof/Laws/Access.lean ====
section
/-! SUPPORT. What each state update leaves of the indexed registers and of sample memory: every indexed read of an array the
update does not write is unchanged, by rfl. -/

namespace Sys2Proof.Machine

@[simp] theorem State.setSeq_ovolAt (s : State) (q : SeqState) (j : Nat) : (s.setSeq q).ovolAt j = s.ovolAt j := rfl
@[simp] theorem State.setSeq_sChunkAt (s : State) (q : SeqState) (j : Nat) : (s.setSeq q).sChunkAt j = s.sChunkAt j := rfl
@[simp] theorem State.setSeq_sAvailAt (s : State) (q : SeqState) (j : Nat) : (s.setSeq q).sAvailAt j = s.sAvailAt j := rfl
@[simp] theorem State.setSeq_sVolAt (s : State) (q : SeqState) (j d : Nat) : (s.setSeq q).sVolAt j d = s.sVolAt j d := rfl
@[simp] theorem State.setSeq_sPtrAt (s : State) (q : SeqState) (j : Nat) : (s.setSeq q).sPtrAt j = s.sPtrAt j := rfl
@[simp] theorem State.setSeq_olinAt (s : State) (q : SeqState) (j : Nat) : (s.setSeq q).olinAt j = s.olinAt j := rfl
@[simp] theorem State.setSeq_sgainAt (s : State) (q : SeqState) (j d : Nat) : (s.setSeq q).sgainAt j d = s.sgainAt j d := rfl
@[simp] theorem State.setSeq_ktabAt (s : State) (q : SeqState) (G : Fmt) : (s.setSeq q).ktabAt G = s.ktabAt G := rfl
@[simp] theorem State.setSeq_byteAt (s : State) (q : SeqState) (a : Nat) : (s.setSeq q).byteAt a = s.byteAt a := rfl
@[simp] theorem State.setSeq_readBytes (s : State) (q : SeqState) (a w : Nat) : (s.setSeq q).readBytes a w = s.readBytes a w := rfl
@[simp] theorem State.setRet_ovolAt (s : State) (v : Word) (j : Nat) : (s.setRet v).ovolAt j = s.ovolAt j := rfl
@[simp] theorem State.setRet_sChunkAt (s : State) (v : Word) (j : Nat) : (s.setRet v).sChunkAt j = s.sChunkAt j := rfl
@[simp] theorem State.setRet_sAvailAt (s : State) (v : Word) (j : Nat) : (s.setRet v).sAvailAt j = s.sAvailAt j := rfl
@[simp] theorem State.setRet_sVolAt (s : State) (v : Word) (j d : Nat) : (s.setRet v).sVolAt j d = s.sVolAt j d := rfl
@[simp] theorem State.setRet_sPtrAt (s : State) (v : Word) (j : Nat) : (s.setRet v).sPtrAt j = s.sPtrAt j := rfl
@[simp] theorem State.setRet_olinAt (s : State) (v : Word) (j : Nat) : (s.setRet v).olinAt j = s.olinAt j := rfl
@[simp] theorem State.setRet_sgainAt (s : State) (v : Word) (j d : Nat) : (s.setRet v).sgainAt j d = s.sgainAt j d := rfl
@[simp] theorem State.setRet_ktabAt (s : State) (v : Word) (G : Fmt) : (s.setRet v).ktabAt G = s.ktabAt G := rfl
@[simp] theorem State.setRet_byteAt (s : State) (v : Word) (a : Nat) : (s.setRet v).byteAt a = s.byteAt a := rfl
@[simp] theorem State.setRet_readBytes (s : State) (v : Word) (a w : Nat) : (s.setRet v).readBytes a w = s.readBytes a w := rfl
@[simp] theorem State.setSPtr_ovolAt (s : State) (i : Nat) (v : Word) (j : Nat) : (s.setSPtr i v).ovolAt j = s.ovolAt j := rfl
@[simp] theorem State.setSPtr_sChunkAt (s : State) (i : Nat) (v : Word) (j : Nat) : (s.setSPtr i v).sChunkAt j = s.sChunkAt j := rfl
@[simp] theorem State.setSPtr_sAvailAt (s : State) (i : Nat) (v : Word) (j : Nat) : (s.setSPtr i v).sAvailAt j = s.sAvailAt j := rfl
@[simp] theorem State.setSPtr_sVolAt (s : State) (i : Nat) (v : Word) (j d : Nat) : (s.setSPtr i v).sVolAt j d = s.sVolAt j d := rfl
@[simp] theorem State.setSPtr_olinAt (s : State) (i : Nat) (v : Word) (j : Nat) : (s.setSPtr i v).olinAt j = s.olinAt j := rfl
@[simp] theorem State.setSPtr_sgainAt (s : State) (i : Nat) (v : Word) (j d : Nat) : (s.setSPtr i v).sgainAt j d = s.sgainAt j d := rfl
@[simp] theorem State.setSPtr_ktabAt (s : State) (i : Nat) (v : Word) (G : Fmt) : (s.setSPtr i v).ktabAt G = s.ktabAt G := rfl
@[simp] theorem State.setSPtr_byteAt (s : State) (i : Nat) (v : Word) (a : Nat) : (s.setSPtr i v).byteAt a = s.byteAt a := rfl
@[simp] theorem State.setSPtr_readBytes (s : State) (i : Nat) (v : Word) (a w : Nat) : (s.setSPtr i v).readBytes a w = s.readBytes a w := rfl
@[simp] theorem State.setOlin_ovolAt (s : State) (i : Nat) (v : Word) (j : Nat) : (s.setOlin i v).ovolAt j = s.ovolAt j := rfl
@[simp] theorem State.setOlin_sChunkAt (s : State) (i : Nat) (v : Word) (j : Nat) : (s.setOlin i v).sChunkAt j = s.sChunkAt j := rfl
@[simp] theorem State.setOlin_sAvailAt (s : State) (i : Nat) (v : Word) (j : Nat) : (s.setOlin i v).sAvailAt j = s.sAvailAt j := rfl
@[simp] theorem State.setOlin_sVolAt (s : State) (i : Nat) (v : Word) (j d : Nat) : (s.setOlin i v).sVolAt j d = s.sVolAt j d := rfl
@[simp] theorem State.setOlin_sPtrAt (s : State) (i : Nat) (v : Word) (j : Nat) : (s.setOlin i v).sPtrAt j = s.sPtrAt j := rfl
@[simp] theorem State.setOlin_sgainAt (s : State) (i : Nat) (v : Word) (j d : Nat) : (s.setOlin i v).sgainAt j d = s.sgainAt j d := rfl
@[simp] theorem State.setOlin_ktabAt (s : State) (i : Nat) (v : Word) (G : Fmt) : (s.setOlin i v).ktabAt G = s.ktabAt G := rfl
@[simp] theorem State.setOlin_byteAt (s : State) (i : Nat) (v : Word) (a : Nat) : (s.setOlin i v).byteAt a = s.byteAt a := rfl
@[simp] theorem State.setOlin_readBytes (s : State) (i : Nat) (v : Word) (a w : Nat) : (s.setOlin i v).readBytes a w = s.readBytes a w := rfl
@[simp] theorem State.setSgain_ovolAt (s : State) (i ch : Nat) (v : Word) (j : Nat) : (s.setSgain i ch v).ovolAt j = s.ovolAt j := rfl
@[simp] theorem State.setSgain_sChunkAt (s : State) (i ch : Nat) (v : Word) (j : Nat) : (s.setSgain i ch v).sChunkAt j = s.sChunkAt j := rfl
@[simp] theorem State.setSgain_sAvailAt (s : State) (i ch : Nat) (v : Word) (j : Nat) : (s.setSgain i ch v).sAvailAt j = s.sAvailAt j := rfl
@[simp] theorem State.setSgain_sVolAt (s : State) (i ch : Nat) (v : Word) (j d : Nat) : (s.setSgain i ch v).sVolAt j d = s.sVolAt j d := rfl
@[simp] theorem State.setSgain_sPtrAt (s : State) (i ch : Nat) (v : Word) (j : Nat) : (s.setSgain i ch v).sPtrAt j = s.sPtrAt j := rfl
@[simp] theorem State.setSgain_olinAt (s : State) (i ch : Nat) (v : Word) (j : Nat) : (s.setSgain i ch v).olinAt j = s.olinAt j := rfl
@[simp] theorem State.setSgain_ktabAt (s : State) (i ch : Nat) (v : Word) (G : Fmt) : (s.setSgain i ch v).ktabAt G = s.ktabAt G := rfl
@[simp] theorem State.setSgain_byteAt (s : State) (i ch : Nat) (v : Word) (a : Nat) : (s.setSgain i ch v).byteAt a = s.byteAt a := rfl
@[simp] theorem State.setSgain_readBytes (s : State) (i ch : Nat) (v : Word) (a w : Nat) : (s.setSgain i ch v).readBytes a w = s.readBytes a w := rfl
@[simp] theorem State.setKtab_ovolAt (s : State) (F : Fmt) (k : BitVec 8) (j : Nat) : (s.setKtab F k).ovolAt j = s.ovolAt j := rfl
@[simp] theorem State.setKtab_sChunkAt (s : State) (F : Fmt) (k : BitVec 8) (j : Nat) : (s.setKtab F k).sChunkAt j = s.sChunkAt j := rfl
@[simp] theorem State.setKtab_sAvailAt (s : State) (F : Fmt) (k : BitVec 8) (j : Nat) : (s.setKtab F k).sAvailAt j = s.sAvailAt j := rfl
@[simp] theorem State.setKtab_sVolAt (s : State) (F : Fmt) (k : BitVec 8) (j d : Nat) : (s.setKtab F k).sVolAt j d = s.sVolAt j d := rfl
@[simp] theorem State.setKtab_sPtrAt (s : State) (F : Fmt) (k : BitVec 8) (j : Nat) : (s.setKtab F k).sPtrAt j = s.sPtrAt j := rfl
@[simp] theorem State.setKtab_olinAt (s : State) (F : Fmt) (k : BitVec 8) (j : Nat) : (s.setKtab F k).olinAt j = s.olinAt j := rfl
@[simp] theorem State.setKtab_sgainAt (s : State) (F : Fmt) (k : BitVec 8) (j d : Nat) : (s.setKtab F k).sgainAt j d = s.sgainAt j d := rfl
@[simp] theorem State.setKtab_byteAt (s : State) (F : Fmt) (k : BitVec 8) (a : Nat) : (s.setKtab F k).byteAt a = s.byteAt a := rfl
@[simp] theorem State.setKtab_readBytes (s : State) (F : Fmt) (k : BitVec 8) (a w : Nat) : (s.setKtab F k).readBytes a w = s.readBytes a w := rfl
@[simp] theorem State.setEffLen_ovolAt (s : State) (v : Word) (j : Nat) : (s.setEffLen v).ovolAt j = s.ovolAt j := rfl
@[simp] theorem State.setEffLen_sChunkAt (s : State) (v : Word) (j : Nat) : (s.setEffLen v).sChunkAt j = s.sChunkAt j := rfl
@[simp] theorem State.setEffLen_sAvailAt (s : State) (v : Word) (j : Nat) : (s.setEffLen v).sAvailAt j = s.sAvailAt j := rfl
@[simp] theorem State.setEffLen_sVolAt (s : State) (v : Word) (j d : Nat) : (s.setEffLen v).sVolAt j d = s.sVolAt j d := rfl
@[simp] theorem State.setEffLen_sPtrAt (s : State) (v : Word) (j : Nat) : (s.setEffLen v).sPtrAt j = s.sPtrAt j := rfl
@[simp] theorem State.setEffLen_olinAt (s : State) (v : Word) (j : Nat) : (s.setEffLen v).olinAt j = s.olinAt j := rfl
@[simp] theorem State.setEffLen_sgainAt (s : State) (v : Word) (j d : Nat) : (s.setEffLen v).sgainAt j d = s.sgainAt j d := rfl
@[simp] theorem State.setEffLen_ktabAt (s : State) (v : Word) (G : Fmt) : (s.setEffLen v).ktabAt G = s.ktabAt G := rfl
@[simp] theorem State.setEffLen_byteAt (s : State) (v : Word) (a : Nat) : (s.setEffLen v).byteAt a = s.byteAt a := rfl
@[simp] theorem State.setEffLen_readBytes (s : State) (v : Word) (a w : Nat) : (s.setEffLen v).readBytes a w = s.readBytes a w := rfl
@[simp] theorem State.setDCur_ovolAt (s : State) (v : Word) (j : Nat) : (s.setDCur v).ovolAt j = s.ovolAt j := rfl
@[simp] theorem State.setDCur_sChunkAt (s : State) (v : Word) (j : Nat) : (s.setDCur v).sChunkAt j = s.sChunkAt j := rfl
@[simp] theorem State.setDCur_sAvailAt (s : State) (v : Word) (j : Nat) : (s.setDCur v).sAvailAt j = s.sAvailAt j := rfl
@[simp] theorem State.setDCur_sVolAt (s : State) (v : Word) (j d : Nat) : (s.setDCur v).sVolAt j d = s.sVolAt j d := rfl
@[simp] theorem State.setDCur_sPtrAt (s : State) (v : Word) (j : Nat) : (s.setDCur v).sPtrAt j = s.sPtrAt j := rfl
@[simp] theorem State.setDCur_olinAt (s : State) (v : Word) (j : Nat) : (s.setDCur v).olinAt j = s.olinAt j := rfl
@[simp] theorem State.setDCur_sgainAt (s : State) (v : Word) (j d : Nat) : (s.setDCur v).sgainAt j d = s.sgainAt j d := rfl
@[simp] theorem State.setDCur_ktabAt (s : State) (v : Word) (G : Fmt) : (s.setDCur v).ktabAt G = s.ktabAt G := rfl
@[simp] theorem State.setDCur_byteAt (s : State) (v : Word) (a : Nat) : (s.setDCur v).byteAt a = s.byteAt a := rfl
@[simp] theorem State.setDCur_readBytes (s : State) (v : Word) (a w : Nat) : (s.setDCur v).readBytes a w = s.readBytes a w := rfl
@[simp] theorem State.setDEnd_ovolAt (s : State) (v : BitVec 33) (j : Nat) : (s.setDEnd v).ovolAt j = s.ovolAt j := rfl
@[simp] theorem State.setDEnd_sChunkAt (s : State) (v : BitVec 33) (j : Nat) : (s.setDEnd v).sChunkAt j = s.sChunkAt j := rfl
@[simp] theorem State.setDEnd_sAvailAt (s : State) (v : BitVec 33) (j : Nat) : (s.setDEnd v).sAvailAt j = s.sAvailAt j := rfl
@[simp] theorem State.setDEnd_sVolAt (s : State) (v : BitVec 33) (j d : Nat) : (s.setDEnd v).sVolAt j d = s.sVolAt j d := rfl
@[simp] theorem State.setDEnd_sPtrAt (s : State) (v : BitVec 33) (j : Nat) : (s.setDEnd v).sPtrAt j = s.sPtrAt j := rfl
@[simp] theorem State.setDEnd_olinAt (s : State) (v : BitVec 33) (j : Nat) : (s.setDEnd v).olinAt j = s.olinAt j := rfl
@[simp] theorem State.setDEnd_sgainAt (s : State) (v : BitVec 33) (j d : Nat) : (s.setDEnd v).sgainAt j d = s.sgainAt j d := rfl
@[simp] theorem State.setDEnd_ktabAt (s : State) (v : BitVec 33) (G : Fmt) : (s.setDEnd v).ktabAt G = s.ktabAt G := rfl
@[simp] theorem State.setDEnd_byteAt (s : State) (v : BitVec 33) (a : Nat) : (s.setDEnd v).byteAt a = s.byteAt a := rfl
@[simp] theorem State.setDEnd_readBytes (s : State) (v : BitVec 33) (a w : Nat) : (s.setDEnd v).readBytes a w = s.readBytes a w := rfl
@[simp] theorem State.setChIdx_ovolAt (s : State) (v : BitVec 6) (j : Nat) : (s.setChIdx v).ovolAt j = s.ovolAt j := rfl
@[simp] theorem State.setChIdx_sChunkAt (s : State) (v : BitVec 6) (j : Nat) : (s.setChIdx v).sChunkAt j = s.sChunkAt j := rfl
@[simp] theorem State.setChIdx_sAvailAt (s : State) (v : BitVec 6) (j : Nat) : (s.setChIdx v).sAvailAt j = s.sAvailAt j := rfl
@[simp] theorem State.setChIdx_sVolAt (s : State) (v : BitVec 6) (j d : Nat) : (s.setChIdx v).sVolAt j d = s.sVolAt j d := rfl
@[simp] theorem State.setChIdx_sPtrAt (s : State) (v : BitVec 6) (j : Nat) : (s.setChIdx v).sPtrAt j = s.sPtrAt j := rfl
@[simp] theorem State.setChIdx_olinAt (s : State) (v : BitVec 6) (j : Nat) : (s.setChIdx v).olinAt j = s.olinAt j := rfl
@[simp] theorem State.setChIdx_sgainAt (s : State) (v : BitVec 6) (j d : Nat) : (s.setChIdx v).sgainAt j d = s.sgainAt j d := rfl
@[simp] theorem State.setChIdx_ktabAt (s : State) (v : BitVec 6) (G : Fmt) : (s.setChIdx v).ktabAt G = s.ktabAt G := rfl
@[simp] theorem State.setChIdx_byteAt (s : State) (v : BitVec 6) (a : Nat) : (s.setChIdx v).byteAt a = s.byteAt a := rfl
@[simp] theorem State.setChIdx_readBytes (s : State) (v : BitVec 6) (a w : Nat) : (s.setChIdx v).readBytes a w = s.readBytes a w := rfl
@[simp] theorem State.setAcc32_ovolAt (s : State) (v : Word) (j : Nat) : (s.setAcc32 v).ovolAt j = s.ovolAt j := rfl
@[simp] theorem State.setAcc32_sChunkAt (s : State) (v : Word) (j : Nat) : (s.setAcc32 v).sChunkAt j = s.sChunkAt j := rfl
@[simp] theorem State.setAcc32_sAvailAt (s : State) (v : Word) (j : Nat) : (s.setAcc32 v).sAvailAt j = s.sAvailAt j := rfl
@[simp] theorem State.setAcc32_sVolAt (s : State) (v : Word) (j d : Nat) : (s.setAcc32 v).sVolAt j d = s.sVolAt j d := rfl
@[simp] theorem State.setAcc32_sPtrAt (s : State) (v : Word) (j : Nat) : (s.setAcc32 v).sPtrAt j = s.sPtrAt j := rfl
@[simp] theorem State.setAcc32_olinAt (s : State) (v : Word) (j : Nat) : (s.setAcc32 v).olinAt j = s.olinAt j := rfl
@[simp] theorem State.setAcc32_sgainAt (s : State) (v : Word) (j d : Nat) : (s.setAcc32 v).sgainAt j d = s.sgainAt j d := rfl
@[simp] theorem State.setAcc32_ktabAt (s : State) (v : Word) (G : Fmt) : (s.setAcc32 v).ktabAt G = s.ktabAt G := rfl
@[simp] theorem State.setAcc32_byteAt (s : State) (v : Word) (a : Nat) : (s.setAcc32 v).byteAt a = s.byteAt a := rfl
@[simp] theorem State.setAcc32_readBytes (s : State) (v : Word) (a w : Nat) : (s.setAcc32 v).readBytes a w = s.readBytes a w := rfl
@[simp] theorem State.setAcc64_ovolAt (s : State) (v : DWord) (j : Nat) : (s.setAcc64 v).ovolAt j = s.ovolAt j := rfl
@[simp] theorem State.setAcc64_sChunkAt (s : State) (v : DWord) (j : Nat) : (s.setAcc64 v).sChunkAt j = s.sChunkAt j := rfl
@[simp] theorem State.setAcc64_sAvailAt (s : State) (v : DWord) (j : Nat) : (s.setAcc64 v).sAvailAt j = s.sAvailAt j := rfl
@[simp] theorem State.setAcc64_sVolAt (s : State) (v : DWord) (j d : Nat) : (s.setAcc64 v).sVolAt j d = s.sVolAt j d := rfl
@[simp] theorem State.setAcc64_sPtrAt (s : State) (v : DWord) (j : Nat) : (s.setAcc64 v).sPtrAt j = s.sPtrAt j := rfl
@[simp] theorem State.setAcc64_olinAt (s : State) (v : DWord) (j : Nat) : (s.setAcc64 v).olinAt j = s.olinAt j := rfl
@[simp] theorem State.setAcc64_sgainAt (s : State) (v : DWord) (j d : Nat) : (s.setAcc64 v).sgainAt j d = s.sgainAt j d := rfl
@[simp] theorem State.setAcc64_ktabAt (s : State) (v : DWord) (G : Fmt) : (s.setAcc64 v).ktabAt G = s.ktabAt G := rfl
@[simp] theorem State.setAcc64_byteAt (s : State) (v : DWord) (a : Nat) : (s.setAcc64 v).byteAt a = s.byteAt a := rfl
@[simp] theorem State.setAcc64_readBytes (s : State) (v : DWord) (a w : Nat) : (s.setAcc64 v).readBytes a w = s.readBytes a w := rfl
@[simp] theorem State.setAccF_ovolAt (s : State) (v : Word) (j : Nat) : (s.setAccF v).ovolAt j = s.ovolAt j := rfl
@[simp] theorem State.setAccF_sChunkAt (s : State) (v : Word) (j : Nat) : (s.setAccF v).sChunkAt j = s.sChunkAt j := rfl
@[simp] theorem State.setAccF_sAvailAt (s : State) (v : Word) (j : Nat) : (s.setAccF v).sAvailAt j = s.sAvailAt j := rfl
@[simp] theorem State.setAccF_sVolAt (s : State) (v : Word) (j d : Nat) : (s.setAccF v).sVolAt j d = s.sVolAt j d := rfl
@[simp] theorem State.setAccF_sPtrAt (s : State) (v : Word) (j : Nat) : (s.setAccF v).sPtrAt j = s.sPtrAt j := rfl
@[simp] theorem State.setAccF_olinAt (s : State) (v : Word) (j : Nat) : (s.setAccF v).olinAt j = s.olinAt j := rfl
@[simp] theorem State.setAccF_sgainAt (s : State) (v : Word) (j d : Nat) : (s.setAccF v).sgainAt j d = s.sgainAt j d := rfl
@[simp] theorem State.setAccF_ktabAt (s : State) (v : Word) (G : Fmt) : (s.setAccF v).ktabAt G = s.ktabAt G := rfl
@[simp] theorem State.setAccF_byteAt (s : State) (v : Word) (a : Nat) : (s.setAccF v).byteAt a = s.byteAt a := rfl
@[simp] theorem State.setAccF_readBytes (s : State) (v : Word) (a w : Nat) : (s.setAccF v).readBytes a w = s.readBytes a w := rfl
@[simp] theorem State.setMem_ovolAt (s : State) (m : Memory) (j : Nat) : (s.setMem m).ovolAt j = s.ovolAt j := rfl
@[simp] theorem State.setMem_sChunkAt (s : State) (m : Memory) (j : Nat) : (s.setMem m).sChunkAt j = s.sChunkAt j := rfl
@[simp] theorem State.setMem_sAvailAt (s : State) (m : Memory) (j : Nat) : (s.setMem m).sAvailAt j = s.sAvailAt j := rfl
@[simp] theorem State.setMem_sVolAt (s : State) (m : Memory) (j d : Nat) : (s.setMem m).sVolAt j d = s.sVolAt j d := rfl
@[simp] theorem State.setMem_sPtrAt (s : State) (m : Memory) (j : Nat) : (s.setMem m).sPtrAt j = s.sPtrAt j := rfl
@[simp] theorem State.setMem_olinAt (s : State) (m : Memory) (j : Nat) : (s.setMem m).olinAt j = s.olinAt j := rfl
@[simp] theorem State.setMem_sgainAt (s : State) (m : Memory) (j d : Nat) : (s.setMem m).sgainAt j d = s.sgainAt j d := rfl
@[simp] theorem State.setMem_ktabAt (s : State) (m : Memory) (G : Fmt) : (s.setMem m).ktabAt G = s.ktabAt G := rfl
@[simp] theorem State.record_ovolAt (s : State) (e : Event) (j : Nat) : (s.record e).ovolAt j = s.ovolAt j := rfl
@[simp] theorem State.record_sChunkAt (s : State) (e : Event) (j : Nat) : (s.record e).sChunkAt j = s.sChunkAt j := rfl
@[simp] theorem State.record_sAvailAt (s : State) (e : Event) (j : Nat) : (s.record e).sAvailAt j = s.sAvailAt j := rfl
@[simp] theorem State.record_sVolAt (s : State) (e : Event) (j d : Nat) : (s.record e).sVolAt j d = s.sVolAt j d := rfl
@[simp] theorem State.record_sPtrAt (s : State) (e : Event) (j : Nat) : (s.record e).sPtrAt j = s.sPtrAt j := rfl
@[simp] theorem State.record_olinAt (s : State) (e : Event) (j : Nat) : (s.record e).olinAt j = s.olinAt j := rfl
@[simp] theorem State.record_sgainAt (s : State) (e : Event) (j d : Nat) : (s.record e).sgainAt j d = s.sgainAt j d := rfl
@[simp] theorem State.record_ktabAt (s : State) (e : Event) (G : Fmt) : (s.record e).ktabAt G = s.ktabAt G := rfl
@[simp] theorem State.record_byteAt (s : State) (e : Event) (a : Nat) : (s.record e).byteAt a = s.byteAt a := rfl
@[simp] theorem State.record_readBytes (s : State) (e : Event) (a w : Nat) : (s.record e).readBytes a w = s.readBytes a w := rfl
@[simp] theorem State.draw_ovolAt (s : State) (n : Nat) (j : Nat) : (s.draw n).ovolAt j = s.ovolAt j := rfl
@[simp] theorem State.draw_sChunkAt (s : State) (n : Nat) (j : Nat) : (s.draw n).sChunkAt j = s.sChunkAt j := rfl
@[simp] theorem State.draw_sAvailAt (s : State) (n : Nat) (j : Nat) : (s.draw n).sAvailAt j = s.sAvailAt j := rfl
@[simp] theorem State.draw_sVolAt (s : State) (n : Nat) (j d : Nat) : (s.draw n).sVolAt j d = s.sVolAt j d := rfl
@[simp] theorem State.draw_sPtrAt (s : State) (n : Nat) (j : Nat) : (s.draw n).sPtrAt j = s.sPtrAt j := rfl
@[simp] theorem State.draw_olinAt (s : State) (n : Nat) (j : Nat) : (s.draw n).olinAt j = s.olinAt j := rfl
@[simp] theorem State.draw_sgainAt (s : State) (n : Nat) (j d : Nat) : (s.draw n).sgainAt j d = s.sgainAt j d := rfl
@[simp] theorem State.draw_ktabAt (s : State) (n : Nat) (G : Fmt) : (s.draw n).ktabAt G = s.ktabAt G := rfl
@[simp] theorem State.draw_byteAt (s : State) (n : Nat) (a : Nat) : (s.draw n).byteAt a = s.byteAt a := rfl
@[simp] theorem State.draw_readBytes (s : State) (n : Nat) (a w : Nat) : (s.draw n).readBytes a w = s.readBytes a w := rfl
@[simp] theorem State.setAnswers_ovolAt (s : State) (l : List Word) (j : Nat) : (s.setAnswers l).ovolAt j = s.ovolAt j := rfl
@[simp] theorem State.setAnswers_sChunkAt (s : State) (l : List Word) (j : Nat) : (s.setAnswers l).sChunkAt j = s.sChunkAt j := rfl
@[simp] theorem State.setAnswers_sAvailAt (s : State) (l : List Word) (j : Nat) : (s.setAnswers l).sAvailAt j = s.sAvailAt j := rfl
@[simp] theorem State.setAnswers_sVolAt (s : State) (l : List Word) (j d : Nat) : (s.setAnswers l).sVolAt j d = s.sVolAt j d := rfl
@[simp] theorem State.setAnswers_sPtrAt (s : State) (l : List Word) (j : Nat) : (s.setAnswers l).sPtrAt j = s.sPtrAt j := rfl
@[simp] theorem State.setAnswers_olinAt (s : State) (l : List Word) (j : Nat) : (s.setAnswers l).olinAt j = s.olinAt j := rfl
@[simp] theorem State.setAnswers_sgainAt (s : State) (l : List Word) (j d : Nat) : (s.setAnswers l).sgainAt j d = s.sgainAt j d := rfl
@[simp] theorem State.setAnswers_ktabAt (s : State) (l : List Word) (G : Fmt) : (s.setAnswers l).ktabAt G = s.ktabAt G := rfl
@[simp] theorem State.setAnswers_byteAt (s : State) (l : List Word) (a : Nat) : (s.setAnswers l).byteAt a = s.byteAt a := rfl
@[simp] theorem State.setAnswers_readBytes (s : State) (l : List Word) (a w : Nat) : (s.setAnswers l).readBytes a w = s.readBytes a w := rfl
@[simp] theorem State.setHost_ovolAt (s : State) (l : List HostAction) (j : Nat) : (s.setHost l).ovolAt j = s.ovolAt j := rfl
@[simp] theorem State.setHost_sChunkAt (s : State) (l : List HostAction) (j : Nat) : (s.setHost l).sChunkAt j = s.sChunkAt j := rfl
@[simp] theorem State.setHost_sAvailAt (s : State) (l : List HostAction) (j : Nat) : (s.setHost l).sAvailAt j = s.sAvailAt j := rfl
@[simp] theorem State.setHost_sVolAt (s : State) (l : List HostAction) (j d : Nat) : (s.setHost l).sVolAt j d = s.sVolAt j d := rfl
@[simp] theorem State.setHost_sPtrAt (s : State) (l : List HostAction) (j : Nat) : (s.setHost l).sPtrAt j = s.sPtrAt j := rfl
@[simp] theorem State.setHost_olinAt (s : State) (l : List HostAction) (j : Nat) : (s.setHost l).olinAt j = s.olinAt j := rfl
@[simp] theorem State.setHost_sgainAt (s : State) (l : List HostAction) (j d : Nat) : (s.setHost l).sgainAt j d = s.sgainAt j d := rfl
@[simp] theorem State.setHost_ktabAt (s : State) (l : List HostAction) (G : Fmt) : (s.setHost l).ktabAt G = s.ktabAt G := rfl
@[simp] theorem State.setHost_byteAt (s : State) (l : List HostAction) (a : Nat) : (s.setHost l).byteAt a = s.byteAt a := rfl
@[simp] theorem State.setHost_readBytes (s : State) (l : List HostAction) (a w : Nat) : (s.setHost l).readBytes a w = s.readBytes a w := rfl
@[simp] theorem State.complete_ovolAt (s : State) (j : Nat) : s.complete.ovolAt j = s.ovolAt j := rfl
@[simp] theorem takeFault_ovolAt (e : FaultCode) (i ch : Nat) (s : State) (j : Nat) : (takeFault e i ch s).ovolAt j = s.ovolAt j := rfl
@[simp] theorem State.complete_sChunkAt (s : State) (j : Nat) : s.complete.sChunkAt j = s.sChunkAt j := rfl
@[simp] theorem takeFault_sChunkAt (e : FaultCode) (i ch : Nat) (s : State) (j : Nat) : (takeFault e i ch s).sChunkAt j = s.sChunkAt j := rfl
@[simp] theorem State.complete_sAvailAt (s : State) (j : Nat) : s.complete.sAvailAt j = s.sAvailAt j := rfl
@[simp] theorem takeFault_sAvailAt (e : FaultCode) (i ch : Nat) (s : State) (j : Nat) : (takeFault e i ch s).sAvailAt j = s.sAvailAt j := rfl
@[simp] theorem State.complete_sVolAt (s : State) (j d : Nat) : s.complete.sVolAt j d = s.sVolAt j d := rfl
@[simp] theorem takeFault_sVolAt (e : FaultCode) (i ch : Nat) (s : State) (j d : Nat) : (takeFault e i ch s).sVolAt j d = s.sVolAt j d := rfl
@[simp] theorem State.complete_sPtrAt (s : State) (j : Nat) : s.complete.sPtrAt j = s.sPtrAt j := rfl
@[simp] theorem takeFault_sPtrAt (e : FaultCode) (i ch : Nat) (s : State) (j : Nat) : (takeFault e i ch s).sPtrAt j = s.sPtrAt j := rfl
@[simp] theorem State.complete_olinAt (s : State) (j : Nat) : s.complete.olinAt j = s.olinAt j := rfl
@[simp] theorem takeFault_olinAt (e : FaultCode) (i ch : Nat) (s : State) (j : Nat) : (takeFault e i ch s).olinAt j = s.olinAt j := rfl
@[simp] theorem State.complete_sgainAt (s : State) (j d : Nat) : s.complete.sgainAt j d = s.sgainAt j d := rfl
@[simp] theorem takeFault_sgainAt (e : FaultCode) (i ch : Nat) (s : State) (j d : Nat) : (takeFault e i ch s).sgainAt j d = s.sgainAt j d := rfl
@[simp] theorem State.complete_ktabAt (s : State) (G : Fmt) : s.complete.ktabAt G = s.ktabAt G := rfl
@[simp] theorem takeFault_ktabAt (e : FaultCode) (i ch : Nat) (s : State) (G : Fmt) : (takeFault e i ch s).ktabAt G = s.ktabAt G := rfl
@[simp] theorem State.complete_byteAt (s : State) (a : Nat) : s.complete.byteAt a = s.byteAt a := rfl
@[simp] theorem takeFault_byteAt (e : FaultCode) (i ch : Nat) (s : State) (a : Nat) : (takeFault e i ch s).byteAt a = s.byteAt a := rfl
@[simp] theorem State.complete_readBytes (s : State) (a w : Nat) : s.complete.readBytes a w = s.readBytes a w := rfl
@[simp] theorem takeFault_readBytes (e : FaultCode) (i ch : Nat) (s : State) (a w : Nat) : (takeFault e i ch s).readBytes a w = s.readBytes a w := rfl

end Sys2Proof.Machine
end

