-- ==== Sys2Proof/Laws/Memory.lean ====
section
/-! SUPPORT. Sample memory: read after write, and the canonical form every operation keeps. -/

namespace Sys2Proof.Machine

/-! ## Read after write -/

theorem Memory.get_remove (m : Memory) (x y : Nat) :
    (m.remove x).get y = if y = x then Memory.unlisted else m.get y := by
  induction m with
  | nil => simp [Memory.remove, Memory.get]
  | cons c rest ih =>
    obtain ⟨a, b⟩ := c
    simp only [Memory.remove]
    split
    · next h => subst h; rw [ih]; split <;> simp_all [Memory.get]
    · next h =>
      simp only [Memory.get, ih]
      split
      · next h' => subst h'; simp [h]
      · rfl

theorem Memory.get_place (m : Memory) (x y : Nat) (v : Byte) (hx : ∀ c ∈ m, c.1 ≠ x) :
    (m.place x v).get y = if y = x then v else m.get y := by
  induction m with
  | nil => simp [Memory.place, Memory.get]
  | cons c rest ih =>
    obtain ⟨a, b⟩ := c
    have ha : a ≠ x := hx (a, b) (List.mem_cons_self ..)
    have ih := ih fun c hc => hx c (List.mem_cons_of_mem _ hc)
    simp only [Memory.place]
    split
    · simp [Memory.get]
    · simp only [Memory.get, ih]
      split
      · next h => subst h; simp [ha]
      · rfl

theorem Memory.remove_ne (m : Memory) (x : Nat) : ∀ c ∈ m.remove x, c.1 ≠ x := by
  induction m with
  | nil => simp [Memory.remove]
  | cons c rest ih =>
    obtain ⟨a, b⟩ := c
    simp only [Memory.remove]
    split
    · exact ih
    · next h =>
      intro c hc
      rcases List.mem_cons.1 hc with rfl | hc
      · exact h
      · exact ih c hc

/-- A byte read after one byte is put: the byte put at its address, the old byte elsewhere. -/
theorem Memory.get_put (m : Memory) (x y : Nat) (v : Byte) : (m.put x v).get y = if y = x then v else m.get y := by
  unfold Memory.put
  split
  · next h => subst h; exact Memory.get_remove m x y
  · rw [Memory.get_place _ _ _ _ (Memory.remove_ne m x), Memory.get_remove]; split <;> simp_all

@[simp] theorem Memory.get_put_same (m : Memory) (x : Nat) (v : Byte) : (m.put x v).get x = v := by
  simp [Memory.get_put]

/-- A byte read after a list of bytes is stored: the list's byte inside its range, the old byte outside. -/
theorem Memory.get_store (bs : List Byte) : ∀ (m : Memory) (a y : Nat), (m.store a bs).get y =
    if a ≤ y ∧ y < a + bs.length then bs.getD (y - a) 0 else m.get y := by
  induction bs with
  | nil => intro m a y; rw [if_neg (by simp)]; rfl
  | cons b bs ih =>
    intro m a y
    simp only [Memory.store, ih, Memory.get_put, List.length_cons]
    by_cases h : y = a
    · subst h
      rw [if_neg (by omega), if_pos rfl, if_pos (by omega)]; simp
    · by_cases h2 : a + 1 ≤ y ∧ y < a + 1 + bs.length
      · rw [if_pos h2, if_pos (by omega)]
        obtain ⟨k, hk⟩ : ∃ k, y - a = k + 1 := ⟨y - a - 1, by omega⟩
        rw [hk, show y - (a + 1) = k by omega]; simp
      · rw [if_neg h2, if_neg h, if_neg (by omega)]

/-- Bytes outside a stored range read as before. -/
theorem Memory.get_store_outside (m : Memory) (a y : Nat) (bs : List Byte) (h : y < a ∨ a + bs.length ≤ y) :
    (m.store a bs).get y = m.get y := by
  rw [Memory.get_store, if_neg (by omega)]

@[simp] theorem Memory.load_length (m : Memory) (a n : Nat) : (m.load a n).length = n := by
  induction n generalizing a with
  | zero => rfl
  | succ n ih => simp [Memory.load, ih]

/-- Byte `k` of a read of `n` bytes. -/
theorem Memory.load_getElem (m : Memory) (n : Nat) : ∀ (a k : Nat), k < n → (m.load a n).getD k 0 = m.get (a + k) := by
  induction n with
  | zero => intro a k h; omega
  | succ n ih =>
    intro a k h
    cases k with
    | zero => simp [Memory.load]
    | succ k =>
      have := ih (a + 1) k (by omega)
      simp only [Memory.load, List.getD_cons_succ, this]
      congr 1; omega

/-- Two memories that agree on a range give the same read of it. -/
theorem Memory.load_congr (m m' : Memory) (n : Nat) : ∀ a, (∀ y, a ≤ y → y < a + n → m.get y = m'.get y) →
    m.load a n = m'.load a n := by
  induction n with
  | zero => intro a _; rfl
  | succ n ih =>
    intro a h
    simp only [Memory.load]
    rw [h a (by omega) (by omega), ih (a + 1) fun y h1 h2 => h y (by omega) (by omega)]

/-- A read of exactly what was stored gives the bytes stored. -/
theorem Memory.load_store_same (bs : List Byte) : ∀ (m : Memory) (a : Nat), (m.store a bs).load a bs.length = bs := by
  induction bs with
  | nil => intro m a; rfl
  | cons b bs ih =>
    intro m a
    simp only [Memory.store, List.length_cons, Memory.load, ih]
    rw [Memory.get_store_outside _ _ _ _ (by omega), Memory.get_put_same]

/-- A read beside a stored range gives what it gave before. -/
theorem Memory.load_store_outside (m : Memory) (a x n : Nat) (bs : List Byte) (h : x + n ≤ a ∨ a + bs.length ≤ x) :
    (m.store a bs).load x n = m.load x n :=
  Memory.load_congr _ _ _ _ fun y h1 h2 => Memory.get_store_outside _ _ _ _ (by omega)

/-- Storing two runs one behind the other is storing the joined run. -/
theorem Memory.store_append (bs cs : List Byte) : ∀ (m : Memory) (a : Nat),
    m.store a (bs ++ cs) = (m.store a bs).store (a + bs.length) cs := by
  induction bs with
  | nil => intro m a; simp [Memory.store]
  | cons b bs ih => intro m a; simp [Memory.store, ih]; congr 1; omega

/-! ## The canonical form -/

theorem Memory.wfFrom_mono (m : Memory) : ∀ {lo lo' : Nat}, lo' ≤ lo → Memory.wfFrom lo m = true →
    Memory.wfFrom lo' m = true := by
  cases m with
  | nil => intros; rfl
  | cons c rest =>
    obtain ⟨a, b⟩ := c
    intro lo lo' h h'
    simp only [Memory.wfFrom, Bool.and_eq_true, decide_eq_true_eq] at h' ⊢
    exact ⟨⟨by omega, h'.1.2⟩, h'.2⟩

theorem Memory.wfFrom_remove (m : Memory) (x : Nat) : ∀ {lo : Nat}, Memory.wfFrom lo m = true →
    Memory.wfFrom lo (m.remove x) = true := by
  induction m with
  | nil => intros; rfl
  | cons c rest ih =>
    obtain ⟨a, b⟩ := c
    intro lo h
    simp only [Memory.wfFrom, Bool.and_eq_true, decide_eq_true_eq] at h
    simp only [Memory.remove]
    split
    · exact ih (Memory.wfFrom_mono rest (by omega) h.2)
    · simp only [Memory.wfFrom, Bool.and_eq_true, decide_eq_true_eq]; exact ⟨h.1, ih h.2⟩

theorem Memory.wfFrom_place (m : Memory) (x : Nat) (v : Byte) (hv : v ≠ Memory.unlisted) :
    ∀ {lo : Nat}, lo ≤ x → (∀ c ∈ m, c.1 ≠ x) → Memory.wfFrom lo m = true → Memory.wfFrom lo (m.place x v) = true := by
  induction m with
  | nil => intro lo h _ _; simp [Memory.place, Memory.wfFrom, h, hv]
  | cons c rest ih =>
    obtain ⟨a, b⟩ := c
    intro lo hlo hx h
    have ha : a ≠ x := hx (a, b) (List.mem_cons_self ..)
    simp only [Memory.wfFrom, Bool.and_eq_true, decide_eq_true_eq] at h
    simp only [Memory.place]
    split
    · simp only [Memory.wfFrom, Bool.and_eq_true, decide_eq_true_eq]
      exact ⟨⟨hlo, by simpa using hv⟩, ⟨by omega, h.1.2⟩, h.2⟩
    · simp only [Memory.wfFrom, Bool.and_eq_true, decide_eq_true_eq]
      exact ⟨h.1, ih (by omega) (fun c hc => hx c (List.mem_cons_of_mem _ hc)) h.2⟩

/-- Putting a byte keeps the canonical form. -/
theorem Memory.wf_put (m : Memory) (x : Nat) (v : Byte) (h : m.wf = true) : (m.put x v).wf = true := by
  unfold Memory.put Memory.wf at *
  split
  · exact Memory.wfFrom_remove m x h
  · next hv => exact Memory.wfFrom_place _ x v hv (by omega) (Memory.remove_ne m x) (Memory.wfFrom_remove m x h)

/-- Storing bytes keeps the canonical form. -/
theorem Memory.wf_store (bs : List Byte) : ∀ (m : Memory) (a : Nat), m.wf = true → (m.store a bs).wf = true := by
  induction bs with
  | nil => intro m a h; exact h
  | cons b bs ih => intro m a h; exact ih _ _ (Memory.wf_put m a b h)

/-- Replaying the writes of events keeps the canonical form. -/
theorem replayWrites_wf (evs : List Event) : ∀ m : Memory, m.wf = true → (replayWrites evs m).wf = true := by
  induction evs with
  | nil => intro m h; exact h
  | cons e evs ih => intro m h; cases e <;> first | exact ih _ h | exact ih _ (Memory.wf_store _ _ _ h)

/-- Memory right after reset has the canonical form. -/
theorem reset_mem_wf : State.reset.mem.wf = true := rfl

theorem Memory.get_below (m : Memory) : ∀ {lo y : Nat}, Memory.wfFrom lo m = true → y < lo → m.get y = Memory.unlisted := by
  induction m with
  | nil => intros; rfl
  | cons c rest ih =>
    obtain ⟨a, b⟩ := c
    intro lo y h hy
    simp only [Memory.wfFrom, Bool.and_eq_true, decide_eq_true_eq] at h
    rw [Memory.get, if_neg (by omega)]
    exact ih h.2 (by omega)

/-- In canonical form, memories that read alike at every address are the same data. -/
theorem Memory.ext_from (m : Memory) : ∀ (m' : Memory) {lo : Nat}, Memory.wfFrom lo m = true → Memory.wfFrom lo m' = true →
    (∀ y, m.get y = m'.get y) → m = m' := by
  induction m with
  | nil =>
    intro m' lo _ h' hg
    cases m' with
    | nil => rfl
    | cons c rest =>
      obtain ⟨a, b⟩ := c
      simp only [Memory.wfFrom, Bool.and_eq_true, decide_eq_true_eq] at h'
      have := hg a
      simp [Memory.get] at this
      simp [← this] at h'
  | cons c rest ih =>
    obtain ⟨a, b⟩ := c
    intro m' lo h h' hg
    simp only [Memory.wfFrom, Bool.and_eq_true, decide_eq_true_eq] at h
    have hb : b ≠ Memory.unlisted := by simpa using h.1.2
    cases m' with
    | nil => exact absurd (by simpa [Memory.get] using hg a) hb
    | cons c' rest' =>
      obtain ⟨a', b'⟩ := c'
      simp only [Memory.wfFrom, Bool.and_eq_true, decide_eq_true_eq] at h'
      have hb' : b' ≠ Memory.unlisted := by simpa using h'.1.2
      have key : a = a' := by
        rcases Nat.lt_trichotomy a a' with hlt | rfl | hlt
        · have := hg a
          rw [Memory.get, if_pos rfl, Memory.get, if_neg (by omega), Memory.get_below rest' h'.2 (by omega)] at this
          exact absurd this hb
        · rfl
        · have := hg a'
          rw [Memory.get, if_neg (by omega), Memory.get, if_pos rfl, Memory.get_below rest h.2 (by omega)] at this
          exact absurd this.symm hb'
      subst key
      have e := hg a
      simp only [Memory.get, if_true] at e
      subst e
      congr 1
      refine ih rest' h.2 h'.2 fun y => ?_
      have := hg y
      simp only [Memory.get] at this
      by_cases hy : y = a
      · subst hy; rw [Memory.get_below rest h.2 (by omega), Memory.get_below rest' h'.2 (by omega)]
      · simpa [hy] using this

theorem Memory.ext_of_wf (m m' : Memory) (h : m.wf = true) (h' : m'.wf = true) (hg : ∀ y, m.get y = m'.get y) : m = m' :=
  Memory.ext_from m m' h h' hg

end Sys2Proof.Machine
end

