-- ==== Sys2Proof/Laws/Ops.lean ====
section
/-! SUPPORT. What each shared operation of Machine/Ops.lean does, said once: read-after-write of the indexed registers, the
exact effect of the fills, releases and port calls, and the inversion of the acquires. -/

namespace Sys2Proof.Machine

/-! ## Indexed registers -/

theorem elem_set {α : Type} {n : Nat} (d : α) (v : Vector α n) (i j : Nat) (x : α) :
    elem d (v.setIfInBounds i x) j = if j = i ∧ i < n then x else elem d v j := by
  unfold elem
  rw [Vector.getElem?_setIfInBounds]
  by_cases h : i = j
  · subst h
    by_cases hi : i < n <;> simp [hi]
  · rw [if_neg h, if_neg (fun h' => h h'.1.symm)]

theorem State.setOlin_olinAt (s : State) (i j : Nat) (v : Word) (h : i < 64) :
    (s.setOlin i v).olinAt j = if j = i then v else s.olinAt j := by
  simp only [State.olinAt, State.setOlin_olin, elem_set, Config.channelsMax, Config.padSlots, h, and_true]

theorem State.setSPtr_sPtrAt (s : State) (i j : Nat) (v : Word) (h : i < 32) :
    (s.setSPtr i v).sPtrAt j = if j = i then v else s.sPtrAt j := by
  simp only [State.sPtrAt, State.setSPtr_sPtr, elem_set, h, and_true]

theorem State.setSgain_sgainAt (s : State) (i ch j d : Nat) (v : Word) (h : i < 32) (h' : ch < 32) :
    (s.setSgain i ch v).sgainAt j d = if j = i ∧ d = ch then v else s.sgainAt j d := by
  simp only [State.sgainAt, State.setSgain_sgain, elem_set, h, and_true]
  by_cases hj : j = i
  · subst hj
    rw [if_pos rfl, elem_set]
    by_cases hd : d = ch
    · simp [hd, h']
    · simp [hd, State.sgainRow]
  · simp [hj]

theorem Fmt.tag_lt (F : Fmt) : F.tag < 13 := by cases F <;> decide

theorem Fmt.tag_inj {F G : Fmt} (h : F.tag = G.tag) : F = G := by
  cases F <;> cases G <;> first | rfl | exact absurd h (by decide)

theorem Fmt.ofTag_tag (F : Fmt) : Fmt.ofTag F.tag = some F := by cases F <;> rfl

theorem Fmt.tag_of_ofTag {n : Nat} {F : Fmt} (h : Fmt.ofTag n = some F) : F.tag = n := by
  unfold Fmt.ofTag at h
  split at h <;> simp_all <;> subst h <;> rfl

theorem State.setKtab_ktabAt (s : State) (F G : Fmt) (k : BitVec 8) :
    (s.setKtab F k).ktabAt G = if G = F then k else s.ktabAt G := by
  simp only [State.ktabAt, State.setKtab_ktab, elem_set, Fmt.tag_lt, and_true]
  by_cases h : G = F
  · simp [h]
  · rw [if_neg h, if_neg fun h' => h (Fmt.tag_inj h')]

/-! ## Memory operations on the state -/

theorem State.writeBytes_eq (s : State) (a : Nat) (b : List Byte) :
    s.writeBytes a b = { s with mem := s.mem.store a b, hist := s.hist ++ [.write a b] } := rfl

theorem State.readEvent_eq (s : State) (a n : Nat) :
    s.readEvent a n = { s with hist := s.hist ++ [.read a (s.readBytes a n)] } := rfl

/-- The whole effect of a fill: `n` bytes stored, `n` single-byte writes recorded in ascending order. -/
theorem fillBytes_eq (v : Byte) : ∀ (n a : Nat) (s : State), fillBytes v n a s =
    { s with mem := s.mem.store a (List.replicate n v)
             hist := s.hist ++ (List.range n).map fun k => .write (a + k) [v] } := by
  intro n
  induction n with
  | zero => intro a s; simp [fillBytes, Memory.store]
  | succ n ih =>
    intro a s
    rw [fillBytes, ih, State.writeBytes_eq]
    simp only [List.replicate_succ, Memory.store, List.range_succ_eq_map, List.map_cons, List.map_map, List.append_assoc,
      List.singleton_append, Nat.add_zero]
    congr 4
    funext k
    simp only [Function.comp]
    congr 1
    omega

/-- The whole effect of the releases. -/
theorem releaseAll_eq : ∀ (n i : Nat) (s : State), releaseAll n i s =
    { s with hist := s.hist ++ (List.range n).map fun k => .release (s.sChunkAt (i + k)) } := by
  intro n
  induction n with
  | zero => intro i s; simp [releaseAll]
  | succ n ih =>
    intro i s
    rw [releaseAll, ih]
    simp only [State.record, State.sChunkAt, List.range_succ_eq_map, List.map_cons, List.map_map, List.append_assoc,
      List.singleton_append, Nat.add_zero]
    congr 4
    funext k
    simp only [Function.comp]
    congr 2
    omega

/-! ## The port and the cursors: which fields they can change -/

theorem acquire_shape (h : Word) (s : State) :
    ∃ ans fr, acquire h s = { s with answers := ans, free := fr, hist := s.hist ++ [.acquire h (nextAnswer s)] } := by
  unfold acquire
  cases hans : s.answers with
  | nil => exact ⟨s.answers, s.free + 1, rfl⟩
  | cons a rest => exact ⟨rest, s.free, rfl⟩

theorem advancePtr_eq (i w : Nat) (s : State) : advancePtr i w s =
    { s with sPtr := s.sPtr.setIfInBounds i (cursorReg ((s.sPtrAt i).toNat + w) s)
             free := s.free + cursorDraws ((s.sPtrAt i).toNat + w) } := rfl

theorem moveDest_eq (n : Nat) (s : State) :
    moveDest n s = { s with dCur := cursorReg n s, free := s.free + cursorDraws n } := rfl

/-- `2^AW` as a numeral. -/
theorem memSize_eq : Config.memSize = 4294967296 := rfl

/-! The registers that hold an address or a length, below that numeral. -/

theorem State.dst_lt (s : State) : s.dst.toNat < 4294967296 := s.dst.isLt

theorem State.len_lt (s : State) : s.len.toNat < 4294967296 := s.len.isLt

theorem State.effLen_lt (s : State) : s.effLen.toNat < 4294967296 := s.effLen.isLt

theorem State.sAvailAt_lt (s : State) (i : Nat) : (s.sAvailAt i).toNat < 4294967296 := (s.sAvailAt i).isLt

theorem State.sPtrAt_lt (s : State) (i : Nat) : (s.sPtrAt i).toNat < 4294967296 := (s.sPtrAt i).isLt

theorem answerAt_lt (s : State) (j : Nat) : (answerAt s j).toNat < 4294967296 := (answerAt s j).isLt

theorem cursorReg_toNat {n : Nat} (s : State) (h : n < 4294967296) : (cursorReg n s).toNat = n := by
  unfold cursorReg
  rw [if_pos (memSize_eq ▸ h), BitVec.toNat_ofNat]
  exact Nat.mod_eq_of_lt h

/-- What acquiring one stream can do: go on with its cursor set, or take F_NULL or F_ADDR_WRAP. -/
theorem acquireStream_cases (i : Nat) (s : State) :
    let a := nextAnswer s
    (a ≠ 0 ∧ a.toNat + (s.sAvailAt i).toNat ≤ 4294967296 ∧
      acquireStream i s = .on ((acquire (s.sChunkAt i) s).setSPtr i a)) ∨
    (a = 0 ∧ acquireStream i s = .halt (takeFault .null i 0 (acquire (s.sChunkAt i) s))) ∨
    (a ≠ 0 ∧ 4294967296 < a.toNat + (s.sAvailAt i).toNat ∧
      acquireStream i s = .halt (takeFault .addrWrap i 0 (acquire (s.sChunkAt i) s))) := by
  intro a
  have hav : (acquire (s.sChunkAt i) s).sAvailAt i = s.sAvailAt i := by
    obtain ⟨ans, fr, h⟩ := acquire_shape (s.sChunkAt i) s; rw [h]; rfl
  unfold acquireStream
  simp only [hav, memSize_eq]
  by_cases h0 : nextAnswer s = 0
  · right; left; exact ⟨h0, if_pos h0⟩
  · rw [if_neg h0]
    by_cases h1 : 4294967296 < (nextAnswer s).toNat + (s.sAvailAt i).toNat
    · right; right; exact ⟨h0, h1, if_pos h1⟩
    · left; exact ⟨h0, Nat.le_of_not_lt h1, if_neg h1⟩

/-- The state a line ends in. -/
def Progress.state : Progress → State
  | .on s => s
  | .halt s => s

/-- Acquiring changes S_PTR, the answers, the free counter and the history only, and adds acquire events only; where it
stops, it has taken F_NULL or F_ADDR_WRAP. -/
theorem acquireAll_shape : ∀ (n i : Nat) (s : State), ∃ (p : Vector Word 32) (ans : List Word) (fr : Nat) (h : List (Word × Word)),
    let u : State := { s with sPtr := p, answers := ans, free := fr, hist := s.hist ++ h.map fun e => .acquire e.1 e.2 }
    acquireAll n i s = .on u ∨ ∃ c k, (c = .null ∨ c = .addrWrap) ∧ acquireAll n i s = .halt (takeFault c k 0 u) := by
  intro n
  induction n with
  | zero => intro i s; exact ⟨s.sPtr, s.answers, s.free, [], by left; simp [acquireAll]⟩
  | succ n ih =>
    intro i s
    obtain ⟨ans, fr, hacq⟩ := acquire_shape (s.sChunkAt i) s
    rcases acquireStream_cases i s with ⟨-, -, h⟩ | ⟨-, h⟩ | ⟨-, -, h⟩
    · obtain ⟨p, ans', fr', l, h'⟩ := ih (i + 1) ((acquire (s.sChunkAt i) s).setSPtr i (nextAnswer s))
      refine ⟨p, ans', fr', (s.sChunkAt i, nextAnswer s) :: l, ?_⟩
      rw [acquireAll, h]
      simp only [Progress.andThen]
      rw [hacq] at h' ⊢
      simpa [State.setSPtr] using h'
    · refine ⟨s.sPtr, ans, fr, [(s.sChunkAt i, nextAnswer s)], Or.inr ⟨.null, i, Or.inl rfl, ?_⟩⟩
      rw [acquireAll, h, hacq]; rfl
    · refine ⟨s.sPtr, ans, fr, [(s.sChunkAt i, nextAnswer s)], Or.inr ⟨.addrWrap, i, Or.inr rfl, ?_⟩⟩
      rw [acquireAll, h, hacq]; rfl

end Sys2Proof.Machine
end

