-- ==== Sys2Proof/Laws/Gains.lean ====
section
/-! SUPPORT. What the Volume Linearizer and the Stream Gain Calculator do, said once: which fields they can change, what they
leave in OLIN and SGAIN when they go on, and that they stop only by taking F_GAIN_RANGE. -/

namespace Sys2Proof.Machine

@[simp] theorem Progress.andThen_on (s : State) (f : State → Progress) : (Progress.on s).andThen f = f s := rfl

@[simp] theorem Progress.andThen_halt (s : State) (f : State → Progress) : (Progress.halt s).andThen f = .halt s := rfl

/-- A line that goes on after two parts has gone on after each. -/
theorem Progress.andThen_eq_on {p : Progress} {f : State → Progress} {t : State} (h : p.andThen f = .on t) :
    ∃ u, p = .on u ∧ f u = .on t := by
  cases p with
  | on u => exact ⟨u, rfl, h⟩
  | halt u => simp at h

/-! ## The linearizer -/

/-- The linearizer changes OLIN only, and stops only by F_GAIN_RANGE without a stream (40_linearizer.md R131 to R133). -/
theorem linChannels_shape (P : Config.Ports) (q : GainRepr) (vol : Nat → Word) : ∀ (n ch : Nat) (s : State), ∃ o,
    let u : State := { s with olin := o }
    linChannels P q vol n ch s = .on u ∨ ∃ k, linChannels P q vol n ch s = .halt (takeFault .gainRange noStream k u) := by
  intro n
  induction n with
  | zero => intro ch s; exact ⟨s.olin, Or.inl rfl⟩
  | succ n ih =>
    intro ch s
    rw [linChannels]
    cases h : linGain P q (vol ch) with
    | none => exact ⟨s.olin, Or.inr ⟨ch, rfl⟩⟩
    | some g => exact ih (ch + 1) (s.setOlin ch g)

/-- The linearizer over channels whose gains are all in range. -/
theorem linChannels_on (P : Config.Ports) (q : GainRepr) (vol : Nat → Word) (g : Nat → Word) :
    ∀ (n ch : Nat) (s : State), ch + n ≤ 64 → (∀ k, ch ≤ k → k < ch + n → linGain P q (vol k) = some (g k)) →
    ∃ o, linChannels P q vol n ch s = .on { s with olin := o } ∧
      ∀ j, State.olinAt { s with olin := o } j = if ch ≤ j ∧ j < ch + n then g j else s.olinAt j := by
  intro n
  induction n with
  | zero => intro ch s _ _; exact ⟨s.olin, rfl, fun j => by rw [if_neg (by omega)]⟩
  | succ n ih =>
    intro ch s hb hg
    rw [linChannels, hg ch (by omega) (by omega)]
    obtain ⟨o, h1, h2⟩ := ih (ch + 1) (s.setOlin ch (g ch)) (by omega) fun k hk hk' => hg k (by omega) (by omega)
    refine ⟨o, h1, fun j => ?_⟩
    have := h2 j
    rw [State.setOlin_olinAt _ _ _ _ (by omega)] at this
    by_cases hj : j = ch
    · subst hj
      rw [if_pos (by omega)]
      rw [if_neg (by omega), if_pos rfl] at this
      exact this
    · rw [if_neg hj] at this
      by_cases hj' : ch + 1 ≤ j ∧ j < ch + 1 + n
      · rw [if_pos hj'] at this; rw [if_pos (by omega)]; exact this
      · rw [if_neg hj'] at this; rw [if_neg (by omega)]; exact this

/-- The padding changes OLIN only. -/
theorem padFrom_shape (C : Nat) : ∀ (n i : Nat) (s : State), ∃ o, padFrom C n i s = { s with olin := o } := by
  intro n
  induction n with
  | zero => intro i s; exact ⟨s.olin, rfl⟩
  | succ n ih => intro i s; exact ih (i + 1) (s.setOlin (C + i) (s.olinAt i))

/-- The padding tiles the real range (40_linearizer.md R134). -/
theorem padFrom_olinAt (C : Nat) (hC : 0 < C) : ∀ (n i : Nat) (s : State), C + i + n ≤ 64 →
    (∀ j, j < C + i → s.olinAt j = s.olinAt (j % C)) →
    ∀ j, (padFrom C n i s).olinAt j = if j < C + i + n then s.olinAt (j % C) else s.olinAt j := by
  intro n
  induction n with
  | zero =>
    intro i s _ h j
    by_cases hj : j < C + i
    · rw [if_pos (by omega)]; exact h j hj
    · rw [if_neg (by omega)]; rfl
  | succ n ih =>
    intro i s hb h j
    have hm : ∀ x, x % C < C := fun x => Nat.mod_lt x hC
    have hi : s.olinAt i = s.olinAt ((C + i) % C) := by
      have : i % C = (C + i) % C := (Nat.add_mod_left C i).symm
      rw [← this]
      exact h i (by omega)
    have key : ∀ x, (s.setOlin (C + i) (s.olinAt i)).olinAt (x % C) = s.olinAt (x % C) := fun x => by
      rw [State.setOlin_olinAt _ _ _ _ (by omega), if_neg]
      have := hm x
      omega
    rw [padFrom, ih (i + 1) _ (by omega), key]
    · by_cases hj : j < C + i + (n + 1)
      · rw [if_pos hj, if_pos (by omega)]
      · rw [if_neg hj, if_neg (by omega), State.setOlin_olinAt _ _ _ _ (by omega), if_neg (by omega)]
    · intro x hx
      rw [key, State.setOlin_olinAt _ _ _ _ (by omega)]
      by_cases hx' : x = C + i
      · rw [if_pos hx', hi, hx']
      · rw [if_neg hx']; exact h x (by omega)

/-- The linearizer with padding changes OLIN only, and stops only by F_GAIN_RANGE without a stream. -/
theorem linearize_shape (P : Config.Ports) (q : GainRepr) (vol : Nat → Word) (C : Nat) (s : State) : ∃ o,
    let u : State := { s with olin := o }
    linearize P q vol C s = .on u ∨ ∃ k, linearize P q vol C s = .halt (takeFault .gainRange noStream k u) := by
  unfold linearize
  obtain ⟨o, h | ⟨k, h⟩⟩ := linChannels_shape P q vol C 0 s
  · obtain ⟨o', h'⟩ := padFrom_shape C Config.padSlots 0 { s with olin := o }
    exact ⟨o', Or.inl (by simp [h, h'])⟩
  · exact ⟨o, Or.inr ⟨k, by rw [h, Progress.andThen_halt]⟩⟩

/-- The linearizer over a volume whose gains are all in range: slot `j` of the first `C + 32` holds the gain of channel
`j mod C`, the slots above keep their contents (40_linearizer.md R131, R132, R134). -/
theorem linearize_on (P : Config.Ports) (q : GainRepr) (vol : Nat → Word) (g : Nat → Word) (C : Nat) (s : State)
    (hC : 0 < C) (hC' : C ≤ 32) (hg : ∀ k, k < C → linGain P q (vol k) = some (g k)) :
    ∃ o, linearize P q vol C s = .on { s with olin := o } ∧
      ∀ j, State.olinAt { s with olin := o } j = if j < C + 32 then g (j % C) else s.olinAt j := by
  obtain ⟨o, h1, h2⟩ := linChannels_on P q vol g C 0 s (by omega) fun k _ hk => hg k (by omega)
  obtain ⟨o', h'⟩ := padFrom_shape C 32 0 { s with olin := o }
  refine ⟨o', ?_, fun j => ?_⟩
  · rw [linearize, h1, Progress.andThen_on]; exact congrArg Progress.on h'
  · have hp := padFrom_olinAt C hC 32 0 { s with olin := o } (by omega) (fun j hj => by
      rw [Nat.mod_eq_of_lt (by omega : j < C)]) j
    have e : padFrom C 32 0 { s with olin := o } = { s with olin := o' } := h'
    rw [e] at hp
    have hm : j % C < C := Nat.mod_lt j hC
    have a := h2 (j % C)
    have b := h2 j
    rw [if_pos (by omega)] at a
    rw [Nat.add_zero] at hp
    by_cases hj : j < C + 32
    · rw [if_pos hj] at hp ⊢; exact hp.trans a
    · rw [if_neg hj] at hp ⊢; rw [if_neg (by omega)] at b; exact hp.trans b

/-! ## The gain calculator -/

/-- The gain calculator on one stream changes SGAIN only, and stops only by F_GAIN_RANGE of that stream. -/
theorem gainChannels_shape (P : Config.Ports) (q : GainRepr) (i : Nat) : ∀ (n ch : Nat) (s : State), ∃ v,
    let u : State := { s with sgain := v }
    gainChannels P q i n ch s = .on u ∨ ∃ k, gainChannels P q i n ch s = .halt (takeFault .gainRange i k u) := by
  intro n
  induction n with
  | zero => intro ch s; exact ⟨s.sgain, Or.inl rfl⟩
  | succ n ih =>
    intro ch s
    rw [gainChannels]
    cases h : streamGain P q (s.sVolAt i ch) (s.olinAt ch) with
    | none => exact ⟨s.sgain, Or.inr ⟨ch, rfl⟩⟩
    | some g => exact ih (ch + 1) (s.setSgain i ch g)

/-- The gain calculator changes SGAIN only, and stops only by F_GAIN_RANGE (41_gain_calculator.md R141, R142). -/
theorem gainStreams_shape (P : Config.Ports) (q : GainRepr) (C : Nat) : ∀ (n i : Nat) (s : State), ∃ v,
    let u : State := { s with sgain := v }
    gainStreams P q C n i s = .on u ∨ ∃ j k, gainStreams P q C n i s = .halt (takeFault .gainRange j k u) := by
  intro n
  induction n with
  | zero => intro i s; exact ⟨s.sgain, Or.inl rfl⟩
  | succ n ih =>
    intro i s
    rw [gainStreams]
    obtain ⟨v, h | ⟨k, h⟩⟩ := gainChannels_shape P q i C 0 s
    · obtain ⟨v', h'⟩ := ih (i + 1) { s with sgain := v }
      exact ⟨v', by rw [h, Progress.andThen_on]; exact h'⟩
    · exact ⟨v, Or.inr ⟨i, k, by rw [h, Progress.andThen_halt]⟩⟩

theorem gainChannels_on (P : Config.Ports) (q : GainRepr) (i : Nat) (g : Nat → Word) (hi : i < 32) :
    ∀ (n ch : Nat) (s : State), ch + n ≤ 32 →
    (∀ k, ch ≤ k → k < ch + n → streamGain P q (s.sVolAt i k) (s.olinAt k) = some (g k)) →
    ∃ v, gainChannels P q i n ch s = .on { s with sgain := v } ∧
      ∀ j d, State.sgainAt { s with sgain := v } j d = if j = i ∧ ch ≤ d ∧ d < ch + n then g d else s.sgainAt j d := by
  intro n
  induction n with
  | zero => intro ch s _ _; exact ⟨s.sgain, rfl, fun j d => by rw [if_neg (by omega)]⟩
  | succ n ih =>
    intro ch s hb hg
    rw [gainChannels, hg ch (by omega) (by omega)]
    obtain ⟨v, h1, h2⟩ := ih (ch + 1) (s.setSgain i ch (g ch)) (by omega) fun k hk hk' => hg k (by omega) (by omega)
    refine ⟨v, h1, fun j d => ?_⟩
    have := h2 j d
    rw [State.setSgain_sgainAt _ _ _ _ _ _ hi (by omega)] at this
    refine Eq.trans this ?_
    by_cases hj : j = i
    · by_cases hd : d = ch
      · rw [if_neg (by omega), if_pos ⟨hj, hd⟩, if_pos (by omega), hd]
      · by_cases hd' : ch + 1 ≤ d ∧ d < ch + 1 + n
        · rw [if_pos ⟨hj, hd'⟩, if_pos (by omega)]
        · rw [if_neg (by omega), if_neg (by omega), if_neg (by omega)]
    · rw [if_neg (by omega), if_neg (by omega), if_neg (by omega)]

/-- The gain calculator over streams whose gains are all in range. -/
theorem gainStreams_on (P : Config.Ports) (q : GainRepr) (C : Nat) (g : Nat → Nat → Word) (hC : C ≤ 32) :
    ∀ (n i : Nat) (s : State), i + n ≤ 32 →
    (∀ j k, i ≤ j → j < i + n → k < C → streamGain P q (s.sVolAt j k) (s.olinAt k) = some (g j k)) →
    ∃ v, gainStreams P q C n i s = .on { s with sgain := v } ∧
      ∀ j d, State.sgainAt { s with sgain := v } j d = if (i ≤ j ∧ j < i + n) ∧ d < C then g j d else s.sgainAt j d := by
  intro n
  induction n with
  | zero => intro i s _ _; exact ⟨s.sgain, rfl, fun j d => by rw [if_neg (by omega)]⟩
  | succ n ih =>
    intro i s hb hg
    obtain ⟨v, h1, h2⟩ := gainChannels_on P q i (g i) (by omega) C 0 s (by omega)
      fun k _ hk' => hg i k (by omega) (by omega) (by omega)
    obtain ⟨v', h1', h2'⟩ := ih (i + 1) { s with sgain := v } (by omega)
      fun j k hj hj' hk => hg j k (by omega) (by omega) hk
    refine ⟨v', by rw [gainStreams, h1, Progress.andThen_on]; exact h1', fun j d => ?_⟩
    refine Eq.trans (h2' j d) ?_
    by_cases hj : i + 1 ≤ j ∧ j < i + 1 + n
    · by_cases hd : d < C
      · rw [if_pos ⟨hj, hd⟩, if_pos (by omega)]
      · rw [if_neg (by omega), if_neg (by omega), h2, if_neg (by omega)]
    · rw [if_neg (by omega), h2]
      by_cases hj' : j = i
      · subst hj'
        by_cases hd : d < C
        · rw [if_pos (by omega), if_pos (by omega)]
        · rw [if_neg (by omega), if_neg (by omega)]
      · rw [if_neg (by omega), if_neg (by omega)]

end Sys2Proof.Machine
end

