-- ==== Sys2Proof/Laws/Kernel.lean ====
section
/-! SUPPORT. What the two common algorithms do, said once: which fields a kernel can change, that it writes exactly its
destination, how far the cursors move, and what one slot writes. -/

namespace Sys2Proof.Machine

/-! ## What a kernel leaves alone -/

/-- Every event is a read or a write. -/
def allAccesses (l : List Event) : Prop := ∀ e ∈ l, (∃ a b, e = .read a b) ∨ ∃ a b, e = .write a b

/-- The fields no part of a kernel changes once it has started, and what it adds to the history. -/
structure KernelFrame (s t : State) : Prop where
  cmd : t.cmd = s.cmd
  seq : t.seq = s.seq
  gfault : t.gfault = s.gfault
  fcode : t.fcode = s.fcode
  finfo : t.finfo = s.finfo
  dst : t.dst = s.dst
  len : t.len = s.len
  ret : t.ret = s.ret
  karg : t.karg = s.karg
  ovol : t.ovol = s.ovol
  sChunk : t.sChunk = s.sChunk
  sAvail : t.sAvail = s.sAvail
  sVol : t.sVol = s.sVol
  olin : t.olin = s.olin
  sgain : t.sgain = s.sgain
  dEnd : t.dEnd = s.dEnd
  effLen : t.effLen = s.effLen
  ktab : t.ktab = s.ktab
  host : t.host = s.host
  reads : t.reads = s.reads
  answers : t.answers = s.answers
  hist : ∃ h, allAccesses h ∧ t.hist = s.hist ++ h

theorem allAccesses_nil : allAccesses [] := fun _ h => absurd h List.not_mem_nil

theorem KernelFrame.refl (s : State) : KernelFrame s s := by
  constructor <;> first | rfl | exact ⟨[], allAccesses_nil, (List.append_nil _).symm⟩

theorem KernelFrame.trans {s t u : State} (h : KernelFrame s t) (k : KernelFrame t u) : KernelFrame s u := by
  obtain ⟨x, hx, ex⟩ := h.hist
  obtain ⟨y, hy, ey⟩ := k.hist
  have hist : ∃ z, allAccesses z ∧ u.hist = s.hist ++ z := by
    refine ⟨x ++ y, fun e he => ?_, by rw [ey, ex, List.append_assoc]⟩
    rcases List.mem_append.1 he with he | he
    · exact hx e he
    · exact hy e he
  exact
    { cmd := k.cmd.trans h.cmd
      seq := k.seq.trans h.seq
      gfault := k.gfault.trans h.gfault
      fcode := k.fcode.trans h.fcode
      finfo := k.finfo.trans h.finfo
      dst := k.dst.trans h.dst
      len := k.len.trans h.len
      ret := k.ret.trans h.ret
      karg := k.karg.trans h.karg
      ovol := k.ovol.trans h.ovol
      sChunk := k.sChunk.trans h.sChunk
      sAvail := k.sAvail.trans h.sAvail
      sVol := k.sVol.trans h.sVol
      olin := k.olin.trans h.olin
      sgain := k.sgain.trans h.sgain
      dEnd := k.dEnd.trans h.dEnd
      effLen := k.effLen.trans h.effLen
      ktab := k.ktab.trans h.ktab
      host := k.host.trans h.host
      reads := k.reads.trans h.reads
      answers := k.answers.trans h.answers
      hist := hist }

theorem KernelFrame.readEvent (s : State) (a n : Nat) : KernelFrame s (s.readEvent a n) := by
  constructor <;> first
    | rfl
    | exact ⟨[.read a (s.readBytes a n)], fun e he => Or.inl ⟨_, _, List.mem_singleton.1 he⟩, rfl⟩

theorem KernelFrame.advancePtr (i w : Nat) (s : State) : KernelFrame s (advancePtr i w s) := by
  constructor <;> first | rfl | exact ⟨[], allAccesses_nil, (List.append_nil _).symm⟩

theorem KernelFrame.writeSample (L : Lane) (a : Nat) (acc : L.Acc) (s : State) : KernelFrame s (writeSample L a acc s) := by
  constructor <;> first
    | rfl
    | exact ⟨[.write a (L.out (Config.quietNaN s.free) acc)], fun e he => Or.inr ⟨_, _, List.mem_singleton.1 he⟩, rfl⟩

theorem KernelFrame.moveDest (n : Nat) (s : State) : KernelFrame s (moveDest n s) := by
  constructor <;> first | rfl | exact ⟨[], allAccesses_nil, (List.append_nil _).symm⟩

theorem KernelFrame.nextChannel (C : Nat) (s : State) : KernelFrame s (nextChannel C s) := by
  constructor <;> first | rfl | exact ⟨[], allAccesses_nil, (List.append_nil _).symm⟩

theorem KernelFrame.sgainAt {s t : State} (h : KernelFrame s t) (i ch : Nat) : t.sgainAt i ch = s.sgainAt i ch := by
  simp only [State.sgainAt, h.sgain]

theorem KernelFrame.olinAt {s t : State} (h : KernelFrame s t) (i : Nat) : t.olinAt i = s.olinAt i := by
  simp only [State.olinAt, h.olin]

/-! ## Lanes -/

theorem leBytes_length (n : Nat) : ∀ u, (leBytes n u).length = n := by
  induction n with
  | zero => intro u; rfl
  | succ n ih => intro u; simp [leBytes, ih]

theorem bytesOf_length (e : Endian) (n u : Nat) : (bytesOf e n u).length = n := by
  cases e <;> simp [bytesOf, leBytes_length]

/-- A lane writes whole samples, and parks its accumulator in an accumulator register without touching anything else. -/
structure Lane.Sound (L : Lane) : Prop where
  out_length : ∀ nan x, (L.out nan x).length = L.width
  width_pos : 0 < L.width
  park_frame : ∀ x s, KernelFrame s (L.park x s)
  park_mem : ∀ x s, (L.park x s).mem = s.mem
  park_sPtr : ∀ x s, (L.park x s).sPtr = s.sPtr
  park_chIdx : ∀ x s, (L.park x s).chIdx = s.chIdx
  park_hist : ∀ x s, (L.park x s).hist = s.hist

theorem lane32_sound (w : Nat) (dec : List Byte → Int) (lo hi : Int) (enc : Int → List Byte) (hw : 0 < w)
    (h : ∀ y, (enc y).length = w) : (lane32 w dec lo hi enc).Sound where
  out_length _ _ := h _
  width_pos := hw
  park_frame x s := by
    constructor <;> first | rfl | exact ⟨[], allAccesses_nil, (List.append_nil _).symm⟩
  park_mem _ _ := rfl
  park_sPtr _ _ := rfl
  park_chIdx _ _ := rfl
  park_hist _ _ := rfl

theorem lane64_sound (w : Nat) (dec : List Byte → Int) (enc : Int → List Byte) (hw : 0 < w)
    (h : ∀ y, (enc y).length = w) : (lane64 w dec enc).Sound where
  out_length _ _ := h _
  width_pos := hw
  park_frame x s := by
    constructor <;> first | rfl | exact ⟨[], allAccesses_nil, (List.append_nil _).symm⟩
  park_mem _ _ := rfl
  park_sPtr _ _ := rfl
  park_chIdx _ _ := rfl
  park_hist _ _ := rfl

theorem laneF_sound (e : Endian) : (laneF e).Sound where
  out_length _ _ := bytesOf_length _ _ _
  width_pos := Nat.succ_pos _
  park_frame x s := by
    constructor <;> first | rfl | exact ⟨[], allAccesses_nil, (List.append_nil _).symm⟩
  park_mem _ _ := rfl
  park_sPtr _ _ := rfl
  park_chIdx _ _ := rfl
  park_hist _ _ := rfl

theorem laneOf_sound (P : Config.Ports) (F : Fmt) : (laneOf P F).Sound := by
  cases F <;> first
    | exact laneF_sound _
    | exact lane32_sound _ _ _ _ _ (Nat.succ_pos _) fun _ => rfl
    | exact lane32_sound _ _ _ _ _ (Nat.succ_pos _) fun _ => bytesOf_length _ _ _
    | exact lane64_sound _ _ _ (Nat.succ_pos _) fun _ => bytesOf_length _ _ _

theorem laneOf_width (P : Config.Ports) (F : Fmt) : (laneOf P F).width = width F := by cases F <;> rfl

/-! ## One slot of a mixing kernel -/

theorem passStream_frame (L : Lane) (i : Nat) (s : State) : KernelFrame s (passStream L i s) := by
  unfold passStream
  split
  · exact (KernelFrame.readEvent _ _ _).trans (KernelFrame.advancePtr _ _ _)
  · exact KernelFrame.advancePtr _ _ _

@[simp] theorem passStream_mem (L : Lane) (i : Nat) (s : State) : (passStream L i s).mem = s.mem := by
  unfold passStream; split <;> rfl

@[simp] theorem passStream_chIdx (L : Lane) (i : Nat) (s : State) : (passStream L i s).chIdx = s.chIdx := by
  unfold passStream; split <;> rfl

theorem passStream_sPtr (L : Lane) (i : Nat) (s : State) :
    (passStream L i s).sPtr = s.sPtr.setIfInBounds i (cursorReg ((s.sPtrAt i).toNat + L.width) s) := by
  unfold passStream; split <;> rfl

theorem passStream_sPtrAt (L : Lane) (i j : Nat) (s : State) (hi : i < 32) : (passStream L i s).sPtrAt j =
    if j = i then cursorReg ((s.sPtrAt i).toNat + L.width) s else s.sPtrAt j := by
  simp only [State.sPtrAt, passStream_sPtr, elem_set, hi, and_true]

/-- The streams of a slot: the frame, memory and the channel index unchanged. -/
theorem mixStreams_frame (L : Lane) : ∀ (n i : Nat) (acc : L.Acc) (s : State),
    KernelFrame s (mixStreams L n i acc s).2 ∧ (mixStreams L n i acc s).2.mem = s.mem ∧
      (mixStreams L n i acc s).2.chIdx = s.chIdx := by
  intro n
  induction n with
  | zero => intro i acc s; exact ⟨KernelFrame.refl s, rfl, rfl⟩
  | succ n ih =>
    intro i acc s
    obtain ⟨h1, h2, h3⟩ := ih (i + 1) (addStream L i acc s) (passStream L i s)
    rw [mixStreams]
    exact ⟨(passStream_frame L i s).trans h1, h2.trans (passStream_mem L i s), h3.trans (passStream_chIdx L i s)⟩

/-- The cursors of the streams of a slot each move by the width (43_mix_kernels.md R193). -/
theorem mixStreams_sPtrAt (L : Lane) : ∀ (n i : Nat) (acc : L.Acc) (s : State), i + n ≤ 32 → ∀ j,
    ((i ≤ j ∧ j < i + n) → (s.sPtrAt j).toNat + L.width < 4294967296 →
      ((mixStreams L n i acc s).2.sPtrAt j).toNat = (s.sPtrAt j).toNat + L.width) ∧
    (¬ (i ≤ j ∧ j < i + n) → (mixStreams L n i acc s).2.sPtrAt j = s.sPtrAt j) := by
  intro n
  induction n with
  | zero => intro i acc s _ j; exact ⟨fun h => by omega, fun _ => rfl⟩
  | succ n ih =>
    intro i acc s hb j
    have hone := passStream_sPtrAt L i j s (by omega)
    obtain ⟨h1, h2⟩ := ih (i + 1) (addStream L i acc s) (passStream L i s) (by omega) j
    rw [mixStreams]
    by_cases hj : j = i
    · subst hj
      rw [h2 (by omega), hone, if_pos rfl]
      exact ⟨fun _ hlt => cursorReg_toNat s hlt, fun h => by omega⟩
    · rw [hone, if_neg hj] at h1 h2
      exact ⟨fun hr hlt => h1 (by omega) hlt, fun hr => h2 (by omega)⟩

/-- A stream's share of a slot is the same in two states that agree on its cursor and gain, the channel and memory. -/
theorem addStream_congr (L : Lane) (i : Nat) (acc : L.Acc) {s t : State} (h : KernelFrame s t) (hm : t.mem = s.mem)
    (hc : t.chIdx = s.chIdx) (hp : t.sPtrAt i = s.sPtrAt i) : addStream L i acc t = addStream L i acc s := by
  simp only [addStream, h.sgainAt, hc, hp, State.readBytes, hm]

/-- The accumulator of a slot: the terms of the streams with nonzero gain, added in ascending stream order, all read from the
state at the slot's start (43_mix_kernels.md R191, R192). -/
theorem mixStreams_acc (L : Lane) : ∀ (n i : Nat) (acc : L.Acc) (s : State), i + n ≤ 32 →
    (mixStreams L n i acc s).1 = (List.range n).foldl (fun x k => addStream L (i + k) x s) acc := by
  intro n
  induction n with
  | zero => intro i acc s _; rfl
  | succ n ih =>
    intro i acc s hb
    rw [mixStreams, ih (i + 1) _ _ (by omega), List.range_succ_eq_map, List.foldl_cons, List.foldl_map, Nat.add_zero]
    congr 1
    funext x k
    have e : i + (k + 1) = i + 1 + k := by omega
    rw [Nat.succ_eq_add_one, e]
    refine addStream_congr L _ x (passStream_frame L i s) (passStream_mem L i s) (passStream_chIdx L i s) ?_
    rw [passStream_sPtrAt L i _ s (by omega), if_neg (by omega)]

/-- The end of a slot: what it writes, and which channel comes next. -/
theorem slotEnd_mem (L : Lane) (C n a : Nat) (acc : L.Acc) (u : State) :
    (nextChannel C (moveDest n (writeSample L a acc u))).mem = u.mem.store a (L.out (Config.quietNaN u.free) acc) := by
  simp only [nextChannel, moveDest, writeSample, State.writeBytes, State.setChIdx_mem, State.draw_mem, State.setDCur_mem,
    State.record_mem, State.setMem_mem]

theorem slotEnd_chIdx (L : Lane) (C n a : Nat) (acc : L.Acc) (u : State) :
    (nextChannel C (moveDest n (writeSample L a acc u))).chIdx =
      if C ≤ u.chIdx.toNat + 1 then 0 else BitVec.ofNat 6 (u.chIdx.toNat + 1) := by
  have h : (moveDest n (writeSample L a acc u)).chIdx = u.chIdx := by
    simp only [moveDest, writeSample, State.writeBytes, State.draw_chIdx, State.setDCur_chIdx, State.record_chIdx,
      State.setMem_chIdx]
  rw [nextChannel, State.setChIdx_chIdx, h]

theorem slotEnd_sPtr (L : Lane) (C n a : Nat) (acc : L.Acc) (u : State) :
    (nextChannel C (moveDest n (writeSample L a acc u))).sPtr = u.sPtr := by
  simp only [nextChannel, moveDest, writeSample, State.writeBytes, State.setChIdx_sPtr, State.draw_sPtr,
    State.setDCur_sPtr, State.record_sPtr, State.setMem_sPtr]

theorem slotEnd_accs (L : Lane) (C n a : Nat) (acc : L.Acc) (u : State) :
    (nextChannel C (moveDest n (writeSample L a acc u))).acc32 = u.acc32 ∧
    (nextChannel C (moveDest n (writeSample L a acc u))).acc64 = u.acc64 ∧
    (nextChannel C (moveDest n (writeSample L a acc u))).accF = u.accF := by
  simp [nextChannel, moveDest, writeSample, State.writeBytes]

theorem mixSlot_eq (L : Lane) (C NS a : Nat) (s : State) : mixSlot L C NS a s =
    nextChannel C (moveDest (a + L.width) (writeSample L a (mixStreams L NS 0 L.zero s).1
      (L.park (mixStreams L NS 0 L.zero s).1 (mixStreams L NS 0 L.zero s).2))) := rfl

theorem mixSlot_frame (L : Lane) (hL : L.Sound) (C NS a : Nat) (s : State) : KernelFrame s (mixSlot L C NS a s) := by
  rw [mixSlot_eq]
  exact ((((mixStreams_frame L NS 0 L.zero s).1.trans (hL.park_frame _ _)).trans (KernelFrame.writeSample ..)).trans
    (KernelFrame.moveDest ..)).trans (KernelFrame.nextChannel ..)

/-- One slot: what it writes is the encoding of the slot's accumulator, at the slot's address. -/
theorem mixSlot_mem (L : Lane) (hL : L.Sound) (C NS a : Nat) (s : State) : ∃ k,
    (mixSlot L C NS a s).mem = s.mem.store a (L.out (Config.quietNaN k) (mixStreams L NS 0 L.zero s).1) := by
  refine ⟨(L.park (mixStreams L NS 0 L.zero s).1 (mixStreams L NS 0 L.zero s).2).free, ?_⟩
  rw [mixSlot_eq, slotEnd_mem, hL.park_mem, (mixStreams_frame L NS 0 L.zero s).2.1]

theorem mixSlot_sPtr (L : Lane) (hL : L.Sound) (C NS a : Nat) (s : State) :
    (mixSlot L C NS a s).sPtr = (mixStreams L NS 0 L.zero s).2.sPtr := by
  rw [mixSlot_eq, slotEnd_sPtr, hL.park_sPtr]

theorem mixSlot_chIdx (L : Lane) (hL : L.Sound) (C NS a : Nat) (s : State) : (mixSlot L C NS a s).chIdx =
    if C ≤ s.chIdx.toNat + 1 then 0 else BitVec.ofNat 6 (s.chIdx.toNat + 1) := by
  rw [mixSlot_eq, slotEnd_chIdx, hL.park_chIdx, (mixStreams_frame L NS 0 L.zero s).2.2]

/-! ## A whole kernel call -/

theorem mixSlots_frame (L : Lane) (hL : L.Sound) (C NS : Nat) : ∀ (n a : Nat) (s : State),
    KernelFrame s (mixSlots L C NS n a s) := by
  intro n
  induction n with
  | zero => intro a s; exact KernelFrame.refl s
  | succ n ih => intro a s; exact (mixSlot_frame L hL C NS a s).trans (ih _ _)

/-- A kernel over `n` slots writes no byte outside its `n * W` bytes (43_mix_kernels.md R194). -/
theorem mixSlots_outside (L : Lane) (hL : L.Sound) (C NS : Nat) : ∀ (n a : Nat) (s : State) (y : Nat),
    (y < a ∨ a + n * L.width ≤ y) → (mixSlots L C NS n a s).mem.get y = s.mem.get y := by
  intro n
  induction n with
  | zero => intro a s y _; rfl
  | succ n ih =>
    intro a s y hy
    have hm : (n + 1) * L.width = n * L.width + L.width := Nat.succ_mul ..
    rw [mixSlots, ih _ _ _ (by omega)]
    obtain ⟨k, hk⟩ := mixSlot_mem L hL C NS a s
    rw [hk, Memory.get_store_outside _ _ _ _ (by rw [hL.out_length]; omega)]

theorem mixSlots_wf (L : Lane) (hL : L.Sound) (C NS : Nat) : ∀ (n a : Nat) (s : State), s.mem.wf = true →
    (mixSlots L C NS n a s).mem.wf = true := by
  intro n
  induction n with
  | zero => intro a s h; exact h
  | succ n ih =>
    intro a s h
    obtain ⟨k, hk⟩ := mixSlot_mem L hL C NS a s
    exact ih _ _ (by rw [hk]; exact Memory.wf_store _ _ _ h)

/-- The cursors of a kernel call over `n` slots each move by `n * W` (43_mix_kernels.md R194). -/
theorem mixSlots_sPtrAt (L : Lane) (hL : L.Sound) (C NS : Nat) (hNS : NS ≤ 32) : ∀ (n a : Nat) (s : State) (j : Nat),
    (j < NS → (s.sPtrAt j).toNat + n * L.width < 4294967296 →
      ((mixSlots L C NS n a s).sPtrAt j).toNat = (s.sPtrAt j).toNat + n * L.width) ∧
    (¬ j < NS → (mixSlots L C NS n a s).sPtrAt j = s.sPtrAt j) := by
  intro n
  induction n with
  | zero => intro a s j; exact ⟨fun _ _ => by simp [mixSlots], fun _ => rfl⟩
  | succ n ih =>
    intro a s j
    have hm : (n + 1) * L.width = n * L.width + L.width := Nat.succ_mul ..
    have hp : (mixSlot L C NS a s).sPtrAt j = (mixStreams L NS 0 L.zero s).2.sPtrAt j := by
      simp only [State.sPtrAt, mixSlot_sPtr L hL]
    obtain ⟨h1, h2⟩ := mixStreams_sPtrAt L NS 0 L.zero s (by omega) j
    obtain ⟨i1, i2⟩ := ih (a + L.width) (mixSlot L C NS a s) j
    rw [hp] at i1 i2
    rw [mixSlots]
    constructor
    · intro hj hlt
      have e := h1 (by omega) (by omega)
      rw [i1 hj (by omega), e]
      omega
    · intro hj
      rw [i2 hj, h2 (by omega)]

/-! ## The in-place kernels -/

/-- The product a slot of an in-place kernel writes. -/
def volTerm (L : Lane) (a : Nat) (s : State) : L.Acc := L.term (s.readBytes a L.width) (s.olinAt s.chIdx.toNat)

theorem volSlot_eq (L : Lane) (C a : Nat) (s : State) : volSlot L C a s =
    nextChannel C (moveDest (a + L.width) (writeSample L a (volTerm L a s) (s.readEvent a L.width))) := rfl

theorem volSlot_frame (L : Lane) (C a : Nat) (s : State) : KernelFrame s (volSlot L C a s) := by
  rw [volSlot_eq]
  exact (((KernelFrame.readEvent ..).trans (KernelFrame.writeSample ..)).trans (KernelFrame.moveDest ..)).trans
    (KernelFrame.nextChannel ..)

theorem volSlot_mem (L : Lane) (C a : Nat) (s : State) :
    (volSlot L C a s).mem = s.mem.store a (L.out (Config.quietNaN s.free) (volTerm L a s)) := by
  rw [volSlot_eq, slotEnd_mem]; rfl

theorem volSlot_chIdx (L : Lane) (C a : Nat) (s : State) : (volSlot L C a s).chIdx =
    if C ≤ s.chIdx.toNat + 1 then 0 else BitVec.ofNat 6 (s.chIdx.toNat + 1) := by
  rw [volSlot_eq, slotEnd_chIdx]; rfl

theorem volSlot_rest (L : Lane) (C a : Nat) (s : State) : (volSlot L C a s).sPtr = s.sPtr ∧
    (volSlot L C a s).acc32 = s.acc32 ∧ (volSlot L C a s).acc64 = s.acc64 ∧ (volSlot L C a s).accF = s.accF :=
  ⟨by rw [volSlot_eq, slotEnd_sPtr]; rfl, by rw [volSlot_eq, (slotEnd_accs ..).1]; rfl,
    by rw [volSlot_eq, (slotEnd_accs ..).2.1]; rfl, by rw [volSlot_eq, (slotEnd_accs ..).2.2]; rfl⟩

theorem volSlots_frame (L : Lane) (C : Nat) : ∀ (n a : Nat) (s : State), KernelFrame s (volSlots L C n a s) := by
  intro n
  induction n with
  | zero => intro a s; exact KernelFrame.refl s
  | succ n ih => intro a s; exact (volSlot_frame L C a s).trans (ih _ _)

/-- The in-place kernels leave the stream cursors and the accumulators alone. -/
theorem volSlots_sPtr (L : Lane) (C : Nat) : ∀ (n a : Nat) (s : State),
    (volSlots L C n a s).sPtr = s.sPtr ∧ (volSlots L C n a s).acc32 = s.acc32 ∧ (volSlots L C n a s).acc64 = s.acc64 ∧
      (volSlots L C n a s).accF = s.accF := by
  intro n
  induction n with
  | zero => intro a s; exact ⟨rfl, rfl, rfl, rfl⟩
  | succ n ih =>
    intro a s
    obtain ⟨h1, h2, h3, h4⟩ := ih (a + L.width) (volSlot L C a s)
    obtain ⟨k1, k2, k3, k4⟩ := volSlot_rest L C a s
    rw [volSlots]
    exact ⟨h1.trans k1, h2.trans k2, h3.trans k3, h4.trans k4⟩

/-- An in-place kernel over `n` slots writes no byte outside its `n * W` bytes (46_volume.md R245). -/
theorem volSlots_outside (L : Lane) (hL : L.Sound) (C : Nat) : ∀ (n a : Nat) (s : State) (y : Nat),
    (y < a ∨ a + n * L.width ≤ y) → (volSlots L C n a s).mem.get y = s.mem.get y := by
  intro n
  induction n with
  | zero => intro a s y _; rfl
  | succ n ih =>
    intro a s y hy
    have hm : (n + 1) * L.width = n * L.width + L.width := Nat.succ_mul ..
    rw [volSlots, ih _ _ _ (by omega), volSlot_mem,
      Memory.get_store_outside _ _ _ _ (by rw [hL.out_length]; omega)]

theorem volSlots_wf (L : Lane) (C : Nat) : ∀ (n a : Nat) (s : State), s.mem.wf = true →
    (volSlots L C n a s).mem.wf = true := by
  intro n
  induction n with
  | zero => intro a s h; exact h
  | succ n ih => intro a s h; exact ih _ _ (by rw [volSlot_mem]; exact Memory.wf_store _ _ _ h)

/-! ## The accumulators of the other groups -/

/-- A field that neither a stream's pass, nor parking, nor the end of a slot changes, a kernel does not change. -/
theorem mixSlots_keeps {α : Type} (L : Lane) (f : State → α) (hpass : ∀ i s, f (passStream L i s) = f s)
    (hpark : ∀ x s, f (L.park x s) = f s)
    (hend : ∀ C n a acc u, f (nextChannel C (moveDest n (writeSample L a acc u))) = f u) (C NS : Nat) :
    ∀ (n a : Nat) (s : State), f (mixSlots L C NS n a s) = f s := by
  have hs : ∀ (n i : Nat) (acc : L.Acc) (s : State), f (mixStreams L n i acc s).2 = f s := by
    intro n
    induction n with
    | zero => intro i acc s; rfl
    | succ n ih => intro i acc s; exact (ih _ _ _).trans (hpass i s)
  intro n
  induction n with
  | zero => intro a s; rfl
  | succ n ih => intro a s; rw [mixSlots, ih, mixSlot_eq, hend, hpark, hs]

theorem passStream_accs (L : Lane) (i : Nat) (s : State) :
    (passStream L i s).acc32 = s.acc32 ∧ (passStream L i s).acc64 = s.acc64 ∧ (passStream L i s).accF = s.accF := by
  unfold passStream; split <;> exact ⟨rfl, rfl, rfl⟩

/-- A kernel changes the accumulator of its own group only (10_state.md R37). -/
theorem mixSlots_accs (P : Config.Ports) (K : Fmt) (C NS n a : Nat) (s : State) :
    (group K = .g64 ∨ group K = .gf → (mixSlots (laneOf P K) C NS n a s).acc32 = s.acc32) ∧
    (group K ≠ .g64 → (mixSlots (laneOf P K) C NS n a s).acc64 = s.acc64) ∧
    (group K ≠ .gf → (mixSlots (laneOf P K) C NS n a s).accF = s.accF) := by
  refine ⟨fun h => ?_, fun h => ?_, fun h => ?_⟩
  · refine mixSlots_keeps _ State.acc32 (fun i s => (passStream_accs _ i s).1) (fun x s => ?_)
      (fun C n a acc u => (slotEnd_accs _ C n a acc u).1) C NS n a s
    cases K <;> first | rfl | (rcases h with h | h <;> cases h)
  · refine mixSlots_keeps _ State.acc64 (fun i s => (passStream_accs _ i s).2.1) (fun x s => ?_)
      (fun C n a acc u => (slotEnd_accs _ C n a acc u).2.1) C NS n a s
    cases K <;> first | rfl | exact absurd rfl h
  · refine mixSlots_keeps _ State.accF (fun i s => (passStream_accs _ i s).2.2) (fun x s => ?_)
      (fun C n a acc u => (slotEnd_accs _ C n a acc u).2.2) C NS n a s
    cases K <;> first | rfl | exact absurd rfl h

/-! ## Kernel ids -/

theorem kernelOf_default (e : Endian) (F : Fmt) : kernelOf e (elem 0 (Config.defaultKtab e) F.tag) = some F := by
  cases e <;> cases F <;> rfl

theorem kernelOf_of_valid (e : Endian) (k : BitVec 8) (h : validKernel k = true) : (kernelOf e k).isSome = true := by
  have hk : k.toNat ≤ 12 := by simpa [validKernel, Config.extKernel] using h
  unfold kernelOf
  generalize k.toNat = n at hk
  interval_cases n <;> rfl

end Sys2Proof.Machine
end

