-- ==== Sys2Proof/Laws/Command.lean ====
section
/-! SUPPORT. The commands, said once: every constructor is one of four families over a format, what `exec` is for each, and
the ways each family can end. -/

namespace Sys2Proof.Machine

/-! ## The four families -/

/-- Every command is MIX, VOL, GETK or SETK of a format (30_encoding.md R102). -/
theorem instr_cases (i : Instr) : (∃ F ch ns m h, i = mixOf F ch ns m h) ∨ (∃ F ch z, i = volOf F ch z) ∨
    (∃ F, i = getkOf F) ∨ ∃ F, i = setkOf F := by
  cases i
  case mixU8 ch ns m h => exact .inl ⟨.u8, ch, ns, m, h, rfl⟩
  case mixALaw ch ns m h => exact .inl ⟨.alaw, ch, ns, m, h, rfl⟩
  case mixULaw ch ns m h => exact .inl ⟨.ulaw, ch, ns, m, h, rfl⟩
  case mixS16LE ch ns m h => exact .inl ⟨.s16le, ch, ns, m, h, rfl⟩
  case mixS16BE ch ns m h => exact .inl ⟨.s16be, ch, ns, m, h, rfl⟩
  case mixS32LE ch ns m h => exact .inl ⟨.s32le, ch, ns, m, h, rfl⟩
  case mixS32BE ch ns m h => exact .inl ⟨.s32be, ch, ns, m, h, rfl⟩
  case mixS24LE ch ns m h => exact .inl ⟨.s24le, ch, ns, m, h, rfl⟩
  case mixS24BE ch ns m h => exact .inl ⟨.s24be, ch, ns, m, h, rfl⟩
  case mixS2432LE ch ns m h => exact .inl ⟨.s2432le, ch, ns, m, h, rfl⟩
  case mixS2432BE ch ns m h => exact .inl ⟨.s2432be, ch, ns, m, h, rfl⟩
  case mixF32LE ch ns m h => exact .inl ⟨.f32le, ch, ns, m, h, rfl⟩
  case mixF32BE ch ns m h => exact .inl ⟨.f32be, ch, ns, m, h, rfl⟩
  case volU8 ch z => exact .inr (.inl ⟨.u8, ch, z, rfl⟩)
  case volALaw ch z => exact .inr (.inl ⟨.alaw, ch, z, rfl⟩)
  case volULaw ch z => exact .inr (.inl ⟨.ulaw, ch, z, rfl⟩)
  case volS16LE ch z => exact .inr (.inl ⟨.s16le, ch, z, rfl⟩)
  case volS16BE ch z => exact .inr (.inl ⟨.s16be, ch, z, rfl⟩)
  case volS32LE ch z => exact .inr (.inl ⟨.s32le, ch, z, rfl⟩)
  case volS32BE ch z => exact .inr (.inl ⟨.s32be, ch, z, rfl⟩)
  case volS24LE ch z => exact .inr (.inl ⟨.s24le, ch, z, rfl⟩)
  case volS24BE ch z => exact .inr (.inl ⟨.s24be, ch, z, rfl⟩)
  case volS2432LE ch z => exact .inr (.inl ⟨.s2432le, ch, z, rfl⟩)
  case volS2432BE ch z => exact .inr (.inl ⟨.s2432be, ch, z, rfl⟩)
  case volF32LE ch z => exact .inr (.inl ⟨.f32le, ch, z, rfl⟩)
  case volF32BE ch z => exact .inr (.inl ⟨.f32be, ch, z, rfl⟩)
  case getkU8 => exact .inr (.inr (.inl ⟨.u8, rfl⟩))
  case getkALaw => exact .inr (.inr (.inl ⟨.alaw, rfl⟩))
  case getkULaw => exact .inr (.inr (.inl ⟨.ulaw, rfl⟩))
  case getkS16LE => exact .inr (.inr (.inl ⟨.s16le, rfl⟩))
  case getkS16BE => exact .inr (.inr (.inl ⟨.s16be, rfl⟩))
  case getkS32LE => exact .inr (.inr (.inl ⟨.s32le, rfl⟩))
  case getkS32BE => exact .inr (.inr (.inl ⟨.s32be, rfl⟩))
  case getkS24LE => exact .inr (.inr (.inl ⟨.s24le, rfl⟩))
  case getkS24BE => exact .inr (.inr (.inl ⟨.s24be, rfl⟩))
  case getkS2432LE => exact .inr (.inr (.inl ⟨.s2432le, rfl⟩))
  case getkS2432BE => exact .inr (.inr (.inl ⟨.s2432be, rfl⟩))
  case getkF32LE => exact .inr (.inr (.inl ⟨.f32le, rfl⟩))
  case getkF32BE => exact .inr (.inr (.inl ⟨.f32be, rfl⟩))
  case setkU8 => exact .inr (.inr (.inr ⟨.u8, rfl⟩))
  case setkALaw => exact .inr (.inr (.inr ⟨.alaw, rfl⟩))
  case setkULaw => exact .inr (.inr (.inr ⟨.ulaw, rfl⟩))
  case setkS16LE => exact .inr (.inr (.inr ⟨.s16le, rfl⟩))
  case setkS16BE => exact .inr (.inr (.inr ⟨.s16be, rfl⟩))
  case setkS32LE => exact .inr (.inr (.inr ⟨.s32le, rfl⟩))
  case setkS32BE => exact .inr (.inr (.inr ⟨.s32be, rfl⟩))
  case setkS24LE => exact .inr (.inr (.inr ⟨.s24le, rfl⟩))
  case setkS24BE => exact .inr (.inr (.inr ⟨.s24be, rfl⟩))
  case setkS2432LE => exact .inr (.inr (.inr ⟨.s2432le, rfl⟩))
  case setkS2432BE => exact .inr (.inr (.inr ⟨.s2432be, rfl⟩))
  case setkF32LE => exact .inr (.inr (.inr ⟨.f32le, rfl⟩))
  case setkF32BE => exact .inr (.inr (.inr ⟨.f32be, rfl⟩))

theorem exec_mixOf (F : Fmt) (ch ns : Nat) (m h : Bool) (s : State) :
    exec (mixOf F ch ns m h) s = mixCommand Config.ports F ch ns m h s := by cases F <;> rfl

theorem exec_volOf (F : Fmt) (ch : Nat) (z : Bool) (s : State) :
    exec (volOf F ch z) s = volCommand Config.ports F ch z s := by cases F <;> rfl

theorem exec_getkOf (F : Fmt) (s : State) : exec (getkOf F) s = .next (getkCommand F s) := by cases F <;> rfl

theorem exec_setkOf (F : Fmt) (s : State) : exec (setkOf F) s = .next (setkCommand F s) := by cases F <;> rfl

/-! ## How a MIX ends -/

/-- The five ways the lines of a MIX end (45_mix_command.md R221). -/
theorem mixCommand_cases (P : Config.Ports) (F : Fmt) (C NS : Nat) (m h : Bool) (s : State) :
    (∃ c, validate F C NS s = some c ∧ mixCommand P F C NS m h s = .next (takeFault c noStream 0 s)) ∨
    (validate F C NS s = none ∧ mixSilent C NS m h s = true ∧ mixCommand P F C NS m h s = .next (mixSilence F s)) ∨
    (validate F C NS s = none ∧ mixSilent C NS m h s = false ∧ ∃ i, misalignedStream F C NS s = some i ∧
      mixCommand P F C NS m h s = .next (takeFault .streamAlign i 0 s)) ∨
    (validate F C NS s = none ∧ mixSilent C NS m h s = false ∧ misalignedStream F C NS s = none ∧
      ∃ t, mixPrepare P F C NS h s = .halt t ∧ mixCommand P F C NS m h s = .next t) ∨
    (validate F C NS s = none ∧ mixSilent C NS m h s = false ∧ misalignedStream F C NS s = none ∧
      ∃ u, mixPrepare P F C NS h s = .on u ∧ mixCommand P F C NS m h s = mixDispatch P F C NS u) := by
  unfold mixCommand
  cases hv : validate F C NS s with
  | some c => exact .inl ⟨c, rfl, rfl⟩
  | none =>
    cases hs : mixSilent C NS m h s with
    | true => exact .inr (.inl ⟨rfl, rfl, rfl⟩)
    | false =>
      refine .inr (.inr ?_)
      simp only [mixStreamsPath, Bool.false_eq_true, if_false]
      cases ha : misalignedStream F C NS s with
      | some i => exact .inl ⟨trivial, trivial, i, rfl, rfl⟩
      | none =>
        cases hp : mixPrepare P F C NS h s with
        | halt t => exact .inr (.inl ⟨trivial, trivial, rfl, t, rfl, rfl⟩)
        | on u => exact .inr (.inr ⟨trivial, trivial, rfl, u, rfl, rfl⟩)

/-- The three ways the dispatch of a MIX ends (44_dispatch.md R214 to R216; 45_mix_command.md R227). -/
theorem mixDispatch_cases (P : Config.Ports) (F : Fmt) (C NS : Nat) (s : State) :
    (kernelOf Config.nativeEndian (s.ktabAt F) = none ∧
      mixDispatch P F C NS s = .refused (.kernelNotBuiltIn (s.ktabAt F))) ∨
    (∃ K, kernelOf Config.nativeEndian (s.ktabAt F) = some K ∧ s.effLen.toNat % width K ≠ 0 ∧
      mixDispatch P F C NS s = .refused (.kernelWidthMisfit (s.ktabAt F) s.effLen.toNat)) ∨
    (∃ K, kernelOf Config.nativeEndian (s.ktabAt F) = some K ∧ s.effLen.toNat % width K = 0 ∧
      mixDispatch P F C NS s = .next ((releaseAll NS 0
        (runMixKernel (laneOf P K) C NS s.dst.toNat s.effLen.toNat s)).setRet s.effLen).complete) := by
  unfold mixDispatch
  cases hk : kernelOf Config.nativeEndian (s.ktabAt F) with
  | none => exact .inl ⟨rfl, rfl⟩
  | some K =>
    refine .inr ?_
    by_cases hw : s.effLen.toNat % width K = 0
    · exact .inr ⟨K, rfl, hw, if_pos hw⟩
    · exact .inl ⟨K, rfl, hw, if_neg hw⟩

/-- What the lines of a MIX before its kernel can change. -/
structure PrepareFrame (s u : State) : Prop where
  cmd : u.cmd = s.cmd
  seq : u.seq = s.seq
  gfault : u.gfault = s.gfault
  fcode : u.fcode = s.fcode
  finfo : u.finfo = s.finfo
  dst : u.dst = s.dst
  len : u.len = s.len
  ret : u.ret = s.ret
  karg : u.karg = s.karg
  ovol : u.ovol = s.ovol
  sChunk : u.sChunk = s.sChunk
  sAvail : u.sAvail = s.sAvail
  sVol : u.sVol = s.sVol
  dCur : u.dCur = s.dCur
  dEnd : u.dEnd = s.dEnd
  chIdx : u.chIdx = s.chIdx
  acc32 : u.acc32 = s.acc32
  acc64 : u.acc64 = s.acc64
  accF : u.accF = s.accF
  ktab : u.ktab = s.ktab
  mem : u.mem = s.mem
  host : u.host = s.host
  reads : u.reads = s.reads
  hist : ∃ l : List (Word × Word), u.hist = s.hist ++ l.map fun e => .acquire e.1 e.2

/-- The lines of a MIX before its kernel: they go on or stop with one of three faults taken. -/
theorem mixPrepare_shape (P : Config.Ports) (F : Fmt) (C NS : Nat) (h : Bool) (s : State) : ∃ u, PrepareFrame s u ∧
    ((mixPrepare P F C NS h s = .on u ∧ u.effLen = BitVec.ofNat 32 (effectiveLength NS s)) ∨
      ∃ c i k, (c = .null ∨ c = .addrWrap ∨ c = .gainRange) ∧
        mixPrepare P F C NS h s = .halt (takeFault c i k u)) := by
  unfold mixPrepare
  obtain ⟨p, ans, fr, l, h1 | ⟨c, k, hc, h1⟩⟩ := acquireAll_shape NS 0 s
  · rw [h1, Progress.andThen_on]
    generalize hs1 : ({ s with
      sPtr := p
      answers := ans
      free := fr
      hist := s.hist ++ l.map fun e => .acquire e.1 e.2 } : State) = s1
    have f1 : PrepareFrame s s1 := by
      subst hs1
      constructor <;> first | rfl | exact ⟨l, rfl⟩
    have f2 : PrepareFrame s (s1.setEffLen (BitVec.ofNat 32 (effectiveLength NS s))) := by
      obtain ⟨⟩ := f1
      constructor <;> assumption
    have e2 : (s1.setEffLen (BitVec.ofNat 32 (effectiveLength NS s))).effLen = BitVec.ofNat 32 (effectiveLength NS s) := rfl
    generalize s1.setEffLen (BitVec.ofNat 32 (effectiveLength NS s)) = s2 at f2 e2 ⊢
    obtain ⟨o, h2 | ⟨k, h2⟩⟩ := linearize_shape P .flt (outVol h s) C s2
    · rw [h2, Progress.andThen_on]
      have f3 : PrepareFrame s { s2 with olin := o } := by
        obtain ⟨⟩ := f2
        constructor <;> assumption
      have e3 : ({ s2 with olin := o } : State).effLen = BitVec.ofNat 32 (effectiveLength NS s) := e2
      generalize ({ s2 with olin := o } : State) = s3 at f3 e3 ⊢
      obtain ⟨v, h3 | ⟨j, k, h3⟩⟩ := gainStreams_shape P (gainRepr F) C NS 0 s3
      · refine ⟨{ s3 with sgain := v }, ?_, .inl ⟨h3, e3⟩⟩
        obtain ⟨⟩ := f3
        constructor <;> assumption
      · refine ⟨{ s3 with sgain := v }, ?_, .inr ⟨.gainRange, j, k, .inr (.inr rfl), h3⟩⟩
        obtain ⟨⟩ := f3
        constructor <;> assumption
    · refine ⟨{ s2 with olin := o }, ?_, .inr ⟨.gainRange, noStream, k, .inr (.inr rfl), by rw [h2, Progress.andThen_halt]⟩⟩
      obtain ⟨⟩ := f2
      constructor <;> assumption
  · rw [h1, Progress.andThen_halt]
    refine ⟨{ s with sPtr := p, answers := ans, free := fr, hist := s.hist ++ l.map fun e => .acquire e.1 e.2 }, ?_,
      .inr ⟨c, k, 0, by tauto, rfl⟩⟩
    constructor <;> first | rfl | exact ⟨l, rfl⟩

/-! ## How a VOL ends -/

/-- The five ways the lines of a VOL end (46_volume.md R241). -/
theorem volCommand_cases (P : Config.Ports) (F : Fmt) (C : Nat) (z : Bool) (s : State) :
    (∃ c, validate F C 0 s = some c ∧ volCommand P F C z s = .next (takeFault c noStream 0 s)) ∨
    (validate F C 0 s = none ∧ volNoop C z s = true ∧ volCommand P F C z s = .next s.complete) ∨
    (validate F C 0 s = none ∧ volNoop C z s = false ∧ volMuted C s = true ∧
      volCommand P F C z s = .next (fillSilence F s).complete) ∨
    (validate F C 0 s = none ∧ volNoop C z s = false ∧ volMuted C s = false ∧
      volCommand P F C z s = .next (volKernelPath P F C s)) := by
  unfold volCommand
  cases hv : validate F C 0 s with
  | some c => exact .inl ⟨c, rfl, rfl⟩
  | none =>
    cases hz : volNoop C z s with
    | true => exact .inr (.inl ⟨rfl, rfl, rfl⟩)
    | false =>
      cases hm : volMuted C s with
      | true => exact .inr (.inr (.inl ⟨rfl, rfl, rfl, rfl⟩))
      | false => exact .inr (.inr (.inr ⟨rfl, rfl, rfl, rfl⟩))

/-- The two ways the kernel path of a VOL ends: F_GAIN_RANGE, or the in-place kernel over the whole buffer. -/
theorem volKernelPath_cases (P : Config.Ports) (F : Fmt) (C : Nat) (s : State) : ∃ o,
    (∃ k, volKernelPath P F C s = takeFault .gainRange noStream k { s with olin := o }) ∨
    volKernelPath P F C s =
      (runVolKernel (laneOf P F) C s.dst.toNat s.len.toNat { s with olin := o }).complete := by
  unfold volKernelPath
  obtain ⟨o, h | ⟨k, h⟩⟩ := linearize_shape P (gainRepr F) s.ovolAt C s
  · exact ⟨o, .inr (by rw [h])⟩
  · exact ⟨o, .inl ⟨k, by rw [h]⟩⟩

end Sys2Proof.Machine
end

