-- ==== Sys2Proof/Laws/Float.lean ====
section
/-! SUPPORT. Rounding: what the encoding of an exact datum is, in the terms of Safety.lean (00_scope.md R11). -/

namespace Sys2Proof.Machine

/-! ## Rounding to an integer -/

/-- The nearest integer to `x`, ties to even. -/
def IntNearest (r : Nat) (x : ℚ) : Prop := |(r : ℚ) - x| ≤ 1 / 2 ∧ (|(r : ℚ) - x| = 1 / 2 → r % 2 = 0)

theorem roundShift_nearest (m k : Nat) : IntNearest (roundShift m k) ((m : ℚ) / 2 ^ k) := by
  have hp : (0 : ℚ) < 2 ^ k := by positivity
  have hm : (m : ℚ) = 2 ^ k * (m / 2 ^ k : Nat) + (m % 2 ^ k : Nat) := by
    exact_mod_cast (Nat.div_add_mod m (2 ^ k)).symm
  have hr : (m : ℚ) / 2 ^ k = (m / 2 ^ k : Nat) + (m % 2 ^ k : Nat) / 2 ^ k := by
    rw [hm]
    field_simp
  generalize hq : m / 2 ^ k = q at *
  generalize hs : m % 2 ^ k = s at *
  have h0 : (0 : ℚ) ≤ s / 2 ^ k := by positivity
  unfold roundShift IntNearest
  rw [hr, hq, hs]
  dsimp only
  split
  · next h =>
    have h2 : (s : ℚ) / 2 ^ k < 1 / 2 := by
      rw [div_lt_div_iff₀ hp (by norm_num)]
      have : (2 * s : ℚ) < 2 ^ k := by exact_mod_cast h
      linarith
    rw [show (q : ℚ) - (q + s / 2 ^ k) = -(s / 2 ^ k) by ring, abs_neg, abs_of_nonneg h0]
    exact ⟨h2.le, fun e => absurd e h2.ne⟩
  · next h =>
    split
    · next h' =>
      have h1 : (1 / 2 : ℚ) < s / 2 ^ k := by
        rw [div_lt_div_iff₀ (by norm_num) hp]
        have : (2 ^ k : ℚ) < 2 * s := by exact_mod_cast h'
        linarith
      have h2 : (s : ℚ) / 2 ^ k < 1 := by
        rw [div_lt_one hp]
        exact_mod_cast hs ▸ Nat.mod_lt m (by positivity)
      push_cast
      rw [show (q : ℚ) + 1 - (q + s / 2 ^ k) = 1 - s / 2 ^ k by ring, abs_of_nonneg (by linarith)]
      exact ⟨by linarith, fun e => by linarith⟩
    · next h' =>
      have h1 : (s : ℚ) / 2 ^ k = 1 / 2 := by
        rw [div_eq_div_iff hp.ne' (by norm_num)]
        have : 2 * s = 2 ^ k := by omega
        have : (2 * s : ℚ) = 2 ^ k := by exact_mod_cast this
        linarith
      rw [h1]
      rcases Nat.mod_two_eq_zero_or_one q with e | e
      · rw [e, Nat.add_zero, show (q : ℚ) - (q + 1 / 2) = -(1 / 2) by ring, abs_neg]
        norm_num [e]
      · rw [e]
        push_cast
        rw [show (q : ℚ) + 1 - (q + 1 / 2) = 1 / 2 by ring]
        norm_num
        omega

theorem roundScale_nearest (m : Nat) (e : Int) : IntNearest (roundScale m e) ((m : ℚ) * 2 ^ e) := by
  unfold roundScale
  split
  · next h =>
    obtain ⟨n, rfl⟩ := Int.eq_ofNat_of_zero_le h
    have : ((m * 2 ^ (Int.toNat n) : Nat) : ℚ) - m * 2 ^ (n : ℤ) = 0 := by push_cast; rw [Int.toNat_natCast, zpow_natCast]; ring
    rw [IntNearest, this]
    norm_num
  · next h =>
    obtain ⟨n, hn⟩ := Int.eq_ofNat_of_zero_le (show (0 : ℤ) ≤ -e by omega)
    obtain rfl : e = -n := by omega
    simpa [div_eq_mul_inv] using roundShift_nearest m n

/-- No integer is nearer, and an equally near one comes only with an even result. -/
theorem IntNearest.le {r : Nat} {x : ℚ} (h : IntNearest r x) (n : ℤ) :
    |(r : ℚ) - x| ≤ |(n : ℚ) - x| ∧ (|(r : ℚ) - x| = |(n : ℚ) - x| → n ≠ r → r % 2 = 0) := by
  by_cases e : n = r
  · subst e
    exact ⟨by simp, fun _ k => absurd rfl k⟩
  · have h1 : (1 : ℚ) ≤ |(n : ℚ) - r| := by
      have : (1 : ℤ) ≤ |n - r| := Int.one_le_abs (sub_ne_zero.2 e)
      exact_mod_cast this
    have h2 : |(n : ℚ) - r| ≤ |(n : ℚ) - x| + |(r : ℚ) - x| := by
      rw [show (n : ℚ) - r = (n - x) - (r - x) by ring]
      exact abs_sub _ _
    obtain ⟨h3, h4⟩ := h
    exact ⟨by linarith, fun k _ => h4 (by linarith)⟩

/-! ## The encoding of a magnitude -/

/-- The scale of the `k`-th binade. -/
def scaleAt (eb fb k : Nat) : ℚ := 2 ^ (minExp eb fb + k)

theorem scaleAt_pos (eb fb k : Nat) : 0 < scaleAt eb fb k := by unfold scaleAt; positivity

theorem scaleAt_succ (eb fb k : Nat) : scaleAt eb fb (k + 1) = 2 * scaleAt eb fb k := by
  unfold scaleAt
  rw [show minExp eb fb + ((k + 1 : Nat) : ℤ) = (minExp eb fb + k) + 1 by push_cast; ring, zpow_add_one₀ (by norm_num)]
  ring

theorem scaleAt_mono (eb fb : Nat) {j k : Nat} (h : j ≤ k) : scaleAt eb fb j ≤ scaleAt eb fb k := by
  unfold scaleAt
  exact zpow_le_zpow_right₀ (by norm_num) (by omega)

/-- A scale is a power of two times a lower one. -/
theorem scaleAt_add (eb fb k d : Nat) : scaleAt eb fb (k + d) = (2 ^ d : Nat) * scaleAt eb fb k := by
  unfold scaleAt
  rw [show minExp eb fb + ((k + d : Nat) : ℤ) = d + (minExp eb fb + k) by push_cast; ring, zpow_add₀ (by norm_num), zpow_natCast]
  push_cast
  rfl

/-- The magnitude of an encoding is its significand at its scale. -/
theorem encMag_eq (eb fb u : Nat) : ∃ k r : Nat, u % 2 ^ (eb + fb) = k * 2 ^ fb + r ∧ r < 2 ^ (fb + 1) ∧
    (k = 0 ∨ 2 ^ fb ≤ r) ∧ encMag eb fb u = r * scaleAt eb fb k := by
  have hsplit : u % 2 ^ (eb + fb) = encExp eb fb u * 2 ^ fb + u % 2 ^ fb := by
    rw [Nat.add_comm eb fb, Nat.pow_add, Nat.mod_mul, encExp]
    ring
  have hf : u % 2 ^ fb < 2 ^ fb := Nat.mod_lt _ (by positivity)
  have h2 : 2 ^ (fb + 1) = 2 * 2 ^ fb := by ring
  unfold encMag
  split
  · next h =>
    refine ⟨0, u % 2 ^ fb, by rw [hsplit, h], by omega, .inl rfl, ?_⟩
    simp [scaleAt, minExp]
  · next h =>
    refine ⟨encExp eb fb u - 1, 2 ^ fb + u % 2 ^ fb, ?_, by omega, .inr (by omega), ?_⟩
    · rw [hsplit]
      obtain ⟨k, hk⟩ := Nat.exists_eq_succ_of_ne_zero h
      rw [hk, Nat.succ_sub_one, Nat.succ_mul, Nat.add_assoc]
    · rw [scaleAt]
      congr 2
      simp only [minExp]
      omega

/-- A significand at a scale, encoded, also where it carries into the next binade. -/
theorem encMag_of {eb fb k r u : Nat} (hr : r ≤ 2 ^ (fb + 1)) (hk : k = 0 ∨ 2 ^ fb ≤ r) (hu : u % 2 ^ (eb + fb) = k * 2 ^ fb + r) :
    encMag eb fb u = r * scaleAt eb fb k := by
  have h2 : 2 ^ (fb + 1) = 2 * 2 ^ fb := by ring
  have hp : 0 < 2 ^ fb := by positivity
  obtain ⟨k', r', e, hr', hk', hm⟩ := encMag_eq eb fb u
  rw [hm]
  rw [hu] at e
  have same : ∀ {k k' r r' : Nat}, r < 2 ^ (fb + 1) → r' < 2 ^ (fb + 1) → (k = 0 ∨ 2 ^ fb ≤ r) → (k' = 0 ∨ 2 ^ fb ≤ r') →
      k * 2 ^ fb + r = k' * 2 ^ fb + r' → k = k' ∧ r = r' := by
    intro k k' r r' h1 h1' h3 h3' e
    rcases Nat.lt_trichotomy k k' with h | h | h
    · obtain ⟨d, rfl⟩ : ∃ d, k' = k + 1 + d := ⟨k' - k - 1, by omega⟩
      have : (k + 1 + d) * 2 ^ fb = k * 2 ^ fb + 2 ^ fb + d * 2 ^ fb := by ring
      omega
    · subst h; exact ⟨rfl, by omega⟩
    · obtain ⟨d, rfl⟩ : ∃ d, k = k' + 1 + d := ⟨k - k' - 1, by omega⟩
      have : (k' + 1 + d) * 2 ^ fb = k' * 2 ^ fb + 2 ^ fb + d * 2 ^ fb := by ring
      omega
  rcases Nat.lt_or_ge r (2 ^ (fb + 1)) with h | h
  · obtain ⟨rfl, rfl⟩ := same h hr' hk hk' e
    rfl
  · obtain rfl : r = 2 ^ (fb + 1) := by omega
    obtain ⟨rfl, rfl⟩ := same (k := k + 1) (r := 2 ^ fb) (by omega) hr' (.inr (Nat.le_refl _)) hk' (by rw [← e]; ring)
    rw [scaleAt_succ]
    push_cast
    ring

/-! ## Rounding a magnitude -/

/-- The overflow bound, at the scale of the highest binade of finite data. -/
theorem overflowAt_eq (eb fb : Nat) (he : 2 ≤ eb) :
    overflowAt eb fb = (2 ^ (fb + 1) - 1 / 2) * scaleAt eb fb (2 ^ eb - 3) := by
  obtain ⟨n, rfl⟩ : ∃ n, eb = n + 2 := ⟨eb - 2, by omega⟩
  have h4 : 4 ≤ 2 ^ (n + 2) := le_trans (by norm_num) (Nat.pow_le_pow_right (by norm_num) he)
  have hz : ((2 ^ (n + 2) - 3 : Nat) : ℤ) = 2 * 2 ^ (n + 1) - 3 := by
    rw [Nat.cast_sub (by omega)]
    push_cast
    ring
  unfold overflowAt scaleAt minExp
  rw [hz]
  simp only [show n + 2 - 1 = n + 1 by omega]
  generalize (2 : ℤ) ^ (n + 1) = A
  rw [show (2 - A - fb + (2 * A - 3) : ℤ) = A - fb - 1 by ring, sub_mul]
  congr 1
  · rw [← zpow_natCast, ← zpow_add₀ (by norm_num)]
    congr 1
    push_cast
    ring
  · rw [show (1 / 2 : ℚ) = 2 ^ (-1 : ℤ) by norm_num, ← zpow_add₀ (by norm_num)]
    congr 1
    ring

/-- What rounding a positive magnitude gives: its binade, its integer significand there, and their encoding. -/
theorem magBits_spec (eb fb m : Nat) (e : Int) (hm : 0 < m) : ∃ k r : Nat, ∃ X : ℚ,
    magBits eb fb m e = min (k * 2 ^ fb + r) ((2 ^ eb - 1) * 2 ^ fb) ∧ IntNearest r X ∧ (m : ℚ) * 2 ^ e = X * scaleAt eb fb k ∧
      0 ≤ X ∧ X < 2 ^ (fb + 1) ∧ (k = 0 ∨ 2 ^ fb ≤ X) ∧
      (minExp eb fb ≤ e → m < 2 ^ (fb + 1) → (r : ℚ) = X) := by
  have hl1 : 2 ^ Nat.log2 m ≤ m := Nat.log2_self_le hm.ne'
  have hl2 : m < 2 ^ (Nat.log2 m + 1) := Nat.lt_log2_self
  have q1 : (2 : ℚ) ^ (Nat.log2 m : ℤ) ≤ m := by rw [zpow_natCast]; exact_mod_cast hl1
  have q2 : (m : ℚ) < 2 ^ (Nat.log2 m + 1 : ℤ) := by
    have : (m : ℚ) < 2 ^ (Nat.log2 m + 1) := by exact_mod_cast hl2
    exact_mod_cast this
  generalize hL : max (minExp eb fb) (e + Nat.log2 m - fb) = L
  have hL1 : minExp eb fb ≤ L := by omega
  have hL2 : e + Nat.log2 m - fb ≤ L := by omega
  have hk : minExp eb fb + ((L - minExp eb fb).toNat : ℤ) = L := by omega
  refine ⟨(L - minExp eb fb).toNat, roundScale m (e - L), m * 2 ^ (e - L), ?_, roundScale_nearest m _, ?_, by positivity, ?_, ?_,
    fun h1 h2 => ?_⟩
  · unfold magBits
    simp only [hL]
  · rw [scaleAt, hk, mul_assoc, ← zpow_add₀ (by norm_num)]
    congr 2
    ring
  · calc (m : ℚ) * 2 ^ (e - L) < 2 ^ (Nat.log2 m + 1 : ℤ) * 2 ^ (e - L) := by
          exact mul_lt_mul_of_pos_right q2 (by positivity)
      _ = 2 ^ (Nat.log2 m + 1 + (e - L) : ℤ) := by rw [← zpow_add₀ (by norm_num)]
      _ ≤ 2 ^ ((fb + 1 : Nat) : ℤ) := zpow_le_zpow_right₀ (by norm_num) (by push_cast; omega)
      _ = 2 ^ (fb + 1) := zpow_natCast _ _
  · rcases lt_or_ge (minExp eb fb) L with h | h
    · right
      calc (2 : ℚ) ^ fb = 2 ^ (fb : ℤ) := (zpow_natCast _ _).symm
        _ = 2 ^ (Nat.log2 m + (e - L) : ℤ) := by congr 1; omega
        _ = 2 ^ (Nat.log2 m : ℤ) * 2 ^ (e - L) := zpow_add₀ (by norm_num) _ _
        _ ≤ m * 2 ^ (e - L) := mul_le_mul_of_nonneg_right q1 (by positivity)
    · left; omega
  · have h3 : Nat.log2 m < fb + 1 := (Nat.pow_lt_pow_iff_right (by norm_num)).1 (lt_of_le_of_lt hl1 h2)
    obtain ⟨j, hj⟩ := Int.eq_ofNat_of_zero_le (show 0 ≤ e - L by omega)
    rw [hj, roundScale, if_pos (Int.natCast_nonneg j), Int.toNat_natCast, zpow_natCast]
    push_cast
    rfl

/-- Rounding a magnitude below the overflow bound: a finite encoding, and none is nearer. At or above it: the infinity. -/
theorem magBits_nearest (eb fb m : Nat) (e : Int) (he : 2 ≤ eb) (hf : 1 ≤ fb) (hm : 0 < m) :
    ((m : ℚ) * 2 ^ e < overflowAt eb fb → magBits eb fb m e < (2 ^ eb - 1) * 2 ^ fb ∧ ∀ v,
      |encMag eb fb (magBits eb fb m e) - m * 2 ^ e| ≤ |encMag eb fb v - m * 2 ^ e| ∧
      (|encMag eb fb (magBits eb fb m e) - m * 2 ^ e| = |encMag eb fb v - m * 2 ^ e| →
        encMag eb fb v ≠ encMag eb fb (magBits eb fb m e) → magBits eb fb m e % 2 = 0)) ∧
    (overflowAt eb fb ≤ (m : ℚ) * 2 ^ e → magBits eb fb m e = (2 ^ eb - 1) * 2 ^ fb) := by
  obtain ⟨k, r, X, hb, hn, hx, h0, h1, h2, -⟩ := magBits_spec eb fb m e hm
  rw [hx, overflowAt_eq eb fb he]
  generalize magBits eb fb m e = w at hb ⊢
  have hp2 : 2 ^ (fb + 1) = 2 * 2 ^ fb := by ring
  have hpos : 0 < 2 ^ fb := by positivity
  have h4 : 4 ≤ 2 ^ eb := le_trans (by norm_num) (Nat.pow_le_pow_right (by norm_num) he)
  have hr := abs_le.1 hn.1
  have hr1 : r ≤ 2 ^ (fb + 1) := by
    have : (r : ℚ) < (2 ^ (fb + 1) + 1 : Nat) := by push_cast; linarith
    exact Nat.lt_succ_iff.1 (by exact_mod_cast this)
  have hr2 : k = 0 ∨ 2 ^ fb ≤ r := by
    refine h2.imp id fun h => ?_
    have : ((2 ^ fb : Nat) : ℚ) < r + 1 := by push_cast; linarith
    exact Nat.lt_succ_iff.1 (by exact_mod_cast this)
  have hs := scaleAt_pos eb fb k
  have he3 : (2 ^ eb - 1) * 2 ^ fb = (2 ^ eb - 3) * 2 ^ fb + 2 ^ (fb + 1) := by
    rw [hp2, ← Nat.add_mul]
    congr 1
    omega
  -- the place of the magnitude against the overflow bound, read off its binade
  have key : (k * 2 ^ fb + r < (2 ^ eb - 1) * 2 ^ fb) ↔ X * scaleAt eb fb k < (2 ^ (fb + 1) - 1 / 2) * scaleAt eb fb (2 ^ eb - 3) := by
    have hbig : (1 : ℚ) ≤ 2 ^ fb := one_le_pow₀ (by norm_num)
    have hq2 : (2 : ℚ) ^ (fb + 1) = 2 * 2 ^ fb := by ring
    rcases Nat.lt_trichotomy k (2 ^ eb - 3) with hk | hk | hk
    · have a : (k + 1) * 2 ^ fb ≤ (2 ^ eb - 3) * 2 ^ fb := Nat.mul_le_mul_right _ hk
      have b : (k + 1) * 2 ^ fb = k * 2 ^ fb + 2 ^ fb := by ring
      have c := scaleAt_mono eb fb (show k + 1 ≤ 2 ^ eb - 3 from hk)
      rw [scaleAt_succ] at c
      refine iff_of_true (by omega) ?_
      nlinarith
    · subst hk
      rw [he3, Nat.add_lt_add_iff_left, mul_lt_mul_iff_left₀ hs]
      constructor
      · intro h
        have : (r : ℚ) + 1 ≤ 2 ^ (fb + 1) := by exact_mod_cast h
        rcases hr.1.lt_or_eq with h' | h'
        · linarith
        · have hev := hn.2 (by rw [← h']; norm_num)
          by_contra hc
          have e1 : (r : ℚ) + 1 = 2 ^ (fb + 1) := by linarith
          have e2 : r + 1 = 2 ^ (fb + 1) := by exact_mod_cast e1
          omega
      · intro h
        rcases hr1.lt_or_eq with h' | h'
        · exact h'
        · rw [h'] at hr
          push_cast at hr
          linarith
    · have a : (2 ^ eb - 3 + 1) * 2 ^ fb ≤ k * 2 ^ fb := Nat.mul_le_mul_right _ hk
      have b : (2 ^ eb - 3 + 1) * 2 ^ fb = (2 ^ eb - 3) * 2 ^ fb + 2 ^ fb := by ring
      have c := scaleAt_mono eb fb (show 2 ^ eb - 3 + 1 ≤ k from hk)
      rw [scaleAt_succ] at c
      have d := scaleAt_pos eb fb (2 ^ eb - 3)
      have hr3 : 2 ^ fb ≤ r := by omega
      have hX : (2 : ℚ) ^ fb ≤ X := by
        rcases h2 with h | h
        · omega
        · exact h
      refine iff_of_false (by omega) (not_lt.2 ?_)
      have : 2 ^ fb * (2 * scaleAt eb fb (2 ^ eb - 3)) ≤ X * scaleAt eb fb k := mul_le_mul hX c (by positivity) h0
      rw [hq2]
      nlinarith
  constructor
  · intro hlt
    have hfin := key.2 hlt
    obtain rfl : w = k * 2 ^ fb + r := by omega
    refine ⟨hfin, fun v => ?_⟩
    have hmod : (k * 2 ^ fb + r) % 2 ^ (eb + fb) = k * 2 ^ fb + r := by
      refine Nat.mod_eq_of_lt (lt_of_lt_of_le hfin ?_)
      rw [Nat.pow_add]
      exact Nat.mul_le_mul_right _ (by omega)
    rw [encMag_of hr1 hr2 hmod]
    obtain ⟨k', r', -, hr', -, hv⟩ := encMag_eq eb fb v
    have hw : ∀ y : ℚ, |y * scaleAt eb fb k - X * scaleAt eb fb k| = |y - X| * scaleAt eb fb k := by
      intro y
      rw [← sub_mul, abs_mul, abs_of_pos hs]
    have heven : r % 2 = 0 → (k * 2 ^ fb + r) % 2 = 0 := by
      intro h
      obtain ⟨f, rfl⟩ : ∃ f, fb = f + 1 := ⟨fb - 1, by omega⟩
      have : k * 2 ^ (f + 1) = 2 * (k * 2 ^ f) := by ring
      omega
    rcases Nat.lt_or_ge k' k with hk | hk
    · -- a lower binade: the lowest significand of this one is nearer
      have hX : (2 : ℚ) ^ fb ≤ X := by
        rcases h2 with h | h
        · omega
        · exact h
      have c := scaleAt_mono eb fb (show k' + 1 ≤ k from hk)
      rw [scaleAt_succ] at c
      have d := scaleAt_pos eb fb k'
      have hr'' : (r' : ℚ) < 2 * 2 ^ fb := by
        have : r' < 2 * 2 ^ fb := by omega
        exact_mod_cast this
      have low : encMag eb fb v < 2 ^ fb * scaleAt eb fb k := by
        rw [hv]
        calc (r' : ℚ) * scaleAt eb fb k' < 2 * 2 ^ fb * scaleAt eb fb k' := mul_lt_mul_of_pos_right hr'' d
          _ = 2 ^ fb * (2 * scaleAt eb fb k') := by ring
          _ ≤ 2 ^ fb * scaleAt eb fb k := mul_le_mul_of_nonneg_left c (by positivity)
      have n := (hn.le (2 ^ fb : ℤ)).1
      have xle : 2 ^ fb * scaleAt eb fb k ≤ X * scaleAt eb fb k := mul_le_mul_of_nonneg_right hX hs.le
      have strict : |(r : ℚ) * scaleAt eb fb k - X * scaleAt eb fb k| < |encMag eb fb v - X * scaleAt eb fb k| := by
        rw [hw, abs_of_neg (show encMag eb fb v - X * scaleAt eb fb k < 0 by linarith)]
        push_cast at n
        rw [abs_of_nonpos (show (2 : ℚ) ^ fb - X ≤ 0 by linarith)] at n
        nlinarith
      exact ⟨strict.le, fun h => absurd h strict.ne⟩
    · -- a binade at or above: an integer significand of this one
      obtain ⟨d, rfl⟩ : ∃ d, k' = k + d := ⟨k' - k, by omega⟩
      have hv' : encMag eb fb v = ((r' * 2 ^ d : Nat) : ℤ) * scaleAt eb fb k := by
        rw [hv, scaleAt_add]
        push_cast
        ring
      obtain ⟨n1, n2⟩ := hn.le ((r' * 2 ^ d : Nat) : ℤ)
      rw [hv', hw, hw]
      refine ⟨mul_le_mul_of_nonneg_right n1 hs.le, fun h hne => heven (n2 (mul_right_cancel₀ hs.ne' h) fun e => hne ?_)⟩
      rw [e]
      simp
  · intro hge
    have := key.not.2 (not_lt.2 hge)
    omega

/-! ## Signs, and the classes of encodings -/

theorem encExp_mod (eb fb u : Nat) : encExp eb fb (u % 2 ^ (eb + fb)) = encExp eb fb u := by
  rw [encExp, encExp, Nat.add_comm eb fb, Nat.pow_add, Nat.mod_mul_right_div_self, Nat.mod_mod]

theorem frac_mod (eb fb u : Nat) : u % 2 ^ (eb + fb) % 2 ^ fb = u % 2 ^ fb :=
  Nat.mod_mod_of_dvd _ (by rw [Nat.add_comm]; exact pow_dvd_pow 2 (Nat.le_add_right fb eb))

/-- The sign does not matter to a magnitude. -/
theorem encMag_mod (eb fb u : Nat) : encMag eb fb (u % 2 ^ (eb + fb)) = encMag eb fb u := by
  unfold encMag
  rw [encExp_mod, frac_mod]

/-- The magnitude bits are the exponent field over the fraction. -/
theorem enc_split (eb fb u : Nat) : u % 2 ^ (eb + fb) = encExp eb fb u * 2 ^ fb + u % 2 ^ fb := by
  rw [Nat.add_comm eb fb, Nat.pow_add, Nat.mod_mul, encExp]
  ring

theorem encExp_lt (eb fb u : Nat) : encExp eb fb u < 2 ^ eb := Nat.mod_lt _ (by positivity)

theorem encFin_iff (eb fb u : Nat) : EncFin eb fb u ↔ u % 2 ^ (eb + fb) < (2 ^ eb - 1) * 2 ^ fb := by
  have h := encExp_lt eb fb u
  have hf : u % 2 ^ fb < 2 ^ fb := Nat.mod_lt _ (by positivity)
  rw [enc_split, EncFin]
  constructor
  · intro hne
    have : (encExp eb fb u + 1) * 2 ^ fb ≤ (2 ^ eb - 1) * 2 ^ fb := Nat.mul_le_mul_right _ (by omega)
    rw [Nat.succ_mul] at this
    omega
  · intro hlt he
    rw [he] at hlt
    omega

theorem encInf_iff (eb fb u : Nat) : EncInf eb fb u ↔ u % 2 ^ (eb + fb) = (2 ^ eb - 1) * 2 ^ fb := by
  have h := encExp_lt eb fb u
  have hf : u % 2 ^ fb < 2 ^ fb := Nat.mod_lt _ (by positivity)
  rw [enc_split, EncInf]
  constructor
  · rintro ⟨h1, h2⟩
    rw [h1, h2, Nat.add_zero]
  · intro he
    rcases Nat.lt_or_ge (encExp eb fb u) (2 ^ eb - 1) with h1 | h1
    · have : (encExp eb fb u + 1) * 2 ^ fb ≤ (2 ^ eb - 1) * 2 ^ fb := Nat.mul_le_mul_right _ (by omega)
      rw [Nat.succ_mul] at this
      omega
    · have h2 : encExp eb fb u = 2 ^ eb - 1 := by omega
      rw [h2] at he
      exact ⟨h2, by omega⟩

/-- An encoding is a NaN, an infinity or finite, and only one of these. -/
theorem enc_cases (eb fb u : Nat) : (EncNaN eb fb u ∧ ¬ EncInf eb fb u ∧ ¬ EncFin eb fb u) ∨
    (¬ EncNaN eb fb u ∧ EncInf eb fb u ∧ ¬ EncFin eb fb u) ∨ (¬ EncNaN eb fb u ∧ ¬ EncInf eb fb u ∧ EncFin eb fb u) := by
  unfold EncNaN EncInf EncFin
  tauto

/-- The sign bit over magnitude bits. -/
theorem signed_enc (eb fb : Nat) (neg : Bool) (w : Nat) (hw : w < 2 ^ (eb + fb)) :
    (signBits eb fb neg + w) % 2 ^ (eb + fb) = w ∧ encSign eb fb (signBits eb fb neg + w) = (if neg then 1 else 0) ∧
      signBits eb fb neg + w < 2 ^ (eb + fb + 1) := by
  have h2 : 2 ^ (eb + fb + 1) = 2 * 2 ^ (eb + fb) := by ring
  unfold signBits encSign
  cases neg
  · simp only [Bool.false_eq_true, if_false, Nat.zero_add, Nat.div_eq_of_lt hw, Nat.zero_mod]
    exact ⟨Nat.mod_eq_of_lt hw, trivial, by omega⟩
  · simp only [if_true, Nat.add_mod_left, Nat.mod_eq_of_lt hw, true_and]
    refine ⟨?_, by omega⟩
    rw [Nat.add_div_left _ (by positivity), Nat.div_eq_of_lt hw]

theorem inf_lt (eb fb : Nat) : (2 ^ eb - 1) * 2 ^ fb < 2 ^ (eb + fb) := by
  rw [Nat.pow_add]
  exact Nat.mul_lt_mul_of_pos_right (Nat.sub_lt (by positivity) (by norm_num)) (by positivity)

/-- The value of an exact datum. -/
def datumValue (neg : Bool) (m : Nat) (e : Int) : ℚ := if neg then -(m * 2 ^ e) else m * 2 ^ e

theorem encMag_nonneg (eb fb u : Nat) : 0 ≤ encMag eb fb u := by unfold encMag; split <;> positivity

theorem encMag_zero (eb fb : Nat) : encMag eb fb 0 = 0 := by simp [encMag, encExp]

/-- The magnitude bits of a datum. -/
def magOf (eb fb m : Nat) (e : Int) : Nat := if m = 0 then 0 else magBits eb fb m e

theorem magOf_le (eb fb m : Nat) (e : Int) : magOf eb fb m e ≤ (2 ^ eb - 1) * 2 ^ fb := by
  unfold magOf
  split
  · exact Nat.zero_le _
  · exact Nat.min_le_right _ _

theorem overflowAt_pos (eb fb : Nat) (he : 2 ≤ eb) : 0 < overflowAt eb fb := by
  rw [overflowAt_eq eb fb he]
  have : (1 : ℚ) ≤ 2 ^ (fb + 1) := one_le_pow₀ (by norm_num)
  exact mul_pos (by linarith) (scaleAt_pos _ _ _)

/-- `magBits_nearest`, with zero. -/
theorem magOf_nearest (eb fb m : Nat) (e : Int) (he : 2 ≤ eb) (hf : 1 ≤ fb) :
    ((m : ℚ) * 2 ^ e < overflowAt eb fb → magOf eb fb m e < (2 ^ eb - 1) * 2 ^ fb ∧ ∀ v,
      |encMag eb fb (magOf eb fb m e) - m * 2 ^ e| ≤ |encMag eb fb v - m * 2 ^ e| ∧
      (|encMag eb fb (magOf eb fb m e) - m * 2 ^ e| = |encMag eb fb v - m * 2 ^ e| →
        encMag eb fb v ≠ encMag eb fb (magOf eb fb m e) → magOf eb fb m e % 2 = 0)) ∧
    (overflowAt eb fb ≤ (m : ℚ) * 2 ^ e → magOf eb fb m e = (2 ^ eb - 1) * 2 ^ fb) := by
  rcases Nat.eq_zero_or_pos m with rfl | hm
  · simp only [magOf, if_true, Nat.cast_zero, zero_mul, encMag_zero, sub_zero, abs_zero]
    have h2 : 1 < 2 ^ eb := Nat.one_lt_two_pow (by omega)
    refine ⟨fun _ => ⟨Nat.mul_pos (by omega) (by positivity), fun v => ⟨abs_nonneg _, fun _ _ => trivial⟩⟩, fun h => ?_⟩
    exact absurd h (not_le.2 (overflowAt_pos eb fb he))
  · rw [magOf, if_neg hm.ne']
    exact magBits_nearest eb fb m e he hf hm

/-- The encoding of a finite exact datum is the datum rounded, with its sign. -/
theorem bitsOf_nearest (eb fb : Nat) (he : 2 ≤ eb) (hf : 1 ≤ fb) (neg : Bool) (m : Nat) (e : Int) :
    bitsOf eb fb (.fin neg m e) < 2 ^ (eb + fb + 1) ∧
    encSign eb fb (bitsOf eb fb (.fin neg m e)) = (if neg then 1 else 0) ∧
    ¬ EncNaN eb fb (bitsOf eb fb (.fin neg m e)) ∧
    Nearest eb fb (datumValue neg m e) (bitsOf eb fb (.fin neg m e)) := by
  have hb : bitsOf eb fb (.fin neg m e) = signBits eb fb neg + magOf eb fb m e := rfl
  rw [hb]
  have hle := magOf_le eb fb m e
  obtain ⟨s1, s2, s3⟩ := signed_enc eb fb neg (magOf eb fb m e) (lt_of_le_of_lt hle (inf_lt eb fb))
  generalize hu : signBits eb fb neg + magOf eb fb m e = u at s1 s2 s3
  have hn : ¬ EncNaN eb fb u := by
    rcases Nat.lt_or_eq_of_le hle with h | h
    · have := (encFin_iff eb fb u).2 (by omega)
      exact fun k => this k.1
    · have := (encInf_iff eb fb u).2 (by omega)
      exact fun k => k.2 this.2
  have hy : (0 : ℚ) ≤ m * 2 ^ e := by positivity
  obtain ⟨n1, n2⟩ := magOf_nearest eb fb m e he hf
  have hM : encMag eb fb (magOf eb fb m e) = encMag eb fb u := by rw [← s1, encMag_mod]
  rw [hM] at n1
  have habs : |datumValue neg m e| = m * 2 ^ e := by
    unfold datumValue
    split
    · rw [abs_neg, abs_of_nonneg hy]
    · exact abs_of_nonneg hy
  refine ⟨s3, s2, hn, ?_, ?_⟩
  · intro hlt
    rw [habs] at hlt
    obtain ⟨f1, f2⟩ := n1 hlt
    refine ⟨(encFin_iff eb fb u).2 (by omega), fun v hv _ => ?_⟩
    have parity : magOf eb fb m e % 2 = 0 → u % 2 = 0 := by
      intro h
      have hs : signBits eb fb neg % 2 = 0 := by
        unfold signBits
        split
        · obtain ⟨f, rfl⟩ : ∃ f, fb = f + 1 := ⟨fb - 1, by omega⟩
          rw [show eb + (f + 1) = (eb + f) + 1 by omega, Nat.pow_succ]
          omega
        · rfl
      omega
    have hvu : encValue eb fb u = if neg then -encMag eb fb u else encMag eb fb u := by
      unfold encValue
      rw [s2]
      cases neg <;> simp
    have hu' : |encValue eb fb u - datumValue neg m e| = |encMag eb fb u - m * 2 ^ e| := by
      rw [hvu, datumValue]
      cases neg
      · simp
      · simp only [if_true]
        rw [← abs_neg]
        congr 1
        ring
    rw [hu']
    have hv0 := encMag_nonneg eb fb v
    have same : (encSign eb fb v = if neg then 1 else 0) →
        encValue eb fb v = (if neg then -encMag eb fb v else encMag eb fb v) := by
      intro h
      unfold encValue
      rw [h]
      cases neg <;> simp
    by_cases hs : encSign eb fb v = if neg then 1 else 0
    · have hv' : |encValue eb fb v - datumValue neg m e| = |encMag eb fb v - m * 2 ^ e| := by
        rw [same hs, datumValue]
        cases neg
        · simp
        · simp only [if_true]
          rw [← abs_neg]
          congr 1
          ring
      rw [hv']
      obtain ⟨g1, g2⟩ := f2 v
      refine ⟨g1, fun h hne => parity (g2 h fun k => hne ?_)⟩
      rw [same hs, hvu, k]
    · -- the other sign: zero is at least as near
      have hv' : |encValue eb fb v - datumValue neg m e| = encMag eb fb v + m * 2 ^ e := by
        have hb2 : encSign eb fb v < 2 := Nat.mod_lt _ (by norm_num)
        have : encValue eb fb v = if neg then encMag eb fb v else -encMag eb fb v := by
          unfold encValue
          cases neg
          · simp only [Bool.false_eq_true, if_false] at hs ⊢
            rw [if_pos (by omega)]
          · simp only [if_true] at hs ⊢
            rw [if_neg hs]
        rw [this, datumValue]
        cases neg
        · simp only [Bool.false_eq_true, if_false]
          rw [show -encMag eb fb v - m * 2 ^ e = -(encMag eb fb v + m * 2 ^ e) by ring, abs_neg, abs_of_nonneg (by linarith)]
        · simp only [if_true]
          rw [sub_neg_eq_add, abs_of_nonneg (by linarith)]
      obtain ⟨g1, g2⟩ := f2 0
      rw [encMag_zero, zero_sub, abs_neg, abs_of_nonneg hy] at g1 g2
      rw [hv']
      refine ⟨by linarith, fun h hne => parity (g2 (by linarith) fun k => hne ?_)⟩
      have hv1 : encMag eb fb v = 0 := by linarith
      have zero : ∀ w, encMag eb fb w = 0 → encValue eb fb w = 0 := by
        intro w hw
        unfold encValue
        rw [hw]
        simp
      rw [zero v hv1, zero u k.symm]
  · intro hge
    rw [habs] at hge
    exact (encInf_iff eb fb u).2 (by rw [s1, n2 hge])

/-! ## Reading an encoding, and the operations on data -/

theorem datumOf_eq (eb fb u : Nat) : datumOf eb fb u =
    if encExp eb fb u = 2 ^ eb - 1 then (if u % 2 ^ fb = 0 then .inf (encSign eb fb u == 1) else .nan)
    else if encExp eb fb u = 0 then .fin (encSign eb fb u == 1) (u % 2 ^ fb) (minExp eb fb)
    else .fin (encSign eb fb u == 1) (2 ^ fb + u % 2 ^ fb) (minExp eb fb + (encExp eb fb u - 1 : Nat)) := rfl

theorem datumOf_nan {eb fb u : Nat} (h : EncNaN eb fb u) : datumOf eb fb u = .nan := by
  rw [datumOf_eq, if_pos h.1, if_neg h.2]

theorem datumOf_inf {eb fb u : Nat} (h : EncInf eb fb u) : datumOf eb fb u = .inf (encSign eb fb u == 1) := by
  rw [datumOf_eq, if_pos h.1, if_pos h.2]

/-- A finite encoding is read as its own sign and value; its significand is zero exactly for a zero. -/
theorem datumOf_fin {eb fb u : Nat} (h : EncFin eb fb u) : ∃ m e, datumOf eb fb u = .fin (encSign eb fb u == 1) m e ∧
    datumValue (encSign eb fb u == 1) m e = encValue eb fb u ∧ (m = 0 ↔ EncZero eb fb u) ∧ m < 2 ^ (fb + 1) ∧
      minExp eb fb ≤ e := by
  have hv : ∀ {m : Nat} {e : Int}, (m : ℚ) * 2 ^ e = encMag eb fb u →
      datumValue (encSign eb fb u == 1) m e = encValue eb fb u := by
    intro m e hm
    unfold datumValue encValue
    rw [hm]
    simp only [beq_iff_eq]
  have hlt : u % 2 ^ fb < 2 ^ fb := Nat.mod_lt _ (by positivity)
  have h2 : 2 ^ (fb + 1) = 2 * 2 ^ fb := by ring
  rw [datumOf_eq, if_neg h]
  split
  · next h0 =>
    refine ⟨_, _, rfl, hv ?_, ?_, by omega, le_refl _⟩
    · rw [encMag, if_pos h0]; rfl
    · exact ⟨fun k => ⟨h0, k⟩, fun k => k.2⟩
  · next h0 =>
    refine ⟨_, _, rfl, hv ?_, ?_, by omega, by omega⟩
    · rw [encMag, if_neg h0]
      congr 2
      simp only [minExp]
      omega
    · have hp : 0 < 2 ^ fb := by positivity
      exact ⟨fun k => by omega, fun k => absurd k.1 h0⟩

theorem encNaN_nanBits (eb fb : Nat) (hf : 1 ≤ fb) : EncNaN eb fb (nanBits eb fb) := by
  have hp : 2 ^ (fb - 1) < 2 ^ fb := Nat.pow_lt_pow_right (by norm_num) (by omega)
  have h1 : 0 < 2 ^ (fb - 1) := by positivity
  unfold EncNaN encExp nanBits
  rw [Nat.add_comm, Nat.add_mul_div_right _ _ (by positivity), Nat.div_eq_of_lt hp, Nat.zero_add, Nat.add_mul_mod_self_right,
    Nat.mod_eq_of_lt hp, Nat.mod_eq_of_lt (Nat.sub_lt (by positivity) (by norm_num))]
  exact ⟨rfl, h1.ne'⟩

theorem infBits_spec (eb fb : Nat) (neg : Bool) : EncInf eb fb (infBits eb fb neg) ∧
    encSign eb fb (infBits eb fb neg) = (if neg then 1 else 0) ∧ infBits eb fb neg < 2 ^ (eb + fb + 1) := by
  obtain ⟨h1, h2, h3⟩ := signed_enc eb fb neg ((2 ^ eb - 1) * 2 ^ fb) (inf_lt eb fb)
  exact ⟨(encInf_iff ..).2 h1, h2, h3⟩

/-- Every encoding the model makes fits its format. -/
theorem bitsOf_lt (eb fb : Nat) (he : 2 ≤ eb) (hf : 1 ≤ fb) (d : Datum) : bitsOf eb fb d < 2 ^ (eb + fb + 1) := by
  cases d with
  | nan =>
    have h := inf_lt eb fb
    have hp : 2 ^ (fb - 1) ≤ 2 ^ (eb + fb) := Nat.pow_le_pow_right (by norm_num) (by omega)
    have : 2 ^ (eb + fb + 1) = 2 * 2 ^ (eb + fb) := by ring
    simp only [bitsOf, nanBits]
    omega
  | inf n => exact (infBits_spec eb fb n).2.2
  | fin n m e => exact (bitsOf_nearest eb fb he hf n m e).1

/-- An infinity is its sign and the magnitude bits of an infinity. -/
theorem infBits_of {eb fb u : Nat} (h : EncInf eb fb u) (hu : u < 2 ^ (eb + fb + 1)) :
    infBits eb fb (encSign eb fb u == 1) = u := by
  have h1 := (encInf_iff eb fb u).1 h
  have h2 := Nat.div_add_mod u (2 ^ (eb + fb))
  have h3 : u / 2 ^ (eb + fb) < 2 := by
    rw [Nat.div_lt_iff_lt_mul (by positivity)]
    rw [Nat.pow_succ] at hu
    omega
  unfold infBits signBits
  have hs : encSign eb fb u = u / 2 ^ (eb + fb) := Nat.mod_eq_of_lt h3
  rw [hs, ← h1]
  rcases (show u / 2 ^ (eb + fb) = 0 ∨ u / 2 ^ (eb + fb) = 1 by omega) with e | e <;> rw [e] at h2 ⊢ <;> simp <;> omega

theorem encSign_lt (eb fb u : Nat) : encSign eb fb u < 2 := Nat.mod_lt _ (by norm_num)

/-- The sign of a product. -/
theorem xor_sign (eb fb a b : Nat) : (if ((encSign eb fb a == 1) != (encSign eb fb b == 1)) = true then 1 else 0) =
    (encSign eb fb a + encSign eb fb b) % 2 := by
  have ha := encSign_lt eb fb a
  have hb := encSign_lt eb fb b
  generalize encSign eb fb a = x at *
  generalize encSign eb fb b = y at *
  rcases (show x = 0 ∨ x = 1 by omega) with rfl | rfl <;> rcases (show y = 0 ∨ y = 1 by omega) with rfl | rfl <;> rfl

theorem datumValue_mul (n n' : Bool) (m m' : Nat) (e e' : Int) :
    datumValue (n != n') (m * m') (e + e') = datumValue n m e * datumValue n' m' e' := by
  unfold datumValue
  rw [zpow_add₀ (by norm_num)]
  cases n <;> cases n' <;> simp <;> ring

/-- The model's product is the product. -/
theorem mul_spec (eb fb : Nat) (he : 2 ≤ eb) (hf : 1 ≤ fb) (a b : Nat) :
    ProductOf eb fb a b (bitsOf eb fb ((datumOf eb fb a).mul (datumOf eb fb b))) := by
  have hz : ∀ u, EncZero eb fb u → EncFin eb fb u := by
    intro u h k
    have : 1 < 2 ^ eb := Nat.one_lt_two_pow (by omega)
    rw [h.1] at k
    omega
  refine ⟨fun h => ?_, fun h => ?_⟩
  · have hnan : (datumOf eb fb a).mul (datumOf eb fb b) = .nan := by
      rcases h with h | h | ⟨h1, h2⟩ | ⟨h1, h2⟩
      · rw [datumOf_nan h]; rfl
      · rw [datumOf_nan h]; cases datumOf eb fb a <;> rfl
      · obtain ⟨m, e, hd, -, hm, -⟩ := datumOf_fin (hz b h2)
        rw [datumOf_inf h1, hd, hm.2 h2]
        rfl
      · obtain ⟨m, e, hd, -, hm, -⟩ := datumOf_fin (hz a h1)
        rw [datumOf_inf h2, hd, hm.2 h1]
        rfl
    rw [hnan]
    exact encNaN_nanBits eb fb hf
  · simp only [not_or, not_and] at h
    obtain ⟨ha, hb, hab, hba⟩ := h
    rcases enc_cases eb fb a with ⟨k, -, -⟩ | ⟨-, ia, fa⟩ | ⟨-, ia, fa⟩
    · exact absurd k ha
    · have hinf : (datumOf eb fb a).mul (datumOf eb fb b) = .inf ((encSign eb fb a == 1) != (encSign eb fb b == 1)) := by
        rw [datumOf_inf ia]
        rcases enc_cases eb fb b with ⟨k, -, -⟩ | ⟨-, ib, -⟩ | ⟨-, -, fb'⟩
        · exact absurd k hb
        · rw [datumOf_inf ib]; rfl
        · obtain ⟨m, e, hd, -, hm, -⟩ := datumOf_fin fb'
          rw [hd]
          exact if_neg fun k => hab ia (hm.1 k)
      rw [hinf]
      obtain ⟨s1, s2, -⟩ := infBits_spec eb fb ((encSign eb fb a == 1) != (encSign eb fb b == 1))
      exact ⟨s2.trans (xor_sign ..), fun _ => s1, fun k => absurd k fa⟩
    · obtain ⟨m, e, hd, hv, hm, -⟩ := datumOf_fin fa
      rcases enc_cases eb fb b with ⟨k, -, -⟩ | ⟨-, ib, fb'⟩ | ⟨-, ib, fb'⟩
      · exact absurd k hb
      · have hinf : (datumOf eb fb a).mul (datumOf eb fb b) = .inf ((encSign eb fb a == 1) != (encSign eb fb b == 1)) := by
          rw [datumOf_inf ib, hd]
          exact if_neg fun k => hba (hm.1 k) ib
        rw [hinf]
        obtain ⟨s1, s2, -⟩ := infBits_spec eb fb ((encSign eb fb a == 1) != (encSign eb fb b == 1))
        exact ⟨s2.trans (xor_sign ..), fun _ => s1, fun _ k => absurd k fb'⟩
      · obtain ⟨m', e', hd', hv', -⟩ := datumOf_fin fb'
        rw [hd, hd']
        simp only [Datum.mul]
        obtain ⟨-, s2, -, s4⟩ := bitsOf_nearest eb fb he hf ((encSign eb fb a == 1) != (encSign eb fb b == 1)) (m * m') (e + e')
        rw [datumValue_mul, hv, hv'] at s4
        exact ⟨s2.trans (xor_sign ..), fun k => (k.elim ia ib).elim, fun _ _ => s4⟩

/-- The exact sum of two finite data: its value, and its sign. -/
theorem addFinite_spec (n : Bool) (m : Nat) (e : Int) (n' : Bool) (m' : Nat) (e' : Int) :
    ∃ k i d, addFinite n m e n' m' e' = .fin k i d ∧ datumValue k i d = datumValue n m e + datumValue n' m' e' ∧
      (k = true ↔ datumValue k i d < 0 ∨ (datumValue k i d = 0 ∧ n = true ∧ n' = true)) := by
  unfold addFinite
  dsimp only
  generalize hx : signedInt n (m * 2 ^ (e - min e e').toNat) + signedInt n' (m' * 2 ^ (e' - min e e').toNat) = x
  have lift : ∀ (n : Bool) (m : Nat) (d e0 : Int), e0 ≤ d →
      (signedInt n (m * 2 ^ (d - e0).toNat) : ℚ) * 2 ^ e0 = datumValue n m d := by
    intro n m d e0 h
    obtain ⟨j, hj⟩ := Int.eq_ofNat_of_zero_le (show 0 ≤ d - e0 by omega)
    have h2 : (2 : ℚ) ^ d = 2 ^ j * 2 ^ e0 := by
      rw [← zpow_natCast, ← zpow_add₀ (by norm_num)]
      congr 1
      omega
    rw [hj, Int.toNat_natCast]
    unfold signedInt datumValue
    rw [h2]
    cases n <;> simp <;> ring
  have hsum : (x : ℚ) * 2 ^ min e e' = datumValue n m e + datumValue n' m' e' := by
    rw [← hx, ← lift n m e (min e e') (min_le_left _ _), ← lift n' m' e' (min e e') (min_le_right _ _)]
    push_cast
    ring
  have hpos : (0 : ℚ) < 2 ^ min e e' := by positivity
  have hval : datumValue (if x = 0 then n && n' else decide (x < 0)) x.natAbs (min e e') = (x : ℚ) * 2 ^ min e e' := by
    unfold datumValue
    rcases lt_trichotomy x 0 with h | h | h
    · rw [if_neg h.ne, decide_eq_true h, if_pos rfl]
      have : ((x.natAbs : ℤ) : ℚ) = -x := by rw [Int.ofNat_natAbs_of_nonpos h.le]; push_cast; rfl
      rw [show (x.natAbs : ℚ) = ((x.natAbs : ℤ) : ℚ) from rfl, this]
      ring
    · rw [h]
      simp
    · rw [if_neg h.ne', decide_eq_false (not_lt.2 h.le), if_neg (by simp)]
      have : ((x.natAbs : ℤ) : ℚ) = x := by rw [Int.natAbs_of_nonneg h.le]
      rw [show (x.natAbs : ℚ) = ((x.natAbs : ℤ) : ℚ) from rfl, this]
  refine ⟨_, _, _, rfl, hval.trans hsum, ?_⟩
  rw [hval]
  rcases lt_trichotomy x 0 with h | h | h
  · have : (x : ℚ) < 0 := by exact_mod_cast h
    rw [if_neg h.ne, decide_eq_true h]
    exact iff_of_true rfl (.inl (mul_neg_of_neg_of_pos this hpos))
  · subst h
    simp
  · have : (0 : ℚ) < x := by exact_mod_cast h
    have hp := mul_pos this hpos
    rw [if_neg h.ne', decide_eq_false (not_lt.2 h.le)]
    exact iff_of_false (by simp) (by rintro (k | ⟨k, -⟩) <;> linarith)

/-- The model's sum is the sum. -/
theorem add_spec (eb fb : Nat) (he : 2 ≤ eb) (hf : 1 ≤ fb) (a b : Nat) (ha : a < 2 ^ (eb + fb + 1)) (hb : b < 2 ^ (eb + fb + 1)) :
    SumOf eb fb a b (bitsOf eb fb ((datumOf eb fb a).add (datumOf eb fb b))) := by
  have hsa := encSign_lt eb fb a
  have hsb := encSign_lt eb fb b
  refine ⟨fun h => ?_, fun h => ?_⟩
  · have hnan : (datumOf eb fb a).add (datumOf eb fb b) = .nan := by
      rcases h with h | h | ⟨h1, h2, h3⟩
      · rw [datumOf_nan h]; rfl
      · rw [datumOf_nan h]; cases datumOf eb fb a <;> rfl
      · rw [datumOf_inf h1, datumOf_inf h2]
        refine if_neg fun k => h3 ?_
        rw [Bool.eq_iff_iff, beq_iff_eq, beq_iff_eq] at k
        omega
    rw [hnan]
    exact encNaN_nanBits eb fb hf
  · simp only [not_or, not_and, not_not] at h
    obtain ⟨na, nb, hab⟩ := h
    rcases enc_cases eb fb a with ⟨k, -, -⟩ | ⟨-, ia, fa⟩ | ⟨-, ia, fa⟩
    · exact absurd k na
    · have hinf : (datumOf eb fb a).add (datumOf eb fb b) = .inf (encSign eb fb a == 1) := by
        rw [datumOf_inf ia]
        rcases enc_cases eb fb b with ⟨k, -, -⟩ | ⟨-, ib, -⟩ | ⟨-, -, fb'⟩
        · exact absurd k nb
        · rw [datumOf_inf ib, ← hab ia ib]
          exact if_pos rfl
        · obtain ⟨m, e, hd, -, -⟩ := datumOf_fin fb'
          rw [hd]
          rfl
      rw [hinf]
      refine ⟨fun _ => infBits_of ia ha, fun ib => ?_, fun k => absurd k fa⟩
      rw [show encSign eb fb a = encSign eb fb b from hab ia ib]
      exact infBits_of ib hb
    · obtain ⟨m, e, hd, hv, -⟩ := datumOf_fin fa
      rcases enc_cases eb fb b with ⟨k, -, -⟩ | ⟨-, ib, fb'⟩ | ⟨-, ib, fb'⟩
      · exact absurd k nb
      · rw [datumOf_inf ib, hd]
        exact ⟨fun k => absurd k ia, fun _ => infBits_of ib hb, fun _ k => absurd k fb'⟩
      · obtain ⟨m', e', hd', hv', -⟩ := datumOf_fin fb'
        obtain ⟨k, i, d, h1, h2, h3⟩ := addFinite_spec (encSign eb fb a == 1) m e (encSign eb fb b == 1) m' e'
        rw [hd, hd']
        simp only [Datum.add, h1]
        obtain ⟨-, s2, -, s4⟩ := bitsOf_nearest eb fb he hf k i d
        rw [h2, hv, hv'] at s4
        rw [h2, hv, hv', beq_iff_eq, beq_iff_eq] at h3
        refine ⟨fun k => absurd k ia, fun k => absurd k ib, fun _ _ => ⟨s4, ?_⟩⟩
        rw [s2, if_congr h3 rfl rfl]

/-- The model's conversion is the conversion. -/
theorem convert_spec (eb fb eb' fb' : Nat) (he : 2 ≤ eb') (hf : 1 ≤ fb') (a : Nat) :
    ConversionOf eb fb eb' fb' a (bitsOf eb' fb' (datumOf eb fb a)) := by
  have hs := encSign_lt eb fb a
  have sign : (if (encSign eb fb a == 1) = true then 1 else 0) = encSign eb fb a := by
    rcases (show encSign eb fb a = 0 ∨ encSign eb fb a = 1 by omega) with e | e <;> rw [e] <;> rfl
  refine ⟨fun h => ?_, fun h => ?_⟩
  · rw [datumOf_nan h]
    exact encNaN_nanBits eb' fb' hf
  · rcases enc_cases eb fb a with ⟨k, -, -⟩ | ⟨-, ia, fa⟩ | ⟨-, ia, fa⟩
    · exact absurd k h
    · rw [datumOf_inf ia]
      obtain ⟨s1, s2, -⟩ := infBits_spec eb' fb' (encSign eb fb a == 1)
      exact ⟨s2.trans sign, fun _ => s1, fun k => absurd k fa⟩
    · obtain ⟨m, e, hd, hv, -⟩ := datumOf_fin fa
      rw [hd]
      obtain ⟨-, s2, -, s4⟩ := bitsOf_nearest eb' fb' he hf (encSign eb fb a == 1) m e
      rw [hv] at s4
      exact ⟨s2.trans sign, fun k => absurd k ia, fun _ => s4⟩

/-- A datum whose significand fits is its own encoding's value. -/
theorem bitsOf_exact (eb fb : Nat) (he : 2 ≤ eb) (hf : 1 ≤ fb) (neg : Bool) (m : Nat) (e : Int) (hm : m < 2 ^ (fb + 1))
    (hmin : minExp eb fb ≤ e) (hlt : (m : ℚ) * 2 ^ e < overflowAt eb fb) :
    EncFin eb fb (bitsOf eb fb (.fin neg m e)) ∧ encValue eb fb (bitsOf eb fb (.fin neg m e)) = datumValue neg m e := by
  have hb : bitsOf eb fb (.fin neg m e) = signBits eb fb neg + magOf eb fb m e := rfl
  obtain ⟨s1, s2, -⟩ := signed_enc eb fb neg (magOf eb fb m e) (lt_of_le_of_lt (magOf_le eb fb m e) (inf_lt eb fb))
  have hfin := ((magOf_nearest eb fb m e he hf).1 hlt).1
  rw [hb]
  refine ⟨(encFin_iff ..).2 (by rw [s1]; exact hfin), ?_⟩
  have hmag : encMag eb fb (magOf eb fb m e) = m * 2 ^ e := by
    unfold magOf at hfin ⊢
    split at hfin
    · next h => rw [if_pos h, h, encMag_zero]; simp
    · next h =>
      rw [if_neg h]
      obtain ⟨k, r, X, h1, -, h3, h4, h5, h6, h7⟩ := magBits_spec eb fb m e (Nat.pos_of_ne_zero h)
      have hX := h7 hmin hm
      have hr : r < 2 ^ (fb + 1) := by rw [← hX] at h5; exact_mod_cast h5
      have hk : k = 0 ∨ 2 ^ fb ≤ r := h6.imp id fun h => by rw [← hX] at h; exact_mod_cast h
      have hw : magBits eb fb m e = k * 2 ^ fb + r := by omega
      have := inf_lt eb fb
      rw [encMag_of hr.le hk (by rw [Nat.mod_eq_of_lt (by omega)]; exact hw), hX, h3]
  unfold encValue datumValue
  rw [s2, ← encMag_mod, s1, hmag]
  cases neg <;> simp

/-- Every finite binary32 magnitude is far below the binary64 overflow bound. -/
theorem encMag32_lt (u : Nat) : encMag 8 23 u < overflowAt 11 52 := by
  obtain ⟨k, r, h1, h2, -, h4⟩ := encMag_eq 8 23 u
  have hu : u % 2 ^ (8 + 23) < 2 ^ 31 := Nat.mod_lt _ (by positivity)
  have hk : k ≤ 255 := by omega
  have hs := scaleAt_mono 8 23 hk
  have hp := scaleAt_pos 8 23 k
  have hr : (r : ℚ) ≤ 2 ^ 24 := by exact_mod_cast h2.le
  rw [h4]
  calc (r : ℚ) * scaleAt 8 23 k ≤ 2 ^ 24 * scaleAt 8 23 255 := mul_le_mul hr hs hp.le (by norm_num)
    _ < overflowAt 11 52 := by
      have big := scaleAt_mono 11 52 (show 1274 ≤ 2 ^ 11 - 3 by norm_num)
      have low : scaleAt 11 52 1274 = 2 ^ (200 : ℤ) := by rw [scaleAt, minExp]; norm_num
      rw [low] at big
      rw [overflowAt_eq 11 52 (by norm_num)]
      have h32 : scaleAt 8 23 255 = 2 ^ (106 : ℤ) := by rw [scaleAt, minExp]; norm_num
      rw [h32]
      norm_num at big ⊢
      linarith

/-- Widening a finite binary32 datum is exact (00_scope.md R11). -/
theorem widen_exact (u : Nat) (h : EncFin 8 23 u) :
    EncFin 11 52 (bitsOf 11 52 (datumOf 8 23 u)) ∧ encValue 11 52 (bitsOf 11 52 (datumOf 8 23 u)) = encValue 8 23 u := by
  obtain ⟨m, e, hd, hv, -, hm, he⟩ := datumOf_fin h
  have hmag : (m : ℚ) * 2 ^ e = encMag 8 23 u := by
    unfold datumValue encValue at hv
    simp only [beq_iff_eq] at hv
    split at hv
    · exact neg_injective hv
    · exact hv
  rw [hd, ← hv]
  exact bitsOf_exact 11 52 (by norm_num) (by norm_num) _ m e (by omega) (by simp only [minExp] at he ⊢; norm_num at he ⊢; omega)
    (hmag ▸ encMag32_lt u)

end Sys2Proof.Machine
end

