-- ==== Sys2Proof/Laws/Port.lean ====
section
/-! SUPPORT. The acquires of a MIX, exactly: which answers they take, what they leave in the cursors and in the history, and
where the first bad answer stops them. -/

namespace Sys2Proof.Machine

/-- Only the cursors, the answers, the free counter and the history differ. -/
def PortFrame (s u : State) : Prop :=
  u = { s with sPtr := u.sPtr, answers := u.answers, free := u.free, hist := u.hist }

theorem PortFrame.refl (s : State) : PortFrame s s := rfl

theorem PortFrame.trans {s t u : State} (h : PortFrame s t) (k : PortFrame t u) : PortFrame s u := by
  unfold PortFrame at *
  rw [k, h]

theorem answerAt_zero (s : State) : answerAt s 0 = nextAnswer s := by
  unfold answerAt nextAnswer
  cases s.answers <;> simp

theorem acquire_frame (h : Word) (s : State) : PortFrame s (acquire h s) := by
  obtain ⟨ans, fr, e⟩ := acquire_shape h s
  rw [e]
  rfl

theorem acquire_hist (h : Word) (s : State) : (acquire h s).hist = s.hist ++ [.acquire h (answerAt s 0)] := by
  obtain ⟨ans, fr, e⟩ := acquire_shape h s
  rw [e, answerAt_zero]

theorem acquire_sPtr (h : Word) (s : State) : (acquire h s).sPtr = s.sPtr := by
  obtain ⟨ans, fr, e⟩ := acquire_shape h s
  rw [e]

/-- An acquire takes the first answer and leaves the later ones. -/
theorem acquire_answerAt (h : Word) (s : State) (j : Nat) : answerAt (acquire h s) j = answerAt s (j + 1) := by
  unfold acquire answerAt
  cases hs : s.answers with
  | nil =>
    simp only [State.record_answers, State.draw_answers, State.record_free, State.draw_free, hs, List.getD_nil,
      List.length_nil, Nat.sub_zero]
    congr 1
    omega
  | cons a rest =>
    simp only [State.record_answers, State.setAnswers_answers, State.record_free, State.setAnswers_free,
      List.getD_cons_succ, List.length_cons, Nat.add_sub_add_right]

/-- An acquire uses up one answer. -/
theorem acquire_answers (h : Word) (s : State) : (acquire h s).answers = s.answers.drop 1 := by
  unfold acquire
  cases hs : s.answers with
  | nil => simp only [State.record_answers, State.draw_answers, hs, List.drop_nil]
  | cons a rest => simp only [State.record_answers, State.setAnswers_answers, List.drop_succ_cons, List.drop_zero]

/-- Acquiring `n` streams from stream `i` up, with good answers: the cursors hold the answers, one acquire each is recorded in
ascending order, and nothing else changes but what the port itself consumes (45_mix_command.md R225). -/
theorem acquireAll_good : ∀ (n i : Nat) (s : State), i + n ≤ 32 →
    (∀ k < n, answerAt s k ≠ 0 ∧ (answerAt s k).toNat + (s.sAvailAt (i + k)).toNat ≤ 2 ^ 32) →
    ∃ u, acquireAll n i s = .on u ∧ PortFrame s u ∧
      u.hist = s.hist ++ (List.range n).map (fun k => .acquire (s.sChunkAt (i + k)) (answerAt s k)) ∧
      (∀ j, u.sPtrAt j = if i ≤ j ∧ j < i + n then answerAt s (j - i) else s.sPtrAt j) ∧
      (∀ j, answerAt u j = answerAt s (j + n)) ∧ u.answers = s.answers.drop n := by
  intro n
  induction n with
  | zero =>
    intro i s _ _
    exact ⟨s, rfl, PortFrame.refl s, by simp, fun j => by rw [if_neg (by omega)], fun _ => rfl, rfl⟩
  | succ n ih =>
    intro i s hb hg
    have h0 := hg 0 (by omega)
    rw [answerAt_zero, Nat.add_zero] at h0
    generalize hs1 : (acquire (s.sChunkAt i) s).setSPtr i (nextAnswer s) = s1
    have f1 : PortFrame s s1 := by
      subst hs1
      exact (acquire_frame (s.sChunkAt i) s).trans rfl
    have a1 : ∀ j, answerAt s1 j = answerAt s (j + 1) := by
      subst hs1
      exact acquire_answerAt (s.sChunkAt i) s
    have p1 : ∀ j, s1.sPtrAt j = if j = i then answerAt s 0 else s.sPtrAt j := by
      intro j
      subst hs1
      rw [State.setSPtr_sPtrAt _ _ _ _ (by omega), answerAt_zero]
      simp only [State.sPtrAt, acquire_sPtr]
    have h1 : s1.hist = s.hist ++ [.acquire (s.sChunkAt i) (answerAt s 0)] := by
      subst hs1
      exact acquire_hist (s.sChunkAt i) s
    have av : s1.sAvail = s.sAvail := by rw [f1]
    have ch : s1.sChunk = s.sChunk := by rw [f1]
    have e1 : acquireStream i s = .on s1 := by
      rcases acquireStream_cases i s with ⟨-, -, h⟩ | ⟨h, -⟩ | ⟨-, h, -⟩
      · rw [h, hs1]
      · exact absurd h h0.1
      · omega
    have n1 : s1.answers = s.answers.drop 1 := by
      subst hs1
      exact acquire_answers (s.sChunkAt i) s
    obtain ⟨u, hu, fu, hh, hp, ha, hn⟩ := ih (i + 1) s1 (by omega) fun k hk => by
      have := hg (k + 1) (by omega)
      rw [a1, show i + 1 + k = i + (k + 1) by omega]
      simp only [State.sAvailAt, av] at this ⊢
      exact this
    refine ⟨u, by rw [acquireAll, e1]; exact hu, f1.trans fu, ?_, fun j => ?_, fun j => ?_, ?_⟩
    · rw [hh, h1, List.range_succ_eq_map]
      simp only [List.map_cons, List.map_map, List.append_assoc, List.singleton_append, Nat.add_zero]
      congr 3
      funext k
      simp only [Function.comp, State.sChunkAt, ch, a1]
      congr 2
      omega
    · rw [hp, p1]
      by_cases hj : i + 1 ≤ j ∧ j < i + 1 + n
      · rw [if_pos hj, if_pos (by omega), a1]
        congr 1
        omega
      · rw [if_neg hj]
        by_cases hj' : j = i
        · subst hj'; rw [if_pos rfl, if_pos (by omega), Nat.sub_self]
        · rw [if_neg hj', if_neg (by omega)]
    · rw [ha, a1]
      congr 1
    · rw [hn, n1, List.drop_drop, Nat.add_comm]

/-- Acquiring in two parts. -/
theorem acquireAll_add (m n : Nat) : ∀ (i : Nat) (s : State),
    acquireAll (m + n) i s = (acquireAll m i s).andThen (acquireAll n (i + m)) := by
  induction m with
  | zero => intro i s; rw [Nat.zero_add]; rfl
  | succ m ih =>
    intro i s
    rw [Nat.succ_add, acquireAll, acquireAll]
    cases acquireStream i s with
    | on t =>
      simp only [Progress.andThen]
      rw [ih, show i + 1 + m = i + (m + 1) by omega]
      rfl
    | halt t => rfl

/-- The first bad answer stops the acquires with its fault taken, in the state the acquires up to it have reached. -/
theorem acquireAll_bad (n k : Nat) (s : State) (hk : k < n) (hn : n ≤ 32)
    (hg : ∀ j < k, answerAt s j ≠ 0 ∧ (answerAt s j).toNat + (s.sAvailAt j).toNat ≤ 2 ^ 32) :
    ∃ u, PortFrame s u ∧
      u.hist = s.hist ++ (List.range (k + 1)).map (fun j => .acquire (s.sChunkAt j) (answerAt s j)) ∧
      (∀ j, u.sPtrAt j = if j < k then answerAt s j else s.sPtrAt j) ∧ u.answers = s.answers.drop (k + 1) ∧
      (answerAt s k = 0 → acquireAll n 0 s = .halt (takeFault .null k 0 u)) ∧
      (answerAt s k ≠ 0 → 2 ^ 32 < (answerAt s k).toNat + (s.sAvailAt k).toNat →
        acquireAll n 0 s = .halt (takeFault .addrWrap k 0 u)) := by
  obtain ⟨u, hu, fu, hh, hp, ha, hu'⟩ := acquireAll_good k 0 s (by omega) fun j hj => by
    rw [Nat.zero_add]; exact hg j hj
  have split : acquireAll n 0 s = (acquireStream k u).andThen (acquireAll (n - k - 1) (k + 1)) := by
    rw [show n = k + ((n - k - 1) + 1) by omega, acquireAll_add, hu, Nat.zero_add]
    simp only [Progress.andThen, acquireAll]
    congr 2
    omega
  have a0 : nextAnswer u = answerAt s k := by rw [← answerAt_zero, ha, Nat.zero_add]
  have ch : u.sChunk = s.sChunk := by rw [fu]
  have av : u.sAvail = s.sAvail := by rw [fu]
  refine ⟨acquire (u.sChunkAt k) u, fu.trans (acquire_frame _ _), ?_, fun j => ?_,
    by rw [acquire_answers, hu', List.drop_drop], fun h0 => ?_, fun h0 h1 => ?_⟩
  · rw [acquire_hist, hh, List.range_succ, List.map_append, ha, Nat.zero_add, ← List.append_assoc]
    simp only [State.sChunkAt, ch, Nat.zero_add, List.map_cons, List.map_nil]
  · have := hp j
    simp only [State.sPtrAt, acquire_sPtr] at this ⊢
    rw [this]
    simp only [Nat.zero_le, true_and, Nat.zero_add, Nat.sub_zero]
  · rcases acquireStream_cases k u with ⟨h, -, -⟩ | ⟨-, h⟩ | ⟨h, -, -⟩
    · exact absurd (a0.trans h0) h
    · rw [split, h]; rfl
    · exact absurd (a0.trans h0) h
  · rcases acquireStream_cases k u with ⟨-, h, -⟩ | ⟨h, -⟩ | ⟨-, -, h⟩
    · simp only [State.sAvailAt, av, a0] at h h1; omega
    · exact absurd (a0.symm.trans h) h0
    · rw [split, h]; rfl

end Sys2Proof.Machine
end

