-- ==== Sys2Proof/Laws/Slots.lean ====
section
/-! SUPPORT. What a whole kernel call computes: the bytes of every slot and the accesses in their order, for the mixing kernels
and for the in-place kernels, from the state the kernel starts in. -/

namespace Sys2Proof.Machine

/-! ## The accesses of one slot -/

theorem readEvent_hist (s : State) (a n : Nat) : (s.readEvent a n).hist = s.hist ++ [.read a (s.readBytes a n)] := rfl

theorem advancePtr_hist (i w : Nat) (s : State) : (advancePtr i w s).hist = s.hist := rfl

theorem passStream_hist (L : Lane) (i : Nat) (s : State) : ∃ l, (passStream L i s).hist = s.hist ++ l ∧
    l.map accessOf =
      if L.nz (s.sgainAt i s.chIdx.toNat) then [some (false, (s.sPtrAt i).toNat, L.width)] else [] := by
  unfold passStream
  split
  · next h =>
    refine ⟨[.read (s.sPtrAt i).toNat (s.readBytes (s.sPtrAt i).toNat L.width)], ?_, ?_⟩
    · rw [advancePtr_hist, readEvent_hist]
    · simp [accessOf, State.readBytes]
  · exact ⟨[], by rw [advancePtr_hist, List.append_nil], rfl⟩

/-- The reads of a slot: one of each stream whose gain is nonzero, in ascending order (43_mix_kernels.md R191, R192). -/
theorem mixStreams_hist (L : Lane) : ∀ (n i : Nat) (acc : L.Acc) (s : State), i + n ≤ 32 →
    ∃ l, (mixStreams L n i acc s).2.hist = s.hist ++ l ∧ l.map accessOf =
      ((List.range' i n).filter fun k => L.nz (s.sgainAt k s.chIdx.toNat)).map
        fun k => some (false, (s.sPtrAt k).toNat, L.width) := by
  intro n
  induction n with
  | zero => intro i acc s _; exact ⟨[], (List.append_nil _).symm, rfl⟩
  | succ n ih =>
    intro i acc s hb
    obtain ⟨l, hl, ml⟩ := passStream_hist L i s
    obtain ⟨l', hl', ml'⟩ := ih (i + 1) (addStream L i acc s) (passStream L i s) (by omega)
    refine ⟨l ++ l', by rw [mixStreams, hl', hl, List.append_assoc], ?_⟩
    have same : ((List.range' (i + 1) n).filter fun k => L.nz ((passStream L i s).sgainAt k (passStream L i s).chIdx.toNat)).map
        (fun k => some (false, ((passStream L i s).sPtrAt k).toNat, L.width)) =
        ((List.range' (i + 1) n).filter fun k => L.nz (s.sgainAt k s.chIdx.toNat)).map
        (fun k => some (false, (s.sPtrAt k).toNat, L.width)) := by
      simp only [(passStream_frame L i s).sgainAt, passStream_chIdx]
      refine List.map_congr_left fun k hk => ?_
      have hk' : i + 1 ≤ k := by
        have := (List.mem_filter.1 hk).1
        rw [List.mem_range'_1] at this
        exact this.1
      rw [passStream_sPtrAt L i k s (by omega), if_neg (by omega)]
    rw [List.map_append, ml, ml', same, List.range'_succ, List.filter_cons]
    split <;> simp

theorem slotEnd_hist (L : Lane) (C n a : Nat) (acc : L.Acc) (u : State) :
    (nextChannel C (moveDest n (writeSample L a acc u))).hist =
      u.hist ++ [.write a (L.out (Config.quietNaN u.free) acc)] := by
  simp only [nextChannel, moveDest, writeSample, State.writeBytes, State.setChIdx_hist, State.draw_hist,
    State.setDCur_hist, State.record_hist, State.setMem_hist]

/-- The accesses of one slot of a mixing kernel. -/
theorem mixSlot_hist (L : Lane) (hL : L.Sound) (C NS a : Nat) (s : State) (hNS : NS ≤ 32) :
    ∃ l, (mixSlot L C NS a s).hist = s.hist ++ l ∧ l.map accessOf =
      mixAccesses L NS (fun i => (s.sPtrAt i).toNat) a (fun i => s.sgainAt i s.chIdx.toNat) 0 := by
  obtain ⟨l, hl, ml⟩ := mixStreams_hist L NS 0 L.zero s (by omega)
  rw [mixSlot_eq, slotEnd_hist, hL.park_hist, hl, List.append_assoc]
  refine ⟨_, rfl, ?_⟩
  rw [List.map_append, ml, ← List.range_eq_range']
  simp [mixAccesses, accessOf, hL.out_length]

/-! ## The channel of a slot -/

/-- The channel after `c`, wrapping at the channel count. -/
theorem next_channel_eq (C : Nat) (c : BitVec 6) (hC : C ≤ 32) (hc : c.toNat < C) :
    BitVec.toNat (if C ≤ c.toNat + 1 then (0 : BitVec 6) else BitVec.ofNat 6 (c.toNat + 1)) = (c.toNat + 1) % C := by
  split
  · rw [show c.toNat + 1 = C by omega, Nat.mod_self]; rfl
  · rw [BitVec.toNat_ofNat, Nat.mod_eq_of_lt (by omega), Nat.mod_eq_of_lt (by omega)]

theorem channel_shift (C c j : Nat) : ((c + 1) % C + j) % C = (c + (j + 1)) % C := by
  rw [Nat.mod_add_mod]
  congr 1
  omega

/-! ## A mixing kernel over its slots -/

theorem slotSum_zero (L : Lane) (NS : Nat) (s : State) (hNS : NS ≤ 32) :
    (mixStreams L NS 0 L.zero s).1 =
      slotSum L NS s.mem (fun i => (s.sPtrAt i).toNat) (fun i => s.sgainAt i s.chIdx.toNat) 0 := by
  rw [mixStreams_acc L NS 0 L.zero s (by omega), slotSum]
  congr 1
  funext x k
  simp only [addStream, State.readBytes, Nat.zero_add, Nat.zero_mul, Nat.add_zero]

/-- A slot's sum over a window that a store beside it has not touched, from the cursors one slot on. -/
theorem slotSum_step (L : Lane) (NS : Nat) (m m' : Memory) (b b' : Nat → Nat) (g : Nat → Word) (j : Nat)
    (hb : ∀ i < NS, b' i = b i + L.width)
    (hm : ∀ i < NS, m'.load (b' i + j * L.width) L.width = m.load (b' i + j * L.width) L.width) :
    slotSum L NS m' b' g j = slotSum L NS m b g (j + 1) := by
  unfold slotSum
  have : ∀ (l : List Nat) (z : L.Acc), (∀ i ∈ l, i < NS) →
      l.foldl (fun x i => if L.nz (g i) then L.add x (L.term (m'.load (b' i + j * L.width) L.width) (g i)) else x) z =
      l.foldl (fun x i => if L.nz (g i) then L.add x (L.term (m.load (b i + (j + 1) * L.width) L.width) (g i)) else x) z := by
    intro l
    induction l with
    | nil => intro z _; rfl
    | cons i l ih =>
      intro z hl
      have hi := hl i (List.mem_cons_self ..)
      rw [List.foldl_cons, List.foldl_cons, ih _ fun k hk => hl k (List.mem_cons_of_mem _ hk), hm i hi, hb i hi,
        Nat.succ_mul, show b i + L.width + j * L.width = b i + (j * L.width + L.width) by omega]
  exact this _ _ fun i hi => List.mem_range.1 hi

/-- Every slot of a mixing kernel's destination holds the encoded sum of the streams' terms, where no stream's window meets the
destination (43_mix_kernels.md R191). -/
theorem mixSlots_bytes (L : Lane) (hL : L.Sound) (C NS : Nat) (hC : C ≤ 32) (hNS : NS ≤ 32) : ∀ (n a : Nat) (s : State),
    s.chIdx.toNat < C → (∀ i < NS, (s.sPtrAt i).toNat + n * L.width ≤ 4294967296) →
    (∀ i < NS, (s.sPtrAt i).toNat + n * L.width ≤ a ∨ a + n * L.width ≤ (s.sPtrAt i).toNat) →
    ∀ j < n, SlotHolds L (mixSlots L C NS n a s).mem a j
      (slotSum L NS s.mem (fun i => (s.sPtrAt i).toNat) (fun i => s.sgainAt i ((s.chIdx.toNat + j) % C)) j) := by
  intro n
  induction n with
  | zero => intro a s _ _ _ j hj; omega
  | succ n ih =>
    intro a s hc hw hd j hj
    have hm : (n + 1) * L.width = n * L.width + L.width := Nat.succ_mul ..
    have fr := mixSlot_frame L hL C NS a s
    obtain ⟨k, hk⟩ := mixSlot_mem L hL C NS a s
    have hsum := slotSum_zero L NS s hNS
    rw [mixSlots]
    cases j with
    | zero =>
      refine ⟨k, ?_⟩
      rw [Nat.zero_mul, Nat.add_zero, Memory.load_congr _ (mixSlot L C NS a s).mem L.width a
        (fun y _ h2 => mixSlots_outside L hL C NS n _ _ y (.inl h2)), hk, Nat.add_zero, Nat.mod_eq_of_lt hc, ← hsum]
      conv_lhs => rw [← hL.out_length (Config.quietNaN k) (mixStreams L NS 0 L.zero s).1]
      exact Memory.load_store_same _ _ _
    | succ j =>
      have hpos := hL.width_pos
      have hn : 0 < n := by omega
      have hW : L.width ≤ n * L.width := Nat.le_mul_of_pos_left _ hn
      have hjW : j * L.width + L.width ≤ n * L.width := by
        rw [← Nat.succ_mul]; exact Nat.mul_le_mul_right _ (by omega)
      have hp : ∀ i < NS, ((mixSlot L C NS a s).sPtrAt i).toNat = (s.sPtrAt i).toNat + L.width := by
        intro i hi
        have h1 := (mixStreams_sPtrAt L NS 0 L.zero s (by omega) i).1 (by omega) (by have := hw i hi; omega)
        rw [← h1]
        simp only [State.sPtrAt, mixSlot_sPtr L hL]
      have hch : (mixSlot L C NS a s).chIdx.toNat = (s.chIdx.toNat + 1) % C := by
        rw [mixSlot_chIdx L hL]; exact next_channel_eq C _ hC hc
      obtain ⟨k', hk'⟩ := ih (a + L.width) (mixSlot L C NS a s) (by rw [hch]; exact Nat.mod_lt _ (by omega))
        (fun i hi => by rw [hp i hi]; have := hw i hi; omega)
        (fun i hi => by rw [hp i hi]; have := hd i hi; omega) j (by omega)
      refine ⟨k', ?_⟩
      rw [show a + (j + 1) * L.width = a + L.width + j * L.width by rw [Nat.succ_mul]; omega, hk']
      congr 1
      simp only [fr.sgainAt, hch, channel_shift]
      refine slotSum_step L NS s.mem _ _ _ _ j hp fun i hi => ?_
      rw [hk]
      refine Memory.load_store_outside _ _ _ _ _ ?_
      rw [hL.out_length, hp i hi]
      have := hd i hi
      omega

/-- A mixing kernel writes its slots in ascending order, each the encoded sum over the memory the slots before it left: this
determines an overlapping destination (43_mix_kernels.md R191; 20_memory.md R74). -/
theorem mixSlots_memories (L : Lane) (hL : L.Sound) (C NS : Nat) (hC : C ≤ 32) (hNS : NS ≤ 32) : ∀ (n a : Nat) (s : State),
    s.chIdx.toNat < C → (∀ i < NS, (s.sPtrAt i).toNat + n * L.width ≤ 4294967296) →
    ∃ ms : Nat → Memory, ms 0 = s.mem ∧ ms n = (mixSlots L C NS n a s).mem ∧
      ∀ j < n, ∃ k, ms (j + 1) = (ms j).store (a + j * L.width) (L.out (Config.quietNaN k)
        (slotSum L NS (ms j) (fun i => (s.sPtrAt i).toNat) (fun i => s.sgainAt i ((s.chIdx.toNat + j) % C)) j)) := by
  intro n
  induction n with
  | zero => intro a s _ _; exact ⟨fun _ => s.mem, rfl, rfl, fun j hj => absurd hj (Nat.not_lt_zero j)⟩
  | succ n ih =>
    intro a s hc hw
    have hm : (n + 1) * L.width = n * L.width + L.width := Nat.succ_mul ..
    have fr := mixSlot_frame L hL C NS a s
    obtain ⟨k, hk⟩ := mixSlot_mem L hL C NS a s
    rw [slotSum_zero L NS s hNS] at hk
    have first : (mixSlot L C NS a s).mem = s.mem.store (a + 0 * L.width) (L.out (Config.quietNaN k)
        (slotSum L NS s.mem (fun i => (s.sPtrAt i).toNat) (fun i => s.sgainAt i ((s.chIdx.toNat + 0) % C)) 0)) := by
      rw [hk, Nat.zero_mul, Nat.add_zero, Nat.add_zero, Nat.mod_eq_of_lt hc]
    rcases Nat.eq_zero_or_pos n with rfl | hn
    · refine ⟨fun j => if j = 0 then s.mem else (mixSlot L C NS a s).mem, rfl, rfl, fun j hj => ⟨k, ?_⟩⟩
      obtain rfl : j = 0 := by omega
      exact first
    · have hW : L.width ≤ n * L.width := Nat.le_mul_of_pos_left _ hn
      have hpos := hL.width_pos
      have hp : ∀ i < NS, ((mixSlot L C NS a s).sPtrAt i).toNat = (s.sPtrAt i).toNat + L.width := by
        intro i hi
        have h1 := (mixStreams_sPtrAt L NS 0 L.zero s (by omega) i).1 (by omega) (by have := hw i hi; omega)
        rw [← h1]
        simp only [State.sPtrAt, mixSlot_sPtr L hL]
      have hch : (mixSlot L C NS a s).chIdx.toNat = (s.chIdx.toNat + 1) % C := by
        rw [mixSlot_chIdx L hL]; exact next_channel_eq C _ hC hc
      obtain ⟨ms, h0, hn', hs⟩ := ih (a + L.width) (mixSlot L C NS a s) (by rw [hch]; exact Nat.mod_lt _ (by omega))
        (fun i hi => by rw [hp i hi]; have := hw i hi; omega)
      refine ⟨fun j => Nat.casesOn j s.mem fun j => ms j, rfl, hn', fun j hj => ?_⟩
      · cases j with
        | zero => exact ⟨k, h0.trans first⟩
        | succ j =>
          obtain ⟨k', hk'⟩ := hs j (by omega)
          refine ⟨k', hk'.trans ?_⟩
          simp only [fr.sgainAt, hch, channel_shift]
          rw [slotSum_step L NS (ms j) (ms j) _ _ _ j hp fun _ _ => rfl, Nat.succ_mul,
            show a + L.width + j * L.width = a + (j * L.width + L.width) by omega]

/-- The accesses of a mixing kernel, slot by slot (43_mix_kernels.md R191, R192). -/
theorem mixSlots_hist (L : Lane) (hL : L.Sound) (C NS : Nat) (hC : C ≤ 32) (hNS : NS ≤ 32) : ∀ (n a : Nat) (s : State),
    s.chIdx.toNat < C → (∀ i < NS, (s.sPtrAt i).toNat + n * L.width ≤ 4294967296) →
    ∃ l, (mixSlots L C NS n a s).hist = s.hist ++ l ∧ l.map accessOf = (List.range n).flatMap fun j =>
      mixAccesses L NS (fun i => (s.sPtrAt i).toNat) a (fun i => s.sgainAt i ((s.chIdx.toNat + j) % C)) j := by
  intro n
  induction n with
  | zero => intro a s _ _; exact ⟨[], (List.append_nil _).symm, rfl⟩
  | succ n ih =>
    intro a s hc hw
    have hm : (n + 1) * L.width = n * L.width + L.width := Nat.succ_mul ..
    have fr := mixSlot_frame L hL C NS a s
    obtain ⟨l, hl, ml⟩ := mixSlot_hist L hL C NS a s hNS
    rw [mixSlots]
    rcases Nat.eq_zero_or_pos n with rfl | hn
    · refine ⟨l, hl, ?_⟩
      rw [ml]
      simp [Nat.mod_eq_of_lt hc]
    · have hW : L.width ≤ n * L.width := Nat.le_mul_of_pos_left _ hn
      have hpos := hL.width_pos
      have hp : ∀ i < NS, ((mixSlot L C NS a s).sPtrAt i).toNat = (s.sPtrAt i).toNat + L.width := by
        intro i hi
        have h1 := (mixStreams_sPtrAt L NS 0 L.zero s (by omega) i).1 (by omega) (by have := hw i hi; omega)
        rw [← h1]
        simp only [State.sPtrAt, mixSlot_sPtr L hL]
      have hch : (mixSlot L C NS a s).chIdx.toNat = (s.chIdx.toNat + 1) % C := by
        rw [mixSlot_chIdx L hL]; exact next_channel_eq C _ hC hc
      obtain ⟨l', hl', ml'⟩ := ih (a + L.width) (mixSlot L C NS a s) (by rw [hch]; exact Nat.mod_lt _ (by omega))
        (fun i hi => by rw [hp i hi]; have := hw i hi; omega)
      refine ⟨l ++ l', by rw [hl', hl, List.append_assoc], ?_⟩
      rw [List.map_append, ml, ml', List.range_succ_eq_map, List.flatMap_cons, List.flatMap_map]
      congr 1
      · simp [Nat.mod_eq_of_lt hc]
      · refine congrArg (fun f => List.flatMap f (List.range n)) (funext fun j => ?_)
        simp only [fr.sgainAt, hch, channel_shift, mixAccesses, Nat.succ_eq_add_one]
        congr 1
        · refine List.map_congr_left fun i hi => ?_
          rw [hp i (List.mem_range.1 (List.mem_filter.1 hi).1), Nat.succ_mul,
            show (s.sPtrAt i).toNat + L.width + j * L.width = (s.sPtrAt i).toNat + (j * L.width + L.width) by omega]
        · rw [Nat.succ_mul, show a + L.width + j * L.width = a + (j * L.width + L.width) by omega]

/-! ## An in-place kernel over its slots -/

/-- Every slot of an in-place kernel's buffer holds the encoded product of its old sample (46_volume.md R245, R247). -/
theorem volSlots_bytes (L : Lane) (hL : L.Sound) (C : Nat) (hC : C ≤ 32) : ∀ (n a : Nat) (s : State),
    s.chIdx.toNat < C → ∀ j < n, SlotHolds L (volSlots L C n a s).mem a j
      (L.term (s.mem.load (a + j * L.width) L.width) (s.olinAt ((s.chIdx.toNat + j) % C))) := by
  intro n
  induction n with
  | zero => intro a s _ j hj; omega
  | succ n ih =>
    intro a s hc j hj
    have fr := volSlot_frame L C a s
    have hk := volSlot_mem L C a s
    rw [volSlots]
    cases j with
    | zero =>
      refine ⟨s.free, ?_⟩
      rw [Nat.zero_mul, Nat.add_zero, Memory.load_congr _ (volSlot L C a s).mem L.width a
        (fun y _ h2 => volSlots_outside L hL C n _ _ y (.inl h2)), hk, Nat.add_zero, Nat.mod_eq_of_lt hc]
      conv_lhs => rw [← hL.out_length (Config.quietNaN s.free) (volTerm L a s)]
      exact Memory.load_store_same _ _ _
    | succ j =>
      have hch : (volSlot L C a s).chIdx.toNat = (s.chIdx.toNat + 1) % C := by
        rw [volSlot_chIdx]; exact next_channel_eq C _ hC hc
      obtain ⟨k', hk'⟩ := ih (a + L.width) (volSlot L C a s) (by rw [hch]; exact Nat.mod_lt _ (by omega)) j (by omega)
      refine ⟨k', ?_⟩
      rw [show a + (j + 1) * L.width = a + L.width + j * L.width by rw [Nat.succ_mul]; omega, hk', fr.olinAt, hch,
        channel_shift, hk, Memory.load_store_outside _ _ _ _ _ (by rw [hL.out_length]; omega)]

theorem volSlot_hist (L : Lane) (hL : L.Sound) (C a : Nat) (s : State) :
    ∃ l, (volSlot L C a s).hist = s.hist ++ l ∧ l.map accessOf = volAccesses L a 0 := by
  rw [volSlot_eq, slotEnd_hist, readEvent_hist, List.append_assoc]
  refine ⟨_, rfl, ?_⟩
  simp [volAccesses, accessOf, hL.out_length, State.readBytes]

/-- The accesses of an in-place kernel, slot by slot: the read, then the write at the same address. -/
theorem volSlots_hist (L : Lane) (hL : L.Sound) (C : Nat) : ∀ (n a : Nat) (s : State),
    ∃ l, (volSlots L C n a s).hist = s.hist ++ l ∧
      l.map accessOf = (List.range n).flatMap fun j => volAccesses L a j := by
  intro n
  induction n with
  | zero => intro a s; exact ⟨[], (List.append_nil _).symm, rfl⟩
  | succ n ih =>
    intro a s
    obtain ⟨l, hl, ml⟩ := volSlot_hist L hL C a s
    obtain ⟨l', hl', ml'⟩ := ih (a + L.width) (volSlot L C a s)
    refine ⟨l ++ l', by rw [volSlots, hl', hl, List.append_assoc], ?_⟩
    rw [List.map_append, ml, ml', List.range_succ_eq_map, List.flatMap_cons, List.flatMap_map]
    refine congrArg (fun f => volAccesses L a 0 ++ List.flatMap f (List.range n)) (funext fun j => ?_)
    simp only [volAccesses, Nat.succ_eq_add_one, Nat.succ_mul]
    rw [show a + L.width + j * L.width = a + (j * L.width + L.width) by omega]

end Sys2Proof.Machine
end

