-- ==== Sys2Proof/Laws/Paths.lean ====
section
/-! SUPPORT. The conditions of Safety.lean read off the model's own checks, and the state a MIX and a VOL reach before their
kernel when they hold. -/

namespace Sys2Proof.Machine

/-! ## The checks -/

theorem validate_none {F : Fmt} {C NS : Nat} {s : State} (h : Valid F C NS s) : validate F C NS s = none := by
  obtain ⟨hc, hn, hd, hl, hf, hw⟩ := h
  unfold validate
  rw [if_neg (by simp only [Config.channelsMax]; omega), if_neg (by simp only [Config.streamsMax]; omega), if_neg hd,
    if_neg hl, if_neg (by omega), if_neg (by rw [memSize_eq]; omega)]

/-- The checks pass exactly when the preconditions hold. -/
theorem validate_eq_none (F : Fmt) (C NS : Nat) (s : State) : validate F C NS s = none ↔ Valid F C NS s := by
  refine ⟨fun h => ?_, validate_none⟩
  unfold validate at h
  simp only [Config.channelsMax, Config.streamsMax, memSize_eq] at h
  split at h
  · cases h
  · next h1 =>
    split at h
    · cases h
    · next h2 =>
      split at h
      · cases h
      · next h3 =>
        split at h
        · cases h
        · next h4 =>
          split at h
          · cases h
          · next h5 =>
            split at h
            · cases h
            · next h6 => exact ⟨by omega, by omega, h3, h4, by omega, by omega⟩

theorem allLevels_iff (vol : Nat → Word) (C : Nat) (l : Word) : allLevels vol C l = true ↔ ∀ ch < C, vol ch = l := by
  simp [allLevels]

theorem levels_ne : Config.levelUnity ≠ Config.levelMuted := by decide

theorem mixSilent_iff {F : Fmt} {C NS : Nat} {m h : Bool} {s : State} (hv : Valid F C NS s) :
    mixSilent C NS m h s = true ↔ Silenced C NS m h s := by
  have hc := hv.channels
  simp only [mixSilent, Silenced, Bool.or_eq_true, allLevels_iff, beq_iff_eq, or_assoc]
  cases h
  · simp only [outVol, Bool.false_eq_true, if_false, false_and, false_or]
    refine ⟨fun k => ?_, fun k => ?_⟩
    · rcases k with k | k | k
      · exact .inl k
      · exact absurd (k 0 (by omega)) levels_ne
      · exact .inr k
    · rcases k with k | k
      · exact .inl k
      · exact .inr (.inr k)
  · simp only [outVol, if_true, true_and]

theorem mixSilent_false {F : Fmt} {C NS : Nat} {m h : Bool} {s : State} (hv : Valid F C NS s)
    (hn : ¬ Silenced C NS m h s) : mixSilent C NS m h s = false := by
  rw [Bool.eq_false_iff]
  exact fun k => hn ((mixSilent_iff hv).1 k)

theorem misaligned_none {F : Fmt} {C NS : Nat} {s : State} (h : StreamsAligned F C NS s) :
    misalignedStream F C NS s = none := by
  simp only [misalignedStream, List.find?_eq_none, List.mem_range]
  intro i hi
  simp [h i hi]

theorem misaligned_eq_none (F : Fmt) (C NS : Nat) (s : State) :
    misalignedStream F C NS s = none ↔ StreamsAligned F C NS s := by
  refine ⟨fun h i hi => ?_, misaligned_none⟩
  have := List.find?_eq_none.1 h i (List.mem_range.2 hi)
  simpa using this

/-- A MIX that passes every check up to its acquires ends as its preparation and dispatch do. -/
theorem mixCommand_starts {F : Fmt} {C NS : Nat} {m h : Bool} {s : State} (P : Config.Ports)
    (hs : MixStarts F C NS m h s) : mixCommand P F C NS m h s =
      match mixPrepare P F C NS h s with
      | .halt t => .next t
      | .on u => mixDispatch P F C NS u := by
  unfold mixCommand
  rw [validate_none hs.valid]
  simp only [mixSilent_false hs.valid hs.sounding, Bool.false_eq_true, if_false, mixStreamsPath,
    misaligned_none hs.aligned]
  all_goals cases mixPrepare P F C NS h s <;> rfl

theorem effectiveLength_le (NS : Nat) (s : State) : effectiveLength NS s ≤ s.len.toNat ∧
    ∀ i < NS, effectiveLength NS s ≤ (s.sAvailAt i).toNat := by
  have key : ∀ (l : List Nat) (m : Nat), l.foldl (fun m i => min m (s.sAvailAt i).toNat) m ≤ m ∧
      ∀ i ∈ l, l.foldl (fun m i => min m (s.sAvailAt i).toNat) m ≤ (s.sAvailAt i).toNat := by
    intro l
    induction l with
    | nil => intro m; exact ⟨Nat.le_refl _, fun i hi => absurd hi List.not_mem_nil⟩
    | cons a l ih =>
      intro m
      obtain ⟨h1, h2⟩ := ih (min m (s.sAvailAt a).toNat)
      refine ⟨Nat.le_trans h1 (Nat.min_le_left _ _), fun i hi => ?_⟩
      rcases List.mem_cons.1 hi with rfl | hi
      · exact Nat.le_trans h1 (Nat.min_le_right _ _)
      · exact h2 i hi
  obtain ⟨h1, h2⟩ := key (List.range NS) s.len.toNat
  exact ⟨h1, fun i hi => h2 i (List.mem_range.2 hi)⟩

/-! ## The state before a mixing kernel -/

/-- What a MIX has done when its kernel starts. -/
structure Prepared (F : Fmt) (C NS : Nat) (s u : State) (o : Nat → Word) (g : Nat → Nat → Word) : Prop where
  frame : PrepareFrame s u
  effLen : u.effLen.toNat = effectiveLength NS s
  sPtr : ∀ i, u.sPtrAt i = if i < NS then answerAt s i else s.sPtrAt i
  olin : ∀ j, u.olinAt j = if j < C + 32 then o (j % C) else s.olinAt j
  sgain : ∀ i ch, u.sgainAt i ch = if i < NS ∧ ch < C then g i ch else s.sgainAt i ch
  hist : u.hist = s.hist ++ (List.range NS).map (acquireEvent s)
  answers : u.answers = s.answers.drop NS

theorem mixPrepare_ready {F : Fmt} {C NS : Nat} {m h : Bool} {s : State} {o : Nat → Word} {g : Nat → Nat → Word}
    (hr : MixReady F C NS m h s o g) :
    ∃ u, mixPrepare Config.ports F C NS h s = .on u ∧ Prepared F C NS s u o g := by
  have hc := hr.starts.valid.channels
  have hn := hr.starts.valid.streams
  unfold mixPrepare
  obtain ⟨a, ha, fa, hh, hp, -, hn'⟩ := acquireAll_good NS 0 s (by omega) fun k hk => by
    rw [Nat.zero_add]; exact hr.answers k hk
  rw [ha, Progress.andThen_on]
  generalize hb : a.setEffLen (BitVec.ofNat 32 (effectiveLength NS s)) = b
  obtain ⟨v, h1, h2⟩ := linearize_on Config.ports .flt (outVol h s) o C b (by omega) (by omega) hr.output
  rw [h1, Progress.andThen_on, calcGains]
  have sv : b.sVol = s.sVol := by rw [← hb, fa]; rfl
  obtain ⟨w, h3, h4⟩ := gainStreams_on Config.ports (gainRepr F) C g (by omega) NS 0 { b with olin := v } (by omega)
    fun j k _ hj hk => by
      have e : State.olinAt { b with olin := v } k = o k := by rw [h2, if_pos (by omega), Nat.mod_eq_of_lt hk]
      rw [e]
      simp only [State.sVolAt, sv]
      exact hr.gains j (by omega) k hk
  refine ⟨_, h3, ?_⟩
  have hE := (effectiveLength_le NS s).1
  have hl : s.len.toNat < 4294967296 := s.len.isLt
  subst hb
  constructor
  · have f : PrepareFrame s a := by
      rw [fa]
      constructor <;> first | rfl | exact ⟨(List.range NS).map fun k => (s.sChunkAt k, answerAt s k), by
        rw [hh]; simp [Function.comp]⟩
    obtain ⟨⟩ := f
    constructor <;> assumption
  · show (BitVec.ofNat 32 (effectiveLength NS s)).toNat = _
    rw [BitVec.toNat_ofNat, Nat.mod_eq_of_lt (by omega)]
  · intro i
    have := hp i
    simp only [Nat.zero_le, true_and, Nat.zero_add, Nat.sub_zero] at this
    exact this
  · intro j
    have := h2 j
    rw [show (a.setEffLen (BitVec.ofNat 32 (effectiveLength NS s))).olinAt j = s.olinAt j by rw [fa]; rfl] at this
    exact this
  · intro i ch
    have := h4 i ch
    simp only [Nat.zero_le, true_and, Nat.zero_add] at this
    refine Eq.trans this ?_
    have e : State.sgainAt { (a.setEffLen (BitVec.ofNat 32 (effectiveLength NS s))) with olin := v } i ch = s.sgainAt i ch := by
      rw [fa]; rfl
    rw [e]
  · refine Eq.trans hh ?_
    simp only [Nat.zero_add]
    rfl
  · exact hn'

/-! ## Starting a kernel -/

theorem startKernel_frame (dst len : Nat) (s : State) :
    startKernel dst len s = { s with dCur := BitVec.ofNat 32 dst, dEnd := BitVec.ofNat 33 (dst + len), chIdx := 0 } := rfl

/-- The end of a MIX: the releases, the result, DONE. -/
theorem mixEnd_eq (NS : Nat) (s : State) : ((releaseAll NS 0 s).setRet s.effLen).complete =
    { s with
      ret := s.effLen
      seq := .done
      hist := s.hist ++ (List.range NS).map (releaseEvent s) } := by
  rw [releaseAll_eq]
  simp only [Nat.zero_add]
  rfl

end Sys2Proof.Machine
end

