-- ==== Sys2Proof/Laws/HostMoves.lean ====
section
/-! SUPPORT. What the host's moves rest on: the operands of a decoded MIX, the footprint of the BUSY command as the model
checks it, and the state a RESET leaves. -/

namespace Sys2Proof.Machine

/-! ## The operands of a decoded MIX -/

/-- The fields of a word that decodes to a MIX are the operands of the MIX (30_encoding.md R101). -/
theorem decode_mixOf_fields {w : Word} {F : Fmt} {C NS : Nat} {m h : Bool} (hd : decode w = .instr (mixOf F C NS m h)) :
    field w 3 0 = 1 ∧ Fmt.ofTag (field w 7 4) = some F ∧ field w 13 8 = C ∧ field w 19 14 = NS ∧
      (field w 20 20 == 1) = m ∧ (field w 21 21 == 1) = h := by
  unfold decode at hd
  split at hd
  · split at hd
    · next G hG =>
      have hi := Decoded.instr.inj hd
      unfold assemble at hi
      split at hi
      · next h1 =>
        rw [h1, hG]
        cases G <;> cases F <;>
          first
          | (injection hi with a b c d; subst a b c d; exact ⟨rfl, rfl, rfl, rfl, rfl, rfl⟩)
          | exact absurd hi (by simp [mixOf])
      all_goals cases G <;> cases F <;> exact absurd hi (by simp [mixOf, volOf, getkOf, setkOf])
    · cases hd
  · cases hd

/-- A clean word of a format whose `OP` is 1 is a MIX's, with its fields for operands. -/
theorem decode_of_clean {w : Word} {F : Fmt} (hF : Fmt.ofTag (field w 7 4) = some F) (hc : cleanWord w = true)
    (h1 : field w 3 0 = 1) :
    decode w = .instr (mixOf F (field w 13 8) (field w 19 14) (field w 20 20 == 1) (field w 21 21 == 1)) := by
  simp only [decode, if_pos hc, hF, assemble, h1]

/-- A word that decodes is clean. -/
theorem cleanWord_of_decode {w : Word} {i : Instr} (h : decode w = .instr i) : cleanWord w = true := by
  unfold decode at h
  split at h
  · assumption
  · cases h

/-! ## The footprint of the BUSY command -/

/-- The model's own checks before an acquire are the conditions of `MixStarts` and of good answers to the streams before. -/
theorem acquiresStream_iff (F : Fmt) (C NS : Nat) (m h : Bool) (s : State) (i : Nat) :
    acquiresStream F C NS m h s i = true ↔ MixStarts F C NS m h s ∧ ∀ k < i, GoodAnswer s k := by
  have good : ∀ k, goodAnswer s k = true ↔ GoodAnswer s k := by
    intro k
    rw [goodAnswer, GoodAnswer, Bool.and_eq_true, bne_iff_ne, decide_eq_true_iff]
  simp only [acquiresStream, Bool.and_eq_true, Bool.not_eq_true', List.all_eq_true, List.mem_range, good,
    Option.isNone_iff_eq_none]
  refine and_congr_left fun _ => ⟨fun ⟨⟨hv, hs⟩, ha⟩ => ?_, fun hs => ?_⟩
  · have v := (validate_eq_none F C NS s).1 hv
    refine ⟨v, fun k => ?_, (misaligned_eq_none F C NS s).1 ha⟩
    rw [(mixSilent_iff v).2 k] at hs
    cases hs
  · exact ⟨⟨validate_none hs.valid, mixSilent_false hs.valid hs.sounding⟩, misaligned_none hs.aligned⟩

theorem hasDestination_iff (w : Word) :
    hasDestination w = true ↔ w.extractLsb 3 0 = 1 ∨ w.extractLsb 3 0 = 2 := by
  have e : ∀ n : Nat, n < 16 → (field w 3 0 = n ↔ w.extractLsb 3 0 = BitVec.ofNat 4 n) := by
    intro n hn
    rw [← BitVec.toNat_inj]
    simp [field]
    omega
  rw [hasDestination, Bool.or_eq_true, beq_iff_eq, beq_iff_eq, e 1 (by omega), e 2 (by omega)]
  rfl

/-- The streams the model counts are those whose acquire the MIX issues. -/
theorem mem_acquiredStreams (s : State) (i : Nat) : i ∈ acquiredStreams s ↔
    ∃ (F : Fmt) (C NS : Nat) (m h : Bool), decode s.cmd = .instr (mixOf F C NS m h) ∧ MixStarts F C NS m h s ∧ i < NS ∧
      ∀ k < i, GoodAnswer s k := by
  unfold acquiredStreams
  constructor
  · intro hi
    split at hi
    · next F hF =>
      split at hi
      · next hc =>
        obtain ⟨h1, h2⟩ := List.mem_filter.1 hi
        obtain ⟨h3, h4⟩ := (acquiresStream_iff ..).1 h2
        exact ⟨F, _, _, _, _, decode_of_clean hF hc.1 hc.2, h3, List.mem_range.1 h1, h4⟩
      · cases hi
    · cases hi
  · rintro ⟨F, C, NS, m, h, hd, hs, hi, hg⟩
    obtain ⟨f1, f2, f3, f4, f5, f6⟩ := decode_mixOf_fields hd
    simp only [f2, f3, f4, f5, f6]
    rw [if_pos ⟨cleanWord_of_decode hd, f1⟩]
    exact List.mem_filter.2 ⟨List.mem_range.2 hi, (acquiresStream_iff ..).2 ⟨hs, hg⟩⟩

/-- The addresses the model refuses to the host while the context is BUSY are those of `InFootprint`
(70_reset_and_hazards.md R312). -/
theorem inBusyFootprint_iff (a : Nat) (s : State) : inBusyFootprint a s = true ↔ s.seq = .busy ∧ InFootprint a s := by
  rw [inBusyFootprint, Bool.and_eq_true, beq_iff_eq, Bool.or_eq_true]
  refine and_congr_right fun _ => or_congr ?_ ?_
  · rw [inDestination, Bool.and_eq_true, hasDestination_iff, inWindow, decide_eq_true_iff]
  · simp only [inSource, List.any_eq_true, mem_acquiredStreams, inWindow, decide_eq_true_iff]
    constructor
    · rintro ⟨i, ⟨F, C, NS, m, h, hd, hs, hi, hg⟩, ha⟩
      exact ⟨F, C, NS, m, h, i, hd, hs, hi, hg, ha⟩
    · rintro ⟨F, C, NS, m, h, i, hd, hs, hi, hg, ha⟩
      exact ⟨i, ⟨F, C, NS, m, h, hd, hs, hi, hg⟩, ha⟩

/-- What a move of the host that leaves the context BUSY leaves the command: its word, its operands, the answers it will get.
So the windows counted while it is BUSY are those it acquires (log entries 4, 19). -/
structure SameCommand (s t : State) : Prop where
  seq : t.seq = s.seq
  cmd : t.cmd = s.cmd
  dst : t.dst = s.dst
  len : t.len = s.len
  ovol : t.ovol = s.ovol
  sAvail : t.sAvail = s.sAvail
  answers : t.answers = s.answers
  free : t.free = s.free

theorem hostWrite_busy (off : Nat) (v : Word) (s : State) (hb : s.seq = .busy) : hostWrite off v s = s := by
  unfold hostWrite
  split
  · simp [writeCmd, acceptsCommand, hb]
  · simp [acceptsWrite, hb]
  · rfl

theorem hostMove_sameCommand {s t : State} {a : HostAction} {rest : List HostAction} (hb : s.seq = .busy)
    (hh : s.host = a :: rest) (hw : a ≠ .wait) (hr : ∀ n, a ≠ .reset n) (ht : step s = .next t) : SameCommand s t := by
  simp only [step, advance, hh] at ht
  cases a with
  | write off v =>
    have e : t = s.setHost rest := by
      rw [hostMove, hostWrite_busy off v (s.setHost rest) hb] at ht
      exact (Host.Outcome.next.inj ht).symm
    subst e
    constructor <;> rfl
  | read off =>
    have e := Host.Outcome.next.inj ht
    subst e
    unfold hostRead
    split
    · split <;> constructor <;> rfl
    · constructor <;> rfl
  | wait => exact absurd rfl hw
  | reset n => exact absurd rfl (hr n)
  | poke x v =>
    rw [hostMove, hostPoke] at ht
    split at ht
    · cases ht
    · split at ht
      · cases ht
      · have e := Host.Outcome.next.inj ht
        subst e
        constructor <;> rfl

/-! ## RESET -/

/-- A RESET in a BUSY context keeps the first `n` events of what the command reaches (70_reset_and_hazards.md R300). -/
theorem hostReset_busy (n : Nat) (s : State) (h : s.seq = .busy) :
    hostReset n s = resetMachine ((newEvents s (commandReaches s)).take n) (commandReaches s).free s := if_pos h

/-- A RESET in any other state abandons nothing. -/
theorem hostReset_idle (n : Nat) (s : State) (h : s.seq ≠ .busy) : hostReset n s = resetMachine [] s.free s := if_neg h

theorem commandReaches_next {s t : State} (h : runCommand s = .next t) : commandReaches s = t := by rw [commandReaches, h]

/-- What a MIX that the model refuses has reached: its acquires are its events. -/
theorem commandReaches_refused {F : Fmt} {C NS : Nat} {m h : Bool} {s : State} {o : Nat → Word} {g : Nat → Nat → Word}
    {r : Refusal} (hd : decode s.cmd = .instr (mixOf F C NS m h)) (hr : MixReady F C NS m h s o g)
    (hc : runCommand s = .refused r) : Prepared F C NS s (commandReaches s) o g := by
  obtain ⟨-, f2, f3, f4, -, f6⟩ := decode_mixOf_fields hd
  obtain ⟨u, hu, hp⟩ := mixPrepare_ready hr
  rw [commandReaches, hc]
  simpa only [reachedBeforeStop, f2, f3, f4, f6, mixReached, hu] using hp

end Sys2Proof.Machine
end

