-- ==== Sys2Proof/Laws/PerInstr.lean ====
section
/-! SUPPORT. One lemma per command about its encoding as syntax: the word of a well-formed command sets no must-be-zero field
of its operation, and holds the operation's and the format's numbers in their fields (30_encoding.md R90 to R92). -/

namespace Sys2Proof

theorem field_ofNat (n hi lo : Nat) (h : n < 4294967296) : field (BitVec.ofNat 32 n) hi lo = n / 2 ^ lo % 2 ^ (hi + 1 - lo) := by
  rw [field, BitVec.toNat_ofNat, Nat.mod_eq_of_lt h]

theorem flagBit_lt (b : Bool) : flagBit b < 2 := by cases b <;> decide

/-- The operation and format fields of a MIX word, and its must-be-zero field. -/
theorem encodeMix_row (F : Fmt) (ch ns : Nat) (m h : Bool) (hc : ch < 64) (hn : ns < 64) :
    field (encodeMix F ch ns m h) 3 0 = 1 ∧ field (encodeMix F ch ns m h) 7 4 = F.tag ∧
      cleanWord (encodeMix F ch ns m h) = true := by
  have ht := Machine.Fmt.tag_lt F
  have hm := flagBit_lt m
  have hh := flagBit_lt h
  have e : ∀ hi lo, field (encodeMix F ch ns m h) hi lo =
      (0x1 + F.tag * 2 ^ 4 + ch * 2 ^ 8 + ns * 2 ^ 14 + flagBit m * 2 ^ 20 + flagBit h * 2 ^ 21) / 2 ^ lo % 2 ^ (hi + 1 - lo) :=
    fun hi lo => field_ofNat _ hi lo (by omega)
  have e0 : field (encodeMix F ch ns m h) 3 0 = 1 := by rw [e]; omega
  have e1 : field (encodeMix F ch ns m h) 31 22 = 0 := by rw [e]; omega
  refine ⟨e0, by rw [e]; omega, ?_⟩
  simp only [cleanWord, e0, e1]; rfl

/-- The operation and format fields of a VOL word, and its must-be-zero fields. -/
theorem encodeVol_row (F : Fmt) (ch : Nat) (z : Bool) (hc : ch < 64) :
    field (encodeVol F ch z) 3 0 = 2 ∧ field (encodeVol F ch z) 7 4 = F.tag ∧ cleanWord (encodeVol F ch z) = true := by
  have ht := Machine.Fmt.tag_lt F
  have hz := flagBit_lt z
  have e : ∀ hi lo, field (encodeVol F ch z) hi lo =
      (0x2 + F.tag * 2 ^ 4 + ch * 2 ^ 8 + flagBit z * 2 ^ 22) / 2 ^ lo % 2 ^ (hi + 1 - lo) :=
    fun hi lo => field_ofNat _ hi lo (by omega)
  have e0 : field (encodeVol F ch z) 3 0 = 2 := by rw [e]; omega
  have e1 : field (encodeVol F ch z) 21 14 = 0 := by rw [e]; omega
  have e2 : field (encodeVol F ch z) 31 23 = 0 := by rw [e]; omega
  refine ⟨e0, by rw [e]; omega, ?_⟩
  simp only [cleanWord, e0, e1, e2]; rfl

/-- The operation and format fields of a GETK or SETK word, and its must-be-zero field. -/
theorem encodeTable_row (op : Nat) (F : Fmt) (ho : op = 3 ∨ op = 4) :
    field (encodeTable op F) 3 0 = op ∧ field (encodeTable op F) 7 4 = F.tag ∧ cleanWord (encodeTable op F) = true := by
  rcases ho with rfl | rfl <;> cases F <;> decide

namespace Laws.OpcodeRow

/-- The operation number of a command (30_encoding.md R91). -/
def opNumber : Instr → Nat
  | .mixU8 _ _ _ _ => 1
  | .mixALaw _ _ _ _ => 1
  | .mixULaw _ _ _ _ => 1
  | .mixS16LE _ _ _ _ => 1
  | .mixS16BE _ _ _ _ => 1
  | .mixS32LE _ _ _ _ => 1
  | .mixS32BE _ _ _ _ => 1
  | .mixS24LE _ _ _ _ => 1
  | .mixS24BE _ _ _ _ => 1
  | .mixS2432LE _ _ _ _ => 1
  | .mixS2432BE _ _ _ _ => 1
  | .mixF32LE _ _ _ _ => 1
  | .mixF32BE _ _ _ _ => 1
  | .volU8 _ _ => 2
  | .volALaw _ _ => 2
  | .volULaw _ _ => 2
  | .volS16LE _ _ => 2
  | .volS16BE _ _ => 2
  | .volS32LE _ _ => 2
  | .volS32BE _ _ => 2
  | .volS24LE _ _ => 2
  | .volS24BE _ _ => 2
  | .volS2432LE _ _ => 2
  | .volS2432BE _ _ => 2
  | .volF32LE _ _ => 2
  | .volF32BE _ _ => 2
  | .getkU8 => 3
  | .getkALaw => 3
  | .getkULaw => 3
  | .getkS16LE => 3
  | .getkS16BE => 3
  | .getkS32LE => 3
  | .getkS32BE => 3
  | .getkS24LE => 3
  | .getkS24BE => 3
  | .getkS2432LE => 3
  | .getkS2432BE => 3
  | .getkF32LE => 3
  | .getkF32BE => 3
  | .setkU8 => 4
  | .setkALaw => 4
  | .setkULaw => 4
  | .setkS16LE => 4
  | .setkS16BE => 4
  | .setkS32LE => 4
  | .setkS32BE => 4
  | .setkS24LE => 4
  | .setkS24BE => 4
  | .setkS2432LE => 4
  | .setkS2432BE => 4
  | .setkF32LE => 4
  | .setkF32BE => 4

/-- The format tag of a command (30_encoding.md R92). -/
def format : Instr → Fmt
  | .mixU8 _ _ _ _ => .u8
  | .mixALaw _ _ _ _ => .alaw
  | .mixULaw _ _ _ _ => .ulaw
  | .mixS16LE _ _ _ _ => .s16le
  | .mixS16BE _ _ _ _ => .s16be
  | .mixS32LE _ _ _ _ => .s32le
  | .mixS32BE _ _ _ _ => .s32be
  | .mixS24LE _ _ _ _ => .s24le
  | .mixS24BE _ _ _ _ => .s24be
  | .mixS2432LE _ _ _ _ => .s2432le
  | .mixS2432BE _ _ _ _ => .s2432be
  | .mixF32LE _ _ _ _ => .f32le
  | .mixF32BE _ _ _ _ => .f32be
  | .volU8 _ _ => .u8
  | .volALaw _ _ => .alaw
  | .volULaw _ _ => .ulaw
  | .volS16LE _ _ => .s16le
  | .volS16BE _ _ => .s16be
  | .volS32LE _ _ => .s32le
  | .volS32BE _ _ => .s32be
  | .volS24LE _ _ => .s24le
  | .volS24BE _ _ => .s24be
  | .volS2432LE _ _ => .s2432le
  | .volS2432BE _ _ => .s2432be
  | .volF32LE _ _ => .f32le
  | .volF32BE _ _ => .f32be
  | .getkU8 => .u8
  | .getkALaw => .alaw
  | .getkULaw => .ulaw
  | .getkS16LE => .s16le
  | .getkS16BE => .s16be
  | .getkS32LE => .s32le
  | .getkS32BE => .s32be
  | .getkS24LE => .s24le
  | .getkS24BE => .s24be
  | .getkS2432LE => .s2432le
  | .getkS2432BE => .s2432be
  | .getkF32LE => .f32le
  | .getkF32BE => .f32be
  | .setkU8 => .u8
  | .setkALaw => .alaw
  | .setkULaw => .ulaw
  | .setkS16LE => .s16le
  | .setkS16BE => .s16be
  | .setkS32LE => .s32le
  | .setkS32BE => .s32be
  | .setkS24LE => .s24le
  | .setkS24BE => .s24be
  | .setkS2432LE => .s2432le
  | .setkS2432BE => .s2432be
  | .setkF32LE => .f32le
  | .setkF32BE => .f32be

/-- The word of a well-formed command lies in its row of the opcode table. -/
def Statement (i : Instr) : Prop := i.wf = true → field (encode i) 3 0 = opNumber i ∧
  field (encode i) 7 4 = (format i).tag ∧ cleanWord (encode i) = true

theorem fits_of_wf {ch ns : Nat} (h : (fitsCount ch && fitsCount ns) = true) : ch < 64 ∧ ns < 64 := by
  simpa [fitsCount] using h

theorem fits_of_wf_one {ch : Nat} (h : fitsCount ch = true) : ch < 64 := by simpa [fitsCount] using h

theorem mixU8 (ch ns : Nat) (mute hasvol : Bool) : Statement (.mixU8 ch ns mute hasvol) :=
  fun h => encodeMix_row .u8 ch ns mute hasvol (fits_of_wf h).1 (fits_of_wf h).2

theorem mixALaw (ch ns : Nat) (mute hasvol : Bool) : Statement (.mixALaw ch ns mute hasvol) :=
  fun h => encodeMix_row .alaw ch ns mute hasvol (fits_of_wf h).1 (fits_of_wf h).2

theorem mixULaw (ch ns : Nat) (mute hasvol : Bool) : Statement (.mixULaw ch ns mute hasvol) :=
  fun h => encodeMix_row .ulaw ch ns mute hasvol (fits_of_wf h).1 (fits_of_wf h).2

theorem mixS16LE (ch ns : Nat) (mute hasvol : Bool) : Statement (.mixS16LE ch ns mute hasvol) :=
  fun h => encodeMix_row .s16le ch ns mute hasvol (fits_of_wf h).1 (fits_of_wf h).2

theorem mixS16BE (ch ns : Nat) (mute hasvol : Bool) : Statement (.mixS16BE ch ns mute hasvol) :=
  fun h => encodeMix_row .s16be ch ns mute hasvol (fits_of_wf h).1 (fits_of_wf h).2

theorem mixS32LE (ch ns : Nat) (mute hasvol : Bool) : Statement (.mixS32LE ch ns mute hasvol) :=
  fun h => encodeMix_row .s32le ch ns mute hasvol (fits_of_wf h).1 (fits_of_wf h).2

theorem mixS32BE (ch ns : Nat) (mute hasvol : Bool) : Statement (.mixS32BE ch ns mute hasvol) :=
  fun h => encodeMix_row .s32be ch ns mute hasvol (fits_of_wf h).1 (fits_of_wf h).2

theorem mixS24LE (ch ns : Nat) (mute hasvol : Bool) : Statement (.mixS24LE ch ns mute hasvol) :=
  fun h => encodeMix_row .s24le ch ns mute hasvol (fits_of_wf h).1 (fits_of_wf h).2

theorem mixS24BE (ch ns : Nat) (mute hasvol : Bool) : Statement (.mixS24BE ch ns mute hasvol) :=
  fun h => encodeMix_row .s24be ch ns mute hasvol (fits_of_wf h).1 (fits_of_wf h).2

theorem mixS2432LE (ch ns : Nat) (mute hasvol : Bool) : Statement (.mixS2432LE ch ns mute hasvol) :=
  fun h => encodeMix_row .s2432le ch ns mute hasvol (fits_of_wf h).1 (fits_of_wf h).2

theorem mixS2432BE (ch ns : Nat) (mute hasvol : Bool) : Statement (.mixS2432BE ch ns mute hasvol) :=
  fun h => encodeMix_row .s2432be ch ns mute hasvol (fits_of_wf h).1 (fits_of_wf h).2

theorem mixF32LE (ch ns : Nat) (mute hasvol : Bool) : Statement (.mixF32LE ch ns mute hasvol) :=
  fun h => encodeMix_row .f32le ch ns mute hasvol (fits_of_wf h).1 (fits_of_wf h).2

theorem mixF32BE (ch ns : Nat) (mute hasvol : Bool) : Statement (.mixF32BE ch ns mute hasvol) :=
  fun h => encodeMix_row .f32be ch ns mute hasvol (fits_of_wf h).1 (fits_of_wf h).2

theorem volU8 (ch : Nat) (silent : Bool) : Statement (.volU8 ch silent) :=
  fun h => encodeVol_row .u8 ch silent (fits_of_wf_one h)

theorem volALaw (ch : Nat) (silent : Bool) : Statement (.volALaw ch silent) :=
  fun h => encodeVol_row .alaw ch silent (fits_of_wf_one h)

theorem volULaw (ch : Nat) (silent : Bool) : Statement (.volULaw ch silent) :=
  fun h => encodeVol_row .ulaw ch silent (fits_of_wf_one h)

theorem volS16LE (ch : Nat) (silent : Bool) : Statement (.volS16LE ch silent) :=
  fun h => encodeVol_row .s16le ch silent (fits_of_wf_one h)

theorem volS16BE (ch : Nat) (silent : Bool) : Statement (.volS16BE ch silent) :=
  fun h => encodeVol_row .s16be ch silent (fits_of_wf_one h)

theorem volS32LE (ch : Nat) (silent : Bool) : Statement (.volS32LE ch silent) :=
  fun h => encodeVol_row .s32le ch silent (fits_of_wf_one h)

theorem volS32BE (ch : Nat) (silent : Bool) : Statement (.volS32BE ch silent) :=
  fun h => encodeVol_row .s32be ch silent (fits_of_wf_one h)

theorem volS24LE (ch : Nat) (silent : Bool) : Statement (.volS24LE ch silent) :=
  fun h => encodeVol_row .s24le ch silent (fits_of_wf_one h)

theorem volS24BE (ch : Nat) (silent : Bool) : Statement (.volS24BE ch silent) :=
  fun h => encodeVol_row .s24be ch silent (fits_of_wf_one h)

theorem volS2432LE (ch : Nat) (silent : Bool) : Statement (.volS2432LE ch silent) :=
  fun h => encodeVol_row .s2432le ch silent (fits_of_wf_one h)

theorem volS2432BE (ch : Nat) (silent : Bool) : Statement (.volS2432BE ch silent) :=
  fun h => encodeVol_row .s2432be ch silent (fits_of_wf_one h)

theorem volF32LE (ch : Nat) (silent : Bool) : Statement (.volF32LE ch silent) :=
  fun h => encodeVol_row .f32le ch silent (fits_of_wf_one h)

theorem volF32BE (ch : Nat) (silent : Bool) : Statement (.volF32BE ch silent) :=
  fun h => encodeVol_row .f32be ch silent (fits_of_wf_one h)

theorem getkU8 : Statement .getkU8 := fun _ => encodeTable_row 3 .u8 (.inl rfl)

theorem getkALaw : Statement .getkALaw := fun _ => encodeTable_row 3 .alaw (.inl rfl)

theorem getkULaw : Statement .getkULaw := fun _ => encodeTable_row 3 .ulaw (.inl rfl)

theorem getkS16LE : Statement .getkS16LE := fun _ => encodeTable_row 3 .s16le (.inl rfl)

theorem getkS16BE : Statement .getkS16BE := fun _ => encodeTable_row 3 .s16be (.inl rfl)

theorem getkS32LE : Statement .getkS32LE := fun _ => encodeTable_row 3 .s32le (.inl rfl)

theorem getkS32BE : Statement .getkS32BE := fun _ => encodeTable_row 3 .s32be (.inl rfl)

theorem getkS24LE : Statement .getkS24LE := fun _ => encodeTable_row 3 .s24le (.inl rfl)

theorem getkS24BE : Statement .getkS24BE := fun _ => encodeTable_row 3 .s24be (.inl rfl)

theorem getkS2432LE : Statement .getkS2432LE := fun _ => encodeTable_row 3 .s2432le (.inl rfl)

theorem getkS2432BE : Statement .getkS2432BE := fun _ => encodeTable_row 3 .s2432be (.inl rfl)

theorem getkF32LE : Statement .getkF32LE := fun _ => encodeTable_row 3 .f32le (.inl rfl)

theorem getkF32BE : Statement .getkF32BE := fun _ => encodeTable_row 3 .f32be (.inl rfl)

theorem setkU8 : Statement .setkU8 := fun _ => encodeTable_row 4 .u8 (.inr rfl)

theorem setkALaw : Statement .setkALaw := fun _ => encodeTable_row 4 .alaw (.inr rfl)

theorem setkULaw : Statement .setkULaw := fun _ => encodeTable_row 4 .ulaw (.inr rfl)

theorem setkS16LE : Statement .setkS16LE := fun _ => encodeTable_row 4 .s16le (.inr rfl)

theorem setkS16BE : Statement .setkS16BE := fun _ => encodeTable_row 4 .s16be (.inr rfl)

theorem setkS32LE : Statement .setkS32LE := fun _ => encodeTable_row 4 .s32le (.inr rfl)

theorem setkS32BE : Statement .setkS32BE := fun _ => encodeTable_row 4 .s32be (.inr rfl)

theorem setkS24LE : Statement .setkS24LE := fun _ => encodeTable_row 4 .s24le (.inr rfl)

theorem setkS24BE : Statement .setkS24BE := fun _ => encodeTable_row 4 .s24be (.inr rfl)

theorem setkS2432LE : Statement .setkS2432LE := fun _ => encodeTable_row 4 .s2432le (.inr rfl)

theorem setkS2432BE : Statement .setkS2432BE := fun _ => encodeTable_row 4 .s2432be (.inr rfl)

theorem setkF32LE : Statement .setkF32LE := fun _ => encodeTable_row 4 .f32le (.inr rfl)

theorem setkF32BE : Statement .setkF32BE := fun _ => encodeTable_row 4 .f32be (.inr rfl)

end Laws.OpcodeRow

end Sys2Proof
end

