-- ==== Sys2Proof/Tests/Slice0.lean ====
section
/-! SUPPORT. The model's own tests: ill-formed terms refused, words written out from the encoding, the spec's worked vectors
(95_test_vectors.md and the examples of the rules), and for every obligation with hypotheses a state that meets them. -/

namespace Sys2Proof.Tests

set_option Elab.async false

open Sys2Proof.Machine

/-! ## Well-formedness: a count that does not fit its field is refused, the largest that fits is not -/

theorem test_wf_mix_channels : (Instr.mixS16LE 64 0 false false).wf = false := by decide

theorem test_wf_mix_streams : (Instr.mixF32BE 1 64 false false).wf = false := by decide

theorem test_wf_vol_channels : (Instr.volU8 64 false).wf = false := by decide

theorem test_wf_largest : (Instr.mixU8 63 63 true true).wf = true := by decide

/-! ## Decoding: words written from the fields of 30_encoding.md R90, bits 31:23 RSV, 22 SILENT, 21 HASVOL, 20 MUTE,
19:14 NS, 13:8 CH, 7:4 FMT, 3:0 OP -/

theorem test_decode_u8 :
    decode 0b000000000_0_0_0_000000_000001_0000_0001 = .instr (.mixU8 1 0 false false) ∧
    decode 0b000000000_0_0_0_000000_000001_0000_0010 = .instr (.volU8 1 false) ∧
    decode 0b000000000_0_0_0_000000_000000_0000_0011 = .instr .getkU8 ∧
    decode 0b000000000_0_0_0_000000_000000_0000_0100 = .instr .setkU8 := by decide

theorem test_decode_alaw :
    decode 0b000000000_0_0_1_000010_000011_0001_0001 = .instr (.mixALaw 3 2 true false) ∧
    decode 0b000000000_1_0_0_000000_000010_0001_0010 = .instr (.volALaw 2 true) ∧
    decode 0b000000000_0_0_0_000000_000000_0001_0011 = .instr .getkALaw ∧
    decode 0b000000000_0_0_0_000000_000000_0001_0100 = .instr .setkALaw := by decide

theorem test_decode_ulaw :
    decode 0b000000000_0_1_0_000001_000010_0010_0001 = .instr (.mixULaw 2 1 false true) ∧
    decode 0b000000000_0_0_0_000000_100000_0010_0010 = .instr (.volULaw 32 false) ∧
    decode 0b000000000_0_0_0_000000_000000_0010_0011 = .instr .getkULaw ∧
    decode 0b000000000_0_0_0_000000_000000_0010_0100 = .instr .setkULaw := by decide

theorem test_decode_s16le :
    decode 0b000000000_0_1_0_000011_000010_0011_0001 = .instr (.mixS16LE 2 3 false true) ∧
    decode 0b000000000_1_0_0_000000_000001_0011_0010 = .instr (.volS16LE 1 true) ∧
    decode 0b000000000_0_0_0_000000_000000_0011_0011 = .instr .getkS16LE ∧
    decode 0b000000000_0_0_0_000000_000000_0011_0100 = .instr .setkS16LE := by decide

theorem test_decode_s16be :
    decode 0b000000000_0_1_1_111111_111111_0100_0001 = .instr (.mixS16BE 63 63 true true) ∧
    decode 0b000000000_0_0_0_000000_111111_0100_0010 = .instr (.volS16BE 63 false) ∧
    decode 0b000000000_0_0_0_000000_000000_0100_0011 = .instr .getkS16BE ∧
    decode 0b000000000_0_0_0_000000_000000_0100_0100 = .instr .setkS16BE := by decide

theorem test_decode_s32le :
    decode 0b000000000_0_0_0_100000_000000_0101_0001 = .instr (.mixS32LE 0 32 false false) ∧
    decode 0b000000000_0_0_0_000000_000000_0101_0010 = .instr (.volS32LE 0 false) ∧
    decode 0b000000000_0_0_0_000000_000000_0101_0011 = .instr .getkS32LE ∧
    decode 0b000000000_0_0_0_000000_000000_0101_0100 = .instr .setkS32LE := by decide

theorem test_decode_s32be :
    decode 0b000000000_0_0_0_000001_100000_0110_0001 = .instr (.mixS32BE 32 1 false false) ∧
    decode 0b000000000_1_0_0_000000_000100_0110_0010 = .instr (.volS32BE 4 true) ∧
    decode 0b000000000_0_0_0_000000_000000_0110_0011 = .instr .getkS32BE ∧
    decode 0b000000000_0_0_0_000000_000000_0110_0100 = .instr .setkS32BE := by decide

theorem test_decode_s24le :
    decode 0b000000000_0_0_0_000010_000010_0111_0001 = .instr (.mixS24LE 2 2 false false) ∧
    decode 0b000000000_0_0_0_000000_000110_0111_0010 = .instr (.volS24LE 6 false) ∧
    decode 0b000000000_0_0_0_000000_000000_0111_0011 = .instr .getkS24LE ∧
    decode 0b000000000_0_0_0_000000_000000_0111_0100 = .instr .setkS24LE := by decide

theorem test_decode_s24be :
    decode 0b000000000_0_0_1_000100_001000_1000_0001 = .instr (.mixS24BE 8 4 true false) ∧
    decode 0b000000000_0_0_0_000000_000011_1000_0010 = .instr (.volS24BE 3 false) ∧
    decode 0b000000000_0_0_0_000000_000000_1000_0011 = .instr .getkS24BE ∧
    decode 0b000000000_0_0_0_000000_000000_1000_0100 = .instr .setkS24BE := by decide

theorem test_decode_s24_32le :
    decode 0b000000000_0_1_0_010000_000001_1001_0001 = .instr (.mixS2432LE 1 16 false true) ∧
    decode 0b000000000_0_0_0_000000_001001_1001_0010 = .instr (.volS2432LE 9 false) ∧
    decode 0b000000000_0_0_0_000000_000000_1001_0011 = .instr .getkS2432LE ∧
    decode 0b000000000_0_0_0_000000_000000_1001_0100 = .instr .setkS2432LE := by decide

theorem test_decode_s24_32be :
    decode 0b000000000_0_0_0_000101_000110_1010_0001 = .instr (.mixS2432BE 6 5 false false) ∧
    decode 0b000000000_1_0_0_000000_010101_1010_0010 = .instr (.volS2432BE 21 true) ∧
    decode 0b000000000_0_0_0_000000_000000_1010_0011 = .instr .getkS2432BE ∧
    decode 0b000000000_0_0_0_000000_000000_1010_0100 = .instr .setkS2432BE := by decide

theorem test_decode_f32le :
    decode 0b000000000_0_1_1_000001_000010_1011_0001 = .instr (.mixF32LE 2 1 true true) ∧
    decode 0b000000000_0_0_0_000000_000010_1011_0010 = .instr (.volF32LE 2 false) ∧
    decode 0b000000000_0_0_0_000000_000000_1011_0011 = .instr .getkF32LE ∧
    decode 0b000000000_0_0_0_000000_000000_1011_0100 = .instr .setkF32LE := by decide

theorem test_decode_f32be :
    decode 0b000000000_0_0_0_000010_000001_1100_0001 = .instr (.mixF32BE 1 2 false false) ∧
    decode 0b000000000_0_0_0_000000_000111_1100_0010 = .instr (.volF32BE 7 false) ∧
    decode 0b000000000_0_0_0_000000_000000_1100_0011 = .instr .getkF32BE ∧
    decode 0b000000000_0_0_0_000000_000000_1100_0100 = .instr .setkF32BE := by decide

/-- 95_test_vectors.md F1 to F6: an illegal operation, and each kind of must-be-zero field. -/
theorem test_illegal_words :
    decode 0x00000000 = .rejected .illegalCommand ∧ decode 0x00004235 = .rejected .illegalCommand ∧
    decode 0x00404231 = .rejected .illegalCommand ∧ decode 0x00004232 = .rejected .illegalCommand ∧
    decode 0x00000133 = .rejected .illegalCommand ∧ decode 0x00804231 = .rejected .illegalCommand := by decide

/-- 95_test_vectors.md F7, F8: a format number above 12. -/
theorem test_bad_formats :
    decode 0x000042D1 = .rejected .badFormat ∧ decode 0x000000F3 = .rejected .badFormat := by decide

/-- 30_encoding.md R105: the assembler text of the first example word of R102. -/
theorem test_asm : asmText (.mixS16LE 2 3 false true) = "MIX.S16LE ch=2, ns=3, vol" := by decide

/-! ## A test instance of the function parameters: TESTCURVE and the G.711 codec of 93_implementation_defined.md U14 -/

/-- TESTCURVE (95_test_vectors.md section 0): a level divided by 65536. -/
def testCurve (l : Word) : DWord := f64Bits (.fin false l.toNat (-16))

/-- A companded magnitude's segment: how many of the segment ends lie below it. -/
def segment (ends : List Nat) (x : Nat) : Nat := (ends.filter (· < x)).length

/-- mu-law byte to linear. -/
def testExpandU (b : Byte) : BitVec 16 :=
  let u := 255 - b.toNat
  let t := ((u % 16) * 8 + 0x84) * 2 ^ (u / 16 % 8)
  BitVec.ofInt 16 (if u / 128 = 1 then 0x84 - t else t - 0x84)

/-- 14-bit linear to mu-law byte. -/
def testCompressU (x : BitVec 16) : Byte :=
  let m := if x.toInt < 0 then 0x7F else 0xFF
  let y := min x.toInt.natAbs 8159 + 33
  let seg := segment [0x3F, 0x7F, 0xFF, 0x1FF, 0x3FF, 0x7FF, 0xFFF, 0x1FFF] y
  BitVec.ofNat 8 (Nat.xor (if seg = 8 then 0x7F else seg * 16 + y / 2 ^ (seg + 1) % 16) m)

/-- A-law byte to linear. -/
def testExpandA (b : Byte) : BitVec 16 :=
  let a := (b ^^^ 0x55).toNat
  let t := a % 16 * 16
  let seg := a / 16 % 8
  let t := if seg = 0 then t + 8 else (t + 0x108) * 2 ^ (seg - 1)
  BitVec.ofInt 16 (if a / 128 = 1 then t else -t)

/-- 13-bit linear to A-law byte. -/
def testCompressA (x : BitVec 16) : Byte :=
  let m := if 0 ≤ x.toInt then 0xD5 else 0x55
  let y := if 0 ≤ x.toInt then x.toInt.natAbs else (-x.toInt - 1).natAbs
  let seg := segment [0x1F, 0x3F, 0x7F, 0xFF, 0x1FF, 0x3FF, 0x7FF, 0xFFF] y
  BitVec.ofNat 8 (Nat.xor (if seg = 8 then 0x7F else seg * 16 + y / 2 ^ (if seg < 2 then 1 else seg) % 16) m)

/-- The test instance. -/
def testPorts : Config.Ports := ⟨testCurve, testExpandA, testCompressA, testExpandU, testCompressU⟩

/-! ## Small states -/

/-- A register array that starts with a list of values, the rest zero. -/
def regs (n : Nat) (l : List Nat) : Vector Word n := Vector.ofFn fun i => BitVec.ofNat 32 (l.getD i.val 0)

/-- The bytes put at an address. -/
def withBytes (a : Nat) (l : List Byte) (s : State) : State := s.setMem (s.mem.store a l)

/-- The state of 95_test_vectors.md section 2.8: `DST = 0x2000`, `LEN`, both `S_AVAIL` = `len`, handles 1 and 2 answered
0x1000 and 0x1100, every level Unity. -/
def twoStreams (len : Nat) : State :=
  { State.reset with
    dst := 0x2000
    len := BitVec.ofNat 32 len
    ovol := Vector.replicate _ 0x10000
    sVol := Vector.replicate _ (Vector.replicate _ 0x10000)
    sChunk := regs _ [1, 2]
    sAvail := regs _ [len, len]
    answers := [0x1000, 0x1100] }

/-- Two streams of bytes at 0x1000 and 0x1100, of the first one's length. -/
def mixing (x y : List Byte) : State := withBytes 0x1100 y (withBytes 0x1000 x (twoStreams x.length))

/-- A buffer at 0x1000, with levels for the output volume. -/
def buffer (levels : List Nat) (x : List Byte) : State :=
  withBytes 0x1000 x { State.reset with dst := 0x1000, len := BitVec.ofNat 32 x.length, ovol := regs _ levels }

/-- The bytes at an address after an outcome. -/
def bytesAfter (o : Host.Outcome State Fault Refusal) (a n : Nat) : Option (List Byte) :=
  match o with
  | .next t => some (t.mem.load a n)
  | .fault _ => none
  | .refused _ => none

/-- `STATUS`, `FINFO` and the events after an outcome. -/
def statusAfter (o : Host.Outcome State Fault Refusal) : Option (Word × Word × List Event) :=
  match o with
  | .next t => some (statusWord t, t.finfo, t.hist)
  | .fault _ => none
  | .refused _ => none

/-! ## MIX: two streams at Unity (95_test_vectors.md S4): both clamps and a cancelling pair -/

theorem test_mix_u8 : bytesAfter (exec (.mixU8 1 2 false false) (mixing [0xC0, 0x00, 0x80, 0x90] [0xD0, 0x00, 0x7F, 0x70]))
    0x2000 4 = some [0xFF, 0x00, 0x7F, 0x80] := by decide +kernel

theorem test_mix_alaw : bytesAfter (mixCommand testPorts .alaw 1 2 false false (mixing [0xAA, 0x2A, 0xD5, 0x55]
    [0xAA, 0x2A, 0x55, 0xD5])) 0x2000 4 = some [0xAA, 0x2A, 0xD5, 0xD5] := by decide +kernel

theorem test_mix_ulaw : bytesAfter (mixCommand testPorts .ulaw 1 2 false false (mixing [0x80, 0x00, 0xFF, 0x7F]
    [0x80, 0x00, 0x7F, 0xFF])) 0x2000 4 = some [0x80, 0x00, 0xFF, 0xFF] := by decide +kernel

theorem test_mix_s16le : bytesAfter (exec (.mixS16LE 1 2 false false) (mixing [0x00, 0x80, 0xFF, 0x7F, 0x34, 0x12]
    [0x00, 0x80, 0x01, 0x00, 0xCC, 0xED])) 0x2000 6 = some [0x00, 0x80, 0xFF, 0x7F, 0x00, 0x00] := by decide +kernel

theorem test_mix_s16be : bytesAfter (exec (.mixS16BE 1 2 false false) (mixing [0x80, 0x00, 0x7F, 0xFF, 0x12, 0x34]
    [0x80, 0x00, 0x00, 0x01, 0xED, 0xCC])) 0x2000 6 = some [0x80, 0x00, 0x7F, 0xFF, 0x00, 0x00] := by decide +kernel

theorem test_mix_s32le : bytesAfter (exec (.mixS32LE 1 2 false false) (mixing [0x00, 0x00, 0x00, 0x80, 0xFF, 0xFF, 0xFF, 0x7F]
    [0x00, 0x00, 0x00, 0x80, 0x01, 0x00, 0x00, 0x00])) 0x2000 8 = some [0x00, 0x00, 0x00, 0x80, 0xFF, 0xFF, 0xFF, 0x7F] := by decide +kernel

theorem test_mix_s32be : bytesAfter (exec (.mixS32BE 1 2 false false) (mixing [0x80, 0x00, 0x00, 0x00, 0x7F, 0xFF, 0xFF, 0xFF]
    [0x80, 0x00, 0x00, 0x00, 0x00, 0x00, 0x00, 0x01])) 0x2000 8 = some [0x80, 0x00, 0x00, 0x00, 0x7F, 0xFF, 0xFF, 0xFF] := by decide +kernel

theorem test_mix_s24le : bytesAfter (exec (.mixS24LE 1 2 false false) (mixing [0x00, 0x00, 0x80, 0xFF, 0xFF, 0x7F, 0x56, 0x34, 0x12]
    [0x00, 0x00, 0x80, 0x01, 0x00, 0x00, 0xAA, 0xCB, 0xED])) 0x2000 9 = some [0x00, 0x00, 0x80, 0xFF, 0xFF, 0x7F, 0x00, 0x00, 0x00] := by decide +kernel

theorem test_mix_s24be : bytesAfter (exec (.mixS24BE 1 2 false false) (mixing [0x80, 0x00, 0x00, 0x7F, 0xFF, 0xFF, 0x12, 0x34, 0x56]
    [0x80, 0x00, 0x00, 0x00, 0x00, 0x01, 0xED, 0xCB, 0xAA])) 0x2000 9 = some [0x80, 0x00, 0x00, 0x7F, 0xFF, 0xFF, 0x00, 0x00, 0x00] := by decide +kernel

theorem test_mix_s2432le : bytesAfter (exec (.mixS2432LE 1 2 false false) (mixing [0x00, 0x00, 0x80, 0x11, 0xFF, 0xFF, 0x7F, 0x22, 0x56, 0x34, 0x12, 0x33]
    [0x00, 0x00, 0x80, 0x44, 0x01, 0x00, 0x00, 0x55, 0xAA, 0xCB, 0xED, 0x66])) 0x2000 12 = some [0x00, 0x00, 0x80, 0x00, 0xFF, 0xFF, 0x7F, 0x00, 0x00, 0x00, 0x00, 0x00] := by decide +kernel

theorem test_mix_s2432be : bytesAfter (exec (.mixS2432BE 1 2 false false) (mixing [0x11, 0x80, 0x00, 0x00, 0x22, 0x7F, 0xFF, 0xFF, 0x33, 0x12, 0x34, 0x56]
    [0x44, 0x80, 0x00, 0x00, 0x55, 0x00, 0x00, 0x01, 0x66, 0xED, 0xCB, 0xAA])) 0x2000 12 = some [0x00, 0x80, 0x00, 0x00, 0x00, 0x7F, 0xFF, 0xFF, 0x00, 0x00, 0x00, 0x00] := by decide +kernel

theorem test_mix_f32le : bytesAfter (exec (.mixF32LE 1 2 false false) (mixing [0x00, 0x00, 0x80, 0x3F, 0x00, 0x00, 0x00, 0x80, 0xFF, 0xFF, 0x7F, 0x7F]
    [0x00, 0x00, 0x80, 0x3F, 0x00, 0x00, 0x00, 0x00, 0xFF, 0xFF, 0x7F, 0x7F])) 0x2000 12 = some [0x00, 0x00, 0x00, 0x40, 0x00, 0x00, 0x00, 0x00, 0x00, 0x00, 0x80, 0x7F] := by decide +kernel

theorem test_mix_f32be : bytesAfter (exec (.mixF32BE 1 2 false false) (mixing [0x3F, 0x80, 0x00, 0x00, 0x80, 0x00, 0x00, 0x00, 0x7F, 0x7F, 0xFF, 0xFF]
    [0x3F, 0x80, 0x00, 0x00, 0x00, 0x00, 0x00, 0x00, 0x7F, 0x7F, 0xFF, 0xFF])) 0x2000 12 = some [0x40, 0x00, 0x00, 0x00, 0x00, 0x00, 0x00, 0x00, 0x7F, 0x80, 0x00, 0x00] := by decide +kernel

/-! ## MIX: gains 0.75 and 1.5 under TESTCURVE (95_test_vectors.md S6) -/

/-- The same, with stream levels 0xC000 and 0x18000 and fresh answers. -/
def scaled (x y : List Byte) : State :=
  { mixing x y with sVol := Vector.ofFn fun i => Vector.replicate _ (if i.val = 0 then 0xC000 else 0x18000) }

theorem test_scaled_mix_s16le : bytesAfter (mixCommand testPorts .s16le 1 2 false false (scaled [0x12, 0x34, 0x56, 0x78, 0x9A, 0xBC]
    [0xFE, 0xDC, 0xBA, 0x98, 0x76, 0x54])) 0x2000 6 = some [0x8A, 0xF2, 0x57, 0xBF, 0x24, 0x4C] := by decide +kernel

theorem test_scaled_mix_s16be : bytesAfter (mixCommand testPorts .s16be 1 2 false false (scaled [0x34, 0x12, 0x78, 0x56, 0xBC, 0x9A]
    [0xDC, 0xFE, 0x98, 0xBA, 0x54, 0x76])) 0x2000 6 = some [0xF2, 0x8A, 0xBF, 0x57, 0x4C, 0x24] := by decide +kernel

theorem test_scaled_mix_s32le : bytesAfter (mixCommand testPorts .s32le 1 2 false false (scaled [0x12, 0x34, 0x56, 0x78, 0x9A, 0xBC, 0xDE, 0xF0, 0x0F, 0xED, 0xCB, 0xA9]
    [0xFE, 0xDC, 0xBA, 0x98, 0x76, 0x54, 0x32, 0x10, 0x01, 0x23, 0x45, 0x67])) 0x2000 12 = some [0x8A, 0xF2, 0x58, 0xBF, 0x24, 0x8C, 0xF2, 0x0C, 0x4C, 0xA6, 0x40, 0x5A] := by decide +kernel

theorem test_scaled_mix_s32be : bytesAfter (mixCommand testPorts .s32be 1 2 false false (scaled [0x78, 0x56, 0x34, 0x12, 0xF0, 0xDE, 0xBC, 0x9A, 0xA9, 0xCB, 0xED, 0x0F]
    [0x98, 0xBA, 0xDC, 0xFE, 0x10, 0x32, 0x54, 0x76, 0x67, 0x45, 0x23, 0x01])) 0x2000 12 = some [0xBF, 0x58, 0xF2, 0x8A, 0x0C, 0xF2, 0x8C, 0x24, 0x5A, 0x40, 0xA6, 0x4C] := by decide +kernel

theorem test_scaled_mix_s24le : bytesAfter (mixCommand testPorts .s24le 1 2 false false (scaled [0x12, 0x34, 0x56, 0x78, 0x9A, 0xBC, 0xDE, 0xF0, 0x0F]
    [0xFE, 0xDC, 0xBA, 0x98, 0x76, 0x54, 0x32, 0x10, 0x01])) 0x2000 9 = some [0x8A, 0xF2, 0xD8, 0xBE, 0x25, 0x4C, 0xF1, 0x8C, 0x0D] := by decide +kernel

theorem test_scaled_mix_s24be : bytesAfter (mixCommand testPorts .s24be 1 2 false false (scaled [0x56, 0x34, 0x12, 0xBC, 0x9A, 0x78, 0x0F, 0xF0, 0xDE]
    [0xBA, 0xDC, 0xFE, 0x54, 0x76, 0x98, 0x01, 0x10, 0x32])) 0x2000 9 = some [0xD8, 0xF2, 0x8A, 0x4C, 0x25, 0xBE, 0x0D, 0x8C, 0xF1] := by decide +kernel

theorem test_scaled_mix_s2432le : bytesAfter (mixCommand testPorts .s2432le 1 2 false false (scaled [0x12, 0x34, 0x56, 0x78, 0x9A, 0xBC, 0xDE, 0xF0, 0x0F, 0xED, 0xCB, 0xA9]
    [0xFE, 0xDC, 0xBA, 0x98, 0x76, 0x54, 0x32, 0x10, 0x01, 0x23, 0x45, 0x67])) 0x2000 12 = some [0x8A, 0xF2, 0xD8, 0x00, 0x24, 0x8C, 0x32, 0x00, 0x4C, 0xA6, 0x40, 0x00] := by decide +kernel

theorem test_scaled_mix_s2432be : bytesAfter (mixCommand testPorts .s2432be 1 2 false false (scaled [0x78, 0x56, 0x34, 0x12, 0xF0, 0xDE, 0xBC, 0x9A, 0xA9, 0xCB, 0xED, 0x0F]
    [0x98, 0xBA, 0xDC, 0xFE, 0x10, 0x32, 0x54, 0x76, 0x67, 0x45, 0x23, 0x01])) 0x2000 12 = some [0x00, 0xD8, 0xF2, 0x8A, 0x00, 0x32, 0x8C, 0x24, 0x00, 0x40, 0xA6, 0x4C] := by decide +kernel

theorem test_scaled_mix_f32le : bytesAfter (mixCommand testPorts .f32le 1 2 false false (scaled [0x00, 0x00, 0x80, 0x3F, 0xCD, 0xCC, 0xCC, 0x3D, 0x00, 0x00, 0x40, 0xC0]
    [0x00, 0x00, 0x00, 0x3F, 0xCD, 0xCC, 0x4C, 0x3E, 0x00, 0x00, 0x80, 0x3F])) 0x2000 12 = some [0x00, 0x00, 0xC0, 0x3F, 0x00, 0x00, 0xC0, 0x3E, 0x00, 0x00, 0x40, 0xBF] := by decide +kernel

theorem test_scaled_mix_f32be : bytesAfter (mixCommand testPorts .f32be 1 2 false false (scaled [0x3F, 0x80, 0x00, 0x00, 0x3D, 0xCC, 0xCC, 0xCD, 0xC0, 0x40, 0x00, 0x00]
    [0x3F, 0x00, 0x00, 0x00, 0x3E, 0x4C, 0xCC, 0xCD, 0x3F, 0x80, 0x00, 0x00])) 0x2000 12 = some [0x3F, 0xC0, 0x00, 0x00, 0x3E, 0xC0, 0x00, 0x00, 0xBF, 0x40, 0x00, 0x00] := by decide +kernel

/-! ## VOL: the examples of 46_volume.md R250 to R262, under TESTCURVE -/

theorem test_vol_u8 : bytesAfter (volCommand testPorts .u8 1 false (buffer [0x8000] [0xC0, 0x7F])) 0x1000 2 =
    some [0xA0, 0x7F] := by decide +kernel

theorem test_vol_alaw : bytesAfter (volCommand testPorts .alaw 1 false (buffer [0x20000] [0xD5])) 0x1000 1 =
    some [0xD4] := by decide +kernel

theorem test_vol_ulaw : bytesAfter (volCommand testPorts .ulaw 1 false (buffer [0x8000] [0x80])) 0x1000 1 =
    some [0x90] := by decide +kernel

theorem test_vol_s16le : bytesAfter (volCommand testPorts .s16le 1 false (buffer [0x18000] [0x00, 0x60])) 0x1000 2 =
    some [0xFF, 0x7F] := by decide +kernel

theorem test_vol_s16be : bytesAfter (volCommand testPorts .s16be 1 false (buffer [0x8000] [0xFF, 0xFF])) 0x1000 2 =
    some [0xFF, 0xFF] := by decide +kernel

theorem test_vol_s32le : bytesAfter (volCommand testPorts .s32le 1 false (buffer [0x18000] [0x00, 0x00, 0x00, 0x40])) 0x1000 4 =
    some [0x00, 0x00, 0x00, 0x60] := by decide +kernel

theorem test_vol_s32be : bytesAfter (volCommand testPorts .s32be 1 false (buffer [0x20000] [0x80, 0x00, 0x00, 0x00])) 0x1000 4 =
    some [0x80, 0x00, 0x00, 0x00] := by decide +kernel

theorem test_vol_s24le : bytesAfter (volCommand testPorts .s24le 1 false (buffer [0x8000] [0x01, 0x00, 0x00, 0xFF, 0xFF, 0xFF])) 0x1000 6 =
    some [0x00, 0x00, 0x00, 0xFF, 0xFF, 0xFF] := by decide +kernel

theorem test_vol_s24be : bytesAfter (volCommand testPorts .s24be 1 false (buffer [0x20000] [0x40, 0x00, 0x00])) 0x1000 3 =
    some [0x7F, 0xFF, 0xFF] := by decide +kernel

theorem test_vol_s2432le : bytesAfter (volCommand testPorts .s2432le 1 false (buffer [0x8000] [0x00, 0x00, 0x40, 0xFF])) 0x1000 4 =
    some [0x00, 0x00, 0x20, 0x00] := by decide +kernel

theorem test_vol_s2432be : bytesAfter (volCommand testPorts .s2432be 1 false (buffer [0x8000] [0xFF, 0x40, 0x00, 0x00])) 0x1000 4 =
    some [0x00, 0x20, 0x00, 0x00] := by decide +kernel

theorem test_vol_f32le : bytesAfter (volCommand testPorts .f32le 1 false (buffer [0x8000] [0x00, 0x00, 0x40, 0x3F])) 0x1000 4 =
    some [0x00, 0x00, 0xC0, 0x3E] := by decide +kernel

theorem test_vol_f32be : bytesAfter (volCommand testPorts .f32be 1 false (buffer [0x8000] [0x3F, 0x40, 0x00, 0x00])) 0x1000 4 =
    some [0x3E, 0xC0, 0x00, 0x00] := by decide +kernel

/-! ## GETK and SETK (95_test_vectors.md section 2.5) -/

/-- The words 0x03, 0x13, ... 0xC3 return 0, 1, ... 12 after reset. -/
theorem test_getk : ∀ F : Fmt, (match exec (getkOf F) State.reset with
    | .next t => some (t.ret, t.seq)
    | _ => none) = some (BitVec.ofNat 32 F.tag, .done) := by
  intro F; cases F <;> decide

/-- `KARG = 0x0000010C` binds K_F32R: only `KARG[7:0]` counts. -/
theorem test_setk : ∀ F : Fmt, (match exec (setkOf F) { State.reset with karg := 0x0000010C } with
    | .next t => some (t.ktabAt F, t.ret, t.seq)
    | _ => none) = some (0x0C, 0, .done) := by
  intro F; cases F <;> decide

/-- F25: `KARG = 0x0D` is F_BAD_KERNEL. -/
theorem test_setk_bad : statusAfter (exec .setkU8 { State.reset with karg := 0x0D }) =
    some (0x00000B07, 0x000000FF, []) := by decide

/-! ## Whole commands (95_test_vectors.md) -/

/-- S1: zero streams give the silence pattern and return the length. -/
theorem test_silence : ∀ F : Fmt, bytesAfter (exec (mixOf F 1 0 false false) { twoStreams 12 with mem := [(0x2000, 0xEE)] })
    0x2000 12 = some (List.replicate 12 (match F with
      | .u8 => 0x80
      | .alaw => 0xD5
      | .ulaw => 0xFF
      | _ => 0x00)) := by
  intro F; cases F <;> decide +kernel

/-- S5, contrast: with `OVOL = [M, U]` channel 0 is written as 0 and channel 1 passes. -/
theorem test_half_muted : bytesAfter (exec (.mixS16LE 2 1 false true)
    { mixing [0x01, 0x02, 0x03, 0x04] [] with ovol := regs _ [0, 0x10000] }) 0x2000 4 =
    some [0x00, 0x00, 0x03, 0x04] := by decide +kernel

/-- M4: the reads are only those of the channel that sounds, and each comes before its write. -/
theorem test_skip_rule : statusAfter (exec (.mixS16LE 2 1 false true)
    { mixing [1, 0, 2, 0, 3, 0, 4, 0] [] with ovol := regs _ [0, 0x10000] }) = some (0x00000002, 0, [
      .acquire 1 0x1000, .write 0x2000 [0, 0], .read 0x1002 [2, 0], .write 0x2002 [2, 0],
      .write 0x2004 [0, 0], .read 0x1006 [4, 0], .write 0x2006 [4, 0], .release 1]) := by decide +kernel

/-- P2: the shortest stream bounds the mix: 24 of 64 bytes. -/
theorem test_shortest : (match exec (.mixS16LE 2 3 false false)
    { twoStreams 64 with sAvail := regs _ [40, 24, 64], answers := [0x1000, 0x1100, 0x1200] } with
    | .next t => some (t.ret, t.sPtrAt 0, t.sPtrAt 1, t.sPtrAt 2)
    | _ => none) = some (24, 0x1018, 0x1118, 0x1218) := by decide +kernel

/-- P3 (a): with K_S16R bound, MIX.S16LE mixes big-endian samples. -/
theorem test_replaced_kernel : bytesAfter (exec (.mixS16LE 1 2 false false)
    ((mixing [0x7F, 0xFF, 0x00, 0x01] [0x00, 0x01, 0xFF, 0xFF]).setKtab .s16le 4)) 0x2000 4 =
    some [0x7F, 0xFF, 0x00, 0x00] := by decide +kernel

/-- M6: an overlapping destination is read as the earlier slots left it. -/
theorem test_overlap : bytesAfter (exec (.mixS16LE 1 2 false false)
    { mixing [1, 0, 2, 0] [] with dst := 0x1002, answers := [0x1000, 0x1000] }) 0x1000 6 =
    some [1, 0, 2, 0, 4, 0] := by decide +kernel

/-- K5: float streams are added in ascending order, each sum rounded. -/
theorem test_float_order : f32Add (f32Add 0x3F800000 0x3F800000) 0x4B800000 = 0x4B800001 ∧
    f32Add (f32Add 0x4B800000 0x3F800000) 0x3F800000 = 0x4B800000 := by decide +kernel

/-- P4 (b): a muted VOL.ALAW writes silence, one byte at a time. -/
theorem test_vol_muted : statusAfter (exec (.volALaw 1 false) (buffer [0] [1, 2, 3])) = some (0x00000002, 0, [
    .write 0x1000 [0xD5], .write 0x1001 [0xD5], .write 0x1002 [0xD5]]) := by decide +kernel

/-- A2: a muted channel among sounding ones runs through the kernel; 2.0 clamps. -/
theorem test_vol_channels : bytesAfter (volCommand testPorts .u8 3 false
    (buffer [0x8000, 0x20000, 0] [0xC0, 0xC0, 0xC0, 0, 0, 0])) 0x1000 6 = some [0xA0, 0xFF, 0x80, 0x40, 0x00, 0x80] := by
  decide +kernel

/-! ## Arithmetic (95_test_vectors.md section 2.3) -/

theorem test_apply16 : (apply16 (-12345) 0x5555).toInt = -4115 ∧ (apply16 32767 0x0001FFFF).toInt = 65533 ∧
    (apply16 (-32768) 0x7FFFFFFF).toInt = -1073741824 ∧ (apply16 (-1) 1).toInt = -1 := by decide

theorem test_apply64 : (apply64 0x12345600 0x5555).toInt = 0x06116BEE ∧
    (apply64 (-0x80000000) 0x7FFFFFFF).toInt = -0x3FFFFFFF8000 ∧ (apply64 (-1) 1).toInt = -1 := by decide

theorem test_applyF : applyF 0x7F7FFFFF 0x40000000 = 0x7F800000 ∧ applyF 0x00000003 0x3F000000 = 0x00000002 ∧
    applyF 0x3DCCCCCD 0x40400000 = 0x3E99999A ∧ f32IsNaN (applyF 0x7F800000 0) = true := by decide +kernel

/-- V3, V5, V6, V9. -/
theorem test_gains : linGain testPorts .int 0x18000 = some 0x00018000 ∧ linGain testPorts .flt 0x5555 = some 0x3EAAAA00 ∧
    linGain testPorts .int 0x80000000 = none ∧ linGain testPorts .int 0x7FFFFFFF = some 0x7FFFFFFF ∧
    fixedGain 0x3EE0000000000000 = some 0 ∧ fixedGain 0x3EF8000000000000 = some 2 := by decide +kernel

/-! ## Faults (95_test_vectors.md section 2.8): `STATUS`, `FINFO`, events -/

theorem test_faults_before_acquire :
    statusAfter (exec (.mixS16LE 0 1 false false) (twoStreams 8)) = some (0x00000307, 0xFF, []) ∧
    statusAfter (exec (.mixS16LE 33 1 false false) (twoStreams 8)) = some (0x00000307, 0xFF, []) ∧
    statusAfter (exec (.mixS16LE 2 33 false false) (twoStreams 8)) = some (0x00000407, 0xFF, []) ∧
    statusAfter (exec (.mixS16LE 2 1 false false) { twoStreams 0 with dst := 0 }) = some (0x00000507, 0xFF, []) := by
  decide +kernel

theorem test_faults_of_lengths :
    statusAfter (exec (.volS16LE 2 true) (twoStreams 0)) = some (0x00000607, 0xFF, []) ∧
    statusAfter (exec (.mixS16LE 2 1 true false) (twoStreams 6)) = some (0x00000707, 0xFF, []) ∧
    statusAfter (exec (.mixS16LE 2 1 false false) { twoStreams 8 with dst := 0xFFFFFFFC }) =
      some (0x00000907, 0xFF, []) ∧
    statusAfter (exec (.mixS16LE 2 2 false false) { twoStreams 8 with sAvail := regs _ [8, 2] }) =
      some (0x00000807, 1, []) := by decide +kernel

/-- F20, F21: the answers of the buffer manager. -/
theorem test_faults_of_answers :
    statusAfter (exec (.mixS16LE 2 1 false false) { twoStreams 8 with answers := [0] }) =
      some (0x00000507, 0, [.acquire 1 0]) ∧
    statusAfter (exec (.mixS16LE 2 2 false false) { twoStreams 8 with answers := [0x1000, 0xFFFFFFFC] }) =
      some (0x00000907, 1, [.acquire 1 0x1000, .acquire 2 0xFFFFFFFC]) := by decide +kernel

/-- F22, F24: gains out of range. -/
theorem test_faults_of_gains :
    statusAfter (mixCommand testPorts .s16le 2 1 false false
      { twoStreams 8 with sVol := Vector.replicate _ (regs _ [0x10000, 0x80000000]) }) =
      some (0x00000A07, 0x00000100, [.acquire 1 0x1000]) ∧
    statusAfter (volCommand testPorts .s16le 2 false (buffer [0x10000, 0x80000000] [1, 2, 3, 4])) =
      some (0x00000A07, 0x000001FF, []) := by decide +kernel

/-! ## The host (95_test_vectors.md P5): a sticky fault, a dropped command, and the reset that ends it -/

theorem test_fault_is_sticky : hostWrite 0 0x00000003 (takeFault .lengthAlign 0xFF 0 State.reset) =
    takeFault .lengthAlign 0xFF 0 State.reset := by decide +kernel

theorem test_reset_clears :
    (statusWord (hostReset 0 (takeFault .lengthAlign 0xFF 0 State.reset)),
      (hostReset 0 (takeFault .lengthAlign 0xFF 0 State.reset)).finfo) = (0, 0) := by decide +kernel

/-- 70_reset_and_hazards.md R300: a RESET when a MIX that the model refuses (three channels of two bytes bound to a kernel of
four) has acquired the first of its two buffers: the machine is reset and that acquire stays in the history. -/
theorem test_reset_refused_mix :
    (statusWord (hostReset 1 { (twoStreams 6).setKtab .s16le 0x0C with cmd := 0x00008331, seq := .busy }),
      (hostReset 1 { (twoStreams 6).setKtab .s16le 0x0C with cmd := 0x00008331, seq := .busy }).hist) =
      (0, [.acquire 1 0x1000]) := by decide +kernel

/-- 70_reset_and_hazards.md R312: the second stream's window of a BUSY MIX is refused to the host. -/
theorem test_poke_source : step { twoStreams 8 with cmd := 0x00008231, seq := .busy, host := [.poke 0x1107 1] } =
    .refused (.bufferRace 0x1107) := by rfl

/-- The word of a step: `withFetchWord` runs GETK.F32BE, whose result is 12. -/
theorem test_step : (match step (State.reset.withFetchWord 32 0x000000C3) with
    | .next t => some (t.ret, statusWord t)
    | _ => none) = some (12, 0x00000002) := by decide +kernel

/-! ## Witnesses: for every obligation with hypotheses, states and operands that meet them, at the edges of their clauses -/

/-- A state in which the context is BUSY with a word. -/
def busyWith (w : Word) (s : State) : State := { s with cmd := w, seq := .busy }

theorem witness_DecodeEncode : (Instr.mixF32BE 63 63 true true).wf = true ∧ (Instr.volU8 0 false).wf = true := by decide

theorem witness_EncodeDecode : decode 0x003FFFC1 = .instr (.mixF32BE 63 63 true true) := by decide

theorem witness_OperandFields : decode 0x003FFFC1 = .instr (mixOf .f32be 63 63 true true) ∧
    decode 0x00000101 = .instr (mixOf .u8 1 0 false false) ∧ decode 0x00403FC2 = .instr (volOf .f32be 63 true) ∧
    decode 0x00000002 = .instr (volOf .u8 0 false) ∧ decode 0x000000C3 = .instr (getkOf .f32be) ∧
    decode 0x00000004 = .instr (setkOf .u8) := by decide

/-- The first condition of the statement about illegal words, as a Bool. -/
def legalWord (w : Word) : Bool :=
  w &&& 0xFFC0000F == 1 || w &&& 0xFFBFC00F == 2 || w &&& 0xFFFFFF0F == 3 || w &&& 0xFFFFFF0F == 4

theorem legalWord_iff (w : Word) : legalWord w = true ↔
    (w &&& 0xFFC0000F = 1 ∨ w &&& 0xFFBFC00F = 2 ∨ w &&& 0xFFFFFF0F = 3 ∨ w &&& 0xFFFFFF0F = 4) := by
  simp [legalWord, or_assoc]

theorem test_legalWord :
    ([0x00000000, 0x00004235, 0x00404231, 0x00004232, 0x00000133, 0x00804231, 0x00000104].all fun w => !legalWord w) = true ∧
    ([0x000042D1, 0x000001D2, 0x000000D3, 0x000000D4, 0x000042F1, 0x000001F2, 0x000000F3, 0x000000F4].all fun w =>
      legalWord w && decide (13 ≤ (w.extractLsb 7 4).toNat)) = true := by decide +kernel

/-- On the sequencer's turn and on the host's wait: OP 0 and OP 5, each must-be-zero field; FMT 13 and 15 of each operation. -/
theorem witness_IllegalWords :
    (busyWith 0 State.reset).seq = .busy ∧ (busyWith 0 State.reset).host = [] ∧
    (busyWith 0 { State.reset with host := [.wait] }).seq = .busy ∧
    (busyWith 0 { State.reset with host := [.wait] }).host = .wait :: [] ∧
    (∀ w ∈ ([0x00000000, 0x00004235, 0x00404231, 0x00004232, 0x00000133, 0x00804231, 0x00000104] : List Word),
      ¬ (w &&& 0xFFC0000F = 1 ∨ w &&& 0xFFBFC00F = 2 ∨ w &&& 0xFFFFFF0F = 3 ∨ w &&& 0xFFFFFF0F = 4)) ∧
    ∀ w ∈ ([0x000042D1, 0x000001D2, 0x000000D3, 0x000000D4, 0x000042F1, 0x000001F2, 0x000000F3, 0x000000F4] : List Word),
      (w &&& 0xFFC0000F = 1 ∨ w &&& 0xFFBFC00F = 2 ∨ w &&& 0xFFFFFF0F = 3 ∨ w &&& 0xFFFFFF0F = 4) ∧
        13 ≤ (w.extractLsb 7 4).toNat := by
  refine ⟨rfl, rfl, rfl, rfl, fun w hw => ?_, fun w hw => ?_⟩
  · have h := List.all_eq_true.1 test_legalWord.1 w hw
    rw [← legalWord_iff]; simpa using h
  · have h := List.all_eq_true.1 test_legalWord.2 w hw
    rw [Bool.and_eq_true, decide_eq_true_iff] at h
    exact ⟨(legalWord_iff w).1 h.1, h.2⟩

theorem witness_StepRunsCommand : (busyWith 0x3 State.reset).seq = .busy ∧
    decode (busyWith 0x3 State.reset).cmd = .instr .getkU8 ∧ (busyWith 0x3 State.reset).host = [] ∧
    ({ busyWith 0x3 State.reset with host := [.wait] } : State).host = .wait :: [] ∧ State.reset.seq ≠ .busy ∧
    ({ State.reset with host := [.wait] } : State).host = .wait :: [] := by decide

theorem witness_PreparedWordRuns : decode 0x0020C231 = .instr (.mixS16LE 2 3 false true) := by decide

theorem witness_CommandWrite :
    (∀ q ∈ [SeqState.idle, .done], ∃ s : State, s.host = .write 0 0x3 :: [] ∧ (s.seq = .idle ∨ s.seq = .done) ∧
      s.gfault = false ∧ s.seq = q) ∧
    ∃ s : State, s.host = .write 0 0x3 :: [] ∧ (s.seq = .busy ∨ s.seq = .fault ∨ s.gfault = true) := by
  refine ⟨fun q h => ⟨{ State.reset with host := [.write 0 0x3], seq := q }, rfl, ?_, rfl, rfl⟩,
    { State.reset with host := [.write 0 0x3], seq := .fault, gfault := true }, by decide⟩
  simpa using h

/-- Written at the last level of the window, read there and at the level before it; in IDLE and in FAULT. -/
theorem witness_WriteReadBack : State.reset.seq ≠ .busy ∧ (takeFault .channels 0xFF 0 State.reset).seq ≠ .busy ∧
    regAt 0x1FFC = some (.sVol 31 31) ∧ regAt 0x1FF8 = some (.sVol 31 30) ∧ regAt 0x8 = some .dst ∧
    regAt 0x4 = some .status ∧ ({ State.reset with host := [.write 0x1FFC 7] } : State).host = .write 0x1FFC 7 :: [] := by decide

/-- While BUSY; at reserved offsets; at the first and the last read-only register; each as a step's host move. -/
theorem witness_IgnoredWrites : (busyWith 0x3 State.reset).seq = .busy ∧ regAt 0x1C = none ∧ regAt 0x380 = none ∧
    regAt 0x3000 = none ∧ regAt 0x81 = none ∧ regAt 0x4 = some .status ∧ regAt 0x2FFC = some (.sgain 31 31) ∧
    ∀ off ∈ [0x8, 0x1C, 0x4], (busyWith 0x3 { State.reset with host := [.write off 7] }).host = .write off 7 :: [] := by decide

/-- A reserved offset; the result outside BUSY; `STATUS` and the result while BUSY. -/
theorem witness_HostRead : ({ State.reset with host := [.read 0x1C] } : State).host = .read 0x1C :: [] ∧
    regAt 0x1C = none ∧ regAt 0x10 = some .ret ∧ regAt 0x4 = some .status ∧
    ({ State.reset with host := [.read 0x10] } : State).seq ≠ .busy ∧
    (∀ off ∈ [0x4, 0x10], (busyWith 0x3 { State.reset with host := [.read off] }).seq = .busy ∧
      (busyWith 0x3 { State.reset with host := [.read off] }).host = .read off :: []) := by decide

theorem witness_StatusFields : MachineInv { State.reset with seq := .done, mem := [(0x2000, 0xEE)] } ∧
    ({ State.reset with seq := .done, mem := [(0x2000, 0xEE)] } : State).seq ≠ .fault :=
  ⟨⟨by decide, by decide, by decide⟩, by decide⟩

/-- The word 0x00008231 is a stereo MIX.S16LE of two streams; in this state it is BUSY. -/
def busyMix : State := busyWith 0x00008231 (twoStreams 8)

/-- The addresses of a list that lie in the footprint of a BUSY state; the reading is `inBusyFootprint_iff`'s. -/
def inside (s : State) (l : List Nat) : List Nat := l.filter fun a => inBusyFootprint a s

/-- The first and the last address of the destination and of both windows, and the addresses next to those. -/
def edges : List Nat := [0xFFF, 0x1000, 0x1007, 0x1008, 0x10FF, 0x1100, 0x1107, 0x1108, 0x1FFF, 0x2000, 0x2007, 0x2008]

/-- 70_reset_and_hazards.md R312: the destination of a BUSY MIX, and the windows of the streams it acquires: both; none of one that
is muted, has no length or a misaligned second stream; not the second of one whose first answer is null; of a BUSY VOL, the
destination alone. -/
theorem test_footprint :
    inside busyMix edges = [0x1000, 0x1007, 0x1100, 0x1107, 0x2000, 0x2007] ∧
    inside { busyMix with cmd := 0x00108231 } edges = [0x2000, 0x2007] ∧ inside { busyMix with len := 0 } edges = [] ∧
    inside { busyMix with sAvail := regs _ [8, 2] } edges = [0x2000, 0x2007] ∧
    inside { busyMix with answers := [0, 0x1100] } edges = [0x2000, 0x2007] ∧
    inside { busyMix with cmd := 0x00000232 } edges = [0x2000, 0x2007] := by decide +kernel

/-- The statement's footprint, decided. -/
theorem footprint_of {a : Nat} {s : State} (h : inBusyFootprint a s = true) : InFootprint a s :=
  ((inBusyFootprint_iff a s).1 h).2

theorem no_footprint_of {a : Nat} {s : State} (b : s.seq = .busy) (h : inBusyFootprint a s = false) : ¬ InFootprint a s :=
  fun k => Bool.noConfusion (h.symm.trans ((inBusyFootprint_iff a s).2 ⟨b, k⟩))

/-- The first address past the space; the last address of the destination of a BUSY MIX and of a BUSY VOL, and of the last window
of the MIX; the addresses past those; the window of a stream a MIX stops before acquiring; the last address of the space outside
BUSY. -/
theorem witness_HostPoke :
    ({ State.reset with host := [.poke 4294967296 1] } : State).host = .poke 4294967296 1 :: [] ∧
    (∃ s : State, s.host = .poke 0x2007 1 :: [] ∧ s.seq = .busy ∧ InFootprint 0x2007 s) ∧
    (∃ s : State, s.host = .poke 0x2007 1 :: [] ∧ s.seq = .busy ∧ s.cmd = 0x00000232 ∧ InFootprint 0x2007 s) ∧
    (∃ s : State, s.host = .poke 0x1107 1 :: [] ∧ s.seq = .busy ∧ InFootprint 0x1107 s) ∧
    (∃ s : State, s.host = .poke 0x1108 1 :: [] ∧ s.seq = .busy ∧ ¬ InFootprint 0x1108 s) ∧
    (∃ s : State, s.host = .poke 0x1100 1 :: [] ∧ s.seq = .busy ∧ answerAt s 0 = 0 ∧ ¬ InFootprint 0x1100 s) ∧
    ∃ s : State, s.host = .poke 0xFFFFFFFF 1 :: [] ∧ s.seq ≠ .busy := by
  refine ⟨by decide, ⟨{ busyMix with host := [.poke 0x2007 1] }, rfl, rfl, footprint_of ?_⟩,
    ⟨{ busyMix with cmd := 0x00000232, host := [.poke 0x2007 1] }, rfl, rfl, rfl, footprint_of ?_⟩,
    ⟨{ busyMix with host := [.poke 0x1107 1] }, rfl, rfl, footprint_of ?_⟩,
    ⟨{ busyMix with host := [.poke 0x1108 1] }, rfl, rfl, no_footprint_of rfl ?_⟩,
    ⟨{ busyMix with answers := [0, 0x1100], host := [.poke 0x1100 1] }, rfl, rfl, ?_, no_footprint_of rfl ?_⟩,
    { State.reset with host := [.poke 0xFFFFFFFF 1] }, by decide⟩ <;> decide +kernel

theorem witness_ResetEvent : State.reset.seq ≠ .busy ∧ (busyWith 0x3 State.reset).seq = .busy ∧
    ((busyWith 0x3 State.reset).seq ≠ .busy ∨ 0 = 0) ∧
    (busyWith 0x3 { State.reset with host := [.reset 1] }).host = .reset 1 :: [] := by decide

/-- Three channels of two bytes bound to a kernel of four: the state of a MIX the model refuses. -/
def misfit : State := busyWith 0x00208331 ((twoStreams 6).setKtab .s16le 0x0C)

theorem ready_misfit : MixReady .s16le 3 2 false true misfit (fun _ => 0x3F800000) (fun _ _ => 0x00010000) :=
  ⟨⟨⟨by decide, by decide, by decide, by decide, by decide, by decide⟩, by unfold Silenced; decide +kernel,
    by unfold StreamsAligned; decide +kernel⟩, by unfold GoodAnswer; decide +kernel, by decide +kernel, by decide +kernel⟩

theorem witness_ResetWhileBusy : (busyWith 0x13 State.reset).seq = .busy ∧
    runCommand (busyWith 0x13 State.reset) = .next { busyWith 0x13 State.reset with ret := 1, seq := .done } ∧
    misfit.seq = .busy ∧ decode misfit.cmd = .instr (mixOf .s16le 3 2 false true) ∧
    MixReady .s16le 3 2 false true misfit (fun _ => 0x3F800000) (fun _ _ => 0x00010000) ∧
    runCommand misfit = .refused (.kernelWidthMisfit 0x0C 6) := by
  refine ⟨rfl, rfl, rfl, by decide, ready_misfit, ?_⟩
  have h : (match runCommand misfit with
    | .refused r => some r
    | _ => none) = some (.kernelWidthMisfit 0x0C 6) := by decide +kernel
  cases e : runCommand misfit with
  | next t => rw [e] at h; cases h
  | fault r => rw [e] at h; cases h
  | refused r => rw [e] at h; cases h; rfl

/-- The largest stream and channel, and every code of the statement. -/
theorem witness_FaultEntry : (0xFF : Nat) < 256 ∧ (31 : Nat) < 256 := by decide

/-- A faulted context whose host waits. -/
def faulted : State := { takeFault .lengthAlign 0xFF 0 State.reset with host := [.wait] }

theorem witness_FaultIsTerminal : faulted.seq = .fault ∧ faulted.gfault = true ∧
    (∀ n rest, faulted.host ≠ .reset n :: rest) ∧ step faulted = .next { faulted with host := [] } :=
  ⟨rfl, rfl, fun _ _ h => (by cases h), rfl⟩

theorem witness_FaultsArePrecise : State.reset.seq ≠ .fault ∧
    exec (.mixU8 0 0 false false) State.reset = .next (takeFault .channels 0xFF 0 State.reset) ∧
    (takeFault .channels 0xFF 0 State.reset).seq = .fault := ⟨by decide, rfl, rfl⟩

/-- Each clause in turn: C = 0 and 33; NS = 33; DST = 0; LEN = 0; LEN = 6 of frames of 4; a window one byte too long. -/
theorem witness_MixValidation :
    (0 = 0 ∨ 32 < 0) ∧ (33 = 0 ∨ 32 < 33) ∧ (1 ≤ 32 ∧ 32 ≤ 32 ∧ 32 < 33) ∧ State.reset.dst = 0 ∧
    ((twoStreams 0).dst ≠ 0 ∧ (twoStreams 0).len = 0) ∧
    ((twoStreams 6).len ≠ 0 ∧ (twoStreams 6).len.toNat % (2 * width .s16le) ≠ 0) ∧
    ∃ s : State, s.dst ≠ 0 ∧ s.len ≠ 0 ∧ s.len.toNat % (1 * width .s16le) = 0 ∧ 2 ^ 32 < s.dst.toNat + s.len.toNat := by
  refine ⟨by decide, by decide, by decide, by decide, by decide, by decide, { twoStreams 2 with dst := 0xFFFFFFFF }, by decide⟩

theorem witness_VolValidation :
    (0 = 0 ∨ 32 < 0) ∧ (33 = 0 ∨ 32 < 33) ∧ State.reset.dst = 0 ∧ ((twoStreams 0).dst ≠ 0 ∧ (twoStreams 0).len = 0) ∧
    ((twoStreams 6).len ≠ 0 ∧ (twoStreams 6).len.toNat % (1 * width .s32be) ≠ 0) ∧
    ∃ s : State, s.dst ≠ 0 ∧ s.len ≠ 0 ∧ s.len.toNat % (1 * width .u8) = 0 ∧ 2 ^ 32 < s.dst.toNat + s.len.toNat := by
  refine ⟨by decide, by decide, by decide, by decide, by decide, { twoStreams 1 with dst := 0xFFFFFFFF, len := 2 }, by decide⟩

/-- The preconditions hold of the two-stream state, for a stereo MIX.S16LE. -/
theorem valid_twoStreams : Valid .s16le 2 2 (twoStreams 8) :=
  ⟨by decide, by decide, by decide, by decide, by decide, by decide⟩

/-- It takes the kernel path. -/
theorem sounding_twoStreams : ¬ Silenced 2 2 false true (twoStreams 8) := by unfold Silenced; decide +kernel

/-- Its checks pass up to the acquires. -/
theorem starts_twoStreams : MixStarts .s16le 2 2 false true (twoStreams 8) :=
  ⟨valid_twoStreams, sounding_twoStreams, by unfold StreamsAligned; decide +kernel⟩

/-- The output gains and the stream gains at Unity. -/
theorem ready_twoStreams :
    MixReady .s16le 2 2 false true (twoStreams 8) (fun _ => 0x3F800000) (fun _ _ => 0x00010000) :=
  ⟨starts_twoStreams, by unfold GoodAnswer; decide +kernel, by decide +kernel, by decide +kernel⟩

/-- The last stream is the misaligned one. -/
theorem witness_MixStreamAlign : ∃ s : State, Valid .s16le 2 2 s ∧ ¬ Silenced 2 2 false true s ∧
    (s.sAvailAt 1).toNat % (2 * width .s16le) ≠ 0 ∧ ∀ j < 1, (s.sAvailAt j).toNat % (2 * width .s16le) = 0 :=
  ⟨{ twoStreams 8 with sAvail := regs _ [8, 2] }, ⟨by decide, by decide, by decide, by decide, by decide, by decide⟩,
    by unfold Silenced; decide +kernel, by decide +kernel, by decide +kernel⟩

/-- The last stream is answered 0; the last stream's window ends one byte past the space. -/
theorem witness_MixBadAnswer :
    (∃ s : State, MixStarts .s16le 2 2 false true s ∧ (∀ j < 1, GoodAnswer s j) ∧ answerAt s 1 = 0) ∧
    ∃ s : State, MixStarts .s16le 2 2 false true s ∧ (∀ j < 1, GoodAnswer s j) ∧ answerAt s 1 ≠ 0 ∧
      2 ^ 32 < (answerAt s 1).toNat + (s.sAvailAt 1).toNat :=
  ⟨⟨{ twoStreams 8 with answers := [0x1000, 0] }, ⟨⟨by decide, by decide, by decide, by decide, by decide, by decide⟩,
      by unfold Silenced; decide +kernel, by unfold StreamsAligned; decide +kernel⟩, by unfold GoodAnswer; decide +kernel,
      by decide +kernel⟩,
    { twoStreams 8 with answers := [0x1000, 0xFFFFFFF9] }, ⟨⟨by decide, by decide, by decide, by decide, by decide, by decide⟩,
      by unfold Silenced; decide +kernel, by unfold StreamsAligned; decide +kernel⟩, by unfold GoodAnswer; decide +kernel,
      by decide +kernel, by decide +kernel⟩

/-- A curve with ratio 1.0 at Unity, 0 at Muted, and a NaN at every other level. -/
def brokenPorts : Config.Ports :=
  { testPorts with curve := fun l => if l = 0 then 0 else if l = 0x10000 then 0x3FF0000000000000 else 0x7FF8000000000000 }

/-- The last channel of the output volume has no gain. -/
theorem witness_MixOutputGainFault : ∃ s : State, MixStarts .s16le 2 2 false true s ∧ (∀ j < 2, GoodAnswer s j) ∧
    (∀ ch < 1, linGain brokenPorts .flt (outVol true s ch) = some 0x3F800000) ∧
    linGain brokenPorts .flt (outVol true s 1) = none :=
  ⟨{ twoStreams 8 with ovol := regs _ [0x10000, 0x8000] }, ⟨⟨by decide, by decide, by decide, by decide, by decide, by decide⟩,
    by unfold Silenced; decide +kernel, by unfold StreamsAligned; decide +kernel⟩, by unfold GoodAnswer; decide +kernel,
    by decide +kernel, by decide +kernel⟩

/-- The last channel of the last stream has a level without a gain. -/
def brokenStream : State := { twoStreams 8 with sVol := (twoStreams 8).sVol.setIfInBounds 1 (regs _ [0x10000, 0x8000]) }

theorem oneBroken : ∀ j < 2, ∀ ch < 2, j < 1 ∨ (j = 1 ∧ ch < 1) →
    streamGain brokenPorts (gainRepr .s16le) (brokenStream.sVolAt j ch) 0x3F800000 = some 0x00010000 := by decide +kernel

/-- The last channel of the last stream has no gain. -/
theorem witness_MixStreamGainFault : ∃ s : State, MixStarts .s16le 2 2 false true s ∧ (∀ j < 2, GoodAnswer s j) ∧
    (∀ ch < 2, linGain brokenPorts .flt (outVol true s ch) = some 0x3F800000) ∧
    (∀ j ch, ch < 2 → j < 1 ∨ (j = 1 ∧ ch < 1) →
      streamGain brokenPorts (gainRepr .s16le) (s.sVolAt j ch) 0x3F800000 = some 0x00010000) ∧
    streamGain brokenPorts (gainRepr .s16le) (s.sVolAt 1 1) 0x3F800000 = none :=
  ⟨brokenStream,
    ⟨⟨by decide, by decide, by decide, by decide, by decide, by decide⟩,
    by unfold Silenced; decide +kernel, by unfold StreamsAligned; decide +kernel⟩, by unfold GoodAnswer; decide +kernel,
    by decide +kernel, fun j ch hc h => oneBroken j (by omega) ch hc h, by decide +kernel⟩

theorem witness_VolGainFault : ∃ s : State, Valid .s16le 2 0 s ∧ (∃ ch < 2, s.ovolAt ch ≠ Config.levelUnity) ∧
    (∃ ch < 2, s.ovolAt ch ≠ Config.levelMuted) ∧ (∀ ch < 1, linGain brokenPorts .int (s.ovolAt ch) = some 0x00010000) ∧
    linGain brokenPorts (gainRepr .s16le) (s.ovolAt 1) = none :=
  ⟨{ twoStreams 8 with ovol := regs _ [0x10000, 0x8000] }, ⟨by decide, by decide, by decide, by decide, by decide, by decide⟩,
    ⟨1, by decide +kernel⟩, ⟨1, by decide +kernel⟩, by decide +kernel, by decide +kernel⟩

/-- Silenced by the flag, by an all-muted output volume, and by the stream count. -/
theorem witness_MixSilence : Valid .s16le 2 2 (twoStreams 8) ∧ Silenced 2 2 true false (twoStreams 8) ∧
    (∃ s : State, Valid .s16le 2 2 s ∧ Silenced 2 2 false true s) ∧ Valid .s16le 2 0 (twoStreams 8) ∧
    Silenced 2 0 false false (twoStreams 8) :=
  ⟨valid_twoStreams, .inl rfl,
    ⟨{ twoStreams 8 with ovol := regs _ [0, 0] }, ⟨by decide, by decide, by decide, by decide, by decide, by decide⟩,
      by unfold Silenced; decide +kernel⟩,
    ⟨by decide, by decide, by decide, by decide, by decide, by decide⟩, .inr (.inr rfl)⟩

theorem witness_EffectiveLength : (twoStreams 8).len.toNat % frame .s16le 2 = 0 ∧ StreamsAligned .s16le 2 2 (twoStreams 8) :=
  ⟨by decide, starts_twoStreams.aligned⟩

theorem witness_MixKernelPath :
    MixReady .s16le 2 2 false true (twoStreams 8) (fun _ => 0x3F800000) (fun _ _ => 0x00010000) ∧
    kernelOf Config.nativeEndian ((twoStreams 8).ktabAt .s16le) = some .s16le ∧
    effectiveLength 2 (twoStreams 8) % width .s16le = 0 ∧
    (answerAt (twoStreams 8) 1).toNat + effectiveLength 2 (twoStreams 8) < 2 ^ 32 :=
  ⟨ready_twoStreams, by decide, by decide +kernel, by decide +kernel⟩

/-- A command with no slot at all completes; its next state is `exec`'s own answer. -/
theorem witness_MixAccessOrder :
    MixReady .s16le 2 2 false true (twoStreams 8) (fun _ => 0x3F800000) (fun _ _ => 0x00010000) ∧
    kernelOf Config.nativeEndian ((twoStreams 8).ktabAt .s16le) = some .s16le ∧
    effectiveLength 2 (twoStreams 8) % width .s16le = 0 ∧
    ∃ t, exec (mixOf .s16le 2 2 false true) (twoStreams 8) = .next t := by
  refine ⟨ready_twoStreams, by decide, by decide +kernel, ?_⟩
  have h : (statusAfter (exec (mixOf .s16le 2 2 false true) (twoStreams 8))).isSome = true := by decide +kernel
  cases e : exec (mixOf .s16le 2 2 false true) (twoStreams 8) with
  | next t => exact ⟨t, rfl⟩
  | fault r => rw [e] at h; cases h
  | refused r => rw [e] at h; cases h

/-- One window ends where the destination begins, the other begins where it ends; and a destination inside the first window. -/
theorem witness_MixKernelBytes : (∃ s : State,
    MixReady .s16le 2 2 false true s (fun _ => 0x3F800000) (fun _ _ => 0x00010000) ∧
    kernelOf Config.nativeEndian (s.ktabAt .s16le) = some .s16le ∧ effectiveLength 2 s % width .s16le = 0 ∧
    DisjointWindows 2 (effectiveLength 2 s) s) ∧
    ∃ s : State, MixReady .s16le 2 2 false true s (fun _ => 0x3F800000) (fun _ _ => 0x00010000) ∧
      kernelOf Config.nativeEndian (s.ktabAt .s16le) = some .s16le ∧ effectiveLength 2 s % width .s16le = 0 ∧
      (answerAt s 0).toNat < s.dst.toNat ∧ s.dst.toNat < (answerAt s 0).toNat + effectiveLength 2 s :=
  ⟨⟨{ twoStreams 8 with answers := [0x1FF8, 0x2008] },
    ⟨⟨⟨by decide, by decide, by decide, by decide, by decide, by decide⟩, by unfold Silenced; decide +kernel,
      by unfold StreamsAligned; decide +kernel⟩, by unfold GoodAnswer; decide +kernel, by decide +kernel, by decide +kernel⟩,
    by decide, by decide +kernel, by unfold DisjointWindows; decide +kernel⟩,
    { twoStreams 8 with answers := [0x1FFE, 0x2008] },
    ⟨⟨⟨by decide, by decide, by decide, by decide, by decide, by decide⟩, by unfold Silenced; decide +kernel,
      by unfold StreamsAligned; decide +kernel⟩, by unfold GoodAnswer; decide +kernel, by decide +kernel, by decide +kernel⟩,
    by decide, by decide +kernel, by decide +kernel⟩

/-- A two-byte format bound to a four-byte kernel over six bytes; the first id that is no built-in kernel. -/
theorem witness_MixRefusals :
    (∃ s : State, MixReady .s16le 1 2 false true s (fun _ => 0x3F800000) (fun _ _ => 0x00010000) ∧
      kernelOf Config.nativeEndian (s.ktabAt .s16le) = some .f32be ∧ effectiveLength 2 s % width .f32be ≠ 0) ∧
    ∃ s : State, MixReady .s16le 1 2 false true s (fun _ => 0x3F800000) (fun _ _ => 0x00010000) ∧
      0x0C < (s.ktabAt .s16le).toNat :=
  ⟨⟨(twoStreams 6).setKtab .s16le 0x0C,
    ⟨⟨⟨by decide, by decide, by decide, by decide, by decide, by decide⟩, by unfold Silenced; decide +kernel,
      by unfold StreamsAligned; decide +kernel⟩, by unfold GoodAnswer; decide +kernel, by decide +kernel, by decide +kernel⟩,
    by decide, by decide +kernel⟩,
    (twoStreams 6).setKtab .s16le 0x0D,
    ⟨⟨⟨by decide, by decide, by decide, by decide, by decide, by decide⟩, by unfold Silenced; decide +kernel,
      by unfold StreamsAligned; decide +kernel⟩, by unfold GoodAnswer; decide +kernel, by decide +kernel, by decide +kernel⟩,
    by decide⟩

/-- No-op by the flag, and by a volume all at Unity. -/
theorem witness_VolNoop : Valid .s16le 2 0 (twoStreams 8) ∧
    ∀ ch < 2, (twoStreams 8).ovolAt ch = Config.levelUnity :=
  ⟨⟨by decide, by decide, by decide, by decide, by decide, by decide⟩, by decide +kernel⟩

theorem witness_VolMuted : Valid .s24be 3 0 (buffer [0, 0, 0] [1, 2, 3, 4, 5, 6, 7, 8, 9]) ∧
    ∀ ch < 3, (buffer [0, 0, 0] [1, 2, 3, 4, 5, 6, 7, 8, 9]).ovolAt ch = Config.levelMuted :=
  ⟨⟨by decide, by decide, by decide, by decide, by decide, by decide⟩, by decide +kernel⟩

/-- One channel muted, one at Unity. -/
theorem witness_VolKernelPath : VolReady .s16le 2 false (buffer [0, 0x10000] [1, 2, 3, 4])
    (fun ch => if ch = 0 then 0 else 0x00010000) :=
  ⟨⟨by decide, by decide, by decide, by decide, by decide, by decide⟩, rfl, ⟨0, by decide +kernel⟩, ⟨1, by decide +kernel⟩,
    by decide +kernel⟩

/-- The last valid id and the first invalid one. -/
theorem witness_SetkBindsKernel : ({ State.reset with karg := 0x10C } : State).karg.toNat % 256 ≤ 0x0C ∧
    0x0C < ({ State.reset with karg := 0x0D } : State).karg.toNat % 256 := by decide

theorem witness_CommandsEnd : exec .getkALaw State.reset = .next { State.reset with ret := 1, seq := .done } := rfl

theorem witness_HostRegistersKept : exec .getkALaw State.reset = .next { State.reset with ret := 1, seq := .done } := rfl

theorem witness_OnlySetkWritesTable : (∀ F, Instr.getkALaw ≠ setkOf F) ∧
    exec .getkALaw State.reset = .next { State.reset with ret := 1, seq := .done } :=
  ⟨fun F => by cases F <;> decide, rfl⟩

/-- A SETK, so that the clause about `RET` has its case too. -/
theorem witness_OnlyMixUsesPort : (∀ F ch ns mute hasvol, Instr.setkU8 ≠ mixOf F ch ns mute hasvol) ∧
    (∀ F, Instr.setkU8 ≠ getkOf F) ∧ exec .setkU8 State.reset = .next { State.reset with seq := .done } :=
  ⟨fun F _ _ _ _ => by cases F <;> exact Instr.noConfusion, fun F => by cases F <;> decide, by rfl⟩

theorem witness_HistoryAccountsForMemory : ∃ t, exec (.volU8 1 false) (buffer [0] [1, 2, 3]) = .next t ∧ t.hist.length = 3 := by
  have h : (statusAfter (exec (.volU8 1 false) (buffer [0] [1, 2, 3]))).map (·.2.2.length) = some 3 := by decide +kernel
  cases e : exec (.volU8 1 false) (buffer [0] [1, 2, 3]) with
  | next t => rw [e] at h; exact ⟨t, rfl, by simpa [statusAfter] using h⟩
  | fault r => rw [e] at h; cases h
  | refused r => rw [e] at h; cases h

/-- Two states that differ in the scratch, and a command that ends. -/
theorem witness_StaleScratchIsNoInput :
    SameButScratch State.reset { State.reset with olin := Vector.replicate _ 7, acc32 := 7, chIdx := 7 } ∧
    exec .getkALaw State.reset = .next { State.reset with ret := 1, seq := .done } :=
  ⟨⟨⟨rfl, rfl, rfl, rfl, rfl, rfl, rfl, rfl, rfl, rfl⟩, ⟨rfl, rfl, rfl⟩, rfl, rfl, rfl, rfl, rfl, rfl, rfl⟩, rfl⟩

theorem witness_StepKeepsInv : MachineInv { State.reset with mem := [(0x2000, 0xEE)], host := [.poke 0x2000 0] } ∧
    step { State.reset with mem := [(0x2000, 0xEE)], host := [.poke 0x2000 0] } = .next State.reset :=
  ⟨⟨by decide, by decide, by decide⟩, rfl⟩

theorem witness_LinearizerPads : (1 ≤ 32 ∧ 32 ≤ 32) ∧
    ∃ t, linearize testPorts .int (fun _ => 0x8000) 32 State.reset = .on t := by
  refine ⟨by decide, ?_⟩
  have h : (match linearize testPorts .int (fun _ => 0x8000) 32 State.reset with
    | .on _ => true
    | .halt _ => false) = true := by decide +kernel
  cases e : linearize testPorts .int (fun _ => 0x8000) 32 State.reset with
  | on t => exact ⟨t, rfl⟩
  | halt t => rw [e] at h; cases h

/-- The test ports with one ratio at every level. -/
def constPorts (r : DWord) : Config.Ports := { testPorts with curve := fun _ => r }

/-- The largest integer gain and a float gain; a ratio with finite products; the largest ratio with an infinite product; the
largest output gain of the hypothesis. -/
theorem witness_GainValues : (0x3F000000 : Word).toNat < 0x7F800000 ∧ (0x7F7FFFFF : Word).toNat < 0x7F800000 ∧
    linGain testPorts .int 0x7FFFFFFF = some 0x7FFFFFFF ∧ linGain testPorts .flt 0x8000 = some 0x3F000000 ∧
    streamGain testPorts .int 0x8000 0x3F000000 = some 0x4000 ∧ streamGain testPorts .flt 0x8000 0x3F000000 = some 0x3E800000 ∧
    (testPorts.curve 0x18000).toNat < 0x7FF0000000000000 ∧
    (f64Mul (testPorts.curve 0x18000) (f64OfF32 0x3F000000)).toNat < 0x7FF0000000000000 ∧
    ((constPorts 0x7FEFFFFFFFFFFFFF).curve 0).toNat < 0x7FF0000000000000 ∧
    (f64Mul ((constPorts 0x7FEFFFFFFFFFFFFF).curve 0) (f64OfF32 0x40000000)).toNat = 0x7FF0000000000000 := by decide +kernel

/-- Half a unit above 0x8000 in each gain: a ratio of 65537 / 2^17 gives the tie 32768.5, which goes to the even 32768; a ratio of
65537 / 2^16 gives the same tie with the output gain 0.5. 2^31 - 1/2 is above every gain. -/
theorem test_gain_ties :
    fixedGain (f64Bits (.fin false 65537 (-17))) = some 0x8000 ∧ fixedGain (f64Bits (.fin false 65539 (-17))) = some 0x8002 ∧
    fixedGain (f64Mul (f64Bits (.fin false 65537 (-16))) (f64OfF32 0x3F000000)) = some 0x8000 ∧
    fixedGain (f64Bits (.fin false 0xFFFFFFFF (-17))) = none := by decide +kernel

/-- `-0.0`, and a NaN. -/
theorem witness_RatioCheck : (({ testPorts with curve := fun _ => 0x8000000000000000 } : Config.Ports).curve 0).getLsbD 63 = true ∧
    (brokenPorts.curve 0x8000).extractLsb 62 52 = 0x7FF := by decide

theorem witness_Apply16Exact : (-32768 : Int) ≤ -32768 ∧ (-32768 : Int) ≤ 32767 ∧ (0x7FFFFFFF : Word).toNat ≤ 0x7FFFFFFF := by
  decide

theorem witness_Apply64Exact : (-0x80000000 : Int) ≤ -0x80000000 ∧ (-0x80000000 : Int) ≤ 0x7FFFFFFF := by decide

/-- Two streams at the largest gain reach the bound exactly. -/
theorem witness_AccumulatorBound : (∀ b, -32768 ≤ decS16 .le b ∧ decS16 .le b ≤ 32767) ∧
    (∀ i < 2, ((fun _ => 0x7FFFFFFF : Nat → Word) i).toNat ≤ 0x7FFFFFFF) ∧
    ((List.range 2).map fun i => ((fun _ => 0x7FFFFFFF : Nat → Word) i).toNat / 65536 + 1).sum ≤ 65536 := by
  refine ⟨fun b => ?_, by decide, by decide⟩
  have h1 := BitVec.le_toInt (BitVec.ofNat 16 (rawOf .le b))
  have h2 := BitVec.toInt_lt (x := BitVec.ofNat 16 (rawOf .le b))
  simp only [decS16, sext]
  omega

/-- 0.1, `-0.0`, the least subnormal and a signalling NaN; infinity times zero and infinity minus infinity. -/
theorem witness_FloatArithmetic : f32IsNaN 0x3DCCCCCD = false ∧ f32IsNaN 0x80000000 = false ∧ f32IsNaN 0x7F800001 = true ∧
    EncFin 8 23 0x3DCCCCCD ∧ EncFin 8 23 0x00000001 ∧ EncFin 11 52 0x000FFFFFFFFFFFFF ∧ EncNaN 8 23 0x7F800001 ∧
    (EncInf 8 23 0x7F800000 ∧ EncZero 8 23 0x80000000) ∧
    (EncInf 8 23 0xFF800000 ∧ encSign 8 23 0x7F800000 ≠ encSign 8 23 0xFF800000) := by
  unfold EncFin EncNaN EncInf EncZero encExp encSign
  decide +kernel

/-- 00_scope.md R11, rounded by hand: 1 and 3 half units above 1.0 go to the even neighbour; the least subnormal, and half of it;
half a unit above the largest binary32 datum is an infinity, anything less is not; a subnormal product and sum. -/
theorem test_rounding :
    f32OfF64 0x3FF0000010000000 = 0x3F800000 ∧ f32OfF64 0x3FF0000030000000 = 0x3F800002 ∧
    f32OfF64 0x36A0000000000000 = 0x00000001 ∧ f32OfF64 0x3690000000000000 = 0x00000000 ∧
    f32OfF64 0x47EFFFFFF0000000 = 0x7F800000 ∧ f32OfF64 0x47EFFFFFEFFFFFFF = 0x7F7FFFFF ∧
    f32Mul 0x00800000 0x3F000000 = 0x00400000 ∧ f32Add 0x00800000 0x80000001 = 0x007FFFFF := by decide +kernel

/-- The equations of the statement have solutions: a value above the bound, its bytes, and a NaN. -/
theorem witness_SampleBytes : (0x7FFF : Int) = max (-0x8000) (min (BitVec.toInt (0x8000 : Word)) 0x7FFF) ∧
    (0x7FFFFFFF : Int) = max (-0x80000000) (min (BitVec.toInt (0x80000000 : DWord)) 0x7FFFFFFF) ∧
    (0xFF : Byte) = BitVec.ofInt 8 0x7FFFFFFF ∧ (0xFF : Byte) = BitVec.ofInt 8 (0x7FFFFFFF / 2 ^ 8) ∧
    (0xFF : Byte) = BitVec.ofInt 8 (0x7FFFFFFF / 2 ^ 16) ∧ (0x7F : Byte) = BitVec.ofInt 8 (0x7FFFFFFF / 2 ^ 24) ∧
    (0x7FC00000 : Word) = if f32IsNaN 0x7F800001 then 0x7FC00000 else 0x7F800001 := by decide

/-- 42_sample_codec.md R160, R172: one past the 16-bit range is clamped before the shift of 3, and -1 is shifted with floor. -/
theorem test_companded_clamp :
    (laneOf testPorts .alaw).out 0 (0x8000 : Word) = [testCompressA 0x0FFF] ∧
    (laneOf testPorts .alaw).out 0 (0xFFFFFFFF : Word) = [testCompressA 0xFFFF] ∧
    (laneOf testPorts .ulaw).out 0 (0xFFFF7FFF : Word) = [testCompressU 0xE000] := by decide +kernel

end Sys2Proof.Tests
end

section
/-! PROOFS of the statements about floating-point arithmetic and the format table (00_scope.md R11, R13). The idea: an encoding is
determined by its sign and its value, so rounding a value the format holds gives back its encoding. -/

namespace Sys2Proof.Machine

/-! ## An encoding is determined by its sign and its value -/

/-- Significands at scales, one of them in a lower binade, are different numbers. -/
theorem mul_scaleAt_ne {eb fb k d r r' : Nat} (hr : r < 2 ^ (fb + 1)) (hr' : 2 ^ fb ≤ r') :
    (r : ℚ) * scaleAt eb fb k ≠ r' * scaleAt eb fb (k + (d + 1)) := by
  intro h
  rw [scaleAt_add, ← mul_assoc] at h
  have hq := mul_right_cancel₀ (scaleAt_pos eb fb k).ne' h
  have hn : r = r' * 2 ^ (d + 1) := by exact_mod_cast hq
  have h1 : 2 ^ fb * 2 ≤ r' * 2 ^ (d + 1) := Nat.mul_le_mul hr' (Nat.le_self_pow (Nat.succ_ne_zero d) 2)
  rw [Nat.pow_succ] at hr
  omega

theorem encMag_inj {eb fb u v : Nat} (h : encMag eb fb u = encMag eb fb v) : u % 2 ^ (eb + fb) = v % 2 ^ (eb + fb) := by
  obtain ⟨k, r, hu, hr, hk, hmu⟩ := encMag_eq eb fb u
  obtain ⟨k', r', hv, hr', hk', hmv⟩ := encMag_eq eb fb v
  rw [hmu, hmv] at h
  rw [hu, hv]
  rcases Nat.lt_trichotomy k k' with hlt | rfl | hgt
  · obtain ⟨d, rfl⟩ := Nat.exists_eq_add_of_lt hlt
    exact absurd h (mul_scaleAt_ne hr (hk'.resolve_left (by omega)))
  · have hq := mul_right_cancel₀ (scaleAt_pos eb fb k).ne' h
    rw [show r = r' by exact_mod_cast hq]
  · obtain ⟨d, rfl⟩ := Nat.exists_eq_add_of_lt hgt
    exact absurd h.symm (mul_scaleAt_ne hr' (hk.resolve_left (by omega)))

theorem sign_mul_add_mod {eb fb u : Nat} (hu : u < 2 ^ (eb + fb + 1)) :
    2 ^ (eb + fb) * encSign eb fb u + u % 2 ^ (eb + fb) = u := by
  have hs : encSign eb fb u = u / 2 ^ (eb + fb) :=
    Nat.mod_eq_of_lt ((Nat.div_lt_iff_lt_mul (by positivity)).2 (by rw [Nat.pow_succ] at hu; omega))
  rw [hs, Nat.div_add_mod]

theorem eq_of_sign_of_mod {eb fb u v : Nat} (hu : u < 2 ^ (eb + fb + 1)) (hv : v < 2 ^ (eb + fb + 1))
    (hs : encSign eb fb u = encSign eb fb v) (hm : u % 2 ^ (eb + fb) = v % 2 ^ (eb + fb)) : u = v := by
  rw [← sign_mul_add_mod hu, ← sign_mul_add_mod hv, hs, hm]

theorem encMag_eq_of_value {eb fb u v : Nat} (hs : encSign eb fb u = encSign eb fb v)
    (h : encValue eb fb u = encValue eb fb v) : encMag eb fb u = encMag eb fb v := by
  unfold encValue at h
  rw [hs] at h
  split at h
  · exact neg_injective h
  · exact h

theorem eq_of_sign_of_value {eb fb u v : Nat} (hu : u < 2 ^ (eb + fb + 1)) (hv : v < 2 ^ (eb + fb + 1))
    (hs : encSign eb fb u = encSign eb fb v) (h : encValue eb fb u = encValue eb fb v) : u = v :=
  eq_of_sign_of_mod hu hv hs (encMag_inj (encMag_eq_of_value hs h))

theorem eq_of_sign_of_inf {eb fb u v : Nat} (hu : u < 2 ^ (eb + fb + 1)) (hv : v < 2 ^ (eb + fb + 1))
    (hs : encSign eb fb u = encSign eb fb v) (iu : EncInf eb fb u) (iv : EncInf eb fb v) : u = v :=
  eq_of_sign_of_mod hu hv hs (((encInf_iff ..).1 iu).trans ((encInf_iff ..).1 iv).symm)

theorem abs_encValue (eb fb u : Nat) : |encValue eb fb u| = encMag eb fb u := by
  unfold encValue
  split
  · rw [abs_neg, abs_of_nonneg (encMag_nonneg ..)]
  · exact abs_of_nonneg (encMag_nonneg ..)

theorem encValue_of_sign_zero {eb fb u : Nat} (h : encSign eb fb u = 0) : encValue eb fb u = encMag eb fb u :=
  if_neg (by omega)

/-! ## Rounding a value the format holds -/

/-- A finite magnitude is below the overflow bound. -/
theorem encMag_lt_overflowAt {eb fb u : Nat} (he : 2 ≤ eb) (h : EncFin eb fb u) : encMag eb fb u < overflowAt eb fb := by
  obtain ⟨k, r, hu, hr, hk, hm⟩ := encMag_eq eb fb u
  have hfin := (encFin_iff ..).1 h
  have h4 : 4 ≤ 2 ^ eb := le_trans (by norm_num) (Nat.pow_le_pow_right (by norm_num) he)
  have hp : 0 < 2 ^ fb := by positivity
  have hk3 : k ≤ 2 ^ eb - 3 := by
    by_contra hc
    have : (2 ^ eb - 2) * 2 ^ fb ≤ k * 2 ^ fb := Nat.mul_le_mul_right _ (by omega)
    have e : (2 ^ eb - 1) * 2 ^ fb = (2 ^ eb - 2) * 2 ^ fb + 2 ^ fb := by
      rw [← Nat.succ_mul]; congr 1; omega
    omega
  have hr1 : (r : ℚ) ≤ 2 ^ (fb + 1) - 1 := by
    have : (r : ℚ) + 1 ≤ 2 ^ (fb + 1) := by exact_mod_cast hr
    linarith
  rw [hm, overflowAt_eq eb fb he]
  calc (r : ℚ) * scaleAt eb fb k ≤ r * scaleAt eb fb (2 ^ eb - 3) :=
        mul_le_mul_of_nonneg_left (scaleAt_mono eb fb hk3) (by positivity)
    _ < (2 ^ (fb + 1) - 1 / 2) * scaleAt eb fb (2 ^ eb - 3) := mul_lt_mul_of_pos_right (by linarith) (scaleAt_pos ..)

theorem Nearest.fin_of_lt {eb fb u : Nat} {x : ℚ} (h : Nearest eb fb x u) (hx : |x| < overflowAt eb fb) : EncFin eb fb u :=
  (h.1 hx).1

/-- The nearest datum to the value of a finite encoding has that value. -/
theorem Nearest.value_eq {eb fb u v : Nat} {x : ℚ} (he : 2 ≤ eb) (h : Nearest eb fb x u) (hv : v < 2 ^ (eb + fb + 1))
    (fv : EncFin eb fb v) (hx : encValue eb fb v = x) : encValue eb fb u = x := by
  have hlt : |x| < overflowAt eb fb := by rw [← hx, abs_encValue]; exact encMag_lt_overflowAt he fv
  have hle := ((h.1 hlt).2 v hv fv).1
  rw [hx, sub_self, abs_zero] at hle
  exact sub_eq_zero.1 (abs_nonpos_iff.1 hle)

/-- The nearest datum of the same sign to the value of a finite encoding is that encoding. -/
theorem Nearest.eq_of_sign {eb fb u v : Nat} (he : 2 ≤ eb) (h : Nearest eb fb (encValue eb fb v) u)
    (hu : u < 2 ^ (eb + fb + 1)) (hv : v < 2 ^ (eb + fb + 1)) (fv : EncFin eb fb v)
    (hs : encSign eb fb u = encSign eb fb v) : u = v :=
  eq_of_sign_of_value hu hv hs (h.value_eq he hv fv rfl)

theorem encFin_of_zero {eb fb u : Nat} (he : 2 ≤ eb) (h : EncZero eb fb u) : EncFin eb fb u := by
  intro k
  have : 1 < 2 ^ eb := Nat.one_lt_two_pow (by omega)
  rw [h.1] at k
  omega

/-! ## One and zero are neutral -/

/-- Times 1.0, every encoding but a NaN's is itself. -/
theorem ProductOf.eq_of_one {eb fb a one p : Nat} (he : 2 ≤ eb) (h : ProductOf eb fb a one p) (ha : a < 2 ^ (eb + fb + 1))
    (hp : p < 2 ^ (eb + fb + 1)) (na : ¬ EncNaN eb fb a) (fo : EncFin eb fb one) (vo : encValue eb fb one = 1)
    (so : encSign eb fb one = 0) (zo : ¬ EncZero eb fb one) : p = a := by
  have valid : ¬ (EncNaN eb fb a ∨ EncNaN eb fb one ∨ (EncInf eb fb a ∧ EncZero eb fb one) ∨
      (EncZero eb fb a ∧ EncInf eb fb one)) := by
    rintro (k | k | ⟨-, k⟩ | ⟨-, k⟩)
    · exact na k
    · exact fo k.1
    · exact zo k
    · exact fo k.1
  obtain ⟨hs, hinf, hfin⟩ := h.2 valid
  rw [so, Nat.add_zero, Nat.mod_eq_of_lt (encSign_lt ..)] at hs
  rcases enc_cases eb fb a with ⟨k, -, -⟩ | ⟨-, ia, -⟩ | ⟨-, -, fa⟩
  · exact absurd k na
  · exact eq_of_sign_of_inf hp ha hs (hinf (.inl ia)) ia
  · have hn := hfin fa fo
    rw [vo, mul_one] at hn
    exact hn.eq_of_sign he hp ha fa hs

/-- Added to `+0.0`, every encoding but a NaN's and `-0.0` is itself. -/
theorem SumOf.eq_of_zero {eb fb a p : Nat} (he : 2 ≤ eb) (h : SumOf eb fb 0 a p) (ha : a < 2 ^ (eb + fb + 1))
    (hp : p < 2 ^ (eb + fb + 1)) (na : ¬ EncNaN eb fb a) (hz : a ≠ 2 ^ (eb + fb)) : p = a := by
  have zero : EncZero eb fb 0 := by simp [EncZero, encExp]
  have s0 : encSign eb fb 0 = 0 := by simp [encSign]
  have v0 : encValue eb fb 0 = 0 := by rw [encValue_of_sign_zero s0, encMag_zero]
  have f0 : EncFin eb fb 0 := encFin_of_zero he zero
  obtain ⟨-, hinf, hfin⟩ := h.2 (by
    rintro (k | k | ⟨k, -⟩)
    · exact f0 k.1
    · exact na k
    · exact f0 k.1)
  rcases enc_cases eb fb a with ⟨k, -, -⟩ | ⟨-, ia, -⟩ | ⟨-, -, fa⟩
  · exact absurd k na
  · exact hinf ia
  · obtain ⟨hn, hs⟩ := hfin f0 fa
    rw [v0, zero_add] at hn hs
    refine hn.eq_of_sign he hp ha fa (hs.trans ?_)
    -- the sign of the sum is the operand's: a negative value has its bit set, and `-0.0` is left out
    have hsplit := sign_mul_add_mod ha
    rw [s0]
    rcases (show encSign eb fb a = 0 ∨ encSign eb fb a = 1 by have := encSign_lt eb fb a; omega) with sa | sa
    · rw [sa, encValue_of_sign_zero sa]
      exact if_neg (by simp [encMag_nonneg])
    · have hpos : encMag eb fb a ≠ 0 := by
        intro k
        rw [← encMag_zero eb fb] at k
        have := encMag_inj k
        rw [Nat.zero_mod] at this
        rw [this, sa] at hsplit
        omega
      have hneg : encValue eb fb a < 0 := by
        rw [encValue, if_pos sa]
        exact neg_neg_of_pos (lt_of_le_of_ne (encMag_nonneg ..) hpos.symm)
      rw [sa, if_pos (.inl hneg)]

/-! ## The operations of the model, over their encodings -/

theorem toNat_f32Bits (d : Datum) : (f32Bits d).toNat = bitsOf 8 23 d :=
  Nat.mod_eq_of_lt (bitsOf_lt 8 23 (by norm_num) (by norm_num) d)

theorem toNat_f64Bits (d : Datum) : (f64Bits d).toNat = bitsOf 11 52 d :=
  Nat.mod_eq_of_lt (bitsOf_lt 11 52 (by norm_num) (by norm_num) d)

theorem f32Mul_productOf (a b : Word) : ProductOf 8 23 a.toNat b.toNat (f32Mul a b).toNat := by
  rw [f32Mul, toNat_f32Bits]
  exact mul_spec 8 23 (by norm_num) (by norm_num) _ _

theorem f32Add_sumOf (a b : Word) : SumOf 8 23 a.toNat b.toNat (f32Add a b).toNat := by
  rw [f32Add, toNat_f32Bits]
  exact add_spec 8 23 (by norm_num) (by norm_num) _ _ a.isLt b.isLt

theorem f64Mul_productOf (a b : DWord) : ProductOf 11 52 a.toNat b.toNat (f64Mul a b).toNat := by
  rw [f64Mul, toNat_f64Bits]
  exact mul_spec 11 52 (by norm_num) (by norm_num) _ _

theorem f32OfF64_conversionOf (a : DWord) : ConversionOf 11 52 8 23 a.toNat (f32OfF64 a).toNat := by
  rw [f32OfF64, toNat_f32Bits]
  exact convert_spec 11 52 8 23 (by norm_num) (by norm_num) _

theorem f64OfF32_conversionOf (a : Word) : ConversionOf 8 23 11 52 a.toNat (f64OfF32 a).toNat := by
  rw [f64OfF32, toNat_f64Bits]
  exact convert_spec 8 23 11 52 (by norm_num) (by norm_num) _

theorem f64OfF32_exact {a : Word} (h : EncFin 8 23 a.toNat) :
    EncFin 11 52 (f64OfF32 a).toNat ∧ encValue 11 52 (f64OfF32 a).toNat = encValue 8 23 a.toNat := by
  rw [f64OfF32, toNat_f64Bits]
  exact widen_exact _ h

theorem f32IsNaN_iff (v : Word) : f32IsNaN v = true ↔ EncNaN 8 23 v.toNat := by
  rw [f32IsNaN, decide_eq_true_iff]
  unfold EncNaN encExp
  omega

/-- The encoding of 1.0 in binary32 is finite, positive and of value 1. -/
theorem f32_one : EncFin 8 23 0x3F800000 ∧ encValue 8 23 0x3F800000 = 1 ∧ encSign 8 23 0x3F800000 = 0 ∧
    ¬ EncZero 8 23 0x3F800000 := by
  refine ⟨by norm_num [EncFin, encExp], ?_, by norm_num [encSign], by norm_num [EncZero, encExp]⟩
  norm_num [encValue, encSign, encMag, encExp]

theorem f32Mul_one {v : Word} (h : f32IsNaN v = false) : f32Mul v 0x3F800000 = v := by
  obtain ⟨fo, vo, so, zo⟩ := f32_one
  have nv : ¬ EncNaN 8 23 v.toNat := by simp [← f32IsNaN_iff, h]
  exact BitVec.eq_of_toNat_eq
    ((f32Mul_productOf v 0x3F800000).eq_of_one (by norm_num) v.isLt (BitVec.isLt _) nv fo vo so zo)

/-- The encoding of 1.0 in binary64 is finite, positive and of value 1. -/
theorem f64_one : EncFin 11 52 0x3FF0000000000000 ∧ encValue 11 52 0x3FF0000000000000 = 1 ∧
    encSign 11 52 0x3FF0000000000000 = 0 ∧ ¬ EncZero 11 52 0x3FF0000000000000 := by
  refine ⟨by norm_num [EncFin, encExp], ?_, by norm_num [encSign], by norm_num [EncZero, encExp]⟩
  norm_num [encValue, encSign, encMag, encExp]

theorem f64Mul_one {r : DWord} (h : ¬ EncNaN 11 52 r.toNat) : f64Mul r 0x3FF0000000000000 = r := by
  obtain ⟨fo, vo, so, zo⟩ := f64_one
  exact BitVec.eq_of_toNat_eq
    ((f64Mul_productOf r 0x3FF0000000000000).eq_of_one (by norm_num) r.isLt (BitVec.isLt _) h fo vo so zo)

theorem f32Add_zero_left {v : Word} (h : f32IsNaN v = false) : f32Add 0 v = if v = 0x80000000 then 0 else v := by
  split
  · next hv => rw [hv]; decide +kernel
  · next hv =>
    have nv : ¬ EncNaN 8 23 v.toNat := by simp [← f32IsNaN_iff, h]
    exact BitVec.eq_of_toNat_eq ((f32Add_sumOf 0 v).eq_of_zero (by norm_num) v.isLt (BitVec.isLt _) nv
      fun k => hv (BitVec.eq_of_toNat_eq k))

/-- Settles O57: the rounding laws on encodings, with 1.0 and `+0.0` neutral because rounding keeps a value the format
holds. -/
theorem floatArithmetic : Obligations.FloatArithmetic := by
  refine ⟨fun a b => ⟨rfl, f32Mul_productOf a b, f32Add_sumOf a b⟩, f64Mul_productOf, f32OfF64_conversionOf,
    fun a => ⟨f64OfF32_conversionOf a, fun h => (f64OfF32_exact h).2⟩, fun v => ⟨f32IsNaN_iff v, fun h => ?_, fun h => ?_⟩⟩
  · exact ⟨f32Mul_one h, f32Add_zero_left h⟩
  · have nv := (f32IsNaN_iff v).1 h
    exact ⟨(f32IsNaN_iff _).2 ((f32Mul_productOf v _).1 (.inl nv)), (f32IsNaN_iff _).2 ((f32Add_sumOf 0 v).1 (.inr (.inl nv)))⟩

/-- Settles O52: the rows of the property table, format by format. -/
theorem formatTable : Obligations.FormatTable := by
  intro F
  refine ⟨fun C => rfl, ?_⟩
  cases F <;> rfl

end Sys2Proof.Machine
end

section
/-! PROOF of the statement about gains (40_linearizer.md R131, R132; 41_gain_calculator.md R141, R142). The product with 65536 is
exact below overflow, so an integer gain is rounded once, and both gains are read off the nearest datum. -/

namespace Sys2Proof.Machine

/-! ## Encodings that are not negative -/

/-- The binary64 encodings the ratio check passes (40_linearizer.md R133) are the finite ones of positive sign. -/
theorem f64_nonneg_iff (r : DWord) : r.toNat < 0x7FF0000000000000 ↔ encSign 11 52 r.toNat = 0 ∧ EncFin 11 52 r.toNat := by
  have := r.isLt
  rw [encFin_iff]
  unfold encSign
  omega

/-- The binary32 encodings of a gain are the finite ones of positive sign. -/
theorem f32_nonneg_iff (g : Word) : g.toNat < 0x7F800000 ↔ encSign 8 23 g.toNat = 0 ∧ EncFin 8 23 g.toNat := by
  have := g.isLt
  rw [encFin_iff]
  unfold encSign
  omega

theorem f64_eq_inf_iff (r : DWord) : r.toNat = 0x7FF0000000000000 ↔ encSign 11 52 r.toNat = 0 ∧ EncInf 11 52 r.toNat := by
  have := r.isLt
  rw [encInf_iff]
  unfold encSign
  omega

theorem f32IsInf_iff (g : Word) : f32IsInf g = true ↔ EncInf 8 23 g.toNat := by
  rw [f32IsInf, beq_iff_eq, encInf_iff]
  norm_num

/-- A product of two finite data that are not negative is not negative, and finite or the infinity. -/
theorem f64Mul_nonneg {a b : DWord} (ha : a.toNat < 0x7FF0000000000000) (hb : b.toNat < 0x7FF0000000000000) :
    Nearest 11 52 (encValue 11 52 a.toNat * encValue 11 52 b.toNat) (f64Mul a b).toNat ∧
    encSign 11 52 (f64Mul a b).toNat = 0 ∧
    ((f64Mul a b).toNat < 0x7FF0000000000000 ∨ (f64Mul a b).toNat = 0x7FF0000000000000) := by
  obtain ⟨sa, fa⟩ := (f64_nonneg_iff a).1 ha
  obtain ⟨sb, fb⟩ := (f64_nonneg_iff b).1 hb
  obtain ⟨hs, -, hn⟩ := (f64Mul_productOf a b).2 (by
    rintro (k | k | ⟨k, -⟩ | ⟨-, k⟩)
    · exact fa k.1
    · exact fb k.1
    · exact fa k.1
    · exact fb k.1)
  rw [sa, sb] at hs
  have near := hn fa fb
  refine ⟨near, hs, ?_⟩
  rcases lt_or_ge |encValue 11 52 a.toNat * encValue 11 52 b.toNat| (overflowAt 11 52) with h | h
  · exact .inl ((f64_nonneg_iff _).2 ⟨hs, near.fin_of_lt h⟩)
  · exact .inr ((f64_eq_inf_iff _).2 ⟨hs, near.2 h⟩)

theorem encValue_nonneg {r : DWord} (h : r.toNat < 0x7FF0000000000000) : 0 ≤ encValue 11 52 r.toNat := by
  rw [encValue_of_sign_zero ((f64_nonneg_iff r).1 h).1]
  exact encMag_nonneg ..

/-! ## The product with 65536 is exact -/

/-- The binary64 factor of an integer gain. -/
theorem f64_65536 : encValue 11 52 (0x40F0000000000000 : DWord).toNat = 65536 := by
  rw [show (0x40F0000000000000 : DWord).toNat = 0x40F0000000000000 from rfl]
  norm_num [encValue, encSign, encMag, encExp]

/-- A finite datum that is not negative is read as a natural number times a power of two, not below the format's least. -/
theorem f64Datum_of_lt {r : DWord} (h : r.toNat < 0x7FF0000000000000) : ∃ m e, f64Datum r = .fin false m e ∧
    (m : ℚ) * 2 ^ e = encValue 11 52 r.toNat ∧ m < 2 ^ 53 ∧ minExp 11 52 ≤ e := by
  obtain ⟨hs, hf⟩ := (f64_nonneg_iff r).1 h
  obtain ⟨m, e, hd, hv, -, hm, he⟩ := datumOf_fin hf
  rw [hs] at hd hv
  exact ⟨m, e, hd, hv, hm, he⟩

theorem f64Mul_65536_nearest {r : DWord} (h : r.toNat < 0x7FF0000000000000) :
    encSign 11 52 (f64Mul r 0x40F0000000000000).toNat = 0 ∧
    Nearest 11 52 (65536 * encValue 11 52 r.toNat) (f64Mul r 0x40F0000000000000).toNat := by
  obtain ⟨near, hs, -⟩ := f64Mul_nonneg h (show (0x40F0000000000000 : DWord).toNat < 0x7FF0000000000000 by decide)
  rw [f64_65536, mul_comm] at near
  exact ⟨hs, near⟩

/-- Below overflow the product with 65536 is not rounded. -/
theorem f64Mul_65536 {r : DWord} (h : r.toNat < 0x7FF0000000000000)
    (hlt : 65536 * encValue 11 52 r.toNat < overflowAt 11 52) :
    (f64Mul r 0x40F0000000000000).toNat < 0x7FF0000000000000 ∧
    encValue 11 52 (f64Mul r 0x40F0000000000000).toNat = 65536 * encValue 11 52 r.toNat := by
  obtain ⟨hs, near⟩ := f64Mul_65536_nearest h
  obtain ⟨m, e, -, hv, hm, he⟩ := f64Datum_of_lt h
  have h0 := encValue_nonneg h
  have hx : (m : ℚ) * 2 ^ (e + 16) = 65536 * encValue 11 52 r.toNat := by
    rw [← hv, zpow_add₀ (by norm_num)]
    norm_num
    ring
  obtain ⟨fv, hval⟩ := bitsOf_exact 11 52 (by norm_num) (by norm_num) false m (e + 16) hm (by omega) (by rw [hx]; exact hlt)
  have habs : |65536 * encValue 11 52 r.toNat| < overflowAt 11 52 := by rwa [abs_of_nonneg (by positivity)]
  exact ⟨(f64_nonneg_iff _).2 ⟨hs, near.fin_of_lt habs⟩,
    near.value_eq (by norm_num) (bitsOf_lt 11 52 (by norm_num) (by norm_num) _) fv (hval.trans hx)⟩

/-! ## The integer gain -/

/-- Rounding a finite datum that is not negative to an integer gives the nearest natural number. -/
theorem rintEven_of_lt {p : DWord} (h : p.toNat < 0x7FF0000000000000) :
    ∃ n : Nat, rintEven p = some (n : Int) ∧ IntNearest n (encValue 11 52 p.toNat) := by
  obtain ⟨m, e, hd, hv, -⟩ := f64Datum_of_lt h
  refine ⟨roundScale m e, by rw [rintEven, hd]; rfl, ?_⟩
  rw [← hv]
  exact roundScale_nearest m e

theorem rintEven_of_inf {p : DWord} (h : p.toNat = 0x7FF0000000000000) : rintEven p = none := by
  obtain rfl : p = 0x7FF0000000000000 := BitVec.eq_of_toNat_eq h
  rfl

/-- The bound of an integer gain lies at the tie above 0x7FFFFFFF, which goes to the even 0x80000000. -/
theorem IntNearest.le_max_iff {n : Nat} {x : ℚ} (h : IntNearest n x) : n ≤ 0x7FFFFFFF ↔ x < 2 ^ 31 - 1 / 2 := by
  obtain ⟨h1, h2⟩ := h
  have hb := abs_le.1 h1
  constructor
  · intro hn
    have hq : (n : ℚ) ≤ 2147483647 := by exact_mod_cast hn
    by_contra hx
    have hmax : (n : ℚ) = 2147483647 := by linarith
    have htie : (n : ℚ) - x = -(1 / 2) := by linarith
    have heven := h2 (by rw [htie]; norm_num)
    have : n = 2147483647 := by exact_mod_cast hmax
    omega
  · intro hx
    have hq : (n : ℚ) < 2147483648 := by linarith
    have : n < 2147483648 := by exact_mod_cast hq
    omega

/-- The test of an integer gain, for a natural number. -/
theorem fixedGain_eq {r : DWord} {n : Nat} (h : rintEven (f64Mul r 0x40F0000000000000) = some (n : Int)) :
    fixedGain r = if n ≤ 0x7FFFFFFF then some (BitVec.ofNat 32 n) else none := by
  unfold fixedGain
  rw [h]
  dsimp only
  by_cases hn : n ≤ 0x7FFFFFFF
  · rw [if_pos hn, if_neg (by omega), BitVec.ofInt_natCast]
  · rw [if_neg hn, if_pos (by omega)]

theorem fixedGain_eq_none {r : DWord} (h : rintEven (f64Mul r 0x40F0000000000000) = none) : fixedGain r = none := by
  unfold fixedGain
  rw [h]

/-- 2^31 is far below the binary64 overflow bound. -/
theorem two_pow_31_le_overflowAt : (2 ^ 31 - 1 / 2 : ℚ) ≤ overflowAt 11 52 := by
  have big := scaleAt_mono 11 52 (show 1074 ≤ 2 ^ 11 - 3 by norm_num)
  have low : scaleAt 11 52 1074 = 1 := by rw [scaleAt, minExp]; norm_num
  rw [low] at big
  rw [overflowAt_eq 11 52 (by norm_num)]
  calc (2 ^ 31 - 1 / 2 : ℚ) ≤ (2 ^ (52 + 1) - 1 / 2) * 1 := by norm_num
    _ ≤ (2 ^ (52 + 1) - 1 / 2) * scaleAt 11 52 (2 ^ 11 - 3) := mul_le_mul_of_nonneg_left big (by norm_num)

/-- The integer gain of a finite ratio (40_linearizer.md R131). -/
theorem fixedGain_nearest {r : DWord} (h : r.toNat < 0x7FF0000000000000) :
    NearestGain (fixedGain r) (65536 * encValue 11 52 r.toNat) := by
  rcases lt_or_ge (65536 * encValue 11 52 r.toNat) (overflowAt 11 52) with hlt | hge
  · obtain ⟨hp, hv⟩ := f64Mul_65536 h hlt
    obtain ⟨n, hr, hn⟩ := rintEven_of_lt hp
    rw [hv] at hn
    rw [fixedGain_eq hr]
    refine ⟨fun hx => ?_, fun hx => if_neg fun k => absurd (hn.le_max_iff.1 k) (not_lt.2 hx)⟩
    have hle := hn.le_max_iff.2 hx
    refine ⟨BitVec.ofNat 32 n, if_pos hle, ?_⟩
    rw [BitVec.toNat_ofNat, Nat.mod_eq_of_lt (by omega)]
    exact hn
  · obtain ⟨hs, near⟩ := f64Mul_65536_nearest h
    have hinf := (f64_eq_inf_iff _).2 ⟨hs, near.2 (hge.trans (le_abs_self _))⟩
    exact ⟨fun hx => absurd (hx.trans_le two_pow_31_le_overflowAt) (not_lt.2 hge),
      fun _ => fixedGain_eq_none (rintEven_of_inf hinf)⟩

theorem fixedGain_of_inf {p : DWord} (h : p.toNat = 0x7FF0000000000000) : fixedGain p = none := by
  obtain rfl : p = 0x7FF0000000000000 := BitVec.eq_of_toNat_eq h
  decide +kernel

theorem NearestGain.le {g : Option Word} {x : ℚ} {q : Word} (h : NearestGain g x) (hg : g = some q) :
    q.toNat ≤ 0x7FFFFFFF := by
  rcases lt_or_ge x (2 ^ 31 - 1 / 2) with hx | hx
  · obtain ⟨q', hq', hn⟩ := h.1 hx
    obtain rfl : q' = q := Option.some.inj (hq'.symm.trans hg)
    exact (IntNearest.le_max_iff hn).2 hx
  · exact absurd (hg.symm.trans (h.2 hx)) (Option.some_ne_none q)

theorem fixedGain_le {p : DWord} {q : Word} (hp : p.toNat < 0x7FF0000000000000 ∨ p.toNat = 0x7FF0000000000000)
    (h : fixedGain p = some q) : q.toNat ≤ 0x7FFFFFFF := by
  rcases hp with hp | hp
  · exact (fixedGain_nearest hp).le h
  · exact absurd (h.symm.trans (fixedGain_of_inf hp)) (Option.some_ne_none q)

/-! ## The float gain -/

theorem floatGain_eq_none {r : DWord} (h : EncInf 8 23 (f32OfF64 r).toNat) : floatGain r = none :=
  if_pos ((f32IsInf_iff _).2 h)

theorem floatGain_eq_some {r : DWord} (h : EncFin 8 23 (f32OfF64 r).toNat) : floatGain r = some (f32OfF64 r) :=
  if_neg fun k => h ((f32IsInf_iff _).1 k).1

/-- Narrowing a finite datum that is not negative: the nearest binary32 datum, not negative. -/
theorem f32OfF64_nonneg {r : DWord} (h : r.toNat < 0x7FF0000000000000) :
    encSign 8 23 (f32OfF64 r).toNat = 0 ∧ Nearest 8 23 (encValue 11 52 r.toNat) (f32OfF64 r).toNat := by
  obtain ⟨hs, hf⟩ := (f64_nonneg_iff r).1 h
  obtain ⟨h1, -, h2⟩ := (f32OfF64_conversionOf r).2 fun k => hf k.1
  exact ⟨h1.trans hs, h2 hf⟩

/-- The float gain of a finite ratio (40_linearizer.md R132): the nearest datum, or none where that is an infinity. -/
theorem floatGain_nearest {r : DWord} (h : r.toNat < 0x7FF0000000000000) :
    NearestFloatGain (floatGain r) (encValue 11 52 r.toNat) := by
  obtain ⟨-, near⟩ := f32OfF64_nonneg h
  have habs := abs_of_nonneg (encValue_nonneg h)
  exact ⟨fun hx => ⟨_, floatGain_eq_some (near.fin_of_lt (by rwa [habs])), near⟩,
    fun hx => floatGain_eq_none (near.2 (by rwa [habs]))⟩

theorem floatGain_of_inf {p : DWord} (h : p.toNat = 0x7FF0000000000000) : floatGain p = none := by
  obtain rfl : p = 0x7FF0000000000000 := BitVec.eq_of_toNat_eq h
  decide +kernel

theorem floatGain_lt {p : DWord} {q : Word} (hp : p.toNat < 0x7FF0000000000000 ∨ p.toNat = 0x7FF0000000000000)
    (h : floatGain p = some q) : q.toNat < 0x7F800000 := by
  rcases hp with hp | hp
  · obtain ⟨hs, near⟩ := f32OfF64_nonneg hp
    rcases lt_or_ge |encValue 11 52 p.toNat| (overflowAt 8 23) with hx | hx
    · have fin := near.fin_of_lt hx
      obtain rfl : f32OfF64 p = q := Option.some.inj ((floatGain_eq_some fin).symm.trans h)
      exact (f32_nonneg_iff _).2 ⟨hs, fin⟩
    · exact absurd (h.symm.trans (floatGain_eq_none (near.2 hx))) (Option.some_ne_none q)
  · exact absurd (h.symm.trans (floatGain_of_inf hp)) (Option.some_ne_none q)

/-! ## The linearizer's and the calculator's gains -/

theorem linGain_of_lt {P : Config.Ports} {l : Word} (q : GainRepr) (h : (P.curve l).toNat < 0x7FF0000000000000) :
    linGain P q l = gainOf q (P.curve l) := if_pos (decide_eq_true h)

theorem streamGain_of_lt {P : Config.Ports} {l : Word} (q : GainRepr) (out : Word)
    (h : (P.curve l).toNat < 0x7FF0000000000000) :
    streamGain P q l out = gainOf q (f64Mul (P.curve l) (f64OfF32 out)) := if_pos (decide_eq_true h)

/-- A level has a gain only where its ratio passes the check (40_linearizer.md R133). -/
theorem linGain_eq_some {P : Config.Ports} {q : GainRepr} {l g : Word} (h : linGain P q l = some g) :
    (P.curve l).toNat < 0x7FF0000000000000 ∧ gainOf q (P.curve l) = some g := by
  unfold linGain ratioOk at h
  split at h
  · next hr => exact ⟨of_decide_eq_true hr, h⟩
  · cases h

theorem streamGain_eq_some {P : Config.Ports} {q : GainRepr} {l out g : Word} (h : streamGain P q l out = some g) :
    (P.curve l).toNat < 0x7FF0000000000000 ∧ gainOf q (f64Mul (P.curve l) (f64OfF32 out)) = some g := by
  unfold streamGain ratioOk at h
  split at h
  · next hr => exact ⟨of_decide_eq_true hr, h⟩
  · cases h

/-- A gain widened is a binary64 datum that is not negative. -/
theorem f64OfF32_lt {out : Word} (h : out.toNat < 0x7F800000) : (f64OfF32 out).toNat < 0x7FF0000000000000 := by
  obtain ⟨hs, hf⟩ := (f32_nonneg_iff out).1 h
  exact (f64_nonneg_iff _).2 ⟨((f64OfF32_conversionOf out).2 fun k => hf k.1).1.trans hs, (f64OfF32_exact hf).1⟩

theorem f64OfF32_one : f64OfF32 0x3F800000 = 0x3FF0000000000000 := by decide +kernel

/-- With an output gain of 1.0 the calculator's gain is the linearizer's (41_gain_calculator.md R141, R142). -/
theorem streamGain_one (P : Config.Ports) (q : GainRepr) (l : Word) : streamGain P q l 0x3F800000 = linGain P q l := by
  by_cases h : (P.curve l).toNat < 0x7FF0000000000000
  · have hf := ((f64_nonneg_iff _).1 h).2
    rw [streamGain_of_lt q _ h, linGain_of_lt q h, f64OfF32_one, f64Mul_one fun k => hf k.1]
  · unfold streamGain linGain ratioOk
    rw [decide_eq_false h, if_neg Bool.false_ne_true, if_neg Bool.false_ne_true]

/-- Settles O50: the gains of a ratio, taken at the curve's ratio for the linearizer and at its product with the output gain for
the calculator. -/
theorem gainValues : Obligations.GainValues := by
  intro P l out q hout
  have product : (P.curve l).toNat < 0x7FF0000000000000 →
      (f64Mul (P.curve l) (f64OfF32 out)).toNat < 0x7FF0000000000000 ∨
      (f64Mul (P.curve l) (f64OfF32 out)).toNat = 0x7FF0000000000000 := fun hr => (f64Mul_nonneg hr (f64OfF32_lt hout)).2.2
  refine ⟨fun h => ?_, fun h => ?_, fun h => ?_, fun h => ?_, fun r => streamGain_one P r l, fun hr => ?_⟩
  · obtain ⟨hr, hg⟩ := linGain_eq_some h
    exact fixedGain_le (.inl hr) hg
  · obtain ⟨hr, hg⟩ := linGain_eq_some h
    exact floatGain_lt (.inl hr) hg
  · obtain ⟨hr, hg⟩ := streamGain_eq_some h
    exact fixedGain_le (product hr) hg
  · obtain ⟨hr, hg⟩ := streamGain_eq_some h
    exact floatGain_lt (product hr) hg
  · rw [linGain_of_lt .int hr, linGain_of_lt .flt hr, streamGain_of_lt .int out hr, streamGain_of_lt .flt out hr]
    refine ⟨fixedGain_nearest hr, floatGain_nearest hr, ?_⟩
    rintro p rfl
    exact ⟨fun hp => ⟨fixedGain_nearest hp, floatGain_nearest hp⟩, fun hp => ⟨fixedGain_of_inf hp, floatGain_of_inf hp⟩⟩

end Sys2Proof.Machine
end

section
/-! PROOFS of the statements about every command and of the completion of MIX (10_state.md R22 to R40; 45_mix_command.md
R221). The ways a command ends are said once (`CommandEnds`); each statement about every command is read off them. -/

namespace Sys2Proof.Machine

/-! ## What a command leaves of the host's registers -/

theorem SameInputs.refl (s : State) : SameInputs s s := by constructor <;> rfl

theorem SameInputs.trans {s t u : State} (h : SameInputs s t) (k : SameInputs t u) : SameInputs s u where
  cmd := k.cmd.trans h.cmd
  dst := k.dst.trans h.dst
  len := k.len.trans h.len
  karg := k.karg.trans h.karg
  ovol := k.ovol.trans h.ovol
  sChunk := k.sChunk.trans h.sChunk
  sAvail := k.sAvail.trans h.sAvail
  sVol := k.sVol.trans h.sVol
  host := k.host.trans h.host
  reads := k.reads.trans h.reads

theorem PrepareFrame.inputs {s u : State} (h : PrepareFrame s u) : SameInputs s u :=
  ⟨h.cmd, h.dst, h.len, h.karg, h.ovol, h.sChunk, h.sAvail, h.sVol, h.host, h.reads⟩

theorem PrepareFrame.faultRegs {s u : State} (h : PrepareFrame s u) : SameFaultRegs s u := ⟨h.gfault, h.fcode, h.finfo⟩

theorem KernelFrame.inputs {s t : State} (h : KernelFrame s t) : SameInputs s t :=
  ⟨h.cmd, h.dst, h.len, h.karg, h.ovol, h.sChunk, h.sAvail, h.sVol, h.host, h.reads⟩

theorem startKernel_inputs (dst len : Nat) (s : State) : SameInputs s (startKernel dst len s) := by constructor <;> rfl

theorem takeFault_inputs (c : FaultCode) (i ch : Nat) (s : State) : SameInputs s (takeFault c i ch s) := by
  constructor <;> rfl

theorem complete_inputs (s : State) : SameInputs s s.complete := by constructor <;> rfl

theorem fillSilence_inputs (F : Fmt) (s : State) : SameInputs s (fillSilence F s) := by
  rw [fillSilence, fillBytes_eq]
  constructor <;> rfl

theorem runMixKernel_frame (P : Config.Ports) (K : Fmt) (C NS dst len : Nat) (s : State) :
    KernelFrame (startKernel dst len s) (runMixKernel (laneOf P K) C NS dst len s) :=
  mixSlots_frame _ (laneOf_sound P K) C NS _ dst _

theorem runVolKernel_frame (P : Config.Ports) (F : Fmt) (C buf len : Nat) (s : State) :
    KernelFrame (startKernel buf len s) (runVolKernel (laneOf P F) C buf len s) := volSlots_frame _ C _ buf _

/-! ## How a MIX whose checks pass ends -/

/-- The end of a MIX as one update: the releases, the result `v`, DONE. -/
theorem releaseAll_complete (NS : Nat) (v : Word) (s : State) : ((releaseAll NS 0 s).setRet v).complete =
    { s with ret := v, seq := .done, hist := s.hist ++ (List.range NS).map (releaseEvent s) } := by
  rw [releaseAll_eq]
  simp only [Nat.zero_add]
  rfl

theorem releaseEvent_congr {s t : State} (h : t.sChunk = s.sChunk) : releaseEvent t = releaseEvent s := by
  funext j
  simp only [releaseEvent, State.sChunkAt, h]

/-- The end of a MIX leaves the host's registers alone. -/
theorem SameInputs.mixEnd {s k : State} (h : SameInputs s k) (NS : Nat) (v : Word) :
    SameInputs s ((releaseAll NS 0 k).setRet v).complete := by
  rw [releaseAll_complete]
  exact ⟨h.cmd, h.dst, h.len, h.karg, h.ovol, h.sChunk, h.sAvail, h.sVol, h.host, h.reads⟩

/-- A MIX whose checks pass, with a bound kernel whose width divides the effective length, runs that kernel from the state its
preparation reaches (45_mix_command.md R221 lines 13 to 19). -/
theorem exec_mix_ready {F K : Fmt} {C NS : Nat} {m h : Bool} {s : State} {o : Nat → Word} {g : Nat → Nat → Word}
    (hr : MixReady F C NS m h s o g) (hk : kernelOf Config.nativeEndian (s.ktabAt F) = some K)
    (hw : effectiveLength NS s % width K = 0) :
    ∃ u, Prepared F C NS s u o g ∧ exec (mixOf F C NS m h) s =
      .next ((releaseAll NS 0 (runMixKernel (laneOf Config.ports K) C NS u.dst.toNat u.effLen.toNat u)).setRet
        u.effLen).complete := by
  obtain ⟨u, hu, hp⟩ := mixPrepare_ready hr
  refine ⟨u, hp, ?_⟩
  have hk' : kernelOf Config.nativeEndian (u.ktabAt F) = some K := by
    simpa only [State.ktabAt, hp.frame.ktab] using hk
  have hw' : u.effLen.toNat % width K = 0 := by rw [hp.effLen, hw]
  rw [exec_mixOf, mixCommand_starts _ hr.starts, hu]
  simp only [mixDispatch, hk', if_pos hw']

/-- What a mixing kernel of a MIX does to cursors, memory and accumulators, over `E` bytes that its width divides. -/
theorem runMixKernel_effects (P : Config.Ports) (K : Fmt) (C NS dst E : Nat) (u : State) (hn : NS ≤ 32)
    (hw : E % width K = 0) :
    let k := runMixKernel (laneOf P K) C NS dst E u
    (∀ j < NS, (u.sPtrAt j).toNat + E < 2 ^ 32 → (k.sPtrAt j).toNat = (u.sPtrAt j).toNat + E) ∧
    (∀ j, NS ≤ j → k.sPtrAt j = u.sPtrAt j) ∧
    (∀ y, y < dst ∨ dst + E ≤ y → k.byteAt y = u.byteAt y) ∧
    (group K = .g64 ∨ group K = .gf → k.acc32 = u.acc32) ∧ (group K ≠ .g64 → k.acc64 = u.acc64) ∧
    (group K ≠ .gf → k.accF = u.accF) := by
  have hlen : E / (laneOf P K).width * (laneOf P K).width = E := by
    rw [laneOf_width]
    exact Nat.div_mul_cancel (Nat.dvd_of_mod_eq_zero hw)
  have cursors := mixSlots_sPtrAt _ (laneOf_sound P K) C NS hn (E / (laneOf P K).width) dst (startKernel dst E u)
  have outside := mixSlots_outside _ (laneOf_sound P K) C NS (E / (laneOf P K).width) dst (startKernel dst E u)
  rw [hlen] at cursors outside
  exact ⟨fun j hj => (cursors j).1 hj, fun j hj => (cursors j).2 (by omega), outside,
    mixSlots_accs P K C NS (E / (laneOf P K).width) dst (startKernel dst E u)⟩

theorem accessOf_of_allAccesses {l : List Event} (h : allAccesses l) : ∀ e ∈ l, accessOf e ≠ none := by
  intro e he
  rcases h e he with ⟨a, b, rfl⟩ | ⟨a, b, rfl⟩ <;> exact Option.some_ne_none _

/-- Settles O31: the preparation's state (`Prepared`) carries the gains and the acquires, the kernel's frame and effects the
rest. -/
theorem mixKernelPath : Obligations.MixKernelPath := by
  intro F K C NS m h s o g hr hk hw
  obtain ⟨u, hp, he⟩ := exec_mix_ready hr hk hw
  have pf := hp.frame
  have hE : u.effLen.toNat % width K = 0 := by rw [hp.effLen, hw]
  obtain ⟨moved, kept, outside, acc32, acc64, accF⟩ :=
    runMixKernel_effects Config.ports K C NS u.dst.toNat u.effLen.toNat u hr.starts.valid.streams hE
  have fr := runMixKernel_frame Config.ports K C NS u.dst.toNat u.effLen.toNat u
  rw [releaseAll_complete] at he
  generalize runMixKernel (laneOf Config.ports K) C NS u.dst.toNat u.effLen.toNat u = k at *
  obtain ⟨l, hl, hist⟩ := fr.hist
  have inputs : SameInputs s k := (pf.inputs.trans (startKernel_inputs _ _ u)).trans fr.inputs
  refine ⟨_, he, rfl, hp.effLen, by simpa only [releaseAll_complete] using inputs.mixEnd NS u.effLen,
    ⟨fr.gfault.trans pf.gfault, fr.fcode.trans pf.fcode, fr.finfo.trans pf.finfo⟩,
    fr.ktab.trans pf.ktab, fun i hi hlt => ?_, fun i hi => ?_, fun j => (fr.olinAt j).trans (hp.olin j),
    fun i ch => (fr.sgainAt i ch).trans (hp.sgain i ch), fun y hy => ?_, fun hK => (acc32 hK).trans pf.acc32,
    fun hK => (acc64 hK).trans pf.acc64, fun hK => (accF hK).trans pf.accF, fr.answers.trans hp.answers, l, ?_,
    accessOf_of_allAccesses hl⟩
  · have cursor : u.sPtrAt i = answerAt s i := by rw [hp.sPtr, if_pos hi]
    rw [← hp.effLen, ← cursor] at hlt ⊢
    exact moved i hi hlt
  · refine (kept i hi).trans ?_
    rw [hp.sPtr, if_neg (Nat.not_lt.2 hi)]
  · rw [← hp.effLen, ← pf.dst] at hy
    refine (outside y hy).trans ?_
    rw [State.byteAt, pf.mem, State.byteAt]
  · show k.hist ++ (List.range NS).map (releaseEvent k) = _
    rw [hist, releaseEvent_congr (inputs.sChunk)]
    show u.hist ++ l ++ _ = _
    rw [hp.hist]

/-! ## The ways a command ends -/

/-- Every way a command that answers a next state ends: the first state is the one it starts in, the second the one it
answers. A fault of a VOL may have written `OLIN`; one of a MIX after its acquires has changed what `PrepareFrame` allows. -/
inductive CommandEnds : Instr → State → State → Prop
  | fault {i : Instr} {s : State} (o : Vector Word 64) (c : FaultCode) (stream channel : Nat) :
      CommandEnds i s (takeFault c stream channel { s with olin := o })
  | mixFault (F : Fmt) (C NS : Nat) (m h : Bool) {s u : State} (c : FaultCode) (stream channel : Nat)
      (before : PrepareFrame s u) : CommandEnds (mixOf F C NS m h) s (takeFault c stream channel u)
  | mixSilence (F : Fmt) (C NS : Nat) (m h : Bool) {s : State} : CommandEnds (mixOf F C NS m h) s (mixSilence F s)
  | mixKernel (F K : Fmt) (C NS : Nat) (m h : Bool) {s : State} (u : State) (before : PrepareFrame s u) :
      CommandEnds (mixOf F C NS m h) s ((releaseAll NS 0
        (runMixKernel (laneOf Config.ports K) C NS u.dst.toNat u.effLen.toNat u)).setRet u.effLen).complete
  | volNoop (F : Fmt) (C : Nat) (z : Bool) {s : State} : CommandEnds (volOf F C z) s s.complete
  | volMuted (F : Fmt) (C : Nat) (z : Bool) {s : State} : CommandEnds (volOf F C z) s (fillSilence F s).complete
  | volKernel (F : Fmt) (C : Nat) (z : Bool) {s : State} (o : Vector Word 64) : CommandEnds (volOf F C z) s
      (runVolKernel (laneOf Config.ports F) C s.dst.toNat s.len.toNat { s with olin := o }).complete
  | getk (F : Fmt) {s : State} : CommandEnds (getkOf F) s (getkCommand F s)
  | setk (F : Fmt) {s : State} (valid : validKernel (kernelArg s) = true) :
      CommandEnds (setkOf F) s (s.setKtab F (kernelArg s)).complete

theorem mixCommand_ends {F : Fmt} {C NS : Nat} {m h : Bool} {s t : State}
    (ht : mixCommand Config.ports F C NS m h s = .next t) : CommandEnds (mixOf F C NS m h) s t := by
  rcases mixCommand_cases Config.ports F C NS m h s with ⟨c, -, e⟩ | ⟨-, -, e⟩ | ⟨-, -, i, -, e⟩ | ⟨-, -, -, u, hu, e⟩ |
    ⟨-, -, -, u, hu, e⟩
  · obtain rfl := Host.Outcome.next.inj (e.symm.trans ht)
    exact .fault s.olin c noStream 0
  · obtain rfl := Host.Outcome.next.inj (e.symm.trans ht)
    exact .mixSilence F C NS m h
  · obtain rfl := Host.Outcome.next.inj (e.symm.trans ht)
    exact .fault s.olin .streamAlign i 0
  · obtain rfl := Host.Outcome.next.inj (e.symm.trans ht)
    obtain ⟨v, hv, ⟨e', -⟩ | ⟨c, i, k, -, e'⟩⟩ := mixPrepare_shape Config.ports F C NS h s
    · rw [e'] at hu
      cases hu
    · obtain rfl := Progress.halt.inj (e'.symm.trans hu)
      exact .mixFault F C NS m h c i k hv
  · obtain ⟨v, hv, ⟨e', -⟩ | ⟨c, i, k, -, e'⟩⟩ := mixPrepare_shape Config.ports F C NS h s
    · obtain rfl := Progress.on.inj (e'.symm.trans hu)
      rcases mixDispatch_cases Config.ports F C NS v with ⟨-, d⟩ | ⟨K, -, -, d⟩ | ⟨K, -, -, d⟩
      · rw [e, d] at ht
        cases ht
      · rw [e, d] at ht
        cases ht
      · obtain rfl := Host.Outcome.next.inj ((e.trans d).symm.trans ht)
        exact .mixKernel F K C NS m h v hv
    · rw [e'] at hu
      cases hu

theorem volCommand_ends {F : Fmt} {C : Nat} {z : Bool} {s t : State}
    (ht : volCommand Config.ports F C z s = .next t) : CommandEnds (volOf F C z) s t := by
  rcases volCommand_cases Config.ports F C z s with ⟨c, -, e⟩ | ⟨-, -, e⟩ | ⟨-, -, -, e⟩ | ⟨-, -, -, e⟩ <;>
    obtain rfl := Host.Outcome.next.inj (e.symm.trans ht)
  · exact .fault s.olin c noStream 0
  · exact .volNoop F C z
  · exact .volMuted F C z
  · obtain ⟨o, ⟨k, e'⟩ | e'⟩ := volKernelPath_cases Config.ports F C s
    · rw [e']
      exact .fault o .gainRange noStream k
    · rw [e']
      exact .volKernel F C z o

theorem exec_ends {i : Instr} {s t : State} (ht : exec i s = .next t) : CommandEnds i s t := by
  rcases instr_cases i with ⟨F, C, NS, m, h, rfl⟩ | ⟨F, C, z, rfl⟩ | ⟨F, rfl⟩ | ⟨F, rfl⟩
  · exact mixCommand_ends (exec_mixOf F C NS m h s ▸ ht)
  · exact volCommand_ends (exec_volOf F C z s ▸ ht)
  · obtain rfl := Host.Outcome.next.inj ((exec_getkOf F s).symm.trans ht)
    exact .getk F
  · obtain rfl := Host.Outcome.next.inj ((exec_setkOf F s).symm.trans ht)
    unfold setkCommand
    split
    · next hv => exact .setk F hv
    · exact .fault s.olin .badKernel noStream 0

/-! ## What every command does and leaves alone -/

/-- Settles O40, by the ways a command ends. -/
theorem commandsEnd : Obligations.CommandsEnd := by
  intro i s t ht
  cases exec_ends ht with
  | fault | mixFault => exact .inr rfl
  | mixSilence | mixKernel | volNoop | volMuted | volKernel | getk | setk => exact .inl rfl

/-- Settles O41, by the ways a command ends: a fault, a fill and a kernel each leave the host's registers alone. -/
theorem hostRegistersKept : Obligations.HostRegistersKept := by
  intro i s t ht
  cases exec_ends ht with
  | fault => constructor <;> rfl
  | mixFault _ _ _ _ _ _ _ _ before => exact before.inputs.trans (takeFault_inputs ..)
  | mixSilence F => exact (fillSilence_inputs F s).trans (by constructor <;> rfl)
  | mixKernel _ _ _ NS _ _ _ before =>
    exact ((before.inputs.trans (startKernel_inputs ..)).trans (runMixKernel_frame ..).inputs).mixEnd NS _
  | volNoop => exact complete_inputs s
  | volMuted F => exact (fillSilence_inputs F s).trans (complete_inputs _)
  | volKernel F C _ o =>
    have start : SameInputs s (startKernel s.dst.toNat s.len.toNat { s with olin := o }) := by constructor <;> rfl
    exact (start.trans (runVolKernel_frame ..).inputs).trans (complete_inputs _)
  | getk | setk => constructor <;> rfl

theorem fillSilence_ktab (F : Fmt) (s : State) : (fillSilence F s).ktab = s.ktab := by rw [fillSilence, fillBytes_eq]

/-- Settles O42, by the ways a command ends. -/
theorem onlySetkWritesTable : Obligations.OnlySetkWritesTable := by
  intro i s t hi ht
  cases exec_ends ht with
  | fault | volNoop | getk => rfl
  | mixFault _ _ _ _ _ _ _ _ before => exact before.ktab
  | mixSilence F => exact fillSilence_ktab F s
  | mixKernel _ _ _ _ _ _ _ before =>
    rw [releaseAll_complete]
    exact (runMixKernel_frame ..).ktab.trans before.ktab
  | volMuted F => exact fillSilence_ktab F s
  | volKernel => exact (runVolKernel_frame ..).ktab
  | setk F => exact absurd rfl (hi F)

/-! ## Commands that are no MIX -/

/-- The port, the cursors and the stream gains are as before, and what is new in the history is accesses (20_memory.md R77). -/
structure PortUnused (s t : State) : Prop where
  answers : t.answers = s.answers
  sPtr : t.sPtr = s.sPtr
  sgain : t.sgain = s.sgain
  hist : ∃ l, allAccesses l ∧ t.hist = s.hist ++ l

theorem portUnused_of_hist_eq {s t : State} (ha : t.answers = s.answers) (hp : t.sPtr = s.sPtr) (hg : t.sgain = s.sgain)
    (hh : t.hist = s.hist) : PortUnused s t :=
  ⟨ha, hp, hg, [], allAccesses_nil, by rw [hh, List.append_nil]⟩

theorem portUnused_fillSilence (F : Fmt) (s : State) : PortUnused s (fillSilence F s) := by
  rw [fillSilence, fillBytes_eq]
  refine ⟨rfl, rfl, rfl, _, fun e he => ?_, rfl⟩
  obtain ⟨k, -, rfl⟩ := List.mem_map.1 he
  exact .inr ⟨_, _, rfl⟩

theorem portUnused_runVolKernel (P : Config.Ports) (F : Fmt) (C buf len : Nat) (s : State) :
    PortUnused s (runVolKernel (laneOf P F) C buf len s) := by
  have fr := runVolKernel_frame P F C buf len s
  exact ⟨fr.answers, (volSlots_sPtr _ C _ buf _).1, fr.sgain, fr.hist⟩

/-- What an added list of events is. -/
theorem newEvents_eq {s t : State} {l : List Event} (h : t.hist = s.hist ++ l) : newEvents s t = l := by
  rw [newEvents, h, List.drop_left]

/-- A command that is no MIX uses no port; only a GETK writes `RET`. -/
theorem CommandEnds.portUnused {i : Instr} {s t : State} (he : CommandEnds i s t)
    (hi : ∀ F ch ns mute hasvol, i ≠ mixOf F ch ns mute hasvol) :
    PortUnused s t ∧ ((∀ F, i ≠ getkOf F) → t.ret = s.ret) := by
  cases he with
  | fault | volNoop | setk => exact ⟨portUnused_of_hist_eq rfl rfl rfl rfl, fun _ => rfl⟩
  | mixFault | mixSilence | mixKernel => exact absurd rfl (hi _ _ _ _ _)
  | volMuted F =>
    obtain ⟨ha, hp, hg, hh⟩ := portUnused_fillSilence F s
    exact ⟨⟨ha, hp, hg, hh⟩, fun _ => by rw [State.complete_ret, fillSilence, fillBytes_eq]⟩
  | volKernel F C _ o =>
    obtain ⟨ha, hp, hg, hh⟩ := portUnused_runVolKernel Config.ports F C s.dst.toNat s.len.toNat { s with olin := o }
    exact ⟨⟨ha, hp, hg, hh⟩, fun _ => (runVolKernel_frame ..).ret⟩
  | getk F => exact ⟨portUnused_of_hist_eq rfl rfl rfl rfl, fun h => absurd rfl (h F)⟩

/-- Settles O43, by `PortUnused`. -/
theorem onlyMixUsesPort : Obligations.OnlyMixUsesPort := by
  intro i s t hi ht
  obtain ⟨⟨answers, sPtr, sgain, l, hl, hist⟩, ret⟩ := (exec_ends ht).portUnused hi
  rw [newEvents_eq hist]
  exact ⟨answers, sPtr, sgain, ret, hist, accessOf_of_allAccesses hl⟩

end Sys2Proof.Machine
end

section
/-! PROOFS of the statements about the step, the host's moves and RESET (10_state.md R22 to R45; 60_exceptions.md R274;
70_reset_and_hazards.md R300), and of the invariant every step keeps. What a register write leaves alone is said once
(`RegWriteFrame`), and what a host write can do once (`hostWrite_cases`). -/

namespace Sys2Proof.Machine

/-! ## The step -/

theorem step_nil {s : State} (h : s.host = []) : step s = sequencerTurn s := by rw [step, advance, h]

theorem step_cons {s : State} {a : HostAction} {rest : List HostAction} (h : s.host = a :: rest) :
    step s = hostMove a (s.setHost rest) := by rw [step, advance, h]

theorem sequencerTurn_busy {s : State} (h : s.seq = .busy) : sequencerTurn s = runCommand s := if_pos h

theorem sequencerTurn_idle {s : State} (h : s.seq ≠ .busy) : sequencerTurn s = .next s := if_neg h

theorem runCommand_instr {s : State} {i : Instr} (h : decode s.cmd = .instr i) : runCommand s = exec i s := by
  rw [runCommand, h]

/-- Settles O7: an empty list of moves and a wait both give the sequencer its turn. -/
theorem stepRunsCommand : Obligations.StepRunsCommand := by
  refine ⟨fun s i hb hd => ⟨fun hh => ?_, fun rest hh => ?_⟩, fun s hb => ⟨fun hh => ?_, fun rest hh => ?_⟩⟩
  · rw [step_nil hh, sequencerTurn_busy hb, runCommand_instr hd]
  · rw [step_cons hh, hostMove, sequencerTurn_busy (s := s.setHost rest) hb, runCommand_instr (s := s.setHost rest) hd]
  · rw [step_nil hh, sequencerTurn_idle hb]
  · rw [step_cons hh, hostMove, sequencerTurn_idle (s := s.setHost rest) hb]

/-- Settles O8: the prepared state is BUSY with the word in `CMD` and a wait before the host's other moves. -/
theorem preparedWordRuns : Obligations.PreparedWordRuns := by
  intro s w i hd
  have hw : BitVec.ofNat 32 (w.toNat % 2 ^ 32) = w := by rw [Nat.mod_eq_of_lt w.isLt, BitVec.ofNat_toNat, BitVec.setWidth_eq]
  have hu : (s.withFetchWord 32 w.toNat).setHost s.host = { s with cmd := w, seq := .busy } := by
    rw [State.withFetchWord, hw]
    rfl
  rw [step_cons (rest := s.host) rfl, hostMove, hu, sequencerTurn_busy rfl]
  exact runCommand_instr hd

/-! ## Register writes -/

/-- What a write of a register other than `CMD` leaves alone. -/
structure RegWriteFrame (s t : State) : Prop where
  unseen : SameUnseen s t
  faultRegs : SameFaultRegs s t
  cmd : t.cmd = s.cmd
  seq : t.seq = s.seq
  ret : t.ret = s.ret
  sPtr : t.sPtr = s.sPtr
  olin : t.olin = s.olin
  sgain : t.sgain = s.sgain

theorem writeReg_frame (r : Reg) (v : Word) (s : State) : RegWriteFrame s (writeReg r v s) := by
  cases r <;> exact ⟨by constructor <;> rfl, ⟨rfl, rfl, rfl⟩, rfl, rfl, rfl, rfl, rfl, rfl⟩

/-- What a host write can do: nothing, start a command, or write one register other than `CMD` outside BUSY. -/
theorem hostWrite_cases (off : Nat) (v : Word) (s : State) :
    hostWrite off v s = s ∨
    ((s.seq = .idle ∨ s.seq = .done) ∧ s.gfault = false ∧ hostWrite off v s = { s with cmd := v, seq := .busy }) ∨
    ∃ r, hostWrite off v s = writeReg r v s := by
  unfold hostWrite
  split
  · unfold writeCmd
    split
    · next h =>
      simp only [acceptsCommand, Bool.and_eq_true, Bool.or_eq_true, beq_iff_eq, Bool.not_eq_true'] at h
      exact .inr (.inl ⟨h.1, h.2, rfl⟩)
    · exact .inl rfl
  · next r _ _ =>
    split
    · exact .inr (.inr ⟨r, rfl⟩)
    · exact .inl rfl
  · exact .inl rfl

/-- Outside BUSY a write at a register other than `CMD` is that register's write. -/
theorem hostWrite_of_regAt {off : Nat} {v : Word} {s : State} {r : Reg} (hb : s.seq ≠ .busy) (hr : regAt off = some r)
    (hc : r ≠ .cmd) : hostWrite off v s = writeReg r v s := by
  have ha : acceptsWrite s = true := bne_iff_ne.2 hb
  unfold hostWrite
  rw [hr]
  cases r <;> first | exact absurd rfl hc | exact if_pos ha

theorem regAt_zero : regAt 0 = some .cmd := rfl

theorem hostWrite_zero (v : Word) (s : State) : hostWrite 0 v s = writeCmd v s := by rw [hostWrite, regAt_zero]

/-- Settles O9, by the two ways a write of `CMD` ends. -/
theorem commandWrite : Obligations.CommandWrite := by
  intro s v rest hh
  rw [step_cons hh, hostMove, hostWrite_zero, writeCmd]
  refine ⟨fun hs hg => ?_, fun hs => ?_⟩
  · have ha : acceptsCommand (s.setHost rest) = true := by
      rcases hs with hs | hs <;> simp [acceptsCommand, hs, hg]
    rw [if_pos ha]
    rfl
  · have ha : ¬ acceptsCommand (s.setHost rest) = true := by
      rcases hs with hs | hs | hs <;> simp [acceptsCommand, hs]
    rw [if_neg ha]
    rfl

/-- A host can write the register, other than by starting a command (10_state.md R38: the RW registers but `CMD`). -/
def Reg.writable : Reg → Bool
  | .dst | .len | .karg | .ovol _ | .sChunk _ | .sAvail _ | .sVol _ _ => true
  | .cmd | .status | .ret | .finfo | .olin _ | .sPtr _ | .sgain _ _ => false

/-- A write to a read-only register changes nothing. -/
theorem writeReg_of_not_writable {r : Reg} (v : Word) (s : State) (hr : r.writable = false) : writeReg r v s = s := by
  cases r <;> first | rfl | cases hr

/-- Settles O12: BUSY drops every write, a reserved offset names no register, and a read-only register ignores its write. -/
theorem ignoredWrites : Obligations.IgnoredWrites := by
  intro s off v h
  have ignored : ∀ u : State, u.seq = s.seq → hostWrite off v u = u := by
    intro u hu
    rcases h with hb | hn | ⟨r, hr, hro⟩
    · exact hostWrite_busy off v u (hu.trans hb)
    · rw [hostWrite, hn]
    · have hw : r.writable = false := by cases r <;> first | rfl | exact hro.elim
      by_cases hb : u.seq = .busy
      · exact hostWrite_busy off v u hb
      · rw [hostWrite_of_regAt hb hr (by rintro rfl; exact hro), writeReg_of_not_writable v u hw]
  refine ⟨ignored s rfl, fun rest hh => ?_⟩
  rw [step_cons hh, hostMove, ignored (s.setHost rest) rfl]
  rfl

/-! ## The register map -/

/-- The word of a context's window that a register is at (10_state.md R38). -/
def Reg.word : Reg → Nat
  | .cmd => 0
  | .status => 1
  | .dst => 2
  | .len => 3
  | .ret => 4
  | .karg => 5
  | .finfo => 6
  | .ovol ch => 0x20 + ch
  | .olin i => 0x40 + i
  | .sChunk i => 0x80 + i
  | .sAvail i => 0xA0 + i
  | .sPtr i => 0xC0 + i
  | .sVol i ch => 0x400 + 32 * i + ch
  | .sgain i ch => 0x800 + 32 * i + ch

/-- The indices of the register are those of an element that exists. -/
def Reg.InRange : Reg → Prop
  | .cmd | .status | .dst | .len | .ret | .karg | .finfo => True
  | .olin i => i < 64
  | .ovol i | .sChunk i | .sAvail i | .sPtr i => i < 32
  | .sVol i ch | .sgain i ch => i < 32 ∧ ch < 32

theorem eq_some_of_ite {α : Type} {c : Prop} [Decidable c] {a b : α} {o : Option α}
    (h : (if c then some a else o) = some b) : (c ∧ a = b) ∨ (¬ c ∧ o = some b) := by
  split at h
  · next hc => exact .inl ⟨hc, Option.some.inj h⟩
  · next hc => exact .inr ⟨hc, h⟩

theorem regAtWord_sound {k : Nat} {r : Reg} (h : regAtWord k = some r) : r.InRange ∧ k = r.word := by
  unfold regAtWord at h
  iterate 14
    rcases eq_some_of_ite h with ⟨hk, rfl⟩ | ⟨-, h⟩
    · simp only [Reg.InRange, Reg.word, true_and]
      omega
  cases h

theorem regAtWord_word {k : Nat} {r : Reg} (h : r.InRange) (hk : k = r.word) : regAtWord k = some r := by
  unfold regAtWord
  cases r with
  | cmd | status | dst | len | ret | karg | finfo =>
    subst hk
    rfl
  | ovol i | olin i | sChunk i | sAvail i | sPtr i =>
    simp only [Reg.InRange, Reg.word] at h hk
    repeat rw [if_neg (by omega)]
    rw [if_pos (by omega), hk, Nat.add_sub_cancel_left]
  | sVol i ch =>
    simp only [Reg.InRange, Reg.word] at h hk
    repeat rw [if_neg (by omega)]
    rw [if_pos (by omega), show (k - 0x400) / 32 = i by omega, show (k - 0x400) % 32 = ch by omega]
  | sgain i ch =>
    simp only [Reg.InRange, Reg.word] at h hk
    repeat rw [if_neg (by omega)]
    rw [if_pos (by omega), show (k - 0x800) / 32 = i by omega, show (k - 0x800) % 32 = ch by omega]

theorem regAt_iff (off : Nat) (r : Reg) : regAt off = some r ↔ r.InRange ∧ off = 4 * r.word := by
  constructor
  · intro h
    unfold regAt at h
    split at h
    · next ha =>
      obtain ⟨hr, hw⟩ := regAtWord_sound h
      exact ⟨hr, by omega⟩
    · cases h
  · rintro ⟨hr, rfl⟩
    have hlt : r.word < 0xC00 := by cases r <;> simp only [Reg.InRange, Reg.word] at hr ⊢ <;> omega
    rw [regAt, if_pos (by simp only [Config.registerSpace, Config.contexts, Config.windowSize]; omega),
      Nat.mul_div_cancel_left _ (by omega), regAtWord_word hr rfl]

/-- Settles O10, by the words of the registers. -/
theorem registerMap : Obligations.RegisterMap := by
  intro off r
  rw [regAt_iff]
  cases r <;> simp only [Reg.InRange, Reg.word, true_and] <;> omega

/-! ## Reading a register back -/

theorem elem_set_ne {α : Type} {n : Nat} (d : α) (v : Vector α n) {i j : Nat} (x : α) (h : j ≠ i) :
    elem d (v.setIfInBounds i x) j = elem d v j := by rw [elem_set, if_neg fun k => h k.1]

theorem elem_set_same {α : Type} {n : Nat} (d : α) (v : Vector α n) {i : Nat} (x : α) (h : i < n) :
    elem d (v.setIfInBounds i x) i = x := by rw [elem_set, if_pos ⟨rfl, h⟩]

/-- A writable register reads as what was written to it. -/
theorem regValue_writeReg_same {r : Reg} (v : Word) (s : State) (hr : r.InRange) (hw : r.writable = true) :
    regValue r (writeReg r v s) = v := by
  cases r with
  | dst | len | karg => rfl
  | ovol i | sChunk i | sAvail i => exact elem_set_same _ _ _ hr
  | sVol i ch =>
    obtain ⟨hi, hch⟩ := hr
    show elem 0 (elem _ (s.sVol.setIfInBounds i _) i) ch = v
    rw [elem_set_same _ _ _ hi, elem_set_same _ _ _ hch]
  | cmd | status | ret | finfo | olin | sPtr | sgain => cases hw

/-- A register reads as before a write to another one. -/
theorem regValue_writeReg_ne {r r' : Reg} (v : Word) (s : State) (h : r' ≠ r) :
    regValue r' (writeReg r v s) = regValue r' s := by
  have index : ∀ {i j : Nat} (f : Nat → Reg), f j ≠ f i → j ≠ i := fun f hf e => hf (congrArg f e)
  cases r with
  | cmd | status | ret | finfo | olin | sPtr | sgain => rfl
  | dst | len | karg => cases r' <;> first | rfl | exact absurd rfl h
  | ovol i =>
    cases r' with
    | ovol j => exact elem_set_ne _ _ _ (index .ovol h)
    | _ => rfl
  | sChunk i =>
    cases r' with
    | sChunk j => exact elem_set_ne _ _ _ (index .sChunk h)
    | _ => rfl
  | sAvail i =>
    cases r' with
    | sAvail j => exact elem_set_ne _ _ _ (index .sAvail h)
    | _ => rfl
  | sVol i ch =>
    cases r' with
    | sVol j d =>
      show elem 0 (elem _ (s.sVol.setIfInBounds i _) j) d = _
      by_cases hj : j = i ∧ i < 32
      · obtain ⟨rfl, hi⟩ := hj
        rw [elem_set_same _ _ _ hi, elem_set_ne _ _ _ (index (.sVol j) h)]
        rfl
      · rw [elem_set, if_neg hj]
        rfl
    | _ => rfl

/-- Registers at one offset are one register, and a register has one offset. -/
theorem regAt_eq_iff {off off' : Nat} {r r' : Reg} (hr : regAt off = some r) (hr' : regAt off' = some r') :
    off' = off ↔ r' = r := by
  constructor
  · rintro rfl
    exact Option.some.inj (hr'.symm.trans hr)
  · rintro rfl
    exact ((regAt_iff ..).1 hr').2.trans ((regAt_iff ..).1 hr).2.symm

/-- Settles O11, by the write of one register: what it stores, and what it leaves alone (`RegWriteFrame`). -/
theorem writeReadBack : Obligations.WriteReadBack := by
  intro s off v r hb hr hrw
  have hw : r.writable = true := by cases r <;> first | rfl | exact hrw.elim
  have he : hostWrite off v s = writeReg r v s := hostWrite_of_regAt hb hr (by rintro rfl; cases hw)
  have frame := writeReg_frame r v s
  rw [he]
  refine ⟨fun off' r' hr' => ?_, frame.unseen, frame.seq, fun rest hh => ?_⟩
  · by_cases h : r' = r
    · subst h
      rw [if_pos ((regAt_eq_iff hr hr').2 rfl)]
      exact regValue_writeReg_same v s ((regAt_iff ..).1 hr).1 hw
    · rw [if_neg fun k => h ((regAt_eq_iff hr hr').1 k)]
      exact regValue_writeReg_ne v s h
  · rw [step_cons hh]
    rfl

/-! ## Reads -/

/-- What a host read of a register returns: its value, unless it is hidden in BUSY (10_state.md R39 c). -/
theorem hostRead_of_regAt {off : Nat} {r : Reg} {s : State} (hr : regAt off = some r) :
    ((s.seq = .busy ∧ hiddenWhileBusy r = true) ∧ hostRead off s = returnRead (Config.busyRead s.reads.length) s) ∨
    (¬ (s.seq = .busy ∧ hiddenWhileBusy r = true) ∧ hostRead off s = returnRead (regValue r s) s) := by
  unfold hostRead
  rw [hr]
  by_cases h : s.seq = .busy ∧ hiddenWhileBusy r = true
  · exact .inl ⟨h, if_pos h⟩
  · exact .inr ⟨h, if_neg h⟩

theorem regValue_setHost (r : Reg) (s : State) (l : List HostAction) : regValue r (s.setHost l) = regValue r s := by
  cases r <;> rfl

/-- Settles O13 (`hostRead` is the model's own function): a read takes the move and records the value `hostRead` returns. -/
theorem hostRead_spec : Obligations.HostRead := by
  intro s off rest hh
  rw [step_cons hh, hostMove]
  refine ⟨fun hn => ?_, fun r hr => ⟨fun hv => ?_, ?_⟩⟩
  · rw [hostRead, hn]
    rfl
  · rcases hostRead_of_regAt (s := s.setHost rest) hr with ⟨⟨hb, hid⟩, -⟩ | ⟨-, e⟩
    · rcases hv with hv | hv
      · exact absurd hb hv
      · cases r <;> first | exact hv.elim | cases hid
    · rw [e, regValue_setHost]
      rfl
  · rcases hostRead_of_regAt (s := s.setHost rest) hr with ⟨-, e⟩ | ⟨-, e⟩ <;> exact ⟨_, congrArg _ e⟩

/-! ## STATUS -/

/-- `STATUS` is the sum of its fields at their weights (10_state.md R24). -/
theorem statusWord_toNat (s : State) :
    (statusWord s).toNat = seqNumber s.seq + 4 * s.gfault.toNat + 256 * s.fcode.toNat := by
  have hf := s.fcode.isLt
  have hq : seqNumber s.seq < 4 := by cases s.seq <;> decide
  have hb := s.gfault.toNat_le
  have hg : (if s.gfault = true then 4 else 0) = 4 * s.gfault.toNat := by cases s.gfault <;> rfl
  rw [statusWord, hg, BitVec.toNat_ofNat, Nat.mod_eq_of_lt (by omega)]
  omega

/-- In a state of the invariant that has not faulted `FCODE` is 0. -/
theorem fcode_of_statusSound {s : State} (h : statusSound s = true) (hs : s.seq ≠ .fault) : s.fcode = 0 := by
  simp only [statusSound, Bool.and_eq_true, beq_iff_eq] at h
  obtain ⟨⟨⟨-, hc⟩, -⟩, -⟩ := h
  rwa [bne_iff_ne.2 hs, beq_iff_eq] at hc

/-- Settles O14: each field of the sum is below the weight of the next. -/
theorem statusFields : Obligations.StatusFields := by
  intro s
  have hf := s.fcode.isLt
  have hq : seqNumber s.seq < 4 := by cases s.seq <;> decide
  have hb := s.gfault.toNat_le
  have hw := statusWord_toNat s
  have fields (hi lo : Nat) : ((regValue .status s).extractLsb hi lo).toNat =
      (statusWord s).toNat / 2 ^ lo % 2 ^ (hi - lo + 1) := by
    rw [BitVec.extractLsb_toNat, Nat.shiftRight_eq_div_pow]
    rfl
  refine ⟨?state, ?gfault, ?low, ?fcode, ?high, fun inv hs => fcode_of_statusSound inv.2.2 hs⟩
  case state =>
    have e : seqNumber s.seq = BitVec.toNat (w := 2) (match s.seq with
      | .idle => 0
      | .busy => 1
      | .done => 2
      | .fault => 3) := by cases s.seq <;> rfl
    refine BitVec.eq_of_toNat_eq ((fields 1 0).trans (Eq.trans ?_ e))
    omega
  case gfault =>
    show (statusWord s).toNat.testBit 2 = s.gfault
    rw [Nat.testBit_eq_decide_div_mod_eq, hw]
    cases s.gfault <;> simp only [Bool.toNat, cond, decide_eq_true_eq, decide_eq_false_iff_not] <;> omega
  case low =>
    refine BitVec.eq_of_toNat_eq ((fields 7 3).trans ?_)
    show _ = 0
    omega
  case fcode =>
    refine BitVec.eq_of_toNat_eq ((fields 15 8).trans ?_)
    omega
  case high =>
    refine BitVec.eq_of_toNat_eq ((fields 31 16).trans ?_)
    show _ = 0
    omega

/-! ## RESET -/

theorem elem_replicate {α : Type} (n i : Nat) (d : α) : elem d (Vector.replicate n d) i = d := by
  rw [elem, Vector.getElem?_replicate]
  split <;> rfl

theorem reset_values : ResetValues State.reset where
  seq := rfl
  gfault := rfl
  fcode := rfl
  finfo := rfl
  cmd := rfl
  dst := rfl
  len := rfl
  ret := rfl
  karg := rfl
  ovol i := elem_replicate 32 i 0
  sChunk i := elem_replicate 32 i 0
  sAvail i := elem_replicate 32 i 0
  sVol i ch := by
    show elem 0 (elem _ (Vector.replicate 32 (Vector.replicate 32 0)) i) ch = 0
    rw [elem_replicate, elem_replicate]
  sPtr i := elem_replicate 32 i 0
  ktab F := by cases F <;> rfl

/-- The RESET event puts every register at its reset value, whatever had happened (70_reset_and_hazards.md R300). -/
theorem resetMachine_values (evs : List Event) (n : Nat) (s : State) : ResetValues (resetMachine evs n s) := by
  obtain ⟨⟩ := reset_values
  constructor <;> assumption

/-- A RESET that abandons no event. -/
theorem hostReset_no_event {n : Nat} {s : State} (h : s.seq ≠ .busy ∨ n = 0) :
    ∃ k, hostReset n s = resetMachine [] k s := by
  by_cases hb : s.seq = .busy
  · obtain rfl := h.resolve_left (not_not_intro hb)
    exact ⟨_, hostReset_busy 0 s hb⟩
  · exact ⟨_, hostReset_idle n s hb⟩

/-- Settles O16: a RESET is `resetMachine`, whose registers are those of the reset state. -/
theorem resetEvent : Obligations.ResetEvent := by
  refine ⟨reset_values, fun s n rest hh => ?_, fun s n h => ?_⟩
  · rw [step_cons hh, hostMove]
  · obtain ⟨k, e⟩ := hostReset_no_event h
    rw [e]
    exact ⟨resetMachine_values [] k s, rfl, List.append_nil _⟩

/-! ## After a fault -/

/-- What a host access other than a RESET keeps in a faulted context. -/
structure FaultKept (s t : State) : Prop where
  seq : t.seq = s.seq
  gfault : t.gfault = s.gfault
  fcode : t.fcode = s.fcode
  finfo : t.finfo = s.finfo
  cmd : t.cmd = s.cmd
  ret : t.ret = s.ret
  ktab : t.ktab = s.ktab
  sPtr : t.sPtr = s.sPtr
  olin : t.olin = s.olin
  sgain : t.sgain = s.sgain
  hist : t.hist = s.hist

theorem FaultKept.refl (s : State) : FaultKept s s := ⟨rfl, rfl, rfl, rfl, rfl, rfl, rfl, rfl, rfl, rfl, rfl⟩

theorem RegWriteFrame.faultKept {s t : State} (h : RegWriteFrame s t) : FaultKept s t :=
  ⟨h.seq, h.faultRegs.gfault, h.faultRegs.fcode, h.faultRegs.finfo, h.cmd, h.ret, h.unseen.ktab, h.sPtr, h.olin, h.sgain,
    h.unseen.hist⟩

theorem hostWrite_faultKept (off : Nat) (v : Word) {s : State} (hs : s.seq = .fault) : FaultKept s (hostWrite off v s) := by
  rcases hostWrite_cases off v s with e | ⟨hq, -⟩ | ⟨r, e⟩
  · rw [e]
    exact .refl s
  · rw [hs] at hq
    rcases hq with hq | hq <;> cases hq
  · rw [e]
    exact (writeReg_frame r v s).faultKept

theorem hostRead_shape (off : Nat) (s : State) : ∃ v, hostRead off s = returnRead v s := by
  cases hr : regAt off with
  | none => exact ⟨0, by rw [hostRead, hr]⟩
  | some r => rcases hostRead_of_regAt (s := s) hr with ⟨-, e⟩ | ⟨-, e⟩ <;> exact ⟨_, e⟩

theorem hostPoke_shape {x : Nat} {v : Byte} {s t : State} (h : hostPoke x v s = .next t) : t = s.setMem (s.mem.put x v) := by
  unfold hostPoke at h
  split at h
  · cases h
  · split at h
    · cases h
    · exact (Host.Outcome.next.inj h).symm

theorem hostMove_faultKept {a : HostAction} {s t : State} (hs : s.seq = .fault) (ha : ∀ n, a ≠ .reset n)
    (h : hostMove a s = .next t) : FaultKept s t := by
  cases a with
  | write off v =>
    obtain rfl := Host.Outcome.next.inj h
    exact hostWrite_faultKept off v hs
  | read off =>
    obtain rfl := Host.Outcome.next.inj h
    obtain ⟨v, e⟩ := hostRead_shape off s
    rw [e]
    exact ⟨rfl, rfl, rfl, rfl, rfl, rfl, rfl, rfl, rfl, rfl, rfl⟩
  | wait =>
    rw [hostMove, sequencerTurn_idle (by rw [hs]; decide)] at h
    obtain rfl := Host.Outcome.next.inj h
    exact .refl s
  | poke x v =>
    obtain rfl := hostPoke_shape h
    exact ⟨rfl, rfl, rfl, rfl, rfl, rfl, rfl, rfl, rfl, rfl, rfl⟩
  | reset n => exact absurd rfl (ha n)

/-- Settles O20, by the host's moves: none but a RESET touches what a fault has left. -/
theorem faultIsTerminal : Obligations.FaultIsTerminal := by
  intro s t hs hg hr ht
  have kept : FaultKept s t := by
    cases hh : s.host with
    | nil =>
      rw [step_nil hh, sequencerTurn_idle (by rw [hs]; decide)] at ht
      obtain rfl := Host.Outcome.next.inj ht
      exact .refl s
    | cons a rest =>
      rw [step_cons hh] at ht
      obtain ⟨⟩ := hostMove_faultKept (s := s.setHost rest) hs (fun n e => hr n rest (e ▸ hh)) ht
      constructor <;> assumption
  exact ⟨kept.seq.trans hs, kept.gfault.trans hg, kept.fcode, kept.finfo, kept.cmd, kept.ret,
    kept.ktab, kept.sPtr, kept.olin, kept.sgain, kept.hist⟩

/-! ## The invariant -/

/-- Settles O46: memory is empty, the default table holds built-in ids, and the status fields are zero in IDLE. -/
theorem invAtReset : Obligations.InvAtReset := ⟨reset_mem_wf, rfl, rfl⟩

/-- The status fields agree still where STATE faults or does not fault as before and the fault registers are kept. -/
theorem statusSound_of_same {s t : State} (h : statusSound s = true) (hr : SameFaultRegs s t)
    (hq : t.seq = .fault ↔ s.seq = .fault) : statusSound t = true := by
  have e : (t.seq == .fault) = (s.seq == .fault) := by rw [Bool.eq_iff_iff, beq_iff_eq, beq_iff_eq, hq]
  rwa [statusSound, bne, hr.gfault, hr.fcode, hr.finfo, e]

theorem faultInfo_lt (i ch : Nat) : (faultInfo i ch).toNat < 2 ^ 16 := by
  rw [faultInfo, BitVec.toNat_ofNat]
  omega

/-- Taking a fault makes the status fields agree, whatever they were (60_exceptions.md R272). -/
theorem statusSound_takeFault (c : FaultCode) (i ch : Nat) (s : State) : statusSound (takeFault c i ch s) = true := by
  have code : BitVec.ofNat 8 (faultNumber c) ≠ 0 ∧ (BitVec.ofNat 8 (faultNumber c)).toNat ≤ 0x0B := by cases c <;> decide
  simp only [statusSound, takeFault_gfault, takeFault_seq, takeFault_fcode, takeFault_finfo, beq_self_eq_true,
    bne_self_eq_false, beq_false_of_ne code.1, code.2, faultInfo_lt, decide_true, Bool.and_self]

/-- The invariant is kept where memory stays canonical, the table and the fault registers are kept, and STATE is FAULT exactly
where it was. -/
theorem MachineInv.of_same {s t : State} (h : MachineInv s) (hm : t.mem.wf = true) (hk : t.ktab = s.ktab)
    (hr : SameFaultRegs s t) (hq : t.seq = .fault ↔ s.seq = .fault) : MachineInv t :=
  ⟨hm, by rw [ktabSound, hk]; exact h.2.1, statusSound_of_same h.2.2 hr hq⟩

theorem MachineInv.takeFault {s : State} (h : MachineInv s) (c : FaultCode) (i ch : Nat) :
    MachineInv (takeFault c i ch s) := ⟨h.1, h.2.1, statusSound_takeFault c i ch s⟩

/-- A command in BUSY that completes keeps the invariant where it keeps the table and the fault registers. -/
theorem MachineInv.complete {s k : State} (h : MachineInv s) (hb : s.seq = .busy) (hm : k.mem.wf = true)
    (hk : k.ktab = s.ktab) (hr : SameFaultRegs s k) : MachineInv k.complete :=
  h.of_same hm hk ⟨hr.gfault, hr.fcode, hr.finfo⟩ (by rw [hb]; exact ⟨fun e => (by cases e), fun e => (by cases e)⟩)

theorem fillSilence_wf (F : Fmt) {s : State} (h : s.mem.wf = true) : (fillSilence F s).mem.wf = true := by
  rw [fillSilence, fillBytes_eq]
  exact Memory.wf_store _ _ _ h

theorem fillSilence_faultRegs (F : Fmt) (s : State) : SameFaultRegs s (fillSilence F s) := by
  rw [fillSilence, fillBytes_eq]
  exact ⟨rfl, rfl, rfl⟩

/-- Binding a valid id keeps the table sound (44_dispatch.md R213). -/
theorem ktabSound_setKtab {F : Fmt} {k : BitVec 8} {s : State} (h : ktabSound s = true) (hk : validKernel k = true) :
    ktabSound (s.setKtab F k) = true := by
  rw [ktabSound, List.all_eq_true] at h ⊢
  rw [State.setKtab_ktab, Vector.toList_setIfInBounds]
  intro x hx
  rcases List.mem_or_eq_of_mem_set hx with hx | rfl
  · exact h x hx
  · exact hk

/-- A command that runs in BUSY keeps the invariant, by the ways a command ends. -/
theorem CommandEnds.keeps_inv {i : Instr} {s t : State} (he : CommandEnds i s t) (h : MachineInv s) (hb : s.seq = .busy) :
    MachineInv t := by
  have hm : s.mem.wf = true := h.1
  cases he with
  | fault o c j k => exact MachineInv.takeFault (s := { s with olin := o }) h c j k
  | mixFault _ _ _ _ _ c j k before =>
    exact (h.of_same (by rw [before.mem]; exact hm) before.ktab before.faultRegs (by rw [before.seq])).takeFault c j k
  | mixSilence F =>
    obtain ⟨hg, hc, hi⟩ := fillSilence_faultRegs F s
    exact h.complete (k := (fillSilence F s).setRet s.len) hb (fillSilence_wf F hm) (fillSilence_ktab F s) ⟨hg, hc, hi⟩
  | mixKernel _ K C NS _ _ u before =>
    have fr := runMixKernel_frame Config.ports K C NS u.dst.toNat u.effLen.toNat u
    have hw : (runMixKernel (laneOf Config.ports K) C NS u.dst.toNat u.effLen.toNat u).mem.wf = true :=
      mixSlots_wf _ (laneOf_sound _ K) C NS _ _ _ (by rw [← before.mem] at hm; exact hm)
    rw [releaseAll_eq]
    exact h.complete hb hw (fr.ktab.trans before.ktab)
      ⟨fr.gfault.trans before.gfault, fr.fcode.trans before.fcode, fr.finfo.trans before.finfo⟩
  | volNoop => exact h.complete hb hm rfl ⟨rfl, rfl, rfl⟩
  | volMuted F => exact h.complete hb (fillSilence_wf F hm) (fillSilence_ktab F s) (fillSilence_faultRegs F s)
  | volKernel F C _ o =>
    have fr := runVolKernel_frame Config.ports F C s.dst.toNat s.len.toNat { s with olin := o }
    exact h.complete hb (volSlots_wf _ C _ _ _ hm) fr.ktab ⟨fr.gfault, fr.fcode, fr.finfo⟩
  | getk F => exact h.complete (k := s.setRet ((s.ktabAt F).setWidth 32)) hb hm rfl ⟨rfl, rfl, rfl⟩
  | setk F hv =>
    have done : MachineInv s.complete := h.complete hb hm rfl ⟨rfl, rfl, rfl⟩
    exact ⟨hm, ktabSound_setKtab h.2.1 hv, done.2.2⟩

/-- The sequencer's turn keeps the invariant: a command's end, or the fault of a word that is no command. -/
theorem sequencerTurn_keeps_inv {s t : State} (h : MachineInv s) (ht : sequencerTurn s = .next t) : MachineInv t := by
  by_cases hb : s.seq = .busy
  · rw [sequencerTurn_busy hb, runCommand] at ht
    split at ht
    · exact (exec_ends ht).keeps_inv h hb
    · obtain rfl := Host.Outcome.next.inj ht
      exact h.takeFault _ _ _
  · rw [sequencerTurn_idle hb] at ht
    obtain rfl := Host.Outcome.next.inj ht
    exact h

theorem hostWrite_keeps_inv (off : Nat) (v : Word) {s : State} (h : MachineInv s) : MachineInv (hostWrite off v s) := by
  rcases hostWrite_cases off v s with e | ⟨hq, -, e⟩ | ⟨r, e⟩
  · rwa [e]
  · rw [e]
    refine h.of_same h.1 rfl ⟨rfl, rfl, rfl⟩ ⟨fun k => (by cases k), fun k => ?_⟩
    rw [k] at hq
    rcases hq with hq | hq <;> cases hq
  · have fr := writeReg_frame r v s
    rw [e]
    exact h.of_same (by rw [fr.unseen.mem]; exact h.1) fr.unseen.ktab fr.faultRegs (by rw [fr.seq])

/-- A RESET establishes all of the invariant but the canonical memory, which replayed writes keep. -/
theorem resetMachine_inv (evs : List Event) (n : Nat) {s : State} (h : s.mem.wf = true) : MachineInv (resetMachine evs n s) :=
  ⟨replayWrites_wf evs s.mem h, invAtReset.2⟩

theorem hostMove_keeps_inv {a : HostAction} {s t : State} (h : MachineInv s) (ht : hostMove a s = .next t) :
    MachineInv t := by
  cases a with
  | write off v =>
    obtain rfl := Host.Outcome.next.inj ht
    exact hostWrite_keeps_inv off v h
  | read off =>
    obtain rfl := Host.Outcome.next.inj ht
    obtain ⟨v, e⟩ := hostRead_shape off s
    rw [e]
    exact h
  | wait => exact sequencerTurn_keeps_inv h ht
  | poke x v =>
    obtain rfl := hostPoke_shape ht
    exact ⟨Memory.wf_put s.mem x v h.1, h.2⟩
  | reset n =>
    obtain rfl := Host.Outcome.next.inj ht
    unfold hostReset
    split <;> exact resetMachine_inv _ _ h.1

/-- Settles O47: the sequencer's turn and each of the host's moves keep the invariant. -/
theorem stepKeepsInv : Obligations.StepKeepsInv := by
  intro s t h ht
  cases hh : s.host with
  | nil => exact sequencerTurn_keeps_inv h (step_nil hh ▸ ht)
  | cons a rest => exact hostMove_keeps_inv (s := s.setHost rest) h (step_cons hh ▸ ht)

end Sys2Proof.Machine
end

section
/-! PROOF of the statement that stale scratch is no input (10_state.md R44; 70_reset_and_hazards.md R315). Two runs are compared
through `State.hide`, which blanks the scratch, the cursors and the working registers: each operation of a command either does
not see what is hidden, or reads a place of it that the command has written before, with the same value in both runs
(`ScratchAgree`, `KernelAgree`). -/

namespace Sys2Proof.Machine

/-! ## Hiding the scratch -/

/-- The state with the scratch, the stream cursors and the working registers blanked (10_state.md R34 to R37). -/
def State.hide (s : State) : State :=
  { s with
    sPtr := State.reset.sPtr
    olin := State.reset.olin
    sgain := State.reset.sgain
    dCur := 0
    dEnd := 0
    chIdx := 0
    effLen := 0
    acc32 := 0
    acc64 := 0
    accF := 0 }

theorem SameButScratch.hide_eq {s t : State} (h : SameButScratch s t) : t.hide = s.hide := by
  obtain ⟨⟨cmd, dst, len, karg, ovol, sChunk, sAvail, sVol, host, reads⟩, ⟨gfault, fcode, finfo⟩, seq, ret, ktab, mem, hist,
    answers, free⟩ := h
  unfold State.hide
  rw [cmd, dst, len, karg, ovol, sChunk, sAvail, sVol, host, reads, gfault, fcode, finfo, seq, ret, ktab, mem, hist, answers,
    free]

/-- What does not see the hidden registers is the same in states that agree but for them. -/
theorem seen_eq {α : Type} (f : State → α) {s t : State} (h : t.hide = s.hide)
    (hf : ∀ u : State, f u.hide = f u := by intro; rfl) : f t = f s := by rw [← hf t, h, hf]

theorem sameButScratch_of_hide_eq {s t : State} (h : t.hide = s.hide) : SameButScratch s t where
  inputs := ⟨seen_eq State.cmd h, seen_eq State.dst h, seen_eq State.len h, seen_eq State.karg h, seen_eq State.ovol h,
    seen_eq State.sChunk h, seen_eq State.sAvail h, seen_eq State.sVol h, seen_eq State.host h, seen_eq State.reads h⟩
  faultRegs := ⟨seen_eq State.gfault h, seen_eq State.fcode h, seen_eq State.finfo h⟩
  seq := seen_eq State.seq h
  ret := seen_eq State.ret h
  ktab := seen_eq State.ktab h
  mem := seen_eq State.mem h
  hist := seen_eq State.hist h
  answers := seen_eq State.answers h
  free := seen_eq State.free h

/-! The operations that do not see what is hidden. -/

theorem acquire_hide (a : Word) (s : State) : (acquire a s).hide = acquire a s.hide := by
  unfold acquire
  rw [show s.hide.answers = s.answers from rfl]
  cases s.answers <;> rfl

theorem fillSilence_hide (F : Fmt) (s : State) : (fillSilence F s).hide = fillSilence F s.hide := by
  rw [fillSilence, fillSilence, fillBytes_eq, fillBytes_eq]
  rfl

theorem releaseAll_hide (NS : Nat) (s : State) : (releaseAll NS 0 s).hide = releaseAll NS 0 s.hide := by
  rw [releaseAll_eq, releaseAll_eq]
  rfl

theorem passStream_hide (L : Lane) (i : Nat) (s : State) : (passStream L i s).hide =
    (if L.nz (s.sgainAt i s.chIdx.toNat) then s.hide.readEvent (s.sPtrAt i).toNat L.width else s.hide).draw
      (cursorDraws ((s.sPtrAt i).toNat + L.width)) := by
  unfold passStream
  split <;> rfl

theorem slotEnd_hide (L : Lane) (C n a : Nat) (acc : L.Acc) (u : State) :
    (nextChannel C (moveDest n (writeSample L a acc u))).hide = (writeSample L a acc u.hide).draw (cursorDraws n) := rfl

theorem laneOf_park_hide (P : Config.Ports) (F : Fmt) (x : (laneOf P F).Acc) (s : State) :
    ((laneOf P F).park x s).hide = s.hide := by cases F <;> rfl

/-! ## Two runs before the kernel -/

/-- Two states agree but for the scratch, the cursors and the working registers, and of those in the cursors of the first `n`
streams, the first `c` output gains, and the stream gains that `g` names. -/
structure ScratchAgree (n c : Nat) (g : Nat → Nat → Prop) (s s' : State) : Prop where
  hide : s'.hide = s.hide
  sPtr : ∀ i < n, s'.sPtrAt i = s.sPtrAt i
  olin : ∀ j < c, s'.olinAt j = s.olinAt j
  sgain : ∀ i d, g i d → s'.sgainAt i d = s.sgainAt i d

/-- Two lines end alike: both go on, in states that `R` relates, or both have stopped, in states that agree but for the
scratch. -/
def Progress.Agree (R : State → State → Prop) : Progress → Progress → Prop
  | .on s, .on s' => R s s'
  | .halt s, .halt s' => s'.hide = s.hide
  | .on _, .halt _ => False
  | .halt _, .on _ => False

theorem Progress.Agree.andThen {R Q : State → State → Prop} {p p' : Progress} {f f' : State → Progress} (h : p.Agree R p')
    (hf : ∀ s s', R s s' → (f s).Agree Q (f' s')) : (p.andThen f).Agree Q (p'.andThen f') := by
  cases p <;> cases p'
  · exact hf _ _ h
  · exact h.elim
  · exact h.elim
  · exact h

section
variable {n c : Nat} {g : Nat → Nat → Prop} {s s' : State}

theorem ScratchAgree.acquire (h : ScratchAgree n 0 (fun _ _ => False) s s') (a : Word) :
    ScratchAgree n 0 (fun _ _ => False) (acquire a s) (acquire a s') where
  hide := by rw [acquire_hide, acquire_hide, h.hide]
  sPtr i hi := by simpa only [State.sPtrAt, acquire_sPtr] using h.sPtr i hi
  olin j hj := absurd hj (Nat.not_lt_zero j)
  sgain _ _ k := k.elim

/-- Acquiring a stream: the answer is the same in both runs, and so is the cursor it sets. -/
theorem acquireStream_agree (h : ScratchAgree n 0 (fun _ _ => False) s s') (hn : n < 32) :
    (acquireStream n s).Agree (ScratchAgree (n + 1) 0 fun _ _ => False) (acquireStream n s') := by
  have ha : nextAnswer s' = nextAnswer s := seen_eq nextAnswer h.hide
  have hc : s'.sChunkAt n = s.sChunkAt n := seen_eq (State.sChunkAt · n) h.hide
  have hs := h.acquire (s.sChunkAt n)
  have hl : (acquire (s.sChunkAt n) s').sAvailAt n = (acquire (s.sChunkAt n) s).sAvailAt n :=
    seen_eq (State.sAvailAt · n) hs.hide
  unfold acquireStream
  simp only [ha, hc, hl]
  generalize Machine.acquire (s.sChunkAt n) s = u, Machine.acquire (s.sChunkAt n) s' = u' at hs
  split
  · exact congrArg (takeFault .null n 0) hs.hide
  · split
    · exact congrArg (takeFault .addrWrap n 0) hs.hide
    · refine ⟨hs.hide, fun i hi => ?_, fun j hj => absurd hj (Nat.not_lt_zero j), fun _ _ k => k.elim⟩
      rw [State.setSPtr_sPtrAt _ _ _ _ hn, State.setSPtr_sPtrAt _ _ _ _ hn]
      split
      · rfl
      · exact hs.sPtr i (by omega)

theorem acquireAll_agree : ∀ (k n : Nat) (s s' : State), ScratchAgree n 0 (fun _ _ => False) s s' → n + k ≤ 32 →
    (acquireAll k n s).Agree (ScratchAgree (n + k) 0 fun _ _ => False) (acquireAll k n s') := by
  intro k
  induction k with
  | zero => intro n s s' h _; exact h
  | succ k ih =>
    intro n s s' h hn
    refine (acquireStream_agree h (by omega)).andThen fun u u' hu => ?_
    rw [show n + (k + 1) = n + 1 + k by omega]
    exact ih (n + 1) u u' hu (by omega)

/-- Writing one output gain in both runs. -/
theorem ScratchAgree.setOlin (h : ScratchAgree n c g s s') (v : Word) (hc : c < 64) :
    ScratchAgree n (c + 1) g (s.setOlin c v) (s'.setOlin c v) where
  hide := h.hide
  sPtr := h.sPtr
  olin j hj := by
    rw [State.setOlin_olinAt _ _ _ _ hc, State.setOlin_olinAt _ _ _ _ hc]
    split
    · rfl
    · exact h.olin j (by omega)
  sgain := h.sgain

theorem linChannels_agree (P : Config.Ports) (q : GainRepr) (vol : Nat → Word) : ∀ (k c : Nat) (s s' : State),
    ScratchAgree n c g s s' → c + k ≤ 64 →
    (linChannels P q vol k c s).Agree (ScratchAgree n (c + k) g) (linChannels P q vol k c s') := by
  intro k
  induction k with
  | zero => intro c s s' h _; exact h
  | succ k ih =>
    intro c s s' h hc
    rw [linChannels, linChannels]
    cases linGain P q (vol c) with
    | none => exact congrArg (takeFault .gainRange noStream c) h.hide
    | some v =>
      rw [show c + (k + 1) = c + 1 + k by omega]
      exact ih (c + 1) _ _ (h.setOlin v (by omega)) (by omega)

/-- The padding copies slots that agree. -/
theorem padFrom_agree (C : Nat) (hC : 0 < C) : ∀ (k i : Nat) (s s' : State), ScratchAgree n (C + i) g s s' → C + i + k ≤ 64 →
    ScratchAgree n (C + i + k) g (padFrom C k i s) (padFrom C k i s') := by
  intro k
  induction k with
  | zero => intro i s s' h _; exact h
  | succ k ih =>
    intro i s s' h hk
    rw [padFrom, padFrom, h.olin i (by omega), show C + i + (k + 1) = C + (i + 1) + k by omega]
    exact ih (i + 1) _ _ (h.setOlin _ (by omega)) (by omega)

/-- The linearizer reads no slot of OLIN it has not written (40_linearizer.md R131 to R134). -/
theorem linearize_agree (P : Config.Ports) (q : GainRepr) (vol : Nat → Word) {C : Nat} (hC : 1 ≤ C ∧ C ≤ 32)
    (h : ScratchAgree n 0 g s s') : (linearize P q vol C s).Agree (ScratchAgree n C g) (linearize P q vol C s') := by
  have channels := linChannels_agree P q vol C 0 s s' h (by omega)
  rw [Nat.zero_add] at channels
  refine channels.andThen fun u u' hu => ?_
  obtain ⟨hide, sPtr, olin, sgain⟩ := padFrom_agree C (by omega) 32 0 u u' hu (by omega)
  exact ⟨hide, sPtr, fun j hj => olin j (by omega), sgain⟩

/-- The gain calculator on one stream reads output gains that agree. -/
theorem gainChannels_agree (P : Config.Ports) (q : GainRepr) (i : Nat) (hi : i < 32) : ∀ (k d : Nat) (s s' : State),
    ScratchAgree n c (fun j e => j < i ∧ e < c ∨ j = i ∧ e < d) s s' → d + k ≤ c → c ≤ 32 →
    (gainChannels P q i k d s).Agree (ScratchAgree n c fun j e => j < i ∧ e < c ∨ j = i ∧ e < d + k)
      (gainChannels P q i k d s') := by
  intro k
  induction k with
  | zero => intro d s s' h _ _; exact h
  | succ k ih =>
    intro d s s' h hd hc
    have hv : s'.sVolAt i d = s.sVolAt i d := seen_eq (State.sVolAt · i d) h.hide
    rw [gainChannels, gainChannels, hv, h.olin d (by omega)]
    cases streamGain P q (s.sVolAt i d) (s.olinAt d) with
    | none => exact congrArg (takeFault .gainRange i d) h.hide
    | some v =>
      rw [show d + (k + 1) = d + 1 + k by omega]
      refine ih (d + 1) _ _ ⟨h.hide, h.sPtr, h.olin, fun j e hje => ?_⟩ (by omega) hc
      rw [State.setSgain_sgainAt _ _ _ _ _ _ hi (by omega), State.setSgain_sgainAt _ _ _ _ _ _ hi (by omega)]
      split
      · rfl
      · exact h.sgain j e (by omega)

theorem gainStreams_agree (P : Config.Ports) (q : GainRepr) {C : Nat} (hC : C ≤ 32) : ∀ (k i : Nat) (s s' : State),
    ScratchAgree n C (fun j e => j < i ∧ e < C) s s' → i + k ≤ 32 →
    (gainStreams P q C k i s).Agree (ScratchAgree n C fun j e => j < i + k ∧ e < C) (gainStreams P q C k i s') := by
  intro k
  induction k with
  | zero => intro i s s' h _; exact h
  | succ k ih =>
    intro i s s' h hi
    have one := gainChannels_agree P q i (by omega) C 0 s s'
      ⟨h.hide, h.sPtr, h.olin, fun j e hje => h.sgain j e (by omega)⟩ (by omega) hC
    refine one.andThen fun u u' hu => ?_
    rw [show i + (k + 1) = i + 1 + k by omega]
    exact ih (i + 1) u u' ⟨hu.hide, hu.sPtr, hu.olin, fun j e hje => hu.sgain j e (by omega)⟩ (by omega)

end

/-- The lines of a MIX before its kernel write every cursor and gain before they read it (45_mix_command.md R221). -/
theorem mixPrepare_agree (P : Config.Ports) {F : Fmt} {C NS : Nat} (hasvol : Bool) {s s' : State} (hs : s'.hide = s.hide)
    (hv : Valid F C NS s) : (mixPrepare P F C NS hasvol s).Agree (ScratchAgree NS C fun j e => j < NS ∧ e < C)
      (mixPrepare P F C NS hasvol s') := by
  have start : ScratchAgree 0 0 (fun _ _ => False) s s' :=
    ⟨hs, fun i hi => absurd hi (Nat.not_lt_zero i), fun i hi => absurd hi (Nat.not_lt_zero i), fun _ _ k => k.elim⟩
  have acquired := acquireAll_agree NS 0 s s' start (by have := hv.streams; omega)
  rw [Nat.zero_add] at acquired
  have he : effectiveLength NS s' = effectiveLength NS s := seen_eq (effectiveLength NS) hs
  have ho : outVol hasvol s' = outVol hasvol s := seen_eq (outVol hasvol) hs
  unfold mixPrepare
  rw [he, ho]
  refine acquired.andThen fun u u' hu => ?_
  have linearized := linearize_agree P .flt (outVol hasvol s) hv.channels
    (s := u.setEffLen (BitVec.ofNat 32 (effectiveLength NS s))) (s' := u'.setEffLen (BitVec.ofNat 32 (effectiveLength NS s)))
    ⟨hu.hide, hu.sPtr, hu.olin, hu.sgain⟩
  refine linearized.andThen fun v v' hv' => ?_
  have calculated := gainStreams_agree P (gainRepr F) hv.channels.2 NS 0 v v'
    ⟨hv'.hide, hv'.sPtr, hv'.olin, fun j e hje => absurd hje.1 (Nat.not_lt_zero j)⟩ (by have := hv.streams; omega)
  rw [Nat.zero_add] at calculated
  exact calculated

/-! ## Two runs of a kernel -/

/-- Two states inside a kernel of `NS` streams and `C` channels agree in all the kernel reads. -/
structure KernelAgree (NS C : Nat) (s s' : State) : Prop where
  hide : s'.hide = s.hide
  chIdx : s'.chIdx = s.chIdx
  chIdx_lt : s.chIdx.toNat < C
  sPtr : ∀ i < NS, s'.sPtrAt i = s.sPtrAt i
  olin : ∀ j < C, s'.olinAt j = s.olinAt j
  sgain : ∀ i < NS, ∀ d < C, s'.sgainAt i d = s.sgainAt i d

/-- A part of a kernel writes no gain, so two runs agree after it if they do in cursors, channel and what is not hidden. -/
theorem KernelAgree.of_frames {NS C : Nat} {s s' t t' : State} (h : KernelAgree NS C s s') (hf : KernelFrame s t)
    (hf' : KernelFrame s' t') (hide : t'.hide = t.hide) (chIdx : t'.chIdx = t.chIdx) (chIdx_lt : t.chIdx.toNat < C)
    (sPtr : ∀ i < NS, t'.sPtrAt i = t.sPtrAt i) : KernelAgree NS C t t' where
  hide := hide
  chIdx := chIdx
  chIdx_lt := chIdx_lt
  sPtr := sPtr
  olin j hj := by rw [hf'.olinAt, hf.olinAt, h.olin j hj]
  sgain i hi d hd := by rw [hf'.sgainAt, hf.sgainAt, h.sgain i hi d hd]

theorem KernelAgree.gain {NS C i : Nat} {s s' : State} (h : KernelAgree NS C s s') (hi : i < NS) :
    s'.sgainAt i s'.chIdx.toNat = s.sgainAt i s.chIdx.toNat := by rw [h.chIdx, h.sgain i hi _ h.chIdx_lt]

theorem addStream_agree (L : Lane) {NS C i : Nat} (acc : L.Acc) {s s' : State} (h : KernelAgree NS C s s') (hi : i < NS) :
    addStream L i acc s' = addStream L i acc s := by
  have hm : s'.mem = s.mem := seen_eq State.mem h.hide
  simp only [addStream, h.gain hi, h.sPtr i hi, State.readBytes, hm]

theorem passStream_agree (L : Lane) {NS C i : Nat} {s s' : State} (h : KernelAgree NS C s s') (hi : i < NS) (hn : NS ≤ 32) :
    KernelAgree NS C (passStream L i s) (passStream L i s') := by
  have hc : ∀ k, cursorReg k s' = cursorReg k s := fun k => seen_eq (cursorReg k) h.hide
  refine h.of_frames (passStream_frame L i s) (passStream_frame L i s') ?_ ?_ ?_ fun j hj => ?_
  · rw [passStream_hide, passStream_hide, h.gain hi, h.sPtr i hi, h.hide]
  · rw [passStream_chIdx, passStream_chIdx, h.chIdx]
  · rw [passStream_chIdx]
    exact h.chIdx_lt
  · rw [passStream_sPtrAt _ _ _ _ (by omega), passStream_sPtrAt _ _ _ _ (by omega), h.sPtr i hi, hc, h.sPtr j hj]

theorem mixStreams_agree (L : Lane) {NS C : Nat} (hn : NS ≤ 32) : ∀ (k i : Nat) (acc : L.Acc) (s s' : State),
    KernelAgree NS C s s' → i + k ≤ NS → (mixStreams L k i acc s').1 = (mixStreams L k i acc s).1 ∧
      KernelAgree NS C (mixStreams L k i acc s).2 (mixStreams L k i acc s').2 := by
  intro k
  induction k with
  | zero => intro i acc s s' h _; exact ⟨rfl, h⟩
  | succ k ih =>
    intro i acc s s' h hk
    rw [mixStreams, mixStreams, addStream_agree L acc h (by omega)]
    exact ih (i + 1) _ _ _ (passStream_agree L h (by omega) hn) (by omega)

/-- The channel after a slot is a channel. -/
theorem next_channel_lt (C : Nat) (c : BitVec 6) (hC : C ≤ 32) (hc : c.toNat < C) :
    BitVec.toNat (if C ≤ c.toNat + 1 then (0 : BitVec 6) else BitVec.ofNat 6 (c.toNat + 1)) < C := by
  rw [next_channel_eq C c hC hc]
  exact Nat.mod_lt _ (by omega)

theorem slotEnd_hide_agree (L : Lane) (C n a : Nat) (acc : L.Acc) {u u' : State} (h : u'.hide = u.hide) :
    (nextChannel C (moveDest n (writeSample L a acc u'))).hide = (nextChannel C (moveDest n (writeSample L a acc u))).hide := by
  rw [slotEnd_hide, slotEnd_hide, h]

theorem mixSlot_agree (P : Config.Ports) (K : Fmt) {NS C a : Nat} (hC : C ≤ 32) (hn : NS ≤ 32) {s s' : State}
    (h : KernelAgree NS C s s') :
    KernelAgree NS C (mixSlot (laneOf P K) C NS a s) (mixSlot (laneOf P K) C NS a s') := by
  have sound := laneOf_sound P K
  obtain ⟨hacc, hu⟩ := mixStreams_agree (laneOf P K) hn NS 0 (laneOf P K).zero s s' h (by omega)
  refine h.of_frames (mixSlot_frame _ sound C NS a s) (mixSlot_frame _ sound C NS a s') ?_ ?_ ?_ fun i hi => ?_
  · rw [mixSlot_eq, mixSlot_eq, hacc]
    refine slotEnd_hide_agree _ _ _ _ _ ?_
    rw [laneOf_park_hide, laneOf_park_hide, hu.hide]
  · rw [mixSlot_chIdx _ sound, mixSlot_chIdx _ sound, h.chIdx]
  · rw [mixSlot_chIdx _ sound]
    exact next_channel_lt C _ hC h.chIdx_lt
  · simp only [State.sPtrAt, mixSlot_sPtr _ sound]
    exact hu.sPtr i hi

theorem mixSlots_agree (P : Config.Ports) (K : Fmt) {NS C : Nat} (hC : C ≤ 32) (hn : NS ≤ 32) : ∀ (k a : Nat) (s s' : State),
    KernelAgree NS C s s' → KernelAgree NS C (mixSlots (laneOf P K) C NS k a s) (mixSlots (laneOf P K) C NS k a s') := by
  intro k
  induction k with
  | zero => intro a s s' h; exact h
  | succ k ih => intro a s s' h; exact ih _ _ _ (mixSlot_agree P K hC hn h)

theorem volSlot_agree (L : Lane) {C a : Nat} (hC : C ≤ 32) {s s' : State} (h : KernelAgree 0 C s s') :
    KernelAgree 0 C (volSlot L C a s) (volSlot L C a s') := by
  have hm : s'.mem = s.mem := seen_eq State.mem h.hide
  have ht : volTerm L a s' = volTerm L a s := by simp only [volTerm, State.readBytes, hm, h.chIdx, h.olin _ h.chIdx_lt]
  refine h.of_frames (volSlot_frame L C a s) (volSlot_frame L C a s') ?_ ?_ ?_ fun i hi => absurd hi (Nat.not_lt_zero i)
  · rw [volSlot_eq, volSlot_eq, ht]
    exact slotEnd_hide_agree _ _ _ _ _ (congrArg (State.readEvent · a L.width) h.hide)
  · rw [volSlot_chIdx, volSlot_chIdx, h.chIdx]
  · rw [volSlot_chIdx]
    exact next_channel_lt C _ hC h.chIdx_lt

theorem volSlots_agree (L : Lane) {C : Nat} (hC : C ≤ 32) : ∀ (k a : Nat) (s s' : State), KernelAgree 0 C s s' →
    KernelAgree 0 C (volSlots L C k a s) (volSlots L C k a s') := by
  intro k
  induction k with
  | zero => intro a s s' h; exact h
  | succ k ih => intro a s s' h; exact ih _ _ _ (volSlot_agree L hC h)

/-- Starting a kernel sets the channel, so two runs that agree before it agree in it. -/
theorem startKernel_agree {NS C dst len : Nat} {s s' : State} (hC : 1 ≤ C)
    (h : ScratchAgree NS C (fun j e => j < NS ∧ e < C) s s') :
    KernelAgree NS C (startKernel dst len s) (startKernel dst len s') where
  hide := h.hide
  chIdx := rfl
  chIdx_lt := hC
  sPtr := h.sPtr
  olin := h.olin
  sgain i hi d hd := h.sgain i d ⟨hi, hd⟩

/-! ## Two runs of a command -/

/-- Two answers are alike: next states that agree but for the scratch, or the same stop. -/
def AnswersAlike : Host.Outcome State Fault Refusal → Host.Outcome State Fault Refusal → Prop
  | .next t, .next t' => t'.hide = t.hide
  | .fault r, .fault r' => r' = r
  | .refused r, .refused r' => r' = r
  | _, _ => False

theorem mixDispatch_agree (P : Config.Ports) (F : Fmt) {C NS : Nat} {u u' : State} (hC : 1 ≤ C ∧ C ≤ 32) (hn : NS ≤ 32)
    (h : ScratchAgree NS C (fun j e => j < NS ∧ e < C) u u') (he : u'.effLen = u.effLen) :
    AnswersAlike (mixDispatch P F C NS u) (mixDispatch P F C NS u') := by
  have hk : u'.ktabAt F = u.ktabAt F := seen_eq (State.ktabAt · F) h.hide
  have hd : u'.dst = u.dst := seen_eq State.dst h.hide
  unfold mixDispatch
  rw [hk, hd, he]
  cases kernelOf Config.nativeEndian (u.ktabAt F) with
  | none => rfl
  | some K =>
    by_cases hw : u.effLen.toNat % width K = 0
    · simp only [if_pos hw]
      have kernel : (runMixKernel (laneOf P K) C NS u.dst.toNat u.effLen.toNat u').hide =
          (runMixKernel (laneOf P K) C NS u.dst.toNat u.effLen.toNat u).hide :=
        (mixSlots_agree P K hC.2 hn _ _ _ _ (startKernel_agree hC.1 h)).hide
      have released := congrArg (releaseAll NS 0) kernel
      rw [← releaseAll_hide, ← releaseAll_hide] at released
      exact congrArg (fun k => (k.setRet u.effLen).complete) released
    · simp only [if_neg hw]
      rfl

/-- A MIX that reaches its kernel has set `EFFLEN` (45_mix_command.md R226). -/
theorem mixPrepare_effLen {P : Config.Ports} {F : Fmt} {C NS : Nat} {h : Bool} {s u : State}
    (hu : mixPrepare P F C NS h s = .on u) : u.effLen = BitVec.ofNat 32 (effectiveLength NS s) := by
  obtain ⟨v, -, ⟨e, hv⟩ | ⟨c, i, k, -, e⟩⟩ := mixPrepare_shape P F C NS h s
  · obtain rfl := Progress.on.inj (e.symm.trans hu)
    exact hv
  · cases e.symm.trans hu

theorem mixCommand_agree (P : Config.Ports) (F : Fmt) (C NS : Nat) (m h : Bool) {s s' : State} (hs : s'.hide = s.hide) :
    AnswersAlike (mixCommand P F C NS m h s) (mixCommand P F C NS m h s') := by
  have hv : validate F C NS s' = validate F C NS s := seen_eq (validate F C NS) hs
  have hm : mixSilent C NS m h s' = mixSilent C NS m h s := seen_eq (mixSilent C NS m h) hs
  have ha : misalignedStream F C NS s' = misalignedStream F C NS s := seen_eq (misalignedStream F C NS) hs
  have hl : effectiveLength NS s' = effectiveLength NS s := seen_eq (effectiveLength NS) hs
  have filled : (fillSilence F s').hide = (fillSilence F s).hide := by rw [fillSilence_hide, fillSilence_hide, hs]
  have hlen : s'.len = s.len := seen_eq State.len hs
  unfold mixCommand mixStreamsPath
  rw [hv, hm, ha]
  cases valid : validate F C NS s with
  | some c => exact congrArg (takeFault c noStream 0) hs
  | none =>
    have valid := (validate_eq_none ..).1 valid
    cases mixSilent C NS m h s with
    | true =>
      show (mixSilence F s').hide = (mixSilence F s).hide
      rw [mixSilence, mixSilence, hlen]
      exact congrArg (fun k => (k.setRet s.len).complete) filled
    | false =>
      cases misalignedStream F C NS s with
      | some i => exact congrArg (takeFault .streamAlign i 0) hs
      | none =>
        have prepared := mixPrepare_agree P h hs valid
        cases hp : mixPrepare P F C NS h s <;> cases hp' : mixPrepare P F C NS h s' <;> rw [hp, hp'] at prepared
        · exact mixDispatch_agree P F valid.channels valid.streams prepared
            (by rw [mixPrepare_effLen hp, mixPrepare_effLen hp', hl])
        · exact prepared.elim
        · exact prepared.elim
        · exact prepared

theorem volKernelPath_agree (P : Config.Ports) (F : Fmt) {C : Nat} (hC : 1 ≤ C ∧ C ≤ 32) {s s' : State}
    (hs : s'.hide = s.hide) : (volKernelPath P F C s').hide = (volKernelPath P F C s).hide := by
  have ho : s'.ovolAt = s.ovolAt := seen_eq State.ovolAt hs
  have hd : s'.dst = s.dst := seen_eq State.dst hs
  have hl : s'.len = s.len := seen_eq State.len hs
  have linearized := linearize_agree P (gainRepr F) s.ovolAt (n := 0) (g := fun j e => j < 0 ∧ e < C) hC (s := s) (s' := s')
    ⟨hs, fun i hi => absurd hi (Nat.not_lt_zero i), fun i hi => absurd hi (Nat.not_lt_zero i),
      fun j e hje => absurd hje.1 (Nat.not_lt_zero j)⟩
  unfold volKernelPath
  rw [ho, hd, hl]
  cases hp : linearize P (gainRepr F) s.ovolAt C s <;> cases hp' : linearize P (gainRepr F) s.ovolAt C s' <;>
    rw [hp, hp'] at linearized
  · exact congrArg State.complete
      (volSlots_agree (laneOf P F) hC.2 _ s.dst.toNat _ _ (startKernel_agree (len := s.len.toNat) hC.1 linearized)).hide
  · exact linearized.elim
  · exact linearized.elim
  · exact linearized

theorem volCommand_agree (P : Config.Ports) (F : Fmt) (C : Nat) (z : Bool) {s s' : State} (hs : s'.hide = s.hide) :
    AnswersAlike (volCommand P F C z s) (volCommand P F C z s') := by
  have hv : validate F C 0 s' = validate F C 0 s := seen_eq (validate F C 0) hs
  have hn : volNoop C z s' = volNoop C z s := seen_eq (volNoop C z) hs
  have hm : volMuted C s' = volMuted C s := seen_eq (volMuted C) hs
  have filled : (fillSilence F s').hide = (fillSilence F s).hide := by rw [fillSilence_hide, fillSilence_hide, hs]
  unfold volCommand
  rw [hv, hn, hm]
  cases valid : validate F C 0 s with
  | some c => exact congrArg (takeFault c noStream 0) hs
  | none =>
    cases volNoop C z s with
    | true => exact congrArg State.complete hs
    | false =>
      cases volMuted C s with
      | true => exact congrArg State.complete filled
      | false => exact volKernelPath_agree P F ((validate_eq_none ..).1 valid).channels hs

theorem getkCommand_agree (F : Fmt) {s s' : State} (hs : s'.hide = s.hide) :
    (getkCommand F s').hide = (getkCommand F s).hide := congrArg (getkCommand F) hs

theorem setkCommand_agree (F : Fmt) {s s' : State} (hs : s'.hide = s.hide) :
    (setkCommand F s').hide = (setkCommand F s).hide := by
  have hk : kernelArg s' = kernelArg s := seen_eq kernelArg hs
  unfold setkCommand
  rw [hk]
  split
  · exact congrArg (fun u => (u.setKtab F (kernelArg s)).complete) hs
  · exact congrArg (takeFault .badKernel noStream 0) hs

theorem exec_agree (i : Instr) {s s' : State} (hs : s'.hide = s.hide) : AnswersAlike (exec i s) (exec i s') := by
  rcases instr_cases i with ⟨F, C, NS, m, h, rfl⟩ | ⟨F, C, z, rfl⟩ | ⟨F, rfl⟩ | ⟨F, rfl⟩
  · rw [exec_mixOf, exec_mixOf]
    exact mixCommand_agree Config.ports F C NS m h hs
  · rw [exec_volOf, exec_volOf]
    exact volCommand_agree Config.ports F C z hs
  · rw [exec_getkOf, exec_getkOf]
    exact getkCommand_agree F hs
  · rw [exec_setkOf, exec_setkOf]
    exact setkCommand_agree F hs

/-- Settles O45: agreement but for the scratch is agreement of the hidden states, which every command keeps. -/
theorem staleScratchIsNoInput : Obligations.StaleScratchIsNoInput := by
  intro i s s' t hs ht
  have alike := exec_agree i hs.hide_eq
  rw [ht] at alike
  cases ht' : exec i s' with
  | next t' =>
    rw [ht'] at alike
    exact ⟨t', rfl, sameButScratch_of_hide_eq alike⟩
  | fault r | refused r =>
    rw [ht'] at alike
    exact alike.elim

end Sys2Proof.Machine
end

section
/-! PROOFS of the statements about the kernel path of a MIX over sample memory (20_memory.md R70, R74, R78; 43_mix_kernels.md
R191 to R193). The state the kernel starts in and the state the MIX answers are tied together once (`KernelRun`); the bytes
and the accesses are then those of the kernel's slots. -/

namespace Sys2Proof.Machine

/-! ## What a slot takes from its streams -/

/-- A slot's sum depends on the addresses and the gains of its own streams only. -/
theorem slotSum_congr (L : Lane) (NS : Nat) (m : Memory) {b b' : Nat → Nat} {g g' : Nat → Word} (j : Nat)
    (hb : ∀ i < NS, b i = b' i) (hg : ∀ i < NS, g i = g' i) : slotSum L NS m b g j = slotSum L NS m b' g' j := by
  refine List.foldl_ext _ _ _ fun x i hi => ?_
  have hi := List.mem_range.1 hi
  rw [hb i hi, hg i hi]

/-- A slot's accesses depend on the addresses and the gains of its own streams only. -/
theorem mixAccesses_congr (L : Lane) (NS : Nat) {b b' : Nat → Nat} (dst : Nat) {g g' : Nat → Word} (j : Nat)
    (hb : ∀ i < NS, b i = b' i) (hg : ∀ i < NS, g i = g' i) :
    mixAccesses L NS b dst g j = mixAccesses L NS b' dst g' j := by
  have reads : (List.range NS).filter (fun i => L.nz (g i)) = (List.range NS).filter (fun i => L.nz (g' i)) :=
    List.filter_congr fun i hi => by rw [hg i (List.mem_range.1 hi)]
  rw [mixAccesses, reads, mixAccesses]
  congr 1
  refine List.map_congr_left fun i hi => ?_
  rw [hb i (List.mem_range.1 (List.mem_filter.1 hi).1)]

/-! ## The kernel run of a MIX -/

/-- A MIX at `s` runs kernel `K` from state `v` and answers `t`: the kernel starts at channel 0 with the answers for cursors
and `g` for gains, after the acquires; after its slots come the releases (45_mix_command.md R221 lines 13 to 19). -/
structure KernelRun (K : Fmt) (C NS : Nat) (g : Nat → Nat → Word) (s v t : State) : Prop where
  channel : v.chIdx = 0
  cursor : ∀ i < NS, v.sPtrAt i = answerAt s i
  gain : ∀ i < NS, ∀ ch < C, v.sgainAt i ch = g i ch
  memBefore : v.mem = s.mem
  histBefore : v.hist = s.hist ++ (List.range NS).map (acquireEvent s)
  memAfter : t.mem =
    (mixSlots (laneOf Config.ports K) C NS (effectiveLength NS s / width K) s.dst.toNat v).mem
  histAfter : t.hist =
    (mixSlots (laneOf Config.ports K) C NS (effectiveLength NS s / width K) s.dst.toNat v).hist ++
      (List.range NS).map (releaseEvent s)

/-- A MIX whose checks pass, with a bound kernel whose width divides the effective length, makes a kernel run. -/
theorem exec_mix_kernelRun {F K : Fmt} {C NS : Nat} {m h : Bool} {s : State} {o : Nat → Word} {g : Nat → Nat → Word}
    (hr : MixReady F C NS m h s o g) (hk : kernelOf Config.nativeEndian (s.ktabAt F) = some K)
    (hw : effectiveLength NS s % width K = 0) :
    ∃ v t, exec (mixOf F C NS m h) s = .next t ∧ KernelRun K C NS g s v t := by
  obtain ⟨u, hp, he⟩ := exec_mix_ready hr hk hw
  rw [releaseAll_complete] at he
  have pf := hp.frame
  have fr := runMixKernel_frame Config.ports K C NS u.dst.toNat u.effLen.toNat u
  have same : runMixKernel (laneOf Config.ports K) C NS u.dst.toNat u.effLen.toNat u =
      mixSlots (laneOf Config.ports K) C NS (effectiveLength NS s / width K) s.dst.toNat
        (startKernel u.dst.toNat u.effLen.toNat u) := by
    rw [runMixKernel, laneOf_width, hp.effLen, pf.dst]
  refine ⟨startKernel u.dst.toNat u.effLen.toNat u, _, he,
    { channel := rfl
      cursor := fun i hi => (hp.sPtr i).trans (if_pos hi)
      gain := fun i hi ch hch => (hp.sgain i ch).trans (if_pos ⟨hi, hch⟩)
      memBefore := pf.mem
      histBefore := hp.hist
      memAfter := by rw [← same]
      histAfter := ?_ }⟩
  rw [← same, ← releaseEvent_congr (fr.sChunk.trans pf.sChunk)]

section
variable {K : Fmt} {C NS : Nat} {g : Nat → Nat → Word} {s v t : State}

/-- The channel of slot `j`. -/
theorem KernelRun.slotChannel (hv : KernelRun K C NS g s v t) (j : Nat) : (v.chIdx.toNat + j) % C = j % C := by
  rw [hv.channel]
  exact congrArg (· % C) (Nat.zero_add j)

theorem KernelRun.firstChannel (hv : KernelRun K C NS g s v t) (hC : 0 < C) : v.chIdx.toNat < C := by
  rw [hv.channel]
  exact hC

theorem KernelRun.base (hv : KernelRun K C NS g s v t) : ∀ i < NS, (v.sPtrAt i).toNat = (answerAt s i).toNat :=
  fun i hi => congrArg BitVec.toNat (hv.cursor i hi)

theorem KernelRun.slotGain (hv : KernelRun K C NS g s v t) (hC : 0 < C) (j : Nat) :
    ∀ i < NS, v.sgainAt i ((v.chIdx.toNat + j) % C) = g i (j % C) := fun i hi => by
  rw [hv.slotChannel]
  exact hv.gain i hi _ (Nat.mod_lt _ hC)

/-- The slots' sums, over the answers and the gains. -/
theorem KernelRun.slotSum_eq (hv : KernelRun K C NS g s v t) (hC : 0 < C) (L : Lane) (m : Memory) (j : Nat) :
    slotSum L NS m (fun i => (v.sPtrAt i).toNat) (fun i => v.sgainAt i ((v.chIdx.toNat + j) % C)) j =
      slotSum L NS m (fun i => (answerAt s i).toNat) (fun i => g i (j % C)) j :=
  slotSum_congr L NS m j hv.base (hv.slotGain hC j)

/-- The slots' accesses, over the answers and the gains. -/
theorem KernelRun.mixAccesses_eq (hv : KernelRun K C NS g s v t) (hC : 0 < C) (L : Lane) (dst j : Nat) :
    mixAccesses L NS (fun i => (v.sPtrAt i).toNat) dst (fun i => v.sgainAt i ((v.chIdx.toNat + j) % C)) j =
      mixAccesses L NS (fun i => (answerAt s i).toNat) dst (fun i => g i (j % C)) j :=
  mixAccesses_congr L NS dst j hv.base (hv.slotGain hC j)

end

/-- The slots of a kernel fill exactly the effective length. -/
theorem slots_mul_width (P : Config.Ports) {K : Fmt} {E : Nat} (hw : E % width K = 0) :
    E / width K * (laneOf P K).width = E := by
  rw [laneOf_width]
  exact Nat.div_mul_cancel (Nat.dvd_of_mod_eq_zero hw)

/-- The effective length of each stream's window ends within the address space (20_memory.md R69). -/
theorem MixReady.window {F : Fmt} {C NS : Nat} {m h : Bool} {s : State} {o : Nat → Word} {g : Nat → Nat → Word}
    (hr : MixReady F C NS m h s o g) : ∀ i < NS, (answerAt s i).toNat + effectiveLength NS s ≤ 4294967296 := fun i hi =>
  Nat.le_trans (Nat.add_le_add_left ((effectiveLength_le NS s).2 i hi) _) (hr.answers i hi).2

/-- Settles O32: the kernel's slots make the accesses, and the port's events around them are none. -/
theorem mixAccessOrder : Obligations.MixAccessOrder := by
  intro F K C NS m h s t o g hr hk hw ht
  obtain ⟨v, t', ht', hv⟩ := exec_mix_kernelRun hr hk hw
  obtain rfl := Host.Outcome.next.inj (ht'.symm.trans ht)
  obtain ⟨hC, hC'⟩ := hr.starts.valid.channels
  obtain ⟨l, hl, ml⟩ := mixSlots_hist _ (laneOf_sound Config.ports K) C NS hC' hr.starts.valid.streams
    (effectiveLength NS s / width K) s.dst.toNat v (hv.firstChannel hC) fun i hi => by
      rw [slots_mul_width _ hw, hv.base i hi]
      exact hr.window i hi
  have hist : t'.hist = s.hist ++ ((List.range NS).map (acquireEvent s) ++ l ++ (List.range NS).map (releaseEvent s)) := by
    rw [hv.histAfter, hl, hv.histBefore]
    simp only [List.append_assoc]
  have acquires : ((List.range NS).map (acquireEvent s)).map accessOf = List.replicate NS none := by
    simp [acquireEvent, accessOf, Function.comp_def]
  have releases : ((List.range NS).map (releaseEvent s)).map accessOf = List.replicate NS none := by
    simp [releaseEvent, accessOf, Function.comp_def]
  rw [newEvents_eq hist, List.map_append, List.map_append, acquires, releases, ml]
  simp only [hv.mixAccesses_eq hC]

/-- Settles O33: the memories between the kernel's slots, and the slots themselves where no window meets the destination. -/
theorem mixKernelBytes : Obligations.MixKernelBytes := by
  intro F K C NS m h s o g hr hk hw
  obtain ⟨v, t, ht, hv⟩ := exec_mix_kernelRun hr hk hw
  obtain ⟨hC, hC'⟩ := hr.starts.valid.channels
  have sound := laneOf_sound Config.ports K
  have streams := hr.starts.valid.streams
  have windows : ∀ i < NS,
      (v.sPtrAt i).toNat + effectiveLength NS s / width K * (laneOf Config.ports K).width ≤ 4294967296 := fun i hi => by
    rw [slots_mul_width _ hw, hv.base i hi]
    exact hr.window i hi
  refine ⟨t, ht, ?_, fun hd j hj => ?_⟩
  · obtain ⟨ms, first, last, slots⟩ := mixSlots_memories _ sound C NS hC' streams (effectiveLength NS s / width K)
      s.dst.toNat v (hv.firstChannel hC) windows
    refine ⟨ms, first.trans hv.memBefore, last.trans hv.memAfter.symm, fun j hj => ?_⟩
    obtain ⟨k, slot⟩ := slots j hj
    rw [laneOf_width, hv.slotSum_eq hC] at slot
    exact ⟨k, slot⟩
  · have disjoint : ∀ i < NS,
        (v.sPtrAt i).toNat + effectiveLength NS s / width K * (laneOf Config.ports K).width ≤ s.dst.toNat ∨
        s.dst.toNat + effectiveLength NS s / width K * (laneOf Config.ports K).width ≤ (v.sPtrAt i).toNat := fun i hi => by
      rw [slots_mul_width _ hw, hv.base i hi]
      exact hd i hi
    have slot := mixSlots_bytes _ sound C NS hC' streams _ s.dst.toNat v (hv.firstChannel hC) windows disjoint j hj
    rwa [hv.slotSum_eq hC, hv.memBefore, ← hv.memAfter] at slot

end Sys2Proof.Machine
end

section
/-! PROOFS of the statements about faults, the history, bad answers of the buffer manager and host writes of sample memory
(20_memory.md R60 to R77; 60_exceptions.md R272, R273, R275). That memory is what replaying the recorded writes gives is said once for each operation (`Accounted`), and read
off the ways a command ends. -/

namespace Sys2Proof.Machine

/-! ## A command that faults -/

theorem takeFault_fcode_ne_zero (c : FaultCode) (stream channel : Nat) (s : State) :
    (takeFault c stream channel s).fcode ≠ 0 := by
  have code : BitVec.ofNat 8 (faultNumber c) ≠ 0 := by cases c <;> decide
  exact code

/-- Settles O21, by the ways a command ends: all but the two that fault end in DONE. -/
theorem faultsArePrecise : Obligations.FaultsArePrecise := by
  intro i s t _ ht hf
  cases exec_ends ht with
  | fault o c stream channel =>
    exact ⟨by constructor <;> rfl, rfl, rfl, rfl, rfl, takeFault_fcode_ne_zero _ _ _ _, rfl, rfl, rfl, rfl, rfl, rfl, [],
      (List.append_nil _).symm⟩
  | mixFault F C NS m h c stream channel before =>
    exact ⟨before.inputs.trans (takeFault_inputs ..), before.ret, before.ktab, before.mem, rfl,
      takeFault_fcode_ne_zero _ _ _ _, before.dCur, before.dEnd, before.chIdx, before.acc32, before.acc64, before.accF,
      before.hist⟩
  | mixSilence | mixKernel | volNoop | volMuted | volKernel | getk | setk => exact SeqState.noConfusion hf

/-! ## Replaying the history -/

theorem replayWrites_append (l l' : List Event) : ∀ m : Memory,
    replayWrites (l ++ l') m = replayWrites l' (replayWrites l m) := by
  induction l with
  | nil => intro m; rfl
  | cons e l ih =>
    intro m
    cases e <;> exact ih _

/-- Events of which none is a write replay to nothing. -/
theorem replayWrites_of_no_write (l : List Event) (m : Memory) (h : ∀ e ∈ l, ∀ a b, e ≠ .write a b) :
    replayWrites l m = m := by
  induction l with
  | nil => rfl
  | cons e l ih =>
    have ih := ih fun e he => h e (List.mem_cons_of_mem _ he)
    cases e with
    | write a b => exact absurd rfl (h _ (List.mem_cons_self ..) a b)
    | acquire | release | read => exact ih

/-- From `s` to `t` the history has only grown, and replaying the new events gives the memory (20_memory.md R62, R70). -/
def Accounted (s t : State) : Prop := ∃ l, t.hist = s.hist ++ l ∧ t.mem = replayWrites l s.mem

theorem Accounted.trans {s t u : State} (h : Accounted s t) (k : Accounted t u) : Accounted s u := by
  obtain ⟨l, hl, ml⟩ := h
  obtain ⟨l', hl', ml'⟩ := k
  exact ⟨l ++ l', by rw [hl', hl, List.append_assoc], by rw [ml', ml, replayWrites_append]⟩

/-- What touches neither the history nor memory is accounted for. -/
theorem accounted_of_same {s t : State} (hh : t.hist = s.hist) (hm : t.mem = s.mem) : Accounted s t :=
  ⟨[], by rw [hh, List.append_nil], hm⟩

/-- Events of which none is a write are accounted for by an unchanged memory. -/
theorem accounted_of_no_write {s t : State} {l : List Event} (hh : t.hist = s.hist ++ l) (hm : t.mem = s.mem)
    (hl : ∀ e ∈ l, ∀ a b, e ≠ .write a b) : Accounted s t :=
  ⟨l, hh, by rw [hm, replayWrites_of_no_write l _ hl]⟩

/-! ## The operations of a command, accounted for -/

theorem accounted_writeBytes (s : State) (a : Nat) (b : List Byte) : Accounted s (s.writeBytes a b) :=
  ⟨[.write a b], rfl, rfl⟩

theorem accounted_readEvent (s : State) (a n : Nat) : Accounted s (s.readEvent a n) :=
  ⟨[.read a (s.readBytes a n)], rfl, rfl⟩

theorem accounted_fillBytes (v : Byte) : ∀ (n a : Nat) (s : State), Accounted s (fillBytes v n a s) := by
  intro n
  induction n with
  | zero => intro a s; exact accounted_of_same rfl rfl
  | succ n ih => intro a s; exact (accounted_writeBytes s a [v]).trans (ih (a + 1) _)

theorem accounted_passStream (L : Lane) (i : Nat) (s : State) : Accounted s (passStream L i s) := by
  unfold passStream
  split
  · exact (accounted_readEvent s _ _).trans (accounted_of_same rfl rfl)
  · exact accounted_of_same rfl rfl

theorem accounted_mixStreams (L : Lane) : ∀ (n i : Nat) (acc : L.Acc) (s : State),
    Accounted s (mixStreams L n i acc s).2 := by
  intro n
  induction n with
  | zero => intro i acc s; exact accounted_of_same rfl rfl
  | succ n ih => intro i acc s; exact (accounted_passStream L i s).trans (ih (i + 1) _ _)

/-- The end of a slot: its one write is recorded as it is stored. -/
theorem accounted_slotEnd (L : Lane) (C n a : Nat) (acc : L.Acc) (u : State) :
    Accounted u (nextChannel C (moveDest n (writeSample L a acc u))) :=
  ⟨[.write a (L.out (Config.quietNaN u.free) acc)], slotEnd_hist .., slotEnd_mem ..⟩

theorem accounted_mixSlots (L : Lane) (hL : L.Sound) (C NS : Nat) : ∀ (n a : Nat) (s : State),
    Accounted s (mixSlots L C NS n a s) := by
  intro n
  induction n with
  | zero => intro a s; exact accounted_of_same rfl rfl
  | succ n ih =>
    intro a s
    have slot : Accounted s (mixSlot L C NS a s) := by
      rw [mixSlot_eq]
      exact ((accounted_mixStreams L NS 0 L.zero s).trans (accounted_of_same (hL.park_hist _ _) (hL.park_mem _ _))).trans
        (accounted_slotEnd ..)
    exact slot.trans (ih _ _)

theorem accounted_volSlots (L : Lane) (C : Nat) : ∀ (n a : Nat) (s : State), Accounted s (volSlots L C n a s) := by
  intro n
  induction n with
  | zero => intro a s; exact accounted_of_same rfl rfl
  | succ n ih =>
    intro a s
    have slot : Accounted s (volSlot L C a s) := by
      rw [volSlot_eq]
      exact (accounted_readEvent s _ _).trans (accounted_slotEnd ..)
    exact slot.trans (ih _ _)

theorem accounted_runMixKernel (P : Config.Ports) (K : Fmt) (C NS dst len : Nat) (s : State) :
    Accounted s (runMixKernel (laneOf P K) C NS dst len s) := by
  have start : Accounted s (startKernel dst len s) := accounted_of_same rfl rfl
  exact start.trans (accounted_mixSlots _ (laneOf_sound P K) C NS _ dst _)

theorem accounted_runVolKernel (P : Config.Ports) (F : Fmt) (C buf len : Nat) (s : State) :
    Accounted s (runVolKernel (laneOf P F) C buf len s) := by
  have start : Accounted s (startKernel buf len s) := accounted_of_same rfl rfl
  exact start.trans (accounted_volSlots _ C _ buf _)

/-- The lines of a MIX before its kernel add acquires and leave memory alone. -/
theorem PrepareFrame.accounted {s u : State} (h : PrepareFrame s u) : Accounted s u := by
  obtain ⟨l, hl⟩ := h.hist
  refine accounted_of_no_write hl h.mem fun e he a b => ?_
  obtain ⟨x, -, rfl⟩ := List.mem_map.1 he
  exact Event.noConfusion

/-- The end of a MIX adds releases and leaves memory alone. -/
theorem accounted_mixEnd (NS : Nat) (v : Word) (s : State) : Accounted s ((releaseAll NS 0 s).setRet v).complete := by
  rw [releaseAll_complete]
  refine accounted_of_no_write rfl rfl fun e he a b => ?_
  obtain ⟨j, -, rfl⟩ := List.mem_map.1 he
  exact Event.noConfusion

theorem CommandEnds.accounted {i : Instr} {s t : State} (h : CommandEnds i s t) : Accounted s t := by
  cases h with
  | fault | volNoop | getk | setk => exact accounted_of_same rfl rfl
  | mixFault _ _ _ _ _ _ _ _ before => exact before.accounted.trans (accounted_of_same rfl rfl)
  | mixSilence F | volMuted F =>
    exact (accounted_fillBytes (silence F) s.len.toNat s.dst.toNat s).trans (accounted_of_same rfl rfl)
  | mixKernel F K C NS _ _ u before =>
    exact (before.accounted.trans (accounted_runMixKernel ..)).trans (accounted_mixEnd ..)
  | volKernel F C _ o =>
    have scratch : Accounted s { s with olin := o } := accounted_of_same rfl rfl
    exact (scratch.trans (accounted_runVolKernel ..)).trans (accounted_of_same rfl rfl)

/-- Settles O44: every way a command ends is accounted for. -/
theorem historyAccountsForMemory : Obligations.HistoryAccountsForMemory := by
  intro i s t ht
  obtain ⟨l, hl, ml⟩ := (exec_ends ht).accounted
  rw [newEvents_eq hl]
  exact ⟨hl, ml⟩

/-! ## A bad answer of the buffer manager -/

/-- What the port can change, the lines of a MIX before its kernel can. -/
theorem PortFrame.sameBeforeKernel {s u : State} (h : PortFrame s u) : SameBeforeKernel s u := by
  rw [PortFrame] at h
  rw [h]
  constructor <;> constructor <;> rfl

/-- Acquires that stop end the MIX where they stop. -/
theorem exec_mix_acquires_halt {F : Fmt} {C NS : Nat} {m h : Bool} {s t : State} (hs : MixStarts F C NS m h s)
    (ht : acquireAll NS 0 s = .halt t) : exec (mixOf F C NS m h) s = .next t := by
  rw [exec_mixOf, mixCommand_starts _ hs, mixPrepare, ht]
  rfl

/-- Settles O25: the acquires stop at the first bad answer (`acquireAll_bad`), and the MIX with them. -/
theorem mixBadAnswer : Obligations.MixBadAnswer := by
  intro F C NS m h s i hs hi hg
  obtain ⟨u, frame, hist, cursors, answers, null, wraps⟩ := acquireAll_bad NS i s hi hs.valid.streams hg
  have effLen : u.effLen = s.effLen := by rw [frame]
  have olin : u.olin = s.olin := by rw [frame]
  have sgain : u.sgain = s.sgain := by rw [frame]
  exact ⟨u, frame.sameBeforeKernel, effLen, olin, sgain, answers, hist, cursors,
    fun h0 => exec_mix_acquires_halt hs (null h0), fun h0 h1 => exec_mix_acquires_halt hs (wraps h0 h1)⟩

/-! ## A host write of sample memory -/

/-- The moves still to come are no part of the footprint. -/
theorem inBusyFootprint_setHost (a : Nat) (s : State) (rest : List HostAction) :
    inBusyFootprint a (s.setHost rest) = inBusyFootprint a s := rfl

/-- The three ways a host write of sample memory ends (20_memory.md R60, R73). -/
theorem step_poke {s : State} {a : Nat} {v : Byte} {rest : List HostAction} (hh : s.host = .poke a v :: rest) :
    step s = if 2 ^ 32 ≤ a then .fault (.noSuchAddress a)
      else if inBusyFootprint a s then .refused (.bufferRace a)
      else .next { s with host := rest, mem := s.mem.put a v } := by
  rw [step_cons hh]
  simp only [hostMove, hostPoke, inBusyFootprint_setHost, memSize_eq]
  rfl

/-- Settles O15 (`hostPoke` is the model's own function): the model's footprint is `InFootprint` (`inBusyFootprint_iff`), and
a byte put is read back (`get_put`). -/
theorem hostPoke_spec : Obligations.HostPoke := by
  intro s a v rest hh
  rw [step_poke hh]
  refine ⟨fun ha => if_pos ha, fun ha hb hf => ?_, fun ha hf => ?_⟩
  · rw [if_neg (Nat.not_le.2 ha), if_pos ((inBusyFootprint_iff a s).2 ⟨hb, hf⟩)]
  · have outside : ¬ inBusyFootprint a s = true := by
      rw [inBusyFootprint_iff]
      exact fun ⟨hb, hin⟩ => hf.elim (· hb) (· hin)
    rw [if_neg (Nat.not_le.2 ha), if_neg outside]
    exact ⟨_, rfl, fun y => Memory.get_put s.mem a y v⟩

end Sys2Proof.Machine
end

section
/-! PROOFS of the statements about the command word (30_encoding.md R90 to R103). A word is the sum of its fields, so a clean word
is the encoding of the command `assemble` reads from it, and an equation under a mask is an equation per field. -/

namespace Sys2Proof.Machine

open Laws.OpcodeRow (fits_of_wf fits_of_wf_one)

/-! ## Fields of a word -/

/-- A word is determined by its fields (30_encoding.md R90); the operation decides how bits 21 to 14 are read. -/
theorem word_eq_iff_fields (w v : Word) : w = v ↔ field w 3 0 = field v 3 0 ∧ field w 7 4 = field v 7 4 ∧
    field w 13 8 = field v 13 8 ∧ field w 21 14 = field v 21 14 ∧ field w 22 22 = field v 22 22 ∧
      field w 31 23 = field v 31 23 := by
  rw [← BitVec.toNat_inj]
  simp only [field]
  omega

theorem field_lt (w : Word) (hi lo : Nat) : field w hi lo < 2 ^ (hi + 1 - lo) := Nat.mod_lt _ (by positivity)

theorem field_and (a b : Word) (hi lo : Nat) : field (a &&& b) hi lo = field a hi lo &&& field b hi lo := by
  simp only [field, BitVec.toNat_and, Nat.and_div_two_pow, Nat.and_mod_two_pow]

theorem field_or (a b : Word) (hi lo : Nat) : field (a ||| b) hi lo = field a hi lo ||| field b hi lo := by
  simp only [field, BitVec.toNat_or, Nat.or_div_two_pow, Nat.or_mod_two_pow]

/-- A mask that covers a field keeps it. -/
theorem field_and_of_ones {w m : Word} {hi lo : Nat} (h : field m hi lo = 2 ^ (hi + 1 - lo) - 1) :
    field (w &&& m) hi lo = field w hi lo := by
  rw [field_and, h, Nat.and_two_pow_sub_one_eq_mod, Nat.mod_eq_of_lt (field_lt ..)]

/-- A mask that leaves a field out clears it. -/
theorem field_and_of_zero {w m : Word} {hi lo : Nat} (h : field m hi lo = 0) : field (w &&& m) hi lo = 0 := by
  rw [field_and, h, Nat.and_zero]

theorem toNat_extractLsb (w : Word) {hi lo : Nat} (h : lo ≤ hi) : (w.extractLsb hi lo).toNat = field w hi lo := by
  rw [BitVec.extractLsb_toNat, Nat.shiftRight_eq_div_pow, field, Nat.sub_add_comm h]

theorem field_bit (w : Word) (k : Nat) : (field w k k == 1) = w.getLsbD k := by
  rw [BitVec.getLsbD, Nat.testBit_eq_decide_div_mod_eq, field, Nat.add_sub_cancel_left, Nat.pow_one]
  rfl

theorem flagBit_beq (b : Bool) : (flagBit b == 1) = b := by cases b <;> rfl

theorem flagBit_field (w : Word) (k : Nat) : flagBit (field w k k == 1) = field w k k := by
  have h := field_lt w k k
  rw [Nat.add_sub_cancel_left] at h
  rcases (show field w k k = 0 ∨ field w k k = 1 by omega) with e | e <;> rw [e] <;> rfl

theorem Fmt.ofTag_eq_none {n : Nat} (h : 13 ≤ n) : Fmt.ofTag n = none := by
  cases e : Fmt.ofTag n with
  | none => rfl
  | some F =>
    have := Fmt.tag_of_ofTag e
    have := Fmt.tag_lt F
    omega

/-! ## The four families, encoded -/

@[simp] theorem encode_mixOf (F : Fmt) (ch ns : Nat) (m h : Bool) : encode (mixOf F ch ns m h) = encodeMix F ch ns m h := by
  cases F <;> rfl

@[simp] theorem encode_volOf (F : Fmt) (ch : Nat) (z : Bool) : encode (volOf F ch z) = encodeVol F ch z := by cases F <;> rfl

@[simp] theorem encode_getkOf (F : Fmt) : encode (getkOf F) = encodeTable 3 F := by cases F <;> rfl

@[simp] theorem encode_setkOf (F : Fmt) : encode (setkOf F) = encodeTable 4 F := by cases F <;> rfl

@[simp] theorem wf_mixOf (F : Fmt) (ch ns : Nat) (m h : Bool) : (mixOf F ch ns m h).wf = (fitsCount ch && fitsCount ns) := by
  cases F <;> rfl

@[simp] theorem wf_volOf (F : Fmt) (ch : Nat) (z : Bool) : (volOf F ch z).wf = fitsCount ch := by cases F <;> rfl

@[simp] theorem wf_getkOf (F : Fmt) : (getkOf F).wf = true := by cases F <;> rfl

@[simp] theorem wf_setkOf (F : Fmt) : (setkOf F).wf = true := by cases F <;> rfl

/-- The operand fields of a MIX word hold its operands (30_encoding.md R101). -/
theorem encodeMix_operands (F : Fmt) {ch ns : Nat} (m h : Bool) (hc : ch < 64) (hn : ns < 64) :
    field (encodeMix F ch ns m h) 13 8 = ch ∧ field (encodeMix F ch ns m h) 19 14 = ns ∧
      (field (encodeMix F ch ns m h) 20 20 == 1) = m ∧ (field (encodeMix F ch ns m h) 21 21 == 1) = h := by
  have ht := Fmt.tag_lt F
  have hm := flagBit_lt m
  have hh := flagBit_lt h
  have e (hi lo : Nat) : field (encodeMix F ch ns m h) hi lo = _ := field_ofNat _ hi lo (by omega)
  have mute : field (encodeMix F ch ns m h) 20 20 = flagBit m := by rw [e]; omega
  have hasvol : field (encodeMix F ch ns m h) 21 21 = flagBit h := by rw [e]; omega
  refine ⟨by rw [e]; omega, by rw [e]; omega, ?_, ?_⟩
  · rw [mute, flagBit_beq]
  · rw [hasvol, flagBit_beq]

/-- The operand fields of a VOL word hold its operands (30_encoding.md R101). -/
theorem encodeVol_operands (F : Fmt) {ch : Nat} (z : Bool) (hc : ch < 64) :
    field (encodeVol F ch z) 13 8 = ch ∧ (field (encodeVol F ch z) 22 22 == 1) = z := by
  have ht := Fmt.tag_lt F
  have hz := flagBit_lt z
  have e (hi lo : Nat) : field (encodeVol F ch z) hi lo = _ := field_ofNat _ hi lo (by omega)
  have silent : field (encodeVol F ch z) 22 22 = flagBit z := by rw [e]; omega
  refine ⟨by rw [e]; omega, ?_⟩
  rw [silent, flagBit_beq]

/-! ## Clean words -/

theorem cleanWord_mix {w : Word} (h : field w 3 0 = 1) : cleanWord w = true ↔ field w 31 22 = 0 := by
  simp only [cleanWord, h, beq_iff_eq]

theorem cleanWord_vol {w : Word} (h : field w 3 0 = 2) : cleanWord w = true ↔ field w 21 14 = 0 ∧ field w 31 23 = 0 := by
  simp only [cleanWord, h, Bool.and_eq_true, beq_iff_eq]

theorem cleanWord_table {w : Word} (h : field w 3 0 = 3 ∨ field w 3 0 = 4) : cleanWord w = true ↔ field w 31 8 = 0 := by
  rcases h with h | h <;> simp only [cleanWord, h, beq_iff_eq]

/-- The operation of a clean word is one of the four (30_encoding.md R91). -/
theorem op_of_cleanWord {w : Word} (h : cleanWord w = true) :
    field w 3 0 = 1 ∨ field w 3 0 = 2 ∨ field w 3 0 = 3 ∨ field w 3 0 = 4 := by
  unfold cleanWord at h
  split at h
  case h_1 e => exact .inl e
  case h_2 e => exact .inr (.inl e)
  case h_3 e => exact .inr (.inr (.inl e))
  case h_4 e => exact .inr (.inr (.inr e))
  case h_5 => cases h

theorem assemble_mix {w : Word} (F : Fmt) (h : field w 3 0 = 1) :
    assemble w F = mixOf F (field w 13 8) (field w 19 14) (field w 20 20 == 1) (field w 21 21 == 1) := by
  simp only [assemble, h]

theorem assemble_vol {w : Word} (F : Fmt) (h : field w 3 0 = 2) :
    assemble w F = volOf F (field w 13 8) (field w 22 22 == 1) := by
  simp only [assemble, h]

theorem assemble_getk {w : Word} (F : Fmt) (h : field w 3 0 = 3) : assemble w F = getkOf F := by simp only [assemble, h]

theorem assemble_setk {w : Word} (F : Fmt) (h : field w 3 0 = 4) : assemble w F = setkOf F := by simp only [assemble, h]

/-! ## The decoder -/

theorem decode_clean {w : Word} {F : Fmt} (hc : cleanWord w = true) (hF : field w 7 4 = F.tag) :
    decode w = .instr (assemble w F) := by
  rw [decode, if_pos hc, hF, Fmt.ofTag_tag]

theorem decode_unclean {w : Word} (hc : ¬ cleanWord w = true) : decode w = .rejected .illegalCommand := if_neg hc

theorem decode_badFormat {w : Word} (hc : cleanWord w = true) (hF : 13 ≤ field w 7 4) : decode w = .rejected .badFormat := by
  rw [decode, if_pos hc, Fmt.ofTag_eq_none hF]

/-- A word that decodes is clean, of some format, and its command is what `assemble` reads. -/
theorem decode_eq_instr {w : Word} {i : Instr} (h : decode w = .instr i) :
    ∃ F : Fmt, cleanWord w = true ∧ field w 7 4 = F.tag ∧ assemble w F = i := by
  have hc := cleanWord_of_decode h
  rw [decode, if_pos hc] at h
  split at h
  · next F hF => exact ⟨F, hc, (Fmt.tag_of_ofTag hF).symm, Decoded.instr.inj h⟩
  · cases h

/-! ## The round trips -/

/-- The fields of a MIX word are all of it. -/
theorem encodeMix_of_fields {w : Word} {F : Fmt} (hop : field w 3 0 = 1) (hF : field w 7 4 = F.tag) (hz : field w 31 22 = 0) :
    encodeMix F (field w 13 8) (field w 19 14) (field w 20 20 == 1) (field w 21 21 == 1) = w := by
  apply BitVec.eq_of_toNat_eq
  rw [encodeMix, flagBit_field, flagBit_field, ← hF, BitVec.toNat_ofNat]
  simp only [field] at *
  omega

/-- The fields of a VOL word are all of it. -/
theorem encodeVol_of_fields {w : Word} {F : Fmt} (hop : field w 3 0 = 2) (hF : field w 7 4 = F.tag)
    (hz : field w 21 14 = 0 ∧ field w 31 23 = 0) : encodeVol F (field w 13 8) (field w 22 22 == 1) = w := by
  apply BitVec.eq_of_toNat_eq
  rw [encodeVol, flagBit_field, ← hF, BitVec.toNat_ofNat]
  simp only [field] at *
  omega

/-- The fields of a GETK or SETK word are all of it. -/
theorem encodeTable_of_fields {w : Word} {F : Fmt} {op : Nat} (hop : field w 3 0 = op) (hF : field w 7 4 = F.tag)
    (hz : field w 31 8 = 0) : encodeTable op F = w := by
  apply BitVec.eq_of_toNat_eq
  rw [encodeTable, ← hF, ← hop, BitVec.toNat_ofNat]
  simp only [field] at *
  omega

theorem fitsCount_field (w : Word) (lo : Nat) : fitsCount (field w (lo + 5) lo) = true := by
  have h := field_lt w (lo + 5) lo
  rw [show lo + 5 + 1 - lo = 6 by omega] at h
  exact decide_eq_true h

/-- What `assemble` reads from a clean word is well formed, and the word is its encoding. -/
theorem encode_assemble {w : Word} {F : Fmt} (hc : cleanWord w = true) (hF : field w 7 4 = F.tag) :
    (assemble w F).wf = true ∧ encode (assemble w F) = w := by
  rcases op_of_cleanWord hc with h | h | h | h
  · rw [assemble_mix F h, wf_mixOf, encode_mixOf, fitsCount_field w 8, fitsCount_field w 14]
    exact ⟨rfl, encodeMix_of_fields h hF ((cleanWord_mix h).1 hc)⟩
  · rw [assemble_vol F h, wf_volOf, encode_volOf, fitsCount_field w 8]
    exact ⟨rfl, encodeVol_of_fields h hF ((cleanWord_vol h).1 hc)⟩
  · rw [assemble_getk F h, encode_getkOf]
    exact ⟨wf_getkOf F, encodeTable_of_fields h hF ((cleanWord_table (.inl h)).1 hc)⟩
  · rw [assemble_setk F h, encode_setkOf]
    exact ⟨wf_setkOf F, encodeTable_of_fields h hF ((cleanWord_table (.inr h)).1 hc)⟩

/-- Settles O2: the command of a word is what `assemble` reads from it, and the fields are all of the word. -/
theorem encodeDecode : Obligations.EncodeDecode := by
  intro w i h
  obtain ⟨F, hc, hF, rfl⟩ := decode_eq_instr h
  exact encode_assemble hc hF

theorem decode_encodeMix (F : Fmt) {ch ns : Nat} (m h : Bool) (hc : ch < 64) (hn : ns < 64) :
    decode (encodeMix F ch ns m h) = .instr (mixOf F ch ns m h) := by
  obtain ⟨hop, hF, hz⟩ := encodeMix_row F ch ns m h hc hn
  obtain ⟨channels, streams, mute, hasvol⟩ := encodeMix_operands F m h hc hn
  rw [decode_clean hz hF, assemble_mix F hop, channels, streams, mute, hasvol]

theorem decode_encodeVol (F : Fmt) {ch : Nat} (z : Bool) (hc : ch < 64) :
    decode (encodeVol F ch z) = .instr (volOf F ch z) := by
  obtain ⟨hop, hF, hz⟩ := encodeVol_row F ch z hc
  obtain ⟨channels, silent⟩ := encodeVol_operands F z hc
  rw [decode_clean hz hF, assemble_vol F hop, channels, silent]

theorem decode_encodeGetk (F : Fmt) : decode (encodeTable 3 F) = .instr (getkOf F) := by
  obtain ⟨hop, hF, hz⟩ := encodeTable_row 3 F (.inl rfl)
  rw [decode_clean hz hF, assemble_getk F hop]

theorem decode_encodeSetk (F : Fmt) : decode (encodeTable 4 F) = .instr (setkOf F) := by
  obtain ⟨hop, hF, hz⟩ := encodeTable_row 4 F (.inr rfl)
  rw [decode_clean hz hF, assemble_setk F hop]

/-- Settles O1, by the four families of commands. -/
theorem decodeEncode : Obligations.DecodeEncode := by
  intro i hi
  rcases instr_cases i with ⟨F, ch, ns, m, h, rfl⟩ | ⟨F, ch, z, rfl⟩ | ⟨F, rfl⟩ | ⟨F, rfl⟩
  · rw [wf_mixOf] at hi
    obtain ⟨hc, hn⟩ := fits_of_wf hi
    rw [encode_mixOf, decode_encodeMix F m h hc hn]
  · rw [wf_volOf] at hi
    rw [encode_volOf, decode_encodeVol F z (fits_of_wf_one hi)]
  · rw [encode_getkOf, decode_encodeGetk]
  · rw [encode_setkOf, decode_encodeSetk]

/-- Settles O5: each example word is its command's own (`decodeEncode`). -/
theorem exampleWords : Obligations.ExampleWords :=
  ⟨decodeEncode (.mixS16LE 2 2 false false) rfl, decodeEncode (.mixS16LE 2 3 false true) rfl,
    decodeEncode (.volU8 1 false) rfl, decodeEncode (.mixU8 1 0 false false) rfl, decodeEncode .getkS16BE rfl⟩

/-! ## A decoded command and its word, family by family -/

theorem decode_mixOf_iff {w : Word} {F : Fmt} {ch ns : Nat} {m h : Bool} :
    decode w = .instr (mixOf F ch ns m h) ↔ (ch < 64 ∧ ns < 64) ∧ w = encodeMix F ch ns m h := by
  constructor
  · intro hd
    obtain ⟨hwf, he⟩ := encodeDecode w _ hd
    rw [wf_mixOf] at hwf
    rw [encode_mixOf] at he
    exact ⟨fits_of_wf hwf, he.symm⟩
  · rintro ⟨⟨hc, hn⟩, rfl⟩
    exact decode_encodeMix F m h hc hn

theorem decode_volOf_iff {w : Word} {F : Fmt} {ch : Nat} {z : Bool} :
    decode w = .instr (volOf F ch z) ↔ ch < 64 ∧ w = encodeVol F ch z := by
  constructor
  · intro hd
    obtain ⟨hwf, he⟩ := encodeDecode w _ hd
    rw [wf_volOf] at hwf
    rw [encode_volOf] at he
    exact ⟨fits_of_wf_one hwf, he.symm⟩
  · rintro ⟨hc, rfl⟩
    exact decode_encodeVol F z hc

theorem decode_getkOf_iff {w : Word} {F : Fmt} : decode w = .instr (getkOf F) ↔ w = encodeTable 3 F :=
  ⟨fun hd => by rw [← (encodeDecode w _ hd).2, encode_getkOf], fun hw => by rw [hw, decode_encodeGetk]⟩

theorem decode_setkOf_iff {w : Word} {F : Fmt} : decode w = .instr (setkOf F) ↔ w = encodeTable 4 F :=
  ⟨fun hd => by rw [← (encodeDecode w _ hd).2, encode_setkOf], fun hw => by rw [hw, decode_encodeSetk]⟩

/-- Settles O4: a decoded command's word is its encoding, whose fields are the operands. -/
theorem operandFields : Obligations.OperandFields := by
  refine ⟨fun w F ch ns m h hd => ?_, fun w F ch z hd => ?_, fun w F hd => ?_⟩
  · obtain ⟨⟨hc, hn⟩, rfl⟩ := decode_mixOf_iff.1 hd
    obtain ⟨channels, streams, mute, hasvol⟩ := encodeMix_operands F m h hc hn
    obtain ⟨-, fmt, -⟩ := encodeMix_row F ch ns m h hc hn
    rw [toNat_extractLsb _ (by decide), toNat_extractLsb _ (by decide), toNat_extractLsb _ (by decide),
      ← field_bit, ← field_bit]
    exact ⟨channels.symm, streams.symm, mute.symm, hasvol.symm, fmt.symm⟩
  · obtain ⟨hc, rfl⟩ := decode_volOf_iff.1 hd
    obtain ⟨channels, silent⟩ := encodeVol_operands F z hc
    obtain ⟨-, fmt, -⟩ := encodeVol_row F ch z hc
    rw [toNat_extractLsb _ (by decide), toNat_extractLsb _ (by decide), ← field_bit]
    exact ⟨channels.symm, silent.symm, fmt.symm⟩
  · rw [toNat_extractLsb _ (by decide)]
    rcases hd with hd | hd
    · obtain ⟨-, fmt, -⟩ := encodeTable_row 3 F (.inl rfl)
      rw [decode_getkOf_iff.1 hd, fmt]
    · obtain ⟨-, fmt, -⟩ := encodeTable_row 4 F (.inr rfl)
      rw [decode_setkOf_iff.1 hd, fmt]

/-! ## Masks -/

theorem field_high_eq_zero_iff (w : Word) : field w 31 22 = 0 ↔ field w 22 22 = 0 ∧ field w 31 23 = 0 := by
  simp only [field]
  omega

theorem field_rest_eq_zero_iff (w : Word) : field w 31 8 = 0 ↔
    field w 13 8 = 0 ∧ field w 21 14 = 0 ∧ field w 22 22 = 0 ∧ field w 31 23 = 0 := by
  simp only [field]
  omega

/-- The mask of a MIX without `FMT` passes the clean words of `OP` 1 (30_encoding.md R91, R102). -/
theorem mixMask_iff (w : Word) : w &&& 0xFFC0000F = 1 ↔ field w 3 0 = 1 ∧ cleanWord w = true := by
  rw [word_eq_iff_fields, and_congr_right cleanWord_mix, field_high_eq_zero_iff]
  simp (disch := decide) [field_and_of_ones, field_and_of_zero, field_ofNat]

/-- The mask of a VOL without `FMT` passes the clean words of `OP` 2. -/
theorem volMask_iff (w : Word) : w &&& 0xFFBFC00F = 2 ↔ field w 3 0 = 2 ∧ cleanWord w = true := by
  rw [word_eq_iff_fields, and_congr_right cleanWord_vol]
  simp (disch := decide) [field_and_of_ones, field_and_of_zero, field_ofNat]

/-- The mask of a GETK or SETK without `FMT` passes the clean words of its `OP`. -/
theorem tableMask_iff (w : Word) {op : Nat} (ho : op = 3 ∨ op = 4) :
    w &&& 0xFFFFFF0F = BitVec.ofNat 32 op ↔ field w 3 0 = op ∧ cleanWord w = true := by
  have table (h : field w 3 0 = op) : cleanWord w = true ↔ field w 31 8 = 0 := cleanWord_table (h ▸ ho)
  rw [word_eq_iff_fields, and_congr_right table, field_rest_eq_zero_iff]
  rcases ho with rfl | rfl <;> simp (disch := decide) [field_and_of_ones, field_and_of_zero, field_ofNat]

/-- The words the four masks pass are the clean ones (30_encoding.md R103). -/
theorem masks_iff_cleanWord (w : Word) :
    (w &&& 0xFFC0000F = 1 ∨ w &&& 0xFFBFC00F = 2 ∨ w &&& 0xFFFFFF0F = 3 ∨ w &&& 0xFFFFFF0F = 4) ↔ cleanWord w = true := by
  rw [mixMask_iff, volMask_iff, show (3 : Word) = BitVec.ofNat 32 3 from rfl, show (4 : Word) = BitVec.ofNat 32 4 from rfl,
    tableMask_iff w (.inl rfl), tableMask_iff w (.inr rfl), ← or_and_right, ← or_and_right, ← or_and_right]
  exact and_iff_right_of_imp op_of_cleanWord

/-- Only the field 7..4 of `FMT << 4` is not zero. -/
theorem field_formatBits (F : Fmt) : field (BitVec.ofNat 32 (F.tag * 16)) 7 4 = F.tag ∧
    field (BitVec.ofNat 32 (F.tag * 16)) 3 0 = 0 ∧ field (BitVec.ofNat 32 (F.tag * 16)) 13 8 = 0 ∧
    field (BitVec.ofNat 32 (F.tag * 16)) 21 14 = 0 ∧ field (BitVec.ofNat 32 (F.tag * 16)) 22 22 = 0 ∧
    field (BitVec.ofNat 32 (F.tag * 16)) 31 23 = 0 := by
  cases F <;> decide

/-- A mask and match without `FMT`, extended by the field of `FMT`: the field holds the format. -/
theorem and_withFormat_iff (w m v : Word) (F : Fmt) (hm : field m 7 4 = 0) (hv : field v 7 4 = 0) :
    w &&& (m ||| 0xF0) = v ||| BitVec.ofNat 32 (F.tag * 16) ↔ (w &&& m = v) ∧ field w 7 4 = F.tag := by
  obtain ⟨fmt, op, ch, ns, silent, rsv⟩ := field_formatBits F
  have ones : field (w &&& 0xF0) 7 4 = field w 7 4 := field_and_of_ones rfl
  have clear : field (w &&& m) 7 4 = 0 := field_and_of_zero hm
  rw [BitVec.and_or_distrib_left, word_eq_iff_fields, word_eq_iff_fields]
  simp (disch := decide) only [field_or, fmt, op, ch, ns, silent, rsv, ones, clear, field_and_of_zero, hv, Nat.zero_or,
    Nat.or_zero]
  tauto

/-! ## Match and mask of the four families -/

theorem mixWord_iff (w : Word) (F : Fmt) : (field w 3 0 = 1 ∧ cleanWord w = true) ∧ field w 7 4 = F.tag ↔
    ∃ ch ns mute hasvol, decode w = .instr (mixOf F ch ns mute hasvol) := by
  constructor
  · rintro ⟨⟨hop, hc⟩, hF⟩
    exact ⟨_, _, _, _, by rw [decode_clean hc hF, assemble_mix F hop]⟩
  · rintro ⟨ch, ns, m, h, hd⟩
    obtain ⟨⟨hc, hn⟩, rfl⟩ := decode_mixOf_iff.1 hd
    obtain ⟨hop, hF, hz⟩ := encodeMix_row F ch ns m h hc hn
    exact ⟨⟨hop, hz⟩, hF⟩

theorem volWord_iff (w : Word) (F : Fmt) : (field w 3 0 = 2 ∧ cleanWord w = true) ∧ field w 7 4 = F.tag ↔
    ∃ ch silent, decode w = .instr (volOf F ch silent) := by
  constructor
  · rintro ⟨⟨hop, hc⟩, hF⟩
    exact ⟨_, _, by rw [decode_clean hc hF, assemble_vol F hop]⟩
  · rintro ⟨ch, z, hd⟩
    obtain ⟨hc, rfl⟩ := decode_volOf_iff.1 hd
    obtain ⟨hop, hF, hz⟩ := encodeVol_row F ch z hc
    exact ⟨⟨hop, hz⟩, hF⟩

/-- A mask of all bits fixes the whole word, whose `OP` and `FMT` lie side by side. -/
theorem tableWord_iff (w : Word) (F : Fmt) {op : Nat} (ho : op = 3 ∨ op = 4) :
    w &&& 0xFFFFFFFF = BitVec.ofNat 32 op ||| BitVec.ofNat 32 (F.tag * 16) ↔ w = encodeTable op F := by
  have whole : w &&& 0xFFFFFFFF = w := BitVec.and_allOnes
  have sum : BitVec.ofNat 32 op ||| BitVec.ofNat 32 (F.tag * 16) = encodeTable op F := by
    rcases ho with rfl | rfl <;> cases F <;> rfl
  rw [whole, sum]

/-- Settles O3: the match of a MIX or VOL under its mask fixes `OP`, the must-be-zero fields and `FMT`, which is what decoding to
the family requires; that of a GETK or SETK fixes the whole word. -/
theorem matchAndMask : Obligations.MatchAndMask := by
  intro w F
  refine ⟨?_, ?_, ?_, ?_⟩
  · rw [← mixWord_iff, ← mixMask_iff]
    exact and_withFormat_iff w 0xFFC0000F 1 F rfl rfl
  · rw [← volWord_iff, ← volMask_iff]
    exact and_withFormat_iff w 0xFFBFC00F 2 F rfl rfl
  · exact (tableWord_iff w F (.inl rfl)).trans decode_getkOf_iff.symm
  · exact (tableWord_iff w F (.inr rfl)).trans decode_setkOf_iff.symm

/-! ## Words that are no command -/

theorem runCommand_rejected {s : State} {r : Reject} (h : decode s.cmd = .rejected r) :
    runCommand s = .next (takeFault (rejectCode r) noStream 0 s) := by rw [runCommand, h]

/-- On the sequencer's own turn, and when the host waits, a BUSY context runs the command in `CMD`. -/
theorem step_busy {s u : State} (hb : s.seq = .busy)
    (hu : s.host = [] ∧ u = s ∨ ∃ rest, s.host = .wait :: rest ∧ u = s.setHost rest) :
    u.cmd = s.cmd ∧ step s = runCommand u := by
  rcases hu with ⟨hh, rfl⟩ | ⟨rest, hh, rfl⟩
  · exact ⟨rfl, by rw [step_nil hh, sequencerTurn_busy hb]⟩
  · exact ⟨rfl, by rw [step_cons hh, hostMove, sequencerTurn_busy (s := s.setHost rest) hb]⟩

/-- Settles O6: the decoder rejects an unclean word, and a clean one whose `FMT` names no format, before anything runs. -/
theorem illegalWords : Obligations.IllegalWords := by
  intro s u hb hu
  obtain ⟨hcmd, hstep⟩ := step_busy hb hu
  rw [masks_iff_cleanWord, toNat_extractLsb _ (by decide), hstep, ← hcmd]
  exact ⟨fun hc => runCommand_rejected (decode_unclean hc), fun hc hF => runCommand_rejected (decode_badFormat hc hF)⟩

end Sys2Proof.Machine
end

section
/-! PROOFS of the statements about the linearizer and about the faults of a gain out of range (40_linearizer.md R131 to R134;
41_gain_calculator.md R141, R142; 60_exceptions.md R275). A run that meets a level without a gain is cut there: the part before
it goes on as one whose gains are all in range, and its next channel takes F_GAIN_RANGE. -/

namespace Sys2Proof.Machine

/-! ## Levels without a gain -/

/-- A level whose ratio fails the check has no gain, whatever the representation and the output gain. -/
theorem no_gain_of_ratio {P : Config.Ports} {l : Word} (h : ¬ (P.curve l).toNat < 0x7FF0000000000000) (q : GainRepr)
    (out : Word) : linGain P q l = none ∧ streamGain P q l out = none := by
  unfold linGain streamGain ratioOk
  rw [decide_eq_false h]
  exact ⟨rfl, rfl⟩

/-- The encodings the ratio check fails, by their sign bit and exponent field (40_linearizer.md R133). -/
theorem ratio_fails_of_bits {r : DWord} (h : r.getLsbD 63 = true ∨ r.extractLsb 62 52 = 0x7FF) :
    ¬ r.toNat < 0x7FF0000000000000 := by
  rcases h with sign | exponent
  · have bit := Nat.ge_two_pow_of_testBit sign
    omega
  · have field := congrArg BitVec.toNat exponent
    rw [BitVec.extractLsb_toNat, Nat.shiftRight_eq_div_pow,
      show (0x7FF : BitVec (62 - 52 + 1)).toNat = 0x7FF from rfl] at field
    omega

/-- Settles O51: both gains test the ratio first. -/
theorem ratioCheck : Obligations.RatioCheck := fun _ q _ out h => no_gain_of_ratio (ratio_fails_of_bits h) q out

/-! ## The canonical levels -/

theorem curve_unity : Config.ports.curve Config.levelUnity = 0x3FF0000000000000 := rfl

theorem curve_muted : Config.ports.curve Config.levelMuted = 0 := rfl

theorem fixedGain_one : fixedGain 0x3FF0000000000000 = some 0x00010000 := by decide +kernel

theorem floatGain_one : floatGain 0x3FF0000000000000 = some 0x3F800000 := by decide +kernel

theorem gainOf_zero (q : GainRepr) : gainOf q 0 = some 0 := by cases q <;> decide +kernel

/-- An output gain of `+0.0` takes the ratio 1.0 to `+0.0`. -/
theorem f64Mul_one_zero : f64Mul 0x3FF0000000000000 (f64OfF32 0) = 0 := by decide +kernel

theorem linGain_unity (q : GainRepr) : linGain Config.ports q Config.levelUnity = gainOf q 0x3FF0000000000000 :=
  linGain_of_lt q (by rw [curve_unity]; decide)

theorem linGain_muted (q : GainRepr) : linGain Config.ports q Config.levelMuted = some 0 :=
  (linGain_of_lt q (by rw [curve_muted]; decide)).trans (gainOf_zero q)

theorem streamGain_unity_zero (q : GainRepr) : streamGain Config.ports q Config.levelUnity 0 = some 0 := by
  rw [streamGain_of_lt q 0 (by rw [curve_unity]; decide), curve_unity, f64Mul_one_zero, gainOf_zero]

/-- Settles O49: the curve fixes the two ratios, and an output gain of 1.0 leaves the linearizer's gain (`streamGain_one`). -/
theorem canonicalGains : Obligations.CanonicalGains := by
  unfold Obligations.CanonicalGains
  simp only [streamGain_one, linGain_unity, linGain_muted, streamGain_unity_zero, gainOf, fixedGain_one, floatGain_one,
    and_self]

/-! ## The linearizer -/

theorem Progress.andThen_assoc (p : Progress) (f g : State → Progress) :
    (p.andThen f).andThen g = p.andThen fun s => (f s).andThen g := by cases p <;> rfl

/-- Linearizing in two parts. -/
theorem linChannels_add (P : Config.Ports) (q : GainRepr) (vol : Nat → Word) (m n : Nat) : ∀ (ch : Nat) (s : State),
    linChannels P q vol (m + n) ch s = (linChannels P q vol m ch s).andThen (linChannels P q vol n (ch + m)) := by
  induction m with
  | zero => intro ch s; rw [Nat.zero_add]; rfl
  | succ m ih =>
    intro ch s
    rw [Nat.succ_add, linChannels, linChannels]
    cases linGain P q (vol ch) with
    | none => rfl
    | some g => simp only [ih, Nat.succ_add_eq_add_succ]

/-- A linearizer that goes on has found a gain at every channel. -/
theorem linChannels_gains {P : Config.Ports} {q : GainRepr} {vol : Nat → Word} {t : State} : ∀ {n ch : Nat} {s : State},
    linChannels P q vol n ch s = .on t → ∀ k, ch ≤ k → k < ch + n → ∃ g, linGain P q (vol k) = some g := by
  intro n
  induction n with
  | zero => intro ch s _ k _ _; omega
  | succ n ih =>
    intro ch s h k hk hk'
    rw [linChannels] at h
    cases hg : linGain P q (vol ch) with
    | none => rw [hg] at h; cases h
    | some g =>
      rw [hg] at h
      rcases Nat.eq_or_lt_of_le hk with rfl | hlt
      · exact ⟨g, hg⟩
      · exact ih h k hlt (by omega)

/-- Settles O48: a linearizer that goes on found every gain (`linChannels_gains`), and one that finds every gain tiles the first
`C + 32` slots with them (`linearize_on`). -/
theorem linearizerPads : Obligations.LinearizerPads := by
  intro P q vol C s t hC hC' h
  obtain ⟨u, hu, -⟩ := Progress.andThen_eq_on h
  have found : ∀ k, k < C → linGain P q (vol k) = some ((linGain P q (vol k)).getD 0) := fun k hk => by
    obtain ⟨g, hg⟩ := linChannels_gains hu k (Nat.zero_le k) (by omega)
    rw [hg, Option.getD_some]
  obtain ⟨o, on, slots⟩ := linearize_on P q vol _ C s hC hC' found
  obtain rfl : { s with olin := o } = t := Progress.on.inj (on.symm.trans h)
  refine ⟨rfl, fun ch hch => ?_, fun i hi => ?_, fun j hj => ?_, fun j hj => ?_⟩
  · rw [slots, if_pos (by omega), Nat.mod_eq_of_lt hch]
    exact found ch hch
  · rw [slots, slots, if_pos (by omega), if_pos (by omega), Nat.add_mod_left]
  · have hm := Nat.mod_lt j hC
    rw [slots, slots, if_pos hj, if_pos (by omega), Nat.mod_mod]
  · rw [slots, if_neg (by omega)]

/-- The linearizer stops at the first channel without a gain, with the slots of the channels before it written
(40_linearizer.md R131 to R133). -/
theorem linearize_halt {P : Config.Ports} {q : GainRepr} {vol g : Nat → Word} {C k : Nat} (s : State) (hC : C ≤ 32)
    (hk : k < C) (before : ∀ ch < k, linGain P q (vol ch) = some (g ch)) (missing : linGain P q (vol k) = none) :
    ∃ o, linearize P q vol C s = .halt (takeFault .gainRange noStream k { s with olin := o }) ∧
      ∀ j, State.olinAt { s with olin := o } j = if j < k then g j else s.olinAt j := by
  obtain ⟨n, rfl⟩ := Nat.exists_eq_add_of_lt hk
  obtain ⟨o, on, slots⟩ := linChannels_on P q vol g k 0 s (by omega) fun ch _ hch => before ch (by omega)
  refine ⟨o, ?_, by simpa only [Nat.zero_le, true_and, Nat.zero_add] using slots⟩
  rw [linearize, Nat.add_assoc, linChannels_add, on, Progress.andThen_on, Nat.zero_add, linChannels, missing,
    Progress.andThen_halt]

/-! ## The gain calculator -/

/-- One stream's gains in two parts. -/
theorem gainChannels_add (P : Config.Ports) (q : GainRepr) (i m n : Nat) : ∀ (ch : Nat) (s : State),
    gainChannels P q i (m + n) ch s = (gainChannels P q i m ch s).andThen (gainChannels P q i n (ch + m)) := by
  induction m with
  | zero => intro ch s; rw [Nat.zero_add]; rfl
  | succ m ih =>
    intro ch s
    rw [Nat.succ_add, gainChannels, gainChannels]
    cases streamGain P q (s.sVolAt i ch) (s.olinAt ch) with
    | none => rfl
    | some g => simp only [ih, Nat.succ_add_eq_add_succ]

/-- The streams' gains in two parts. -/
theorem gainStreams_add (P : Config.Ports) (q : GainRepr) (C m n : Nat) : ∀ (i : Nat) (s : State),
    gainStreams P q C (m + n) i s = (gainStreams P q C m i s).andThen (gainStreams P q C n (i + m)) := by
  induction m with
  | zero => intro i s; rw [Nat.zero_add]; rfl
  | succ m ih =>
    intro i s
    rw [Nat.succ_add, gainStreams, gainStreams, Progress.andThen_assoc]
    exact congrArg _ (funext fun u => by rw [ih, Nat.succ_add_eq_add_succ])

/-- On one stream the calculator stops at the first channel without a combined gain, with the gains before it written. -/
theorem gainChannels_halt {P : Config.Ports} {q : GainRepr} {i C k : Nat} {g : Nat → Word} (s : State) (hi : i < 32)
    (hC : C ≤ 32) (hk : k < C) (before : ∀ ch < k, streamGain P q (s.sVolAt i ch) (s.olinAt ch) = some (g ch))
    (missing : streamGain P q (s.sVolAt i k) (s.olinAt k) = none) :
    ∃ v, gainChannels P q i C 0 s = .halt (takeFault .gainRange i k { s with sgain := v }) ∧
      ∀ j ch, State.sgainAt { s with sgain := v } j ch = if j = i ∧ ch < k then g ch else s.sgainAt j ch := by
  obtain ⟨n, rfl⟩ := Nat.exists_eq_add_of_lt hk
  obtain ⟨v, on, slots⟩ := gainChannels_on P q i g hi k 0 s (by omega) fun ch _ hch => before ch (by omega)
  have there : streamGain P q (State.sVolAt { s with sgain := v } i k) (State.olinAt { s with sgain := v } k) = none :=
    missing
  refine ⟨v, ?_, by simpa only [Nat.zero_le, true_and, Nat.zero_add] using slots⟩
  rw [Nat.add_assoc, gainChannels_add, on, Progress.andThen_on, Nat.zero_add, gainChannels, there]

/-- The calculator stops at the first stream and channel without a combined gain, with the gains before it, in stream then
channel order, written (41_gain_calculator.md R141, R142). -/
theorem calcGains_halt {P : Config.Ports} {q : GainRepr} {NS C i k : Nat} {g : Nat → Nat → Word} (s : State)
    (hNS : NS ≤ 32) (hC : C ≤ 32) (hi : i < NS) (hk : k < C)
    (before : ∀ j ch, ch < C → j < i ∨ (j = i ∧ ch < k) →
      streamGain P q (s.sVolAt j ch) (s.olinAt ch) = some (g j ch))
    (missing : streamGain P q (s.sVolAt i k) (s.olinAt k) = none) :
    ∃ v, calcGains P q NS C s = .halt (takeFault .gainRange i k { s with sgain := v }) ∧
      ∀ j ch, State.sgainAt { s with sgain := v } j ch =
        if ch < C ∧ (j < i ∨ (j = i ∧ ch < k)) then g j ch else s.sgainAt j ch := by
  obtain ⟨n, rfl⟩ := Nat.exists_eq_add_of_lt hi
  obtain ⟨v, on, earlier⟩ := gainStreams_on P q C g hC i 0 s (by omega)
    fun j ch _ hj hch => before j ch hch (.inl (by omega))
  obtain ⟨w, halt, own⟩ := gainChannels_halt (g := g i) { s with sgain := v } (by omega) hC hk
    (fun ch hch => before i ch (by omega) (.inr ⟨rfl, hch⟩)) missing
  refine ⟨w, ?_, fun j ch => (own j ch).trans ?_⟩
  · rw [calcGains, Nat.add_assoc, gainStreams_add, on, Progress.andThen_on, Nat.zero_add, gainStreams, halt,
      Progress.andThen_halt]
  · rw [earlier]
    by_cases last : j = i ∧ ch < k
    · obtain ⟨rfl, hch⟩ := last
      rw [if_pos ⟨rfl, hch⟩, if_pos (by omega)]
    · rw [if_neg last]
      exact if_congr (by omega) rfl rfl

/-! ## A MIX whose gains are out of range -/

/-- The lines of a MIX before its kernel are free to write `EFFLEN` and the scratch. -/
theorem SameBeforeKernel.scratch {s u : State} (h : SameBeforeKernel s u) (e : Word) (o : Vector Word 64)
    (v : Vector (Vector Word 32) 32) : SameBeforeKernel s { u with effLen := e, olin := o, sgain := v } :=
  { h with inputs := { h.inputs with } }

/-- What a MIX has done before its linearizer, leaving out the scratch: every stream is acquired, the effective length written
(45_mix_command.md R221 lines 8 to 13). -/
structure MixAcquired (NS : Nat) (s u : State) : Prop where
  frame : SameBeforeKernel s u
  effLen : u.effLen.toNat = effectiveLength NS s
  answers : u.answers = s.answers.drop NS
  hist : u.hist = s.hist ++ (List.range NS).map (acquireEvent s)
  sPtr : ∀ j, u.sPtrAt j = if j < NS then answerAt s j else s.sPtrAt j

/-- The scratch does not count. -/
theorem MixAcquired.scratch {NS : Nat} {s u : State} (h : MixAcquired NS s u) (o : Vector Word 64)
    (v : Vector (Vector Word 32) 32) : MixAcquired NS s { u with olin := o, sgain := v } :=
  { h with frame := h.frame.scratch u.effLen o v }

theorem effectiveLength_toNat (NS : Nat) (s : State) :
    (BitVec.ofNat Config.lengthWidth (effectiveLength NS s)).toNat = effectiveLength NS s := by
  rw [BitVec.toNat_ofNat]
  exact Nat.mod_eq_of_lt ((effectiveLength_le NS s).1.trans_lt s.len.isLt)

/-- A MIX whose acquires are all answered goes on to its linearizer and its calculator, with the scratch as it was. -/
theorem mixPrepare_acquired (P : Config.Ports) (F : Fmt) (C : Nat) {NS : Nat} (h : Bool) {s : State} (hNS : NS ≤ 32)
    (good : ∀ j < NS, GoodAnswer s j) :
    ∃ u, MixAcquired NS s u ∧ u.olin = s.olin ∧ u.sgain = s.sgain ∧ mixPrepare P F C NS h s =
      (linearize P .flt (outVol h s) C u).andThen (calcGains P (gainRepr F) NS C) := by
  obtain ⟨a, on, frame, hist, cursors, -, answers⟩ := acquireAll_good NS 0 s (by omega) fun j hj => by
    rw [Nat.zero_add]
    exact good j hj
  simp only [Nat.zero_le, true_and, Nat.zero_add, Nat.sub_zero] at hist cursors
  have same : SameBeforeKernel s (a.setEffLen (BitVec.ofNat Config.lengthWidth (effectiveLength NS s))) :=
    frame.sameBeforeKernel.scratch _ a.olin a.sgain
  refine ⟨_, ⟨same, effectiveLength_toNat NS s, answers, hist, cursors⟩, ?_, ?_,
    by rw [mixPrepare, on, Progress.andThen_on]⟩
  · rw [State.setEffLen_olin, frame]
  · rw [State.setEffLen_sgain, frame]

/-- A preparation that stops ends the MIX where it stops; with the hardware's own parameters that is `exec`. -/
theorem mix_prepare_halt {P : Config.Ports} {F : Fmt} {C NS i k : Nat} {m h : Bool} {s u : State}
    (hs : MixStarts F C NS m h s) (halt : mixPrepare P F C NS h s = .halt (takeFault .gainRange i k u)) :
    mixCommand P F C NS m h s = .next (takeFault .gainRange i k u) ∧
      (P = Config.ports → TakesFault (mixOf F C NS m h) s u .gainRange i k) := by
  have ends : mixCommand P F C NS m h s = .next (takeFault .gainRange i k u) := by rw [mixCommand_starts P hs, halt]
  refine ⟨ends, ?_⟩
  rintro rfl
  rw [TakesFault, exec_mixOf, ends]

/-- Settles O26: after the acquires the linearizer stops (`linearize_halt`). -/
theorem mixOutputGainFault : Obligations.MixOutputGainFault := by
  intro P F C NS m h s o k hs good hk before missing
  obtain ⟨u, acquired, olin, sgain, prepare⟩ := mixPrepare_acquired P F C h hs.valid.streams good
  obtain ⟨v, halt, slots⟩ := linearize_halt u hs.valid.channels.2 hk before missing
  rw [halt, Progress.andThen_halt] at prepare
  obtain ⟨ends, own⟩ := mix_prepare_halt hs prepare
  obtain ⟨frame, effLen, answers, hist, sPtr⟩ := acquired.scratch v u.sgain
  refine ⟨_, ends, own, frame, effLen, sgain, answers, hist, sPtr, fun ch => ?_⟩
  rw [slots, State.olinAt, olin, State.olinAt]

/-- Settles O27: after the acquires the linearizer goes on (`linearize_on`) and the calculator stops (`calcGains_halt`). -/
theorem mixStreamGainFault : Obligations.MixStreamGainFault := by
  intro P F C NS m h s o g i k hs good output hi hk before missing
  obtain ⟨hC, hC'⟩ := hs.valid.channels
  obtain ⟨u, acquired, olin, sgain, prepare⟩ := mixPrepare_acquired P F C h hs.valid.streams good
  obtain ⟨w, on, tiled⟩ := linearize_on P .flt (outVol h s) o C u hC hC' output
  have level : ∀ j ch, State.sVolAt { u with olin := w } j ch = s.sVolAt j ch := fun j ch => by
    rw [State.sVolAt, acquired.frame.inputs.sVol, State.sVolAt]
  have outGain : ∀ ch < C, State.olinAt { u with olin := w } ch = o ch := fun ch hch => by
    rw [tiled, if_pos (by omega), Nat.mod_eq_of_lt hch]
  obtain ⟨v, halt, slots⟩ := calcGains_halt (P := P) (q := gainRepr F) (g := g) { u with olin := w }
    hs.valid.streams hC' hi hk
    (fun j ch hch hj => by rw [level, outGain ch hch]; exact before j ch hch hj) (by rw [level, outGain k hk]; exact missing)
  rw [on, Progress.andThen_on, halt] at prepare
  obtain ⟨ends, own⟩ := mix_prepare_halt hs prepare
  obtain ⟨frame, effLen, answers, hist, sPtr⟩ := acquired.scratch w v
  refine ⟨_, ends, own, frame, effLen, answers, hist, sPtr, fun j => (tiled j).trans ?_, fun j ch => (slots j ch).trans ?_⟩
  · rw [State.olinAt, olin, State.olinAt]
  · rw [State.sgainAt, sgain, State.sgainAt]

/-! ## A VOL whose gains are out of range -/

/-- A VOL that is no no-op and not muted takes the kernel path (46_volume.md R241). -/
theorem volCommand_kernelPath (P : Config.Ports) {F : Fmt} {C : Nat} {s : State} (hv : Valid F C 0 s)
    (scaled : ∃ ch < C, s.ovolAt ch ≠ Config.levelUnity) (audible : ∃ ch < C, s.ovolAt ch ≠ Config.levelMuted) :
    volCommand P F C false s = .next (volKernelPath P F C s) := by
  have differs : ∀ {l : Word}, (∃ ch < C, s.ovolAt ch ≠ l) → allLevels s.ovolAt C l = false := fun ⟨ch, hch, hne⟩ =>
    Bool.eq_false_iff.2 fun all => hne ((allLevels_iff ..).1 all ch hch)
  simp only [volCommand, validate_none hv, volNoop, volMuted, differs scaled, differs audible, Bool.or_self,
    Bool.false_eq_true, if_false]

/-- Settles O28: on the kernel path the linearizer stops (`linearize_halt`). -/
theorem volGainFault : Obligations.VolGainFault := by
  intro P F C s o k hv scaled audible hk before missing
  obtain ⟨v, halt, slots⟩ := linearize_halt s hv.channels.2 hk before missing
  have ends : volCommand P F C false s = .next (takeFault .gainRange noStream k { s with olin := v }) := by
    rw [volCommand_kernelPath P hv scaled audible, volKernelPath, halt]
  refine ⟨v, ends, ?_, slots⟩
  rintro rfl
  rw [TakesFault, exec_volOf]
  exact ends

end Sys2Proof.Machine
end

section
/-! PROOFS of the statements about samples as bytes (42_sample_codec.md R151 to R161, R170 to R177). A sample's bytes are one
bit string cut into bytes, so what decoding reads and what encoding writes are slices of it; the byte order only reverses the
list. -/

namespace Sys2Proof.Machine

/-! ## Byte order -/

theorem rawOf_be (b : List Byte) : rawOf .be b = rawOf .le b.reverse := rfl

theorem bytesOf_be (n u : Nat) : bytesOf .be n u = (bytesOf .le n u).reverse := rfl

/-- Settles O58: a sample passes through `rawOf` on its way in and `bytesOf` on its way out, and only these see the order. -/
theorem byteOrder : Obligations.ByteOrder :=
  ⟨fun b => ⟨congrArg (sext 16) (rawOf_be b), congrArg (sext 24 · * 256) (rawOf_be b),
      congrArg (fun u => sext 32 (u * 256)) (rawOf_be b), congrArg (sext 32) (rawOf_be b),
      congrArg (BitVec.ofNat 32) (rawOf_be b)⟩,
    fun _ => ⟨bytesOf_be .., bytesOf_be .., bytesOf_be .., bytesOf_be ..⟩, fun _ _ => bytesOf_be ..⟩

/-! ## Decode -/

theorem toNat_append_byte {n : Nat} (x : BitVec n) (b : Byte) : (x ++ b).toNat = b.toNat + 256 * x.toNat := by
  rw [BitVec.toNat_append, ← Nat.shiftLeft_add_eq_or_of_lt b.isLt, Nat.shiftLeft_eq]
  omega

theorem rawOf_le_two (b0 b1 : Byte) : rawOf .le [b0, b1] = (b1 ++ b0).toNat := by
  simp only [rawOf, leNat, toNat_append_byte, Nat.mul_zero, Nat.add_zero]

theorem rawOf_le_three (b0 b1 b2 : Byte) : rawOf .le [b0, b1, b2] = (b2 ++ b1 ++ b0).toNat := by
  simp only [rawOf, leNat, toNat_append_byte, Nat.mul_zero, Nat.add_zero]

theorem rawOf_le_four (b0 b1 b2 b3 : Byte) : rawOf .le [b0, b1, b2, b3] = (b3 ++ b2 ++ b1 ++ b0).toNat := by
  simp only [rawOf, leNat, toNat_append_byte, Nat.mul_zero, Nat.add_zero]

theorem sext_toNat {n : Nat} (x : BitVec n) : sext n x.toNat = x.toInt := by
  rw [sext, BitVec.ofNat_toNat, BitVec.setWidth_eq]

theorem decS16_le (b0 b1 : Byte) : decS16 .le [b0, b1] = (b1 ++ b0).toInt := by
  rw [decS16, rawOf_le_two, sext_toNat]

theorem decS24_le (b0 b1 b2 : Byte) : decS24 .le [b0, b1, b2] = (b2 ++ b1 ++ b0).toInt * 256 := by
  rw [decS24, rawOf_le_three, sext_toNat]

theorem decS32_le (b0 b1 b2 b3 : Byte) : decS32 .le [b0, b1, b2, b3] = (b3 ++ b2 ++ b1 ++ b0).toInt := by
  rw [decS32, rawOf_le_four, sext_toNat]

theorem decF32_le (b0 b1 b2 b3 : Byte) : decF32 .le [b0, b1, b2, b3] = b3 ++ b2 ++ b1 ++ b0 := by
  rw [decF32, rawOf_le_four, BitVec.ofNat_toNat, BitVec.setWidth_eq]

/-- Shifting the container left by 8 drops its top byte and puts a zero byte below the sample (R157). -/
theorem ofNat_shiftedContainer (b0 b1 b2 b3 : Byte) :
    BitVec.ofNat 32 (rawOf .le [b0, b1, b2, b3] * 256) = b2 ++ b1 ++ b0 ++ 0#8 := by
  refine BitVec.eq_of_toNat_eq ?_
  have bound := (b2 ++ b1 ++ b0).isLt
  rw [BitVec.toNat_ofNat, rawOf_le_four, toNat_append_byte]
  simp only [toNat_append_byte, BitVec.toNat_ofNat] at bound ⊢
  omega

theorem decS2432_le (b0 b1 b2 b3 : Byte) : decS2432 .le [b0, b1, b2, b3] = (b2 ++ b1 ++ b0).toInt * 256 := by
  rw [decS2432, sext, ofNat_shiftedContainer, BitVec.toInt_append]
  simp [Int.mul_comm]

/-! ## The gain test -/

theorem nzInt_eq_false_iff (g : Word) : nzInt g = false ↔ g = 0 := bne_eq_false_iff_eq

/-- Both float zeros, and nothing else, are zero (R161). -/
theorem nzFlt_eq_false_iff (g : Word) : nzFlt g = false ↔ g = 0 ∨ g = 0x80000000 := by
  have zero : g = 0 ↔ g.toNat = 0 := BitVec.toNat_eq
  have minusZero : g = 0x80000000 ↔ g.toNat = 0x80000000 := BitVec.toNat_eq
  have := g.isLt
  rw [nzFlt, f32Ne0, bne_eq_false_iff_eq, zero, minusZero]
  omega

theorem laneOf_nz (P : Config.Ports) (F : Fmt) :
    (laneOf P F).nz = if F = .f32le ∨ F = .f32be then nzFlt else nzInt := by cases F <;> rfl

theorem laneOf_nz_eq_false_iff (P : Config.Ports) (F : Fmt) (g : Word) :
    (laneOf P F).nz g = false ↔ g = 0 ∨ (F = .f32le ∨ F = .f32be) ∧ g = 0x80000000 := by
  rw [laneOf_nz]
  split
  · next float => rw [nzFlt_eq_false_iff, and_iff_right float]
  · next int => rw [nzInt_eq_false_iff, or_iff_left fun k => int k.1]

/-- Settles O59: a big-endian sample is the little-endian one on its reversed bytes, so each decoder is computed once. -/
theorem sampleTerms : Obligations.SampleTerms := by
  intro P g b0 b1 b2 b3
  exact ⟨rfl, rfl, rfl,
    congrArg (apply16 · g) (decS16_le b0 b1), congrArg (apply16 · g) (decS16_le b1 b0),
    congrArg (apply64 · g) (decS24_le b0 b1 b2), congrArg (apply64 · g) (decS24_le b2 b1 b0),
    congrArg (apply64 · g) (decS2432_le b0 b1 b2 b3), congrArg (apply64 · g) (decS2432_le b3 b2 b1 b0),
    congrArg (apply64 · g) (decS32_le b0 b1 b2 b3), congrArg (apply64 · g) (decS32_le b3 b2 b1 b0),
    congrArg (applyF · g) (decF32_le b0 b1 b2 b3), congrArg (applyF · g) (decF32_le b3 b2 b1 b0),
    fun F => laneOf_nz_eq_false_iff P F g,
    ⟨rfl, rfl, rfl, rfl, rfl, rfl, rfl, rfl, rfl, rfl, rfl, rfl, rfl⟩,
    fun _ _ => ⟨rfl, rfl, rfl, rfl, rfl, rfl, rfl⟩, fun _ _ => ⟨rfl, rfl, rfl, rfl, rfl, rfl⟩⟩

/-! ## Encode -/

theorem clamp_eq_max_min {lo hi : Int} (h : lo ≤ hi) (x : Int) : clamp x lo hi = max lo (min x hi) := by
  unfold clamp
  split
  · omega
  · split <;> omega

theorem lane32_out {w : Nat} {dec : List Byte → Int} {lo hi : Int} {enc : Int → List Byte} (h : lo ≤ hi) (nan x : Word) :
    (lane32 w dec lo hi enc).out nan x = enc (max lo (min x.toInt hi)) := congrArg enc (clamp_eq_max_min h x.toInt)

theorem lane64_out {w : Nat} {dec : List Byte → Int} {enc : Int → List Byte} (nan : Word) (x : DWord) :
    (lane64 w dec enc).out nan x = enc (max (-0x80000000) (min x.toInt 0x7FFFFFFF)) :=
  congrArg enc (clamp_eq_max_min (by decide) x.toInt)

theorem coe_lowBits (n : Nat) (y : Int) : (lowBits n y : Int) = y % 2 ^ n := by
  rw [lowBits, BitVec.toNat_ofInt, Int.toNat_of_nonneg (Int.emod_nonneg _ (by positivity)), Int.natCast_pow]
  rfl

/-- The low bits above the lowest byte are the low bits of the number without it. -/
theorem lowBits_div (n : Nat) (y : Int) : lowBits (n + 8) y / 256 = lowBits n (y / 256) := by
  have remainder : y % (256 * 2 ^ n) = y - 256 * (2 ^ n * (y / 256 / 2 ^ n)) := by
    rw [Int.emod_def, Int.ediv_ediv_of_nonneg (by decide), Int.mul_assoc]
  zify
  rw [coe_lowBits, coe_lowBits, pow_add, show (2 : Int) ^ 8 = 256 from rfl, Int.mul_comm, remainder,
    Int.sub_mul_ediv_left _ _ (by decide), ← Int.emod_def]

theorem ofNat_lowBits (n : Nat) (y : Int) : BitVec.ofNat 8 (lowBits (n + 8) y) = BitVec.ofInt 8 y := by
  refine BitVec.eq_of_toNat_eq ?_
  rw [BitVec.toNat_ofNat]
  zify
  rw [coe_lowBits, Int.emod_emod_of_dvd y (pow_dvd_pow 2 (Nat.le_add_left 8 n))]
  exact (coe_lowBits 8 y).symm

theorem leBytes_lowBits (n k : Nat) (y : Int) :
    leBytes (n + 1) (lowBits (k + 8) y) = BitVec.ofInt 8 y :: leBytes n (lowBits k (y / 256)) := by
  rw [leBytes, ofNat_lowBits, lowBits_div]

theorem encS16_le (y : Int) : encS16 .le y = [BitVec.ofInt 8 y, BitVec.ofInt 8 (y / 256)] := by
  rw [encS16, bytesOf, leBytes_lowBits 1 8, leBytes_lowBits 0 0, leBytes]

theorem encS32_le (y : Int) : encS32 .le y =
    [BitVec.ofInt 8 y, BitVec.ofInt 8 (y / 2 ^ 8), BitVec.ofInt 8 (y / 2 ^ 16), BitVec.ofInt 8 (y / 2 ^ 24)] := by
  rw [encS32, bytesOf, leBytes_lowBits 3 24, leBytes_lowBits 2 16, leBytes_lowBits 1 8, leBytes_lowBits 0 0, leBytes]
  simp [Int.ediv_ediv_of_nonneg]

/-- A 24-bit sample is the upper three bytes of the 32-bit value (R174). -/
theorem encS24_le (y : Int) : encS24 .le y =
    [BitVec.ofInt 8 (y / 2 ^ 8), BitVec.ofInt 8 (y / 2 ^ 16), BitVec.ofInt 8 (y / 2 ^ 24)] :=
  congrArg List.tail (encS32_le y)

/-- The container holds the 24-bit sample below a zero byte (R175). -/
theorem encS2432_le_eq_append (y : Int) : encS2432 .le y = encS24 .le y ++ [0] := by
  have top : lowBits 32 y / 256 / 256 / 256 / 256 = 0 := by
    have : lowBits 32 y < 2 ^ 32 := BitVec.isLt _
    omega
  rw [encS2432, bytesOf, leBytes, leBytes, leBytes, leBytes, top]
  rfl

theorem encS2432_le (y : Int) : encS2432 .le y =
    [BitVec.ofInt 8 (y / 2 ^ 8), BitVec.ofInt 8 (y / 2 ^ 16), BitVec.ofInt 8 (y / 2 ^ 24), 0] := by
  rw [encS2432_le_eq_append, encS24_le]
  rfl

theorem leBytes_toNat (u : Word) : leBytes 4 u.toNat =
    [u.extractLsb 7 0, u.extractLsb 15 8, u.extractLsb 23 16, u.extractLsb 31 24] := by
  change _ = [u.extractLsb' 0 8, u.extractLsb' 8 8, u.extractLsb' 16 8, u.extractLsb' 24 8]
  simp [leBytes, BitVec.extractLsb', Nat.shiftRight_eq_div_pow, Nat.div_div_eq_div_mul]

/-- Settles O60: a lane's output is the encoding of the clamped accumulator (`lane32_out`, `lane64_out`), a big-endian sample the
reversed little-endian one (`byteOrder`). -/
theorem sampleBytes : Obligations.SampleBytes := by
  intro P nan
  obtain ⟨-, reversed, reversedFloat⟩ := byteOrder
  refine ⟨fun x => ⟨lane32_out (by decide) nan x, lane32_out (by decide) nan x, lane32_out (by decide) nan x, ?_⟩, ?_, ?_⟩
  · rintro y hy
    obtain ⟨s16, -⟩ := reversed y
    have out : ∀ e, (lane32 2 (decS16 e) (-0x8000) 0x7FFF (encS16 e)).out nan x = encS16 e y := fun _ =>
      hy ▸ lane32_out (by decide) nan x
    have little := encS16_le y
    exact ⟨(out .le).trans little, (out .be).trans (s16.trans (congrArg List.reverse little))⟩
  · rintro x y _ _ _ _ hy rfl rfl rfl rfl
    obtain ⟨-, s24, s2432, s32⟩ := reversed y
    have out : ∀ w dec enc, (lane64 w dec enc).out nan x = enc y := fun _ _ _ => hy ▸ lane64_out nan x
    exact ⟨(out ..).trans (encS24_le y), (out ..).trans (s24.trans (congrArg List.reverse (encS24_le y))),
      (out ..).trans (encS2432_le y), (out ..).trans (s2432.trans (congrArg List.reverse (encS2432_le y))),
      (out ..).trans (encS32_le y), (out ..).trans (s32.trans (congrArg List.reverse (encS32_le y)))⟩
  · rintro x _ rfl
    have little : encF32 .le nan x = _ := leBytes_toNat (if f32IsNaN x then nan else x)
    exact ⟨little, (reversedFloat nan x).trans (congrArg List.reverse little)⟩

end Sys2Proof.Machine
end

section
/-! PROOFS of the statements about gain application and accumulation (42_sample_codec.md R162, R163, R165, R166). No wrap happens
in the ranges the rules name, so each 32-bit or 64-bit operation is the operation on integers. -/

namespace Sys2Proof.Machine

/-! ## Arithmetic that does not wrap -/

/-- A 16-bit sample times a natural number. -/
theorem sample_mul_bounds {v : Int} (h1 : -32768 ≤ v) (h2 : v ≤ 32767) {a b : Nat} (hab : a ≤ b) :
    -(32768 * b) ≤ v * a ∧ v * a ≤ 32767 * b := by
  have hab : (a : Int) ≤ b := by exact_mod_cast hab
  constructor <;> nlinarith

/-- An arithmetic shift of a number that fits is the floored quotient. -/
theorem toInt_ofInt_sshiftRight {w : Nat} (hw : 0 < w) {x : Int} (h1 : -2 ^ (w - 1) ≤ x) (h2 : x < 2 ^ (w - 1)) :
    ((BitVec.ofInt w x).sshiftRight 16).toInt = x / 65536 := by
  rw [BitVec.toInt_sshiftRight, BitVec.toInt_ofInt_eq_self hw h1 h2, Int.shiftRight_eq_div_pow]
  rfl

theorem toInt_add_of_fits {x y : Word} (h1 : -2147483648 ≤ x.toInt + y.toInt) (h2 : x.toInt + y.toInt < 2147483648) :
    (x + y).toInt = x.toInt + y.toInt := by
  rw [BitVec.toInt_add]
  exact Int.bmod_eq_of_le (by omega) (by omega)

/-! ## Gain application -/

/-- The upper half of a gain of the calculator is not negative as a signed number. -/
theorem sext_upperHalf {g : Word} (hg : g.toNat ≤ 0x7FFFFFFF) : sext 16 (g.toNat / 2 ^ 16) = (g.toNat / 65536 : Nat) := by
  rw [sext, BitVec.toInt_eq_toNat_of_lt] <;> rw [BitVec.toNat_ofNat] <;> omega

/-- The two halves of the hi/lo rule make the floored product, whatever the sample. -/
theorem floor_mul_split (v : Int) (n : Nat) :
    v * (n % 65536 : Nat) / 65536 + v * (n / 65536 : Nat) = v * n / 65536 := by
  have parts : (n : Int) = (n % 65536 : Nat) + (n / 65536 : Nat) * 65536 := by omega
  conv_rhs => rw [parts, Int.mul_add, ← Int.mul_assoc]
  exact (Int.add_mul_ediv_right _ _ (by decide)).symm

theorem apply16_eq (v : Int) {g : Word} (hg : g.toNat ≤ 0x7FFFFFFF) : apply16 v g =
    (BitVec.ofInt 32 (v * (g.toNat % 65536 : Nat))).sshiftRight 16 + BitVec.ofInt 32 (v * (g.toNat / 65536 : Nat)) := by
  rw [apply16, sext_upperHalf hg]
  rfl

/-- Settles O53: neither half of the product wraps, and their sum is a floored product too small to wrap. -/
theorem apply16Exact : Obligations.Apply16Exact := by
  intro v g h1 h2 hg
  obtain ⟨lo1, lo2⟩ := sample_mul_bounds h1 h2 (show g.toNat % 65536 ≤ 65535 by omega)
  obtain ⟨hi1, hi2⟩ := sample_mul_bounds h1 h2 (show g.toNat / 65536 ≤ 32767 by omega)
  obtain ⟨product1, product2⟩ := sample_mul_bounds h1 h2 hg
  have low : ((BitVec.ofInt 32 (v * (g.toNat % 65536 : Nat))).sshiftRight 16).toInt = v * (g.toNat % 65536 : Nat) / 65536 :=
    toInt_ofInt_sshiftRight (by decide) (by omega) (by omega)
  have high : (BitVec.ofInt 32 (v * (g.toNat / 65536 : Nat))).toInt = v * (g.toNat / 65536 : Nat) :=
    BitVec.toInt_ofInt_eq_self (by decide) (by omega) (by omega)
  have sum := floor_mul_split v g.toNat
  have floored : (apply16 v g).toInt = v * g.toNat / 65536 := by
    rw [apply16_eq v hg, toInt_add_of_fits] <;> rw [low, high, sum] <;> omega
  rw [floored]
  omega

/-- Settles O54: the product of two 32-bit numbers is far from wrapping in 64 bits. -/
theorem apply64Exact : Obligations.Apply64Exact := by
  intro v g h1 h2
  have g1 := BitVec.le_toInt g
  have g2 := BitVec.toInt_lt (x := g)
  have bound : |v * g.toInt| ≤ 2 ^ 31 * 2 ^ 31 := by
    rw [abs_mul]
    exact mul_le_mul (abs_le.2 ⟨by omega, by omega⟩) (abs_le.2 ⟨by omega, by omega⟩) (abs_nonneg _) (by decide)
  obtain ⟨product1, product2⟩ := abs_le.1 bound
  have floored : (apply64 v g).toInt = v * g.toInt / 65536 := toInt_ofInt_sshiftRight (by decide) (by omega) (by omega)
  rw [floored]
  omega

/-! ## Accumulation -/

/-- A term's magnitude is at most 2^15 times the gain's integer part plus one. -/
theorem term_bounds {v : Int} (h1 : -32768 ≤ v) (h2 : v ≤ 32767) (n : Nat) :
    -(32768 * (n / 65536 + 1 : Nat)) ≤ v * n / 65536 ∧ v * n / 65536 ≤ 32767 * (n / 65536 + 1 : Nat) := by
  obtain ⟨product1, product2⟩ := sample_mul_bounds h1 h2 (show n ≤ (n / 65536 + 1) * 65536 by omega)
  omega

/-- The exact sum of `NS` floored products. -/
def termSum (v : Nat → Int) (g : Nat → Word) (NS : Nat) : Int :=
  ((List.range NS).map fun i => v i * ((g i).toNat : Int) / 65536).sum

theorem termSum_succ (v : Nat → Int) (g : Nat → Word) (NS : Nat) :
    termSum v g (NS + 1) = termSum v g NS + v NS * (g NS).toNat / 65536 := by
  simp [termSum, List.range_succ]

/-- The sum of `NS` gains' integer parts, each plus one. -/
def gainBudget (g : Nat → Word) (NS : Nat) : Nat := ((List.range NS).map fun i => (g i).toNat / 65536 + 1).sum

theorem gainBudget_succ (g : Nat → Word) (NS : Nat) :
    gainBudget g (NS + 1) = gainBudget g NS + ((g NS).toNat / 65536 + 1) := by
  simp [gainBudget, List.range_succ]

theorem termSum_bounds {v : Nat → Int} (hv : ∀ i, -32768 ≤ v i ∧ v i ≤ 32767) (g : Nat → Word) (NS : Nat) :
    -(32768 * gainBudget g NS) ≤ termSum v g NS ∧ termSum v g NS ≤ 32767 * gainBudget g NS := by
  induction NS with
  | zero => exact ⟨le_refl _, le_refl _⟩
  | succ n ih =>
    have term := term_bounds (hv n).1 (hv n).2 (g n).toNat
    rw [termSum_succ, gainBudget_succ]
    omega

theorem slotSum_succ (L : Lane) (NS : Nat) (m : Memory) (base : Nat → Nat) (g : Nat → Word) (j : Nat) :
    slotSum L (NS + 1) m base g j =
      if L.nz (g NS) then L.add (slotSum L NS m base g j) (L.term (m.load (base NS + j * L.width) L.width) (g NS))
      else slotSum L NS m base g j := by
  simp [slotSum, List.range_succ]

theorem apply16_zero (v : Int) : apply16 v 0 = 0 := by
  simp [apply16, sext]

/-- One more stream adds its term: a stream that is skipped has the term 0. -/
theorem slotSum_lane32_succ (w : Nat) (dec : List Byte → Int) (lo hi : Int) (enc : Int → List Byte) (NS : Nat) (m : Memory)
    (base : Nat → Nat) (g : Nat → Word) (j : Nat) :
    slotSum (lane32 w dec lo hi enc) (NS + 1) m base g j = (lane32 w dec lo hi enc).add
      (slotSum (lane32 w dec lo hi enc) NS m base g j) (apply16 (dec (m.load (base NS + j * w) w)) (g NS)) := by
  rw [slotSum_succ]
  split
  · rfl
  · next skipped =>
    have zero : g NS = 0 := (nzInt_eq_false_iff _).1 (Bool.eq_false_iff.2 skipped)
    rw [zero, apply16_zero]
    exact (BitVec.add_zero _).symm

/-- Settles O55, by induction on the streams: a partial sum is bounded by its share of the budget (`termSum_bounds`). -/
theorem accumulatorBound : Obligations.AccumulatorBound := by
  intro w dec lo hi enc NS m base g j hdec
  change _ → gainBudget g NS ≤ 65536 → _ = termSum (fun i => dec (m.load (base i + j * w) w)) g NS
  induction NS with
  | zero => exact fun _ _ => rfl
  | succ n ih =>
    intro hg budget
    obtain ⟨total1, total2⟩ := termSum_bounds (fun i => hdec (m.load (base i + j * w) w)) g (n + 1)
    obtain ⟨term, -⟩ := apply16Exact _ (g n) (hdec (m.load (base n + j * w) w)).1 (hdec _).2 (hg n (Nat.lt_succ_self n))
    have before := ih (fun i hi => hg i (Nat.lt_succ_of_lt hi)) (by have := gainBudget_succ g n; omega)
    rw [termSum_succ, ← before, ← term] at total1 total2 ⊢
    rw [slotSum_lane32_succ]
    exact toInt_add_of_fits (by omega) (by omega)

end Sys2Proof.Machine
end

section
/-! PROOF of the statement about samples at Unity (42_sample_codec.md R178). A gain of 1.0 leaves the decoded value, which the
clamp lets through, so what is written is the encoding of what was read: a round trip of the codec. -/

namespace Sys2Proof.Machine

/-! ## Encoding what was decoded -/

theorem leNat_lt (b : List Byte) : leNat b < 256 ^ b.length := by
  induction b with
  | nil => exact Nat.one_pos
  | cons x b ih =>
    have := x.isLt
    rw [leNat, List.length_cons, Nat.pow_succ]
    omega

theorem leBytes_leNat (b : List Byte) : leBytes b.length (leNat b) = b := by
  induction b with
  | nil => rfl
  | cons x b ih =>
    have low : BitVec.ofNat 8 (x.toNat + 256 * leNat b) = x := by
      refine BitVec.eq_of_toNat_eq ?_
      rw [BitVec.toNat_ofNat, Nat.add_mul_mod_self_left, Nat.mod_eq_of_lt x.isLt]
    have high : (x.toNat + 256 * leNat b) / 256 = leNat b := by
      have := x.isLt
      omega
    rw [List.length_cons, leNat, leBytes, low, high, ih]

theorem bytesOf_rawOf (e : Endian) (b : List Byte) : bytesOf e b.length (rawOf e b) = b := by
  cases e with
  | le => exact leBytes_leNat b
  | be => rw [bytesOf, rawOf, ← List.length_reverse, leBytes_leNat, List.reverse_reverse]

theorem rawOf_lt (e : Endian) (b : List Byte) : rawOf e b < 256 ^ b.length := by
  cases e with
  | le => exact leNat_lt b
  | be => rw [← List.length_reverse]; exact leNat_lt b.reverse

/-- The bytes of one sample, decoded to as many bits and encoded again. -/
theorem bytesOf_rawOf_mod (e : Endian) {n : Nat} {b : List Byte} (h : b.length = n) :
    bytesOf e n (rawOf e b % 2 ^ (8 * n)) = b := by
  rw [← h, Nat.pow_mul, Nat.mod_eq_of_lt (rawOf_lt e b), bytesOf_rawOf]

theorem lowBits_sext (n u : Nat) : lowBits n (sext n u) = u % 2 ^ n := by
  rw [lowBits, sext, BitVec.ofInt_toInt, BitVec.toNat_ofNat]

theorem encU8_decU8 (b : Byte) : encU8 (decU8 [b]) = [b] := by
  rw [encU8, decU8, Int.sub_add_cancel, BitVec.ofInt_natCast, List.headD_cons, BitVec.ofNat_toNat, BitVec.setWidth_eq]

theorem encS16_decS16 (e : Endian) {b : List Byte} (h : b.length = 2) : encS16 e (decS16 e b) = b := by
  rw [encS16, decS16, lowBits_sext]
  exact bytesOf_rawOf_mod e h

theorem encS24_decS24 (e : Endian) {b : List Byte} (h : b.length = 3) : encS24 e (decS24 e b) = b := by
  rw [encS24, decS24, lowBits_div 24, Int.mul_ediv_cancel _ (by decide), lowBits_sext]
  exact bytesOf_rawOf_mod e h

theorem encS32_decS32 (e : Endian) {b : List Byte} (h : b.length = 4) : encS32 e (decS32 e b) = b := by
  rw [encS32, decS32, lowBits_sext]
  exact bytesOf_rawOf_mod e h

/-- What comes back of a 24-in-32 container is its lower 24 bits. -/
theorem encS2432_decS2432 (e : Endian) (b : List Byte) :
    encS2432 e (decS2432 e b) = bytesOf e 4 (rawOf e b % 2 ^ 24) := by
  rw [encS2432, decS2432, lowBits_sext]
  congr 1
  omega

theorem encS2432_decS2432_le (b0 b1 b2 b3 : Byte) : encS2432 .le (decS2432 .le [b0, b1, b2, b3]) = [b0, b1, b2, 0] := by
  have low : rawOf .le [b0, b1, b2, b3] % 2 ^ 24 = rawOf .le [b0, b1, b2, 0] := by
    simp only [rawOf, leNat, BitVec.ofNat_eq_ofNat, BitVec.toNat_ofNat]
    omega
  rw [encS2432_decS2432, low]
  exact bytesOf_rawOf .le [b0, b1, b2, 0]

theorem encS2432_decS2432_be (b0 b1 b2 b3 : Byte) : encS2432 .be (decS2432 .be [b0, b1, b2, b3]) = [0, b1, b2, b3] :=
  congrArg List.reverse (encS2432_decS2432_le b3 b2 b1 b0)

/-! ## Unity gain -/

/-- What a 32-bit lane writes for a sample at Unity, where its clamp lets every 16-bit or 8-bit sample through. -/
theorem lane32_out_unity {w : Nat} {dec : List Byte → Int} {lo hi : Int} {enc : Int → List Byte} {b : List Byte} (nan : Word)
    (hlo : -32768 ≤ lo) (hhi : hi ≤ 32767) (fits : lo ≤ dec b ∧ dec b ≤ hi) :
    (lane32 w dec lo hi enc).out nan ((lane32 w dec lo hi enc).term b 0x00010000) = enc (dec b) := by
  obtain ⟨h1, h2⟩ := fits
  obtain ⟨product, -⟩ := apply16Exact (dec b) 0x00010000 (by omega) (by omega) (by decide)
  have unchanged : (apply16 (dec b) 0x00010000).toInt = dec b := product.trans (Int.mul_ediv_cancel _ (by decide))
  refine (lane32_out (h1.trans h2) nan _).trans ?_
  rw [show (lane32 w dec lo hi enc).term b 0x00010000 = apply16 (dec b) 0x00010000 from rfl, unchanged, min_eq_left h2,
    max_eq_right h1]

/-- What a 64-bit lane writes for a sample at Unity. -/
theorem lane64_out_unity {w : Nat} {dec : List Byte → Int} {enc : Int → List Byte} {b : List Byte} (nan : Word)
    (fits : -0x80000000 ≤ dec b ∧ dec b ≤ 0x7FFFFFFF) :
    (lane64 w dec enc).out nan ((lane64 w dec enc).term b 0x00010000) = enc (dec b) := by
  obtain ⟨h1, h2⟩ := fits
  obtain ⟨product, -⟩ := apply64Exact (dec b) 0x00010000 h1 h2
  have unchanged : (apply64 (dec b) 0x00010000).toInt = dec b := product.trans (Int.mul_ediv_cancel _ (by decide))
  refine (lane64_out nan _).trans ?_
  rw [show (lane64 w dec enc).term b 0x00010000 = apply64 (dec b) 0x00010000 from rfl, unchanged, min_eq_left h2,
    max_eq_right h1]

/-! ## Floats at 1.0 -/

theorem encF32_zero (e : Endian) (nan : Word) : encF32 e nan 0 = [0, 0, 0, 0] := by
  rw [encF32, if_neg (by decide)]
  cases e <;> rfl

theorem encF32_decF32 (e : Endian) (nan : Word) {b : List Byte} (h : b.length = 4) (hn : f32IsNaN (decF32 e b) = false) :
    encF32 e nan (decF32 e b) = b := by
  rw [encF32, hn, if_neg Bool.false_ne_true, decF32, BitVec.toNat_ofNat]
  exact bytesOf_rawOf_mod e h

/-- A float sample mixed at 1.0: a NaN stays some NaN, `-0.0` becomes `+0.0`, any other datum comes back. -/
theorem laneF_out_unity (e : Endian) (nan : Word) {b : List Byte} (h : b.length = 4) :
    (laneF e).out nan ((laneF e).add (laneF e).zero ((laneF e).term b 0x3F800000)) =
      if f32IsNaN (decF32 e b) then bytesOf e 4 nan.toNat
      else if decF32 e b = 0x80000000 then [0, 0, 0, 0] else b := by
  change encF32 e nan (f32Add 0 (applyF (decF32 e b) 0x3F800000)) = _
  obtain ⟨-, -, -, -, laws⟩ := floatArithmetic
  split
  · next isNaN =>
    have product := ((laws _).2.2 isNaN).1
    have sum := ((laws _).2.2 product).2
    rw [encF32, if_pos sum]
  · next notNaN =>
    have notNaN := Bool.eq_false_iff.2 notNaN
    obtain ⟨one, zero⟩ := (laws _).2.1 notNaN
    rw [one, zero]
    split
    · exact encF32_zero e nan
    · exact encF32_decF32 e nan h notNaN

/-! ## Every format -/

theorem decU8_bounds (b : Byte) : -0x80 ≤ decU8 [b] ∧ decU8 [b] ≤ 0x7F := by
  have := b.isLt
  rw [decU8, List.headD_cons]
  omega

theorem toInt16_bounds (x : BitVec 16) : -0x8000 ≤ x.toInt ∧ x.toInt ≤ 0x7FFF :=
  ⟨BitVec.le_toInt x, Int.le_of_lt_add_one BitVec.toInt_lt⟩

theorem sext32_bounds (u : Nat) : -0x80000000 ≤ sext 32 u ∧ sext 32 u ≤ 0x7FFFFFFF :=
  ⟨BitVec.le_toInt _, Int.le_of_lt_add_one BitVec.toInt_lt⟩

theorem decS24_bounds (e : Endian) (b : List Byte) : -0x80000000 ≤ decS24 e b ∧ decS24 e b ≤ 0x7FFFFFFF := by
  have h1 : -0x800000 ≤ sext 24 (rawOf e b) := BitVec.le_toInt _
  have h2 : sext 24 (rawOf e b) < 0x800000 := BitVec.toInt_lt
  rw [decS24]
  omega

/-- Settles O56: at Unity each lane writes the encoding of what it read (`lane32_out_unity`, `lane64_out_unity`,
`laneF_out_unity`). -/
theorem identityAtUnity : Obligations.IdentityAtUnity := by
  intro P nan b0 b1 b2 b3
  refine ⟨(lane32_out_unity nan (by decide) (by decide) (decU8_bounds b0)).trans (encU8_decU8 b0),
    (lane32_out_unity nan (by decide) (by decide) (toInt16_bounds _)).trans (encS16_decS16 .le rfl),
    (lane32_out_unity nan (by decide) (by decide) (toInt16_bounds _)).trans (encS16_decS16 .be rfl),
    (lane64_out_unity nan (decS24_bounds ..)).trans (encS24_decS24 .le rfl),
    (lane64_out_unity nan (decS24_bounds ..)).trans (encS24_decS24 .be rfl),
    (lane64_out_unity nan (sext32_bounds _)).trans (encS32_decS32 .le rfl),
    (lane64_out_unity nan (sext32_bounds _)).trans (encS32_decS32 .be rfl),
    (lane64_out_unity nan (sext32_bounds _)).trans (encS2432_decS2432_le b0 b1 b2 b3),
    (lane64_out_unity nan (sext32_bounds _)).trans (encS2432_decS2432_be b0 b1 b2 b3),
    lane32_out_unity nan (by decide) (by decide) (toInt16_bounds _),
    lane32_out_unity nan (by decide) (by decide) (toInt16_bounds _), ?_, ?_⟩
  · rw [← leBytes_toNat, ← decF32_le]
    exact laneF_out_unity .le nan rfl
  · rw [← decF32_le b3 b2 b1 b0]
    exact (laneF_out_unity .be nan rfl).trans
      (congrArg (ite _ · _) (congrArg List.reverse (leBytes_toNat nan)))

end Sys2Proof.Machine
end

section
/-! PROOFS of the statements about the dispatch table (44_dispatch.md R212 to R216). The table's valid ids are those that name a
built-in kernel, so SETK and the dispatch of a MIX part at the same bound, 0x0C. -/

namespace Sys2Proof.Machine

/-! ## Kernel ids -/

/-- The domain of EXT_KERNELS is empty, so only the built-in ids are valid (44_dispatch.md R213; log entry 15). -/
theorem validKernel_iff (k : BitVec 8) : validKernel k = true ↔ k.toNat ≤ 0x0C := by
  simp [validKernel, Config.extKernel]

/-- A valid id has a kernel (`kernelOf_of_valid`), and no other id has. -/
theorem kernelOf_eq_none (e : Endian) (k : BitVec 8) : kernelOf e k = none ↔ 0x0C < k.toNat := by
  refine ⟨fun missing => ?_, fun above => ?_⟩
  · by_contra le
    have found := kernelOf_of_valid e k ((validKernel_iff k).2 (by omega))
    rw [missing] at found
    cases found
  · unfold kernelOf
    split
    case h_14 => rfl
    all_goals omega

theorem kernelArg_toNat (s : State) : (kernelArg s).toNat = s.karg.toNat % 256 := BitVec.toNat_setWidth ..

/-! ## A MIX that reaches the table -/

/-- A MIX whose checks pass ends as its dispatch does, from a state with the table as it was and the effective length in
`EFFLEN` (45_mix_command.md R221 lines 16 to 19). -/
theorem exec_mix_dispatch {F : Fmt} {C NS : Nat} {m h : Bool} {s : State} {o : Nat → Word} {g : Nat → Nat → Word}
    (hr : MixReady F C NS m h s o g) :
    ∃ u, u.ktabAt F = s.ktabAt F ∧ u.effLen.toNat = effectiveLength NS s ∧
      exec (mixOf F C NS m h) s = mixDispatch Config.ports F C NS u := by
  obtain ⟨u, prepare, prepared⟩ := mixPrepare_ready hr
  refine ⟨u, ?_, prepared.effLen, ?_⟩
  · rw [State.ktabAt, prepared.frame.ktab, State.ktabAt]
  · rw [exec_mixOf, mixCommand_starts _ hr.starts, prepare]

/-- Settles O34: the dispatch refuses a bound kernel whose width does not divide, and a bound id without a kernel
(`kernelOf_eq_none`). -/
theorem mixRefusals : Obligations.MixRefusals := by
  intro F C NS m h s o g hr
  obtain ⟨u, ktab, effLen, ends⟩ := exec_mix_dispatch hr
  rw [ends, mixDispatch, ktab, effLen]
  refine ⟨fun K bound misfit => ?_, fun above => ?_⟩
  · simp only [bound, if_neg misfit]
  · simp only [(kernelOf_eq_none ..).2 above]

/-! ## SETK and GETK -/

theorem setkCommand_valid (F : Fmt) {s : State} (h : s.karg.toNat % 256 ≤ 0x0C) :
    setkCommand F s = (s.setKtab F (kernelArg s)).complete :=
  if_pos ((validKernel_iff _).2 (by rwa [kernelArg_toNat]))

theorem setkCommand_invalid (F : Fmt) {s : State} (h : 0x0C < s.karg.toNat % 256) :
    setkCommand F s = takeFault .badKernel noStream 0 s :=
  if_neg fun valid => absurd ((validKernel_iff _).1 valid) (by rw [kernelArg_toNat]; omega)

/-- Settles O39, by the two ways a SETK ends; a bound id is read back at its own format only (`setKtab_ktabAt`). -/
theorem setkBindsKernel : Obligations.SetkBindsKernel := by
  intro F s
  refine ⟨fun le => ⟨(s.setKtab F (kernelArg s)).ktab, ?_, fun G => ?_⟩, fun above => ?_⟩
  · rw [exec_setkOf, setkCommand_valid F le]
    rfl
  · calc ((s.setKtab F (kernelArg s)).ktabAt G).toNat
      _ = (if G = F then kernelArg s else s.ktabAt G).toNat := by rw [State.setKtab_ktabAt]
      _ = _ := by rw [apply_ite BitVec.toNat, kernelArg_toNat]
  · rw [TakesFault, exec_setkOf, setkCommand_invalid F above]
    rfl

/-- Settles O38: widening an id of eight bits to a word keeps its value. -/
theorem getkReturnsKernel : Obligations.GetkReturnsKernel := by
  intro F s
  exact ⟨(s.ktabAt F).setWidth 32, exec_getkOf F s, BitVec.toNat_setWidth_of_le (by decide)⟩

end Sys2Proof.Machine
end

section
/-! PROOFS of the statements about the checks of MIX, its silence path and its effective length (45_mix_command.md R222 to R226;
60_exceptions.md R275). Each command's validation is the one function `validate`, so its checks are settled there, for VOL too. -/

namespace Sys2Proof.Machine

/-! ## The checks, in their order

The first violated precondition of 60_exceptions.md R275 steps 3 to 8, each given that the ones before it hold. -/

theorem channels_pass {C : Nat} (hc : 1 ≤ C ∧ C ≤ 32) : ¬ (C = 0 ∨ Config.channelsMax < C) := by
  rw [Config.channelsMax]
  omega

section
variable {F : Fmt} {C NS : Nat} {s : State}

theorem validate_channels (bad : C = 0 ∨ 32 < C) : validate F C NS s = some .channels := if_pos bad

theorem validate_streams (hc : 1 ≤ C ∧ C ≤ 32) (bad : 32 < NS) : validate F C NS s = some .streams := by
  rw [validate, if_neg (channels_pass hc), if_pos bad]

theorem validate_null (hc : 1 ≤ C ∧ C ≤ 32) (hn : NS ≤ 32) (bad : s.dst = 0) : validate F C NS s = some .null := by
  rw [validate, if_neg (channels_pass hc), if_neg hn.not_gt, if_pos bad]

theorem validate_lengthZero (hc : 1 ≤ C ∧ C ≤ 32) (hn : NS ≤ 32) (hd : s.dst ≠ 0) (bad : s.len = 0) :
    validate F C NS s = some .lengthZero := by
  rw [validate, if_neg (channels_pass hc), if_neg hn.not_gt, if_neg hd, if_pos bad]

theorem validate_lengthAlign (hc : 1 ≤ C ∧ C ≤ 32) (hn : NS ≤ 32) (hd : s.dst ≠ 0) (hl : s.len ≠ 0)
    (bad : s.len.toNat % (C * width F) ≠ 0) : validate F C NS s = some .lengthAlign := by
  rw [validate, if_neg (channels_pass hc), if_neg hn.not_gt, if_neg hd, if_neg hl, frame, if_pos bad]

theorem validate_addrWrap (hc : 1 ≤ C ∧ C ≤ 32) (hn : NS ≤ 32) (hd : s.dst ≠ 0) (hl : s.len ≠ 0)
    (ha : s.len.toNat % (C * width F) = 0) (bad : 2 ^ 32 < s.dst.toNat + s.len.toNat) :
    validate F C NS s = some .addrWrap := by
  rw [validate, if_neg (channels_pass hc), if_neg hn.not_gt, if_neg hd, if_neg hl, frame, if_neg (not_not_intro ha), if_pos bad]

/-- A MIX takes the fault of the check it fails first, from the state it started in. -/
theorem mix_takesFault_of_validate {m h : Bool} {c : FaultCode} (failed : validate F C NS s = some c) :
    TakesFault (mixOf F C NS m h) s s c 0xFF 0 := by
  rw [TakesFault, exec_mixOf, mixCommand, failed]
  rfl

end

/-- Settles O22: the nested clauses are the checks of `validate` in their order. -/
theorem mixValidation : Obligations.MixValidation := by
  intro F C NS m h s
  refine ⟨fun bad => mix_takesFault_of_validate (validate_channels bad), fun hc =>
    ⟨fun bad => mix_takesFault_of_validate (validate_streams hc bad), fun hn =>
    ⟨fun bad => mix_takesFault_of_validate (validate_null hc hn bad), fun hd =>
    ⟨fun bad => mix_takesFault_of_validate (validate_lengthZero hc hn hd bad), fun hl =>
    ⟨fun bad => mix_takesFault_of_validate (validate_lengthAlign hc hn hd hl bad), fun ha bad =>
      mix_takesFault_of_validate (validate_addrWrap hc hn hd hl ha bad)⟩⟩⟩⟩⟩

/-! ## The stream lengths -/

/-- The lowest stream with a misaligned length is the one reported (45_mix_command.md R225). -/
theorem misalignedStream_eq_some {F : Fmt} {C NS i : Nat} {s : State} (hi : i < NS)
    (bad : (s.sAvailAt i).toNat % frame F C ≠ 0) (lowest : ∀ j < i, (s.sAvailAt j).toNat % frame F C = 0) :
    misalignedStream F C NS s = some i := by
  rw [misalignedStream, List.find?_range_eq_some]
  exact ⟨bne_iff_ne.2 bad, List.mem_range.2 hi, fun j hj => by rw [lowest j hj]; rfl⟩

/-- A valid MIX that is not silenced goes on to its streams. -/
theorem mixCommand_sounding {F : Fmt} {C NS : Nat} {m h : Bool} {s : State} (P : Config.Ports) (valid : Valid F C NS s)
    (sounding : ¬ Silenced C NS m h s) : mixCommand P F C NS m h s = mixStreamsPath P F C NS h s := by
  simp only [mixCommand, validate_none valid, mixSilent_false valid sounding, Bool.false_eq_true, if_false]

/-- Settles O24: the streams path begins with `misalignedStream`, before anything is acquired. -/
theorem mixStreamAlign : Obligations.MixStreamAlign := by
  intro F C NS m h s i valid sounding hi bad lowest
  rw [TakesFault, exec_mixOf, mixCommand_sounding _ valid sounding, mixStreamsPath,
    misalignedStream_eq_some hi bad lowest]

/-! ## The silence path -/

/-- A valid MIX that is silenced takes the silence path, whatever its streams. -/
theorem mixCommand_silenced {F : Fmt} {C NS : Nat} {m h : Bool} {s : State} (P : Config.Ports) (valid : Valid F C NS s)
    (silenced : Silenced C NS m h s) : mixCommand P F C NS m h s = .next (mixSilence F s) := by
  simp only [mixCommand, validate_none valid, (mixSilent_iff valid).2 silenced, if_true]

/-- The whole effect of the silence path (45_mix_command.md R224). -/
theorem mixSilence_eq (F : Fmt) (s : State) : mixSilence F s = { s with
    ret := s.len
    seq := .done
    mem := s.mem.store s.dst.toNat (List.replicate s.len.toNat (silence F))
    hist := s.hist ++ (List.range s.len.toNat).map fun k => .write (s.dst.toNat + k) [silence F] } := by
  rw [mixSilence, fillSilence, fillBytes_eq]
  rfl

/-- A byte read after a run of one byte's value is stored. -/
theorem Memory.get_store_replicate (m : Memory) (a n y : Nat) (v : Byte) :
    (m.store a (List.replicate n v)).get y = if a ≤ y ∧ y < a + n then v else m.get y := by
  rw [Memory.get_store, List.length_replicate]
  refine ite_congr rfl (fun inside => ?_) fun _ => rfl
  exact List.getD_replicate v (by omega)

/-- Settles O29 (`mixSilence` is the model's own function): the fill stores the silence byte over the destination (`mixSilence_eq`). -/
theorem mixSilence_spec : Obligations.MixSilence := by
  intro F C NS m h s valid silenced
  refine ⟨s.mem.store s.dst.toNat (List.replicate s.len.toNat (silence F)), ?_, fun y => Memory.get_store_replicate ..⟩
  rw [exec_mixOf, mixCommand_silenced _ valid silenced, mixSilence_eq]

/-! ## The effective length -/

theorem effectiveLength_succ (NS : Nat) (s : State) :
    effectiveLength (NS + 1) s = min (effectiveLength NS s) (s.sAvailAt NS).toNat := by
  rw [effectiveLength, List.range_succ, List.foldl_append]
  rfl

/-- The effective length is one of the lengths it is the least of. -/
theorem effectiveLength_attained (NS : Nat) (s : State) :
    effectiveLength NS s = s.len.toNat ∨ ∃ i < NS, effectiveLength NS s = (s.sAvailAt i).toNat := by
  induction NS with
  | zero => exact .inl rfl
  | succ NS ih =>
    rw [effectiveLength_succ]
    rcases min_choice (effectiveLength NS s) (s.sAvailAt NS).toNat with earlier | last
    · rw [earlier]
      exact ih.imp_right fun ⟨i, hi, attained⟩ => ⟨i, hi.trans (Nat.lt_succ_self NS), attained⟩
    · exact .inr ⟨NS, Nat.lt_succ_self NS, last⟩

/-- Settles O30 (`effectiveLength` is the model's own function): a least length that is one of the lengths (`effectiveLength_attained`) is aligned as they are. -/
theorem effectiveLength_spec : Obligations.EffectiveLength := by
  intro F C NS s
  obtain ⟨atMostLen, atMostAvail⟩ := effectiveLength_le NS s
  refine ⟨atMostLen, atMostAvail, effectiveLength_attained NS s, fun len avail => ?_⟩
  rcases effectiveLength_attained NS s with attained | ⟨i, hi, attained⟩
  · rw [attained]
    exact len
  · rw [attained]
    exact avail i hi

end Sys2Proof.Machine
end

section
/-! PROOFS of the statements about VOL (46_volume.md R242 to R262; 60_exceptions.md R275). The in-place kernel is settled slot by
slot among the support; what it does to a whole buffer is said once (`runVolKernel_bytes` and the lemmas after it), and it
starts from the gains that `linearize_on` leaves. -/

namespace Sys2Proof.Machine

/-! ## The checks, in their order -/

/-- A VOL takes the fault of the check it fails first, from the state it started in; the checks are those of a MIX of no
streams. -/
theorem vol_takesFault_of_validate {F : Fmt} {C : Nat} {z : Bool} {s : State} {c : FaultCode}
    (failed : validate F C 0 s = some c) : TakesFault (volOf F C z) s s c 0xFF 0 := by
  rw [TakesFault, exec_volOf, volCommand, failed]
  rfl

/-- Settles O23: the nested clauses are the checks of `validate` in their order, the stream count 0 passing its own. -/
theorem volValidation : Obligations.VolValidation := by
  intro F C z s
  have hn : 0 ≤ 32 := Nat.zero_le _
  refine ⟨fun bad => vol_takesFault_of_validate (validate_channels bad), fun hc =>
    ⟨fun bad => vol_takesFault_of_validate (validate_null hc hn bad), fun hd =>
    ⟨fun bad => vol_takesFault_of_validate (validate_lengthZero hc hn hd bad), fun hl =>
    ⟨fun bad => vol_takesFault_of_validate (validate_lengthAlign hc hn hd hl bad), fun ha bad =>
      vol_takesFault_of_validate (validate_addrWrap hc hn hd hl ha bad)⟩⟩⟩⟩

/-! ## The paths without a kernel -/

theorem volNoop_iff (C : Nat) (z : Bool) (s : State) :
    volNoop C z s = true ↔ z = true ∨ ∀ ch < C, s.ovolAt ch = Config.levelUnity := by
  rw [volNoop, Bool.or_eq_true, allLevels_iff]

theorem volMuted_iff (C : Nat) (s : State) : volMuted C s = true ↔ ∀ ch < C, s.ovolAt ch = Config.levelMuted :=
  allLevels_iff ..

/-- Settles O35 (`volNoop` is the model's own test): a valid VOL that passes the test only completes. -/
theorem volNoop_spec : Obligations.VolNoop := by
  intro F C z s valid noop
  rw [exec_volOf, volCommand, validate_none valid]
  exact if_pos ((volNoop_iff C z s).2 noop)

/-- A volume Muted on every channel is not Unity on every channel, since there is a channel. -/
theorem volNoop_eq_false_of_muted {C : Nat} {s : State} (hC : 0 < C)
    (muted : ∀ ch < C, s.ovolAt ch = Config.levelMuted) : volNoop C false s = false := by
  rw [Bool.eq_false_iff, Ne, volNoop_iff]
  rintro (silent | unity)
  · cases silent
  · exact levels_ne ((unity 0 hC).symm.trans (muted 0 hC))

/-- A valid VOL that is muted and not silent fills its buffer with silence (46_volume.md R244). -/
theorem volCommand_muted (P : Config.Ports) {F : Fmt} {C : Nat} {s : State} (valid : Valid F C 0 s)
    (muted : ∀ ch < C, s.ovolAt ch = Config.levelMuted) :
    volCommand P F C false s = .next (fillSilence F s).complete := by
  simp only [volCommand, validate_none valid, volNoop_eq_false_of_muted valid.channels.1 muted, Bool.false_eq_true,
    if_false, (volMuted_iff C s).2 muted, if_true]

/-- The whole effect of a fill that completes. -/
theorem fillSilence_complete_eq (F : Fmt) (s : State) : (fillSilence F s).complete = { s with
    seq := .done
    mem := s.mem.store s.dst.toNat (List.replicate s.len.toNat (silence F))
    hist := s.hist ++ (List.range s.len.toNat).map fun k => .write (s.dst.toNat + k) [silence F] } := by
  rw [fillSilence, fillBytes_eq]
  rfl

/-- Settles O36 (`volMuted` is the model's own test): the fill stores the silence byte over the buffer. -/
theorem volMuted_spec : Obligations.VolMuted := by
  intro F C s valid muted
  refine ⟨s.mem.store s.dst.toNat (List.replicate s.len.toNat (silence F)), ?_, fun y => Memory.get_store_replicate ..⟩
  rw [exec_volOf, volCommand_muted _ valid muted, fillSilence_complete_eq]

/-! ## An in-place kernel over a whole buffer -/

section
variable (P : Config.Ports) (F : Fmt) (C buf len : Nat) (s : State)

/-- Every slot of the buffer holds the encoded product of its old sample and the gain of its channel; the kernel starts at
channel 0 (46_volume.md R245). -/
theorem runVolKernel_bytes (hC : 1 ≤ C ∧ C ≤ 32) : ∀ j < len / width F,
    SlotHolds (laneOf P F) (runVolKernel (laneOf P F) C buf len s).mem buf j
      ((laneOf P F).term (s.mem.load (buf + j * width F) (width F)) (s.olinAt (j % C))) := by
  intro j hj
  have slot := volSlots_bytes _ (laneOf_sound P F) C hC.2 (len / (laneOf P F).width) buf (startKernel buf len s) hC.1 j
    (by rwa [laneOf_width])
  have channel : ((startKernel buf len s).chIdx.toNat + j) % C = j % C := congrArg (· % C) (Nat.zero_add j)
  rw [channel, laneOf_width] at slot
  rw [runVolKernel, laneOf_width]
  exact slot

/-- The kernel writes no byte outside a buffer its width divides. -/
theorem runVolKernel_outside (hw : len % width F = 0) (y : Nat) (hy : y < buf ∨ buf + len ≤ y) :
    (runVolKernel (laneOf P F) C buf len s).byteAt y = s.byteAt y := by
  rw [← slots_mul_width P hw, ← laneOf_width P F] at hy
  exact volSlots_outside _ (laneOf_sound P F) C _ buf (startKernel buf len s) y hy

/-- The kernel's events are one read and one write of every slot, ascending. -/
theorem runVolKernel_hist : ∃ l, (runVolKernel (laneOf P F) C buf len s).hist = s.hist ++ l ∧
    l.map accessOf = (List.range (len / width F)).flatMap fun j => volAccesses (laneOf P F) buf j := by
  rw [← laneOf_width P F]
  exact volSlots_hist _ (laneOf_sound P F) C _ buf (startKernel buf len s)

/-- The kernel has no accumulator (46_volume.md R246), so it leaves those of the mixing kernels alone. -/
theorem runVolKernel_accs : (runVolKernel (laneOf P F) C buf len s).acc32 = s.acc32 ∧
    (runVolKernel (laneOf P F) C buf len s).acc64 = s.acc64 ∧ (runVolKernel (laneOf P F) C buf len s).accF = s.accF :=
  (volSlots_sPtr _ C _ buf (startKernel buf len s)).2

end

/-! ## The kernel path -/

/-- The length of a valid command is whole samples, since it is whole frames. -/
theorem Valid.samples {F : Fmt} {C NS : Nat} {s : State} (hv : Valid F C NS s) : s.len.toNat % width F = 0 := by
  have frames : C * width F ∣ s.len.toNat := Nat.dvd_of_mod_eq_zero hv.frames
  exact Nat.mod_eq_zero_of_dvd ((Nat.dvd_mul_left _ C).trans frames)

/-- A VOL whose checks pass runs its kernel with `OLIN` written and nothing else (46_volume.md R241 lines 7 to 9). -/
theorem exec_vol_ready {F : Fmt} {C : Nat} {z : Bool} {s : State} {o : Nat → Word} (hr : VolReady F C z s o) :
    ∃ v, (∀ j, State.olinAt { s with olin := v } j = if j < C + 32 then o (j % C) else s.olinAt j) ∧
      exec (volOf F C z) s = .next
        (runVolKernel (laneOf Config.ports F) C s.dst.toNat s.len.toNat { s with olin := v }).complete := by
  obtain ⟨hC, hC'⟩ := hr.valid.channels
  obtain ⟨v, on, tiled⟩ := linearize_on Config.ports (gainRepr F) s.ovolAt o C s hC hC' hr.gains
  refine ⟨v, tiled, ?_⟩
  rw [exec_volOf, hr.sounding, volCommand_kernelPath _ hr.valid hr.scaled hr.audible, volKernelPath, on]

/-- Settles O37: the linearizer leaves the tiled gains, and the kernel scales the buffer with them and leaves the rest. -/
theorem volKernelPath_spec : Obligations.VolKernelPath := by
  intro F C z s o hr
  obtain ⟨v, tiled, he⟩ := exec_vol_ready hr
  have slots := runVolKernel_bytes Config.ports F C s.dst.toNat s.len.toNat { s with olin := v } hr.valid.channels
  have outside := runVolKernel_outside Config.ports F C s.dst.toNat s.len.toNat { s with olin := v } hr.valid.samples
  obtain ⟨l, hist, accesses⟩ := runVolKernel_hist Config.ports F C s.dst.toNat s.len.toNat { s with olin := v }
  obtain ⟨acc32, acc64, accF⟩ := runVolKernel_accs Config.ports F C s.dst.toNat s.len.toNat { s with olin := v }
  obtain ⟨answers, sPtr, sgain, -⟩ := portUnused_runVolKernel Config.ports F C s.dst.toNat s.len.toNat { s with olin := v }
  have fr := runVolKernel_frame Config.ports F C s.dst.toNat s.len.toNat { s with olin := v }
  generalize runVolKernel (laneOf Config.ports F) C s.dst.toNat s.len.toNat { s with olin := v } = k at *
  have start : SameInputs s (startKernel s.dst.toNat s.len.toNat { s with olin := v }) := by constructor <;> rfl
  have inputs : SameInputs s k.complete := (start.trans fr.inputs).trans (complete_inputs k)
  have events : newEvents s k.complete = l := newEvents_eq hist
  refine ⟨k.complete, he, rfl, fun j hj => ?_, outside, fun j => (fr.olinAt j).trans (tiled j), inputs,
    ⟨fr.gfault, fr.fcode, fr.finfo⟩, fr.ret, sPtr, sgain, fr.ktab, acc32, acc64, accF, answers, ?_, ?_⟩
  · have hC : j % C < C := Nat.mod_lt j hr.valid.channels.1
    have slot := slots j hj
    rw [tiled, if_pos (by omega), Nat.mod_mod] at slot
    exact slot
  · rw [events]
    exact hist
  · rw [events]
    exact accesses

end Sys2Proof.Machine
end

section
/-! PROOFS of the statement about fault entry (60_exceptions.md R271, R272). -/

namespace Sys2Proof.Machine

/-! ## The fields of FINFO -/

/-- A stream and a channel of eight bits each lie side by side in `FINFO`, without overlap (10_state.md R29). -/
theorem faultInfo_toNat {i ch : Nat} (hi : i < 256) (hch : ch < 256) : (faultInfo i ch).toNat = i + ch * 256 := by
  rw [faultInfo, BitVec.toNat_ofNat]
  omega

theorem field_faultInfo {i ch : Nat} (hi : i < 256) (hch : ch < 256) : field (faultInfo i ch) 7 0 = i ∧
    field (faultInfo i ch) 15 8 = ch ∧ field (faultInfo i ch) 31 16 = 0 := by
  simp only [field, faultInfo_toNat hi hch]
  omega

/-- Settles O19: the code's number is its row of the table, and each field of `FINFO` is read from the sum (`field_faultInfo`). -/
theorem faultEntry : Obligations.FaultEntry := by
  intro c stream channel s hs hc
  obtain ⟨low, mid, high⟩ := field_faultInfo hs hc
  refine ⟨BitVec.ofNat 8 (faultNumber c), faultInfo stream channel, rfl, ?stream, ?channel, ?zero, ?code⟩
  case stream => rw [toNat_extractLsb _ (by decide), low]
  case channel => rw [toNat_extractLsb _ (by decide), mid]
  case zero => exact BitVec.eq_of_toNat_eq ((toNat_extractLsb _ (by decide)).trans high)
  case code => cases c <;> rfl

end Sys2Proof.Machine
end

section
/-! PROOFS of the statements about RESET during a command and the default dispatch table (70_reset_and_hazards.md R300, R302). -/

namespace Sys2Proof.Machine

/-! ## RESET during a command -/

/-- The events of a MIX that the model refuses to run on are its acquires (log entries 14, 15). -/
theorem newEvents_of_refused_mix {F : Fmt} {C NS : Nat} {m h : Bool} {s : State} {o : Nat → Word} {g : Nat → Nat → Word}
    {r : Refusal} (hd : decode s.cmd = .instr (mixOf F C NS m h)) (hr : MixReady F C NS m h s o g)
    (hc : runCommand s = .refused r) :
    newEvents s (commandReaches s) = (List.range NS).map (acquireEvent s) :=
  newEvents_eq (commandReaches_refused hd hr hc).hist

/-- Settles O17: the events are those of what the command reaches, which is its end where it runs and its preparation's state
where the model refuses the MIX. -/
theorem resetWhileBusy : Obligations.ResetWhileBusy := by
  intro s n hb
  refine ⟨newEvents s (commandReaches s), ?values, ?hist, ?mem, fun u hu => ?ran, fun F C NS m h o g r hd hr hc => ?refused⟩
  case values =>
    rw [hostReset_busy n s hb]
    exact resetMachine_values _ _ s
  case hist => rw [hostReset_busy n s hb, resetMachine]
  case mem => rw [hostReset_busy n s hb, resetMachine]
  case ran => rw [commandReaches_next hu]
  case refused => exact newEvents_of_refused_mix hd hr hc

/-! ## The default dispatch table -/

/-- Settles O18: each entry is read off its table; what kernel it names is `kernelOf_default`. -/
theorem defaultTable : Obligations.DefaultTable := by
  refine ⟨fun F => ?le, fun F => ?be, kernelOf_default, rfl⟩
  case le => cases F <;> rfl
  case be => cases F <;> rfl

end Sys2Proof.Machine
end
